-- ==== Sys2Proof/Word.lean ====
section
/-! DEFINITION. The word types of the pyST Modbus TCP block (spec/00_scope.md R9): a byte is 8 bits, every
numeric field of a frame and every register cell is 16 bits, a message is a finite sequence of bytes. -/

namespace Sys2Proof

/-- A byte of a message (R9). -/
abbrev Byte := BitVec 8

/-- A 16-bit unsigned field or register cell (R9, R17). -/
abbrev Word := BitVec 16

/-- A message on a connection: its bytes, first byte on the wire first (R9). -/
abbrev Message := List Byte

end Sys2Proof
end

