-- ==== Sys2Proof/Syntax.lean ====
section
/-! DEFINITION. The names of the block's instruction set (spec/30_encoding.md R50, R51, R56): function codes and
their classes and formats, the instructions with their operands, the requests a client is given, and the moves
the agents of the system can make. -/

namespace Sys2Proof

/-- The four tables of the store (spec/10_state.md R17, glossary "table kind"). -/
inductive TableKind where
  | di | co | ir | hr
  deriving DecidableEq, Repr, Inhabited

/-- The function codes by mnemonic, one per row of spec/opcode_table.json (R56). `illfc` stands for every value
of class `ILL`. -/
inductive Code where
  | rdco | rddi | rdhr | rdir | wsco | wshr | wmco | wmhr | mwhr | rwhr
  | wmdi | wmir | wsdi | wsir
  | ign07 | ign08 | ign0B | ign0C | ign11 | ign14 | ign15 | ign18 | ign2B
  | illfc
  deriving DecidableEq, Repr, Inhabited

/-- The four classes of function codes (R56). -/
inductive CodeClass where
  | std | ext | ign | ill
  deriving DecidableEq, Repr, Inhabited

/-- The request formats of R50; `any` is the undecoded payload of the classes `IGN` and `ILL`. -/
inductive ReqFormat where
  | rd | ws | wm | mw | rw | any
  deriving DecidableEq, Repr, Inhabited

/-- The response formats of R51. -/
inductive RespFormat where
  | rdr | wsr | wmr | mwr | exr
  deriving DecidableEq, Repr, Inhabited

/-- An instruction: a request PDU with its operands decoded (R50, R52). One constructor per row of
spec/opcode_table.json. `bc` and `data` are the byte-count field and the data bytes; `payload` is what follows a
function code whose payload is not decoded. -/
inductive Instr where
  | rdco (addr cnt : Word)
  | rddi (addr cnt : Word)
  | rdhr (addr cnt : Word)
  | rdir (addr cnt : Word)
  | wsco (addr val : Word)
  | wshr (addr val : Word)
  | wmco (addr cnt : Word) (bc : Byte) (data : List Byte)
  | wmhr (addr cnt : Word) (bc : Byte) (data : List Byte)
  | mwhr (addr andm orm : Word)
  | rwhr (raddr rcnt waddr wcnt : Word) (bc : Byte) (data : List Byte)
  | wmdi (addr cnt : Word) (bc : Byte) (data : List Byte)
  | wmir (addr cnt : Word) (bc : Byte) (data : List Byte)
  | wsdi (addr val : Word)
  | wsir (addr val : Word)
  | ign07 (payload : List Byte)
  | ign08 (payload : List Byte)
  | ign0B (payload : List Byte)
  | ign0C (payload : List Byte)
  | ign11 (payload : List Byte)
  | ign14 (payload : List Byte)
  | ign15 (payload : List Byte)
  | ign18 (payload : List Byte)
  | ign2B (payload : List Byte)
  | illfc (fc : Byte) (payload : List Byte)
  deriving DecidableEq, Repr, Inhabited

/-- The single-bit operand of a client's WSCO or WSDI request: a Boolean, which the client encodes with
EncodeBitValue, or a 16-bit value sent as it is (R106, 95_test_vectors.md P2; log 17). -/
inductive BitOperand where
  | bool (b : Bool)
  | raw (v : Word)
  deriving DecidableEq, Repr, Inhabited

/-- A request as a client's caller writes it (R62, R105): a mnemonic with its operands; the byte count is
implied, packed data is given as bits or words. -/
inductive Request where
  | rdco (addr cnt : Word)
  | rddi (addr cnt : Word)
  | rdhr (addr cnt : Word)
  | rdir (addr cnt : Word)
  | wsco (addr : Word) (val : BitOperand)
  | wshr (addr val : Word)
  | wmco (addr cnt : Word) (bits : List Bool)
  | wmhr (addr cnt : Word) (vals : List Word)
  | mwhr (addr andm orm : Word)
  | rwhr (raddr rcnt waddr wcnt : Word) (vals : List Word)
  | wmdi (addr cnt : Word) (bits : List Bool)
  | wmir (addr cnt : Word) (vals : List Word)
  | wsdi (addr : Word) (val : BitOperand)
  | wsir (addr val : Word)
  | other (fc : Byte) (payload : List Byte)
  deriving DecidableEq, Repr, Inhabited

/-- A value handed to or returned by the store (spec/20_memory.md R31 to R33): a Boolean, an integer, or a thing
that is neither (only an external writer can pass one). -/
inductive Value where
  | bool (b : Bool)
  | int (n : Int)
  | other
  deriving DecidableEq, Repr, Inhabited

/-- The outcome the environment draws for one connection attempt (spec/44_client_sequencer.md R108): it fails,
the block's Listener is reached, or a server outside the block accepts it (log 13). -/
inductive Attempt where
  | fails | listener | foreign
  deriving DecidableEq, Repr, Inhabited

/-- One step of one agent, with the draws the environment makes for it (spec/10_state.md R15,
spec/60_exceptions.md R139). `err` is the transport-error draw of a recv or send (R65, R74, R113), `fail` the
store-failure draw of a store call (R34), `att` the outcome of a connection attempt (R108). -/
inductive Move where
  /-- a step of the session of connection `c` (R64) -/
  | session (c : Nat) (err fail : Bool)
  /-- the Listener accepts the waiting connection `c` (R63) -/
  | accept (c : Nat)
  /-- a peer outside the block opens a connection -/
  | peerOpen
  /-- the outside peer at the client end of connection `c` sends a message -/
  | peerSend (c : Nat) (m : Message)
  /-- the outside peer at the client end of connection `c` takes the oldest message sent to it -/
  | peerRecv (c : Nat)
  /-- the outside peer at the client end of connection `c` closes it -/
  | peerClose (c : Nat)
  /-- a server outside the block sends a message on connection `c` -/
  | foreignSend (c : Nat) (m : Message)
  /-- a server outside the block takes the oldest message sent to it on connection `c` -/
  | foreignRecv (c : Nat)
  /-- a server outside the block closes connection `c` -/
  | foreignClose (c : Nat)
  /-- client `k` takes a step of its own: a connection attempt that is due, or the receipt it awaits -/
  | client (k : Nat) (err : Bool) (att : Attempt)
  /-- a user calls `connect()` on client `k` -/
  | userConnect (k : Nat) (att : Attempt)
  /-- a user calls `send(req)` on client `k` -/
  | userSend (k : Nat) (req : Request) (err : Bool)
  /-- a user calls `close()` on client `k` -/
  | userClose (k : Nat)
  /-- a caller builds a new client (R117) -/
  | newClient
  /-- the elevator host takes a step -/
  | host (err : Bool) (att : Attempt)
  /-- the run's caller stops scheduling the host's ticks (R132, R158; log 37) -/
  | stopTicks
  /-- one time unit passes -/
  | time
  /-- an external writer calls `StoreGet` -/
  | extGet (t : TableKind) (a c : Nat) (fail : Bool)
  /-- an external writer calls `StoreSet` -/
  | extSet (t : TableKind) (a : Nat) (vals : List Value) (fail : Bool)
  /-- the block is restarted (R146) -/
  | restart
  deriving DecidableEq, Repr, Inhabited

end Sys2Proof
end

