-- ==== Sys2Proof/Config.lean ====
section
/-! DEFINITION. What an implementation fixes (spec/00_scope.md R8, spec/10_state.md R23) and the free values of
the model. The parameters are a record carried in State and written by no step (log 1). -/

namespace Sys2Proof

/-- The configuration registers of R23, in the order of R8's table. Counts, lengths and times are natural
numbers; `Cfg.legal` is their range. -/
structure Cfg where
  /-- TABLE_LEN: cells in each of the four tables -/
  tableLen : Nat
  /-- EXT_SRV: the server admits 0x62, 0x64, 0x65, 0x66 -/
  extSrv : Bool
  /-- EXT_CLI: the client admits the same codes -/
  extCli : Bool
  /-- UNIT_ID: the unit identifier a client puts in every request -/
  unitId : Byte
  /-- TID_RESET: a client's Transaction ID counter at reset -/
  tidReset : Word
  /-- MAX_RD_BITS: largest count of 0x01 and 0x02 -/
  maxRdBits : Nat
  /-- MAX_WR_BITS: largest count of 0x0F and 0x62 -/
  maxWrBits : Nat
  /-- MAX_RD_REGS: largest count of 0x03, 0x04 and the read half of 0x17 -/
  maxRdRegs : Nat
  /-- MAX_WR_REGS: largest count of 0x10, 0x64 and the write half of 0x17 -/
  maxWrRegs : Nat
  /-- CONNECT_BOUND, in time units -/
  connectBound : Nat
  /-- CONNECT_POLL, in time units -/
  connectPoll : Nat
  /-- TICK, in time units -/
  tick : Nat
  /-- MAX_SESSIONS; none is unbounded -/
  maxSessions : Option Nat
  /-- TIME_UNIT: the physical length of a time unit, a number no rule reads (R141, D23) -/
  timeUnit : Nat
  /-- STORE_FAULTS: any store call may fail as a free draw (R34) -/
  storeFaults : Bool
  deriving DecidableEq, Repr

/-- The legal values of R23. -/
def Cfg.legal (g : Cfg) : Bool :=
  decide (1 ≤ g.tableLen ∧ g.tableLen ≤ 65355) &&
  decide (1 ≤ g.maxRdBits ∧ g.maxRdBits ≤ 2040) && decide (1 ≤ g.maxWrBits ∧ g.maxWrBits ≤ 2040) &&
  decide (1 ≤ g.maxRdRegs ∧ g.maxRdRegs ≤ 127) && decide (1 ≤ g.maxWrRegs ∧ g.maxWrRegs ≤ 127) &&
  decide (0 < g.connectBound) && decide (0 < g.connectPoll) && decide (0 < g.tick) &&
  (match g.maxSessions with
   | none => true
   | some n => decide (1 ≤ n))

/-- DESIGN CHOICE (log 2): the configuration `State.reset` carries. The spec fixes none ("as given for the run",
R145). These are configuration A of spec/95_test_vectors.md, with R8's defaults; CONNECT_POLL and TIME_UNIT are
open parameters and are chosen here. No statement rests on them but that the reset state meets the invariant. -/
def Cfg.a : Cfg where
  tableLen := 16
  extSrv := true
  extCli := true
  unitId := 0x01#8
  tidReset := 0x0000#16
  maxRdBits := 2040
  maxWrBits := 2040
  maxRdRegs := 127
  maxWrRegs := 127
  connectBound := 60
  connectPoll := 5
  tick := 2
  maxSessions := none
  timeUnit := 1
  storeFaults := false

/-- FREE VALUE (log 3): the move taken at the step numbered `n`, with every draw the environment makes for it. The
spec fixes no order between agents (R15, R39) and leaves each transport error, attempt outcome and store failure
to a draw; nothing constrains this function. -/
opaque Config.draw : Nat → Move

/-- FREE VALUE (log 16): the byte-count byte a client puts in a request whose data has `n` bytes, for `n` beyond
255, which no 8-bit field holds (R106 states `bc` only as that number). Nothing constrains this function. -/
opaque Config.freeByteCount : Nat → Byte

end Sys2Proof
end

