-- ==== Sys2Proof/Decode.lean ====
section
/-! DEFINITION. The codec of spec/30_encoding.md: byte order, bit packing, frames, the function-code map, the
decoder of request PDUs (total on any bytes) and, after it, the encoder. -/

namespace Sys2Proof

/-! ### Field primitives (R10, R36, R54, R55) -/

/-- The 16-bit value whose high byte is `hi` (R10 `be16`; D1). -/
def be (hi lo : Byte) : Word := hi.setWidth 16 <<< 8 ||| lo.setWidth 16

/-- `m[i]` (R9). Every rule reads it only where the byte exists; beyond the end of `m` it counts as 0. -/
def byteAt (m : Message) (i : Nat) : Byte := m.getD i 0#8

/-- `be16(m, i)` (R10). -/
def be16 (m : Message) (i : Nat) : Word := be (byteAt m i) (byteAt m (i + 1))

/-- `enc16(v)`: high byte first (R10). -/
def enc16 (v : Word) : List Byte := [v.extractLsb' 8 8, v.extractLsb' 0 8]

/-- The number of bytes that hold `c` packed bits (R10). -/
def ceil8 (c : Nat) : Nat := (c + 7) / 8

/-- The number whose bit `j` is `bs[j]`. -/
def bitsToNat : List Bool → Nat
  | [] => 0
  | b :: bs => b.toNat + 2 * bitsToNat bs

/-- `PackBits` (R54): bit `j` of the sequence is bit `j mod 8` of byte `j div 8`; the padding is 0. -/
def packBits (bs : List Bool) : List Byte :=
  (List.range (ceil8 bs.length)).map fun k => BitVec.ofNat 8 (bitsToNat ((bs.drop (8 * k)).take 8))

/-- `UnpackBits(d, N)` (R54); padding bits are ignored. -/
def unpackBits (d : List Byte) (n : Nat) : List Bool :=
  (List.range n).map fun j => (byteAt d (j / 8)).getLsbD (j % 8)

/-- `[ be16(d, 2j) for j in 0 .. n-1 ]`: register data, high byte first (R53). -/
def unpackWords (d : List Byte) (n : Nat) : List Word :=
  (List.range n).map fun j => be16 d (2 * j)

/-- The bytes of a sequence of registers (R53). -/
def packWords (vs : List Word) : List Byte := vs.flatMap enc16

/-- `DecodeBitValue` (R55). -/
def decodeBitValue (v : Word) : Bool := v != 0#16

/-- `EncodeBitValue` (R55). -/
def encodeBitValue (b : Bool) : Word := if b then 0xFF00#16 else 0x0000#16

/-! ### The function-code map (R56) -/

/-- The function code a byte is (R56); every byte the table does not list is of class `ILL`. -/
def Code.ofByte (fc : Byte) : Code :=
  match fc.toNat with
  | 0x01 => .rdco
  | 0x02 => .rddi
  | 0x03 => .rdhr
  | 0x04 => .rdir
  | 0x05 => .wsco
  | 0x06 => .wshr
  | 0x0F => .wmco
  | 0x10 => .wmhr
  | 0x16 => .mwhr
  | 0x17 => .rwhr
  | 0x62 => .wmdi
  | 0x64 => .wmir
  | 0x65 => .wsdi
  | 0x66 => .wsir
  | 0x07 => .ign07
  | 0x08 => .ign08
  | 0x0B => .ign0B
  | 0x0C => .ign0C
  | 0x11 => .ign11
  | 0x14 => .ign14
  | 0x15 => .ign15
  | 0x18 => .ign18
  | 0x2B => .ign2B
  | _ => .illfc

/-- The byte of a function code. `illfc` names a class of bytes, not one: its entry is the first of them, 0x00,
and nothing but that name reads it (an `illfc` instruction carries its own byte). -/
def Code.byte : Code → Byte
  | .rdco => 0x01#8
  | .rddi => 0x02#8
  | .rdhr => 0x03#8
  | .rdir => 0x04#8
  | .wsco => 0x05#8
  | .wshr => 0x06#8
  | .wmco => 0x0F#8
  | .wmhr => 0x10#8
  | .mwhr => 0x16#8
  | .rwhr => 0x17#8
  | .wmdi => 0x62#8
  | .wmir => 0x64#8
  | .wsdi => 0x65#8
  | .wsir => 0x66#8
  | .ign07 => 0x07#8
  | .ign08 => 0x08#8
  | .ign0B => 0x0B#8
  | .ign0C => 0x0C#8
  | .ign11 => 0x11#8
  | .ign14 => 0x14#8
  | .ign15 => 0x15#8
  | .ign18 => 0x18#8
  | .ign2B => 0x2B#8
  | .illfc => 0x00#8

/-- The class of a function code (R56). -/
def Code.cls : Code → CodeClass
  | .rdco | .rddi | .rdhr | .rdir | .wsco | .wshr | .wmco | .wmhr | .mwhr | .rwhr => .std
  | .wmdi | .wmir | .wsdi | .wsir => .ext
  | .ign07 | .ign08 | .ign0B | .ign0C | .ign11 | .ign14 | .ign15 | .ign18 | .ign2B => .ign
  | .illfc => .ill

/-- The request format of a function code (R50, R56). -/
def Code.format : Code → ReqFormat
  | .rdco | .rddi | .rdhr | .rdir => .rd
  | .wsco | .wshr | .wsdi | .wsir => .ws
  | .wmco | .wmhr | .wmdi | .wmir => .wm
  | .mwhr => .mw
  | .rwhr => .rw
  | .ign07 | .ign08 | .ign0B | .ign0C | .ign11 | .ign14 | .ign15 | .ign18 | .ign2B | .illfc => .any

/-- The response format of a function code (R51, R56). An ignored code has no response and an illegal one only the
exception response, so both have `EXR` (log 18). -/
def Code.respFormat : Code → RespFormat
  | .rdco | .rddi | .rdhr | .rdir | .rwhr => .rdr
  | .wsco | .wshr | .wsdi | .wsir => .wsr
  | .wmco | .wmhr | .wmdi | .wmir => .wmr
  | .mwhr => .mwr
  | .ign07 | .ign08 | .ign0B | .ign0C | .ign11 | .ign14 | .ign15 | .ign18 | .ign2B | .illfc => .exr

/-- Whether a code reads packed bits: 0x01, 0x02 (R67, R72). -/
def Code.readsBits : Code → Bool
  | .rdco | .rddi => true
  | _ => false

/-! ### Frames (R48, R49, R61) -/

/-- `Frame(tid, uid, pdu)` (R49), defined by the spec for PDUs of 1 to 65534 bytes. -/
def frame (tid : Word) (uid : Byte) (pdu : Message) : Message :=
  enc16 tid ++ [0x00#8, 0x00#8] ++ enc16 (BitVec.ofNat 16 (1 + pdu.length)) ++ [uid] ++ pdu

/-- The PDU of a frame: `m[7..|m|-1]` (R49). -/
def pduOf (m : Message) : Message := m.drop 7

/-- The checks of R49 every frame passes: at least 8 bytes, Protocol ID 0, Length = `|m| - 6` (R66 V1 to V3,
R72 W1). -/
def headerOk (m : Message) : Bool :=
  decide (8 ≤ m.length) && be16 m 2 == 0#16 && decide ((be16 m 4).toNat = m.length - 6)

/-! ### Decoding a request PDU (R50, R52) -/

/-- Why a PDU is no instruction. -/
inductive DecodeError where
  /-- there is no function code -/
  | empty
  /-- a supported function code whose PDU has not exactly its format's length (R50, D6) -/
  | length (fc : Byte)
  deriving DecidableEq, Repr

/-- Two 16-bit operands and nothing after them: the formats `RD` and `WS` (R50). -/
def decodeTwo (mk : Word → Word → Instr) (fc : Byte) : List Byte → Except DecodeError Instr
  | [a, b, c, d] => .ok (mk (be a b) (be c d))
  | _ => .error (.length fc)

/-- Three 16-bit operands and nothing after them: the format `MW` (R50). -/
def decodeThree (mk : Word → Word → Word → Instr) (fc : Byte) : List Byte → Except DecodeError Instr
  | [a, b, c, d, e, f] => .ok (mk (be a b) (be c d) (be e f))
  | _ => .error (.length fc)

/-- Two 16-bit operands, a byte count and exactly that many data bytes: the format `WM` (R50). -/
def decodeMany (mk : Word → Word → Byte → List Byte → Instr) (fc : Byte) : List Byte → Except DecodeError Instr
  | a :: b :: c :: d :: bc :: data =>
    if data.length = bc.toNat then .ok (mk (be a b) (be c d) bc data) else .error (.length fc)
  | _ => .error (.length fc)

/-- Four 16-bit operands, a byte count and exactly that many data bytes: the format `RW` (R50). -/
def decodeReadWrite (fc : Byte) : List Byte → Except DecodeError Instr
  | a :: b :: c :: d :: e :: f :: g :: h :: bc :: data =>
    if data.length = bc.toNat then .ok (.rwhr (be a b) (be c d) (be e f) (be g h) bc data)
    else .error (.length fc)
  | _ => .error (.length fc)

/-- The operands of function code `c`, whose byte is `fc`, from the bytes after it (R50, R52). -/
def decodeOperands (c : Code) (fc : Byte) (p : List Byte) : Except DecodeError Instr :=
  match c with
  | .rdco => decodeTwo .rdco fc p
  | .rddi => decodeTwo .rddi fc p
  | .rdhr => decodeTwo .rdhr fc p
  | .rdir => decodeTwo .rdir fc p
  | .wsco => decodeTwo .wsco fc p
  | .wshr => decodeTwo .wshr fc p
  | .wmco => decodeMany .wmco fc p
  | .wmhr => decodeMany .wmhr fc p
  | .mwhr => decodeThree .mwhr fc p
  | .rwhr => decodeReadWrite fc p
  | .wmdi => decodeMany .wmdi fc p
  | .wmir => decodeMany .wmir fc p
  | .wsdi => decodeTwo .wsdi fc p
  | .wsir => decodeTwo .wsir fc p
  | .ign07 => .ok (.ign07 p)
  | .ign08 => .ok (.ign08 p)
  | .ign0B => .ok (.ign0B p)
  | .ign0C => .ok (.ign0C p)
  | .ign11 => .ok (.ign11 p)
  | .ign14 => .ok (.ign14 p)
  | .ign15 => .ok (.ign15 p)
  | .ign18 => .ok (.ign18 p)
  | .ign2B => .ok (.ign2B p)
  | .illfc => .ok (.illfc fc p)

/-- The instruction a request PDU is (R48, R50, R52). Counts outside their range and byte counts that disagree
with their counts are still decoded: they are instructions the validator answers with 0x02 (R67). -/
def decode : Message → Except DecodeError Instr
  | [] => .error .empty
  | fc :: p => decodeOperands (Code.ofByte fc) fc p

/-! ### Encoding (R50, R106) -/

/-- The function code of an instruction, one row of the opcode table (R56). -/
def Instr.code : Instr → Code
  | .rdco _ _ => .rdco
  | .rddi _ _ => .rddi
  | .rdhr _ _ => .rdhr
  | .rdir _ _ => .rdir
  | .wsco _ _ => .wsco
  | .wshr _ _ => .wshr
  | .wmco _ _ _ _ => .wmco
  | .wmhr _ _ _ _ => .wmhr
  | .mwhr _ _ _ => .mwhr
  | .rwhr _ _ _ _ _ _ => .rwhr
  | .wmdi _ _ _ _ => .wmdi
  | .wmir _ _ _ _ => .wmir
  | .wsdi _ _ => .wsdi
  | .wsir _ _ => .wsir
  | .ign07 _ => .ign07
  | .ign08 _ => .ign08
  | .ign0B _ => .ign0B
  | .ign0C _ => .ign0C
  | .ign11 _ => .ign11
  | .ign14 _ => .ign14
  | .ign15 _ => .ign15
  | .ign18 _ => .ign18
  | .ign2B _ => .ign2B
  | .illfc _ _ => .illfc

/-- The function-code byte of an instruction (R48, R56). -/
def Instr.fc : Instr → Byte
  | .illfc fc _ => fc
  | i => i.code.byte

/-- What follows the function code in an instruction's PDU (R50). -/
def Instr.operandBytes : Instr → List Byte
  | .rdco a c | .rddi a c | .rdhr a c | .rdir a c => enc16 a ++ enc16 c
  | .wsco a v | .wshr a v | .wsdi a v | .wsir a v => enc16 a ++ enc16 v
  | .wmco a c bc d | .wmhr a c bc d | .wmdi a c bc d | .wmir a c bc d => enc16 a ++ enc16 c ++ [bc] ++ d
  | .mwhr a n o => enc16 a ++ enc16 n ++ enc16 o
  | .rwhr ra rc wa wc bc d => enc16 ra ++ enc16 rc ++ enc16 wa ++ enc16 wc ++ [bc] ++ d
  | .ign07 p | .ign08 p | .ign0B p | .ign0C p | .ign11 p | .ign14 p | .ign15 p | .ign18 p | .ign2B p => p
  | .illfc _ p => p

/-- The PDU of an instruction (R50). -/
def encode (i : Instr) : Message := i.fc :: i.operandBytes

/-- The byte-count byte for `n` data bytes (R106); free beyond 255 (log 16). -/
def byteCount (n : Nat) : Byte := if n ≤ 255 then BitVec.ofNat 8 n else Config.freeByteCount n

/-- The 16-bit value field of a single-bit write request (R55, R106; log 17). -/
def BitOperand.word : BitOperand → Word
  | .bool b => encodeBitValue b
  | .raw v => v

/-- The instruction a client's request is (R106): `bc` filled in from the count, bits packed, register values
high byte first (log 25). -/
def Request.instr : Request → Instr
  | .rdco a c => .rdco a c
  | .rddi a c => .rddi a c
  | .rdhr a c => .rdhr a c
  | .rdir a c => .rdir a c
  | .wsco a v => .wsco a v.word
  | .wshr a v => .wshr a v
  | .wmco a c bs => .wmco a c (byteCount (ceil8 c.toNat)) (packBits bs)
  | .wmhr a c vs => .wmhr a c (byteCount (2 * c.toNat)) (packWords vs)
  | .mwhr a n o => .mwhr a n o
  | .rwhr ra rc wa wc vs => .rwhr ra rc wa wc (byteCount (2 * wc.toNat)) (packWords vs)
  | .wmdi a c bs => .wmdi a c (byteCount (ceil8 c.toNat)) (packBits bs)
  | .wmir a c vs => .wmir a c (byteCount (2 * c.toNat)) (packWords vs)
  | .wsdi a v => .wsdi a v.word
  | .wsir a v => .wsir a v
  | .other fc p =>
    match Code.ofByte fc with
    | .ign07 => .ign07 p
    | .ign08 => .ign08 p
    | .ign0B => .ign0B p
    | .ign0C => .ign0C p
    | .ign11 => .ign11 p
    | .ign14 => .ign14 p
    | .ign15 => .ign15 p
    | .ign18 => .ign18 p
    | .ign2B => .ign2B p
    | _ => .illfc fc p

/-! ### The opcode table's numbering of bits -/

/-- The length of the PDU that begins with the bytes `bs` (R50), at least as long as `bs`. -/
def pduLength (bs : List Byte) : Nat :=
  max bs.length <|
    match (Code.ofByte (byteAt bs 0)).format with
    | .rd | .ws => 5
    | .wm => 6 + (byteAt bs 5).toNat
    | .mw => 7
    | .rw => 10 + (byteAt bs 9).toNat
    | .any => 1

/-- The PDU whose bits, numbered as spec/opcode_table.json numbers them (bit 0 the least significant bit of the
first byte), are `w`, of which the table gives `nbits`; every bit above is 0. -/
def tablePdu (nbits w : Nat) : Message :=
  let bs := (List.range (max 1 ((nbits + 7) / 8))).map fun k => BitVec.ofNat 8 (w / 2 ^ (8 * k))
  bs ++ List.replicate (pduLength bs - bs.length) 0#8

/-- The instruction the decoder reads from the table word `w`. -/
def decodeTableWord (nbits w : Nat) : Option Instr :=
  match decode (tablePdu nbits w) with
  | .ok i => some i
  | .error _ => none

end Sys2Proof
end

