-- ==== Sys2Proof/WellFormed.lean ====
section
/-! DEFINITION. Which terms of Instr are instructions of the block: those that some frame carries
(spec/30_encoding.md R49, R50, R56). -/

namespace Sys2Proof

/-- A payload that is not decoded fits a frame: the PDU has at most 65534 bytes (R49). -/
def payloadFits (p : List Byte) : Bool := decide (p.length ≤ 65533)

/-- An instruction some frame carries: the byte count of `WM` and `RW` is the number of data bytes (R50), the
function code of `illfc` is of class `ILL` (R56), a payload fits a frame (R49). -/
def Instr.wellFormed : Instr → Bool
  | .rdco _ _ | .rddi _ _ | .rdhr _ _ | .rdir _ _ => true
  | .wsco _ _ | .wshr _ _ | .wsdi _ _ | .wsir _ _ => true
  | .mwhr _ _ _ => true
  | .wmco _ _ bc d | .wmhr _ _ bc d | .wmdi _ _ bc d | .wmir _ _ bc d => decide (d.length = bc.toNat)
  | .rwhr _ _ _ _ bc d => decide (d.length = bc.toNat)
  | .ign07 p | .ign08 p | .ign0B p | .ign0C p | .ign11 p | .ign14 p | .ign15 p | .ign18 p | .ign2B p =>
    payloadFits p
  | .illfc fc p => decide (Code.ofByte fc = .illfc) && payloadFits p

/-- A request a client can write (R62): its PDU fits a frame (R49, R154), and only an ignored or illegal code is
written with a raw payload. -/
def Request.wellFormed (r : Request) : Bool :=
  decide ((encode r.instr).length ≤ 65534) &&
  match r with
  | .other fc _ => decide ((Code.ofByte fc).cls = .ign) || decide ((Code.ofByte fc).cls = .ill)
  | _ => true

end Sys2Proof
end

