-- ==== Sys2Proof/Machine/State.lean ====
section
/-! DEFINITION. The whole state of the block and its surroundings (spec/10_state.md, spec/70_reset_and_hazards.md
R145), as plain data, with the reasons a step can stop. -/

namespace Sys2Proof.Machine

/-- One table (R17): its nonzero cells by address, in the canonical form `Table.wf`. An unlisted cell reads 0, its
reset value (R145, D18; log 6). A DI or CO cell holds the integer 0 or 1. -/
abbrev Table := List (Nat × Word)

/-- The four tables of the store (R17, R30). -/
structure Memory where
  di : Table
  co : Table
  ir : Table
  hr : Table
  deriving DecidableEq, Repr

/-- The operand latches of R18. A latch holds a value only after the step that fills it for the current message;
"not filled" is a state of the latch, and reading one that is not filled faults (D45). -/
structure Latches where
  tid : Option Word
  pid : Option Word
  len : Option Word
  uid : Option Byte
  fc : Option Byte
  addr : Option Word
  cnt : Option Word
  val : Option Word
  bc : Option Byte
  andm : Option Word
  orm : Option Word
  raddr : Option Word
  rcnt : Option Word
  waddr : Option Word
  wcnt : Option Word
  wvals : Option (List Value)
  rvals : Option (List Value)
  deriving DecidableEq, Repr

/-- No latch filled (R18, R145). -/
def Latches.empty : Latches where
  tid := none
  pid := none
  len := none
  uid := none
  fc := none
  addr := none
  cnt := none
  val := none
  bc := none
  andm := none
  orm := none
  raddr := none
  rcnt := none
  waddr := none
  wcnt := none
  wvals := none
  rvals := none

/-- The names of the latches some rule reads (R18), for the fault of reading one that is not filled. -/
inductive LatchName where
  | tid | uid | fc | cnt | rcnt | rvals
  deriving DecidableEq, Repr

/-- The states of a session's sequencer (R19). -/
inductive SesState where
  | recv | validate | dispatch | respond | closed
  deriving DecidableEq, Repr

/-- A session handler (R19, R22, R27). `calls` is how many store calls the current request has made: where the
session stands between the two store calls of 0x16 and 0x17 (R64; log 8). -/
structure Session where
  sst : SesState
  rx : Message
  tx : Message
  verdict : Option (Bool × Byte)
  latch : Latches
  calls : Nat
  deriving DecidableEq, Repr

/-- A session when it is created (R63, R145). -/
def Session.fresh : Session where
  sst := .recv
  rx := []
  tx := []
  verdict := none
  latch := Latches.empty
  calls := 0

/-- Who holds the client end of a connection (R15, R63): one of the block's clients or a peer outside it. -/
inductive Owner where
  | client (k : Nat)
  | outside
  deriving DecidableEq, Repr

/-- The server end of a connection: not yet accepted (R63, D22), served by a session, or held by a server outside
the block (log 13), which may have closed it. -/
inductive ServerEnd where
  | waiting
  | session (ses : Session)
  | foreign (isOpen : Bool)
  deriving DecidableEq, Repr

/-- A connection and its two channels, oldest message first (R26). -/
structure Connection where
  owner : Owner
  clientOpen : Bool
  server : ServerEnd
  toServer : List Message
  toClient : List Message
  deriving DecidableEq, Repr

/-- The states of the client sequencer (R21). -/
inductive CliState where
  | idle | connecting | ready | await | failed
  deriving DecidableEq, Repr

/-- The pending-request record CLI_PEND (R25). -/
structure Pending where
  tid : Word
  uid : Byte
  fc : Byte
  cnt : Word
  kind : RespFormat
  deriving DecidableEq, Repr

/-- Who made the call a client is working on (R105): a user, or the elevator host. -/
inductive Caller where
  | user | host
  deriving DecidableEq, Repr

/-- A decoded response (R116). -/
inductive Payload where
  | bits (bs : List Bool)
  | regs (vs : List Word)
  | bitWrite (addr : Word) (value : Bool)
  | regWrite (addr value : Word)
  | multiple (addr cnt : Word)
  | mask (addr andm orm : Word)
  deriving DecidableEq, Repr

/-- What `send` returns (R105): `ok p` is `(true, p)`, each other constructor `(false, ·)`. -/
inductive SendResult where
  | ok (p : Payload)
  | exceptionInfo (fc code : Byte)
  | invalid
  | transport
  | notReady
  deriving DecidableEq, Repr

/-- What a finished call returns to its caller (R105, R107). -/
inductive Return where
  | connect (ok : Bool)
  | send (r : SendResult)
  deriving DecidableEq, Repr

/-- A client sequencer (R21, R23 to R25). `conn` is the connection it holds, `wait` the time units left before the
next attempt (R109), `caller` who made the call in progress, `ret` what the last finished call of a user
returned. -/
structure Client where
  cst : CliState
  tidCtr : Word
  elapsed : Nat
  pend : Option Pending
  latch : Latches
  conn : Option Nat
  wait : Nat
  caller : Caller
  ret : Option Return
  deriving DecidableEq, Repr

/-- A client at reset (R145); its counter starts at TID_RESET (R24). -/
def Client.reset (g : Cfg) : Client where
  cst := .idle
  tidCtr := g.tidReset
  elapsed := 0
  pend := none
  latch := Latches.empty
  conn := none
  wait := 0
  caller := .user
  ret := none

/-- The host's control-loop states (R120). -/
inductive HostState where
  | idle | awaitingSelection | awaitingAck | awaitingClear | halted
  deriving DecidableEq, Repr

/-- The inputs of one tick (R122). -/
structure TickInputs where
  systemOn : Bool
  doorClosed : Bool
  moving : Bool
  currentFloor : Word
  msToClose : Word
  req0 : Bool
  req1 : Bool
  req2 : Bool
  req3 : Bool
  observedCode : Word
  deriving DecidableEq, Repr

/-- Where the host is: before its connect (R132, R147), waiting for it, asleep between ticks, waiting for one of the
sends of a tick (R121, R124, R125, R127), or stopped for good. -/
inductive HostPhase where
  | boot | connecting | sleep | awaitDi | awaitIr | awaitHr | awaitRule | awaitBack | stopped
  deriving DecidableEq, Repr

/-- The elevator host (R120 to R132). It drives client 0 (log 24). `scheduled` says whether the run's caller still
schedules its ticks (R132, R158; log 37). -/
structure HostLoop where
  hst : HostState
  localTarget : Word
  phase : HostPhase
  wait : Nat
  scheduled : Bool
  inputs : TickInputs
  inbox : Option Return
  deriving DecidableEq, Repr

/-- The host at reset (R120, R145; log 19). -/
def HostLoop.reset : HostLoop where
  hst := .idle
  localTarget := 0#16
  phase := .boot
  wait := 0
  scheduled := true
  inputs := ⟨false, false, false, 0#16, 0#16, false, false, false, false, 0#16⟩
  inbox := none

/-- The Listener's one state (R20). -/
inductive ListenerState where
  | listen
  deriving DecidableEq, Repr

/-- The whole state. `choice` is the move taken next and `draws` how many moves have been drawn (log 3); every other
field is the spec's (R15 to R27, R120). -/
structure State where
  cfg : Cfg
  mem : Memory
  listener : ListenerState
  conns : List Connection
  clients : List Client
  host : HostLoop
  choice : Move
  draws : Nat
  deriving DecidableEq, Repr

/-- The state right after a reset in configuration `g` (R145, R146): every cell 0, the Listener in LISTEN, no
session, connection or channel, the client IDLE, the host Idle. The first move is free, as every later one. -/
def State.resetWith (g : Cfg) : State where
  cfg := g
  mem := ⟨[], [], [], []⟩
  listener := .listen
  conns := []
  clients := [Client.reset g]
  host := HostLoop.reset
  choice := Config.draw 0
  draws := 1

/-- The state right after a reset, in configuration `Cfg.a` (log 2). -/
def State.reset : State := State.resetWith Cfg.a

/-- Why a step stops. Every one of them is safe: the model stops where the spec gives no effect. -/
inductive Fault where
  /-- A latch that no step has filled for the current message is read (R18, D45, K20). Raised by exec when it frames
  a response or takes the second store call of 0x16, and by the outbound check. Safe. -/
  | unfilledLatch (l : LatchName)
  /-- exec is asked to run an instruction while the next move is no step of an accepted session. Raised by exec only,
  never by step. Safe. -/
  | noActiveSession
  /-- exec is asked to run an instruction on a session that is neither in VALIDATE nor in DISPATCH. Raised by exec
  only, never by step. Safe. -/
  | notExecuting
  /-- A session is in DISPATCH with a message that holds no instruction; only an instruction reaches DISPATCH (R68).
  Raised by a session's step. Safe. -/
  | undecodableDispatch
  /-- A client is in AWAIT without a pending record, which R25 rules out. Raised by a client's step. Safe. -/
  | noPending
  /-- A client is in READY or AWAIT without a connection, which R108 rules out. Raised by a client's step or a call on
  it. Safe. -/
  | noConnection
  /-- The host's call returned a value of another kind than the call has (R105, R116). Raised by the host's step.
  Safe. -/
  | hostReturn
  deriving DecidableEq, Repr

/-- Why a step is refused. -/
inductive Refusal where
  /-- The instruction has no meaning in the model yet. Raised by exec alone. Safe. -/
  | notModelled (mnemonic : String)
  deriving DecidableEq, Repr

end Sys2Proof.Machine
end

