-- ==== Sys2Proof/Machine/Ops.lean ====
section
/-! DEFINITION. The named operations on the state: the tables and the two store primitives (spec/20_memory.md R31 to
R34), sessions and connections, exception entry (spec/60_exceptions.md R136) and the return from it (R137), and the
other ends of a request (spec/00_scope.md R12). -/

namespace Sys2Proof.Machine

/-! ### Tables (R17, R30; log 6) -/

/-- The value of cell `a`: 0 where the table lists nothing (D18). -/
def Table.read : Table → Nat → Word
  | [], _ => 0#16
  | (b, w) :: rest, a => if a = b then w else Table.read rest a

/-- Cell `a` gets the value `v`; a cell that gets 0 is no longer listed. -/
def Table.write : Table → Nat → Word → Table
  | [], a, v => if v = 0#16 then [] else [(a, v)]
  | (b, w) :: rest, a, v =>
    if a < b then (if v = 0#16 then (b, w) :: rest else (a, v) :: (b, w) :: rest)
    else if a = b then (if v = 0#16 then rest else (a, v) :: rest)
    else (b, w) :: Table.write rest a v

/-- Cells `a, a+1, ...` get the values `vs`. -/
def Table.writeAll : Table → Nat → List Word → Table
  | t, _, [] => t
  | t, a, v :: vs => Table.writeAll (Table.write t a v) (a + 1) vs

/-- The canonical form above a bound: addresses strictly rising from `lo` on, no cell listed that reads 0. -/
def Table.wfFrom : Nat → Table → Bool
  | _, [] => true
  | lo, (a, v) :: rest => decide (lo ≤ a) && decide (v ≠ 0#16) && Table.wfFrom (a + 1) rest

/-- The canonical form of a table. -/
def Table.wf (t : Table) : Bool := Table.wfFrom 0 t

/-- Every listed cell lies below `n`. -/
def Table.below (n : Nat) (t : Table) : Bool := t.all fun c => decide (c.1 < n)

/-- Every listed cell holds the canonical true, 1 (R32, D39). -/
def Table.isBits (t : Table) : Bool := t.all fun c => decide (c.2 = 1#16)

/-- The table of a kind (R30). -/
def Memory.table (m : Memory) : TableKind → Table
  | .di => m.di
  | .co => m.co
  | .ir => m.ir
  | .hr => m.hr

/-- One table replaced. -/
def Memory.setTable (m : Memory) (t : TableKind) (tab : Table) : Memory :=
  match t with
  | .di => { m with di := tab }
  | .co => { m with co := tab }
  | .ir => { m with ir := tab }
  | .hr => { m with hr := tab }

/-- `cell(t, a)` (R31). -/
def Memory.cell (m : Memory) (t : TableKind) (a : Nat) : Word := (m.table t).read a

/-- Cells `a, a+1, ...` of table `t` get the values `vs`. -/
def Memory.setCells (m : Memory) (t : TableKind) (a : Nat) (vs : List Word) : Memory :=
  m.setTable t ((m.table t).writeAll a vs)

/-- The canonical form of the store. -/
def Memory.wf (m : Memory) : Bool := m.di.wf && m.co.wf && m.ir.wf && m.hr.wf

/-- Every cell lies inside the tables, and the bit tables hold 0 and 1 only (R17). -/
def Memory.fits (n : Nat) (m : Memory) : Bool :=
  m.di.below n && m.co.below n && m.ir.below n && m.hr.below n && m.di.isBits && m.co.isBits

/-! ### The store primitives -/

/-- Whether a table's cells are bits (R17). -/
def isBitTable : TableKind → Bool
  | .di | .co => true
  | .ir | .hr => false

/-- A 16-bit field as a value of the store. -/
def ofWord (w : Word) : Value := .int w.toNat

/-- The truth of a value: an integer is true exactly when it is not 0 (R33). -/
def truthOf : Value → Bool
  | .bool b => b
  | .int n => n != 0
  | .other => false

/-- The 16-bit value of a value: of an integer, itself (R32, "numeric tables pass values through unchanged"). -/
def wordOf : Value → Word
  | .bool b => if b then 1#16 else 0#16
  | .int n => BitVec.ofInt 16 n
  | .other => 0#16

/-- What a cell reads as (R31): a Boolean, true exactly when it is not 0, or its 16-bit value. -/
def readCell (t : TableKind) (w : Word) : Value := if isBitTable t then .bool (w != 0#16) else ofWord w

/-- Whether a value is of the type of a table's cells (R33). -/
def storable (t : TableKind) (v : Value) : Bool :=
  match v with
  | .bool _ => isBitTable t
  | .int n => isBitTable t || decide (0 ≤ n ∧ n ≤ 65535)
  | .other => false

/-- The cell a value is stored as (R32): canonical 1 or 0 in a bit table, unchanged in a register table. -/
def cellOf (t : TableKind) (v : Value) : Word :=
  if isBitTable t then (if truthOf v then 1#16 else 0#16) else wordOf v

/-- Whether this store call fails by the draw `fail`, which STORE_FAULTS admits (R34). -/
def storeFails (s : State) (fail : Bool) : Bool := s.cfg.storeFaults && fail

/-- `StoreGet(t, a, c)` (R31, R34); `none` is `ok = false`. The sum does not wrap (R9). -/
def storeGet (s : State) (t : TableKind) (a c : Nat) (fail : Bool) : Option (List Value) :=
  if storeFails s fail then none
  else if a + c > s.cfg.tableLen then none
  else some ((List.range c).map fun i => readCell t (s.mem.cell t (a + i)))

/-- `StoreSet(t, a, vals)` (R32 to R34): the store after it; `none` is `ok = false`, nothing written. -/
def storeSet (s : State) (t : TableKind) (a : Nat) (vals : List Value) (fail : Bool) : Option Memory :=
  if storeFails s fail then none
  else if a + vals.length > s.cfg.tableLen then none
  else if vals.all (storable t) then some (s.mem.setCells t a (vals.map (cellOf t)))
  else none

/-! ### Connections, sessions and clients -/

/-- The session serving a connection, if the Listener has accepted it (R63). -/
def Connection.session? (k : Connection) : Option Session :=
  match k.server with
  | .session ses => some ses
  | _ => none

/-- A change of the session serving a connection. -/
def Connection.mapSession (f : Session → Session) (k : Connection) : Connection :=
  match k.server with
  | .session ses => { k with server := .session (f ses) }
  | _ => k

/-- The session of connection `c`. -/
def State.session? (s : State) (c : Nat) : Option Session := s.conns[c]?.bind Connection.session?

/-- A change of connection `c`. -/
def State.updConn (s : State) (c : Nat) (f : Connection → Connection) : State :=
  { s with conns := s.conns.modify c f }

/-- A change of the session of connection `c`. -/
def State.updSession (s : State) (c : Nat) (f : Session → Session) : State :=
  s.updConn c (Connection.mapSession f)

/-- A change of client `k`. -/
def State.updClient (s : State) (k : Nat) (f : Client → Client) : State :=
  { s with clients := s.clients.modify k f }

/-- `send` towards the server: one message appended (R26). -/
def State.pushToServer (s : State) (c : Nat) (m : Message) : State :=
  s.updConn c fun k => { k with toServer := k.toServer ++ [m] }

/-- `send` towards the client: one message appended (R26). -/
def State.pushToClient (s : State) (c : Nat) (m : Message) : State :=
  s.updConn c fun k => { k with toClient := k.toClient ++ [m] }

/-- The oldest message towards the server is taken (R26). -/
def State.popToServer (s : State) (c : Nat) : State :=
  s.updConn c fun k => { k with toServer := k.toServer.tail }

/-- The oldest message towards the client is taken (R26). -/
def State.popToClient (s : State) (c : Nat) : State :=
  s.updConn c fun k => { k with toClient := k.toClient.tail }

/-- The session whose step the next move is, with its connection and its store-failure draw. -/
structure Active where
  conn : Nat
  fail : Bool
  ses : Session
  deriving DecidableEq, Repr

/-- The session whose step is being taken: the one `choice` names. -/
def State.active (s : State) : Option Active :=
  match s.choice with
  | .session c _ fail =>
    match s.session? c with
    | some ses => some ⟨c, fail, ses⟩
    | none => none
  | _ => none

/-! ### The ends of a request (R12) -/

/-- `respond(pdu)` (R12, R69, R73): the response is framed with the request's Transaction ID and Unit ID (R61) and
the session goes to RESPOND. -/
def respond (pdu : Message) (c : Nat) (s : State) : Host.Outcome State Fault Refusal :=
  match s.session? c with
  | none => .fault .noActiveSession
  | some ses =>
    match ses.latch.tid with
    | none => .fault (.unfilledLatch .tid)
    | some tid =>
      match ses.latch.uid with
      | none => .fault (.unfilledLatch .uid)
      | some uid => .next (s.updSession c fun x => { x with tx := frame tid uid pdu, sst := .respond })

/-- `raise Exception(code)`, the entry of an exception (R136): the exception PDU of R57 is framed with the request's
Transaction ID and Unit ID and the session goes to RESPOND. Nothing else changes: no cause, mask or mode is saved,
and the effects of store calls already made stay. -/
def raiseException (code : Byte) (c : Nat) (s : State) : Host.Outcome State Fault Refusal :=
  match s.session? c with
  | none => .fault .noActiveSession
  | some ses =>
    match ses.latch.fc with
    | none => .fault (.unfilledLatch .fc)
    | some fc => respond [fc ||| 0x80#8, code] c s

/-- The return from an exception, as from any request (R137, R74): the session goes back to RECV. There is nothing to
restore. -/
def returnToReceive (c : Nat) (s : State) : State := s.updSession c fun x => { x with sst := .recv }

/-- `ignore` (R12, R94): back to RECV, no store call, no response. -/
def ignoreRequest (c : Nat) (s : State) : Host.Outcome State Fault Refusal := .next (returnToReceive c s)

/-- The verdict pair of the message in `rx` is recorded (R22, R66). -/
def recordVerdict (v : Bool × Byte) (c : Nat) (s : State) : State :=
  s.updSession c fun x => { x with verdict := some v }

end Sys2Proof.Machine
end

