-- ==== Sys2Proof/Machine/Operands.lean ====
section
/-! DEFINITION. Operands: the latches a message fills (spec/10_state.md R18), the ranges an instruction touches
(spec/40_server_pipeline.md R70), the values it writes (spec/30_encoding.md R52 to R55) and the data it answers
with. -/

namespace Sys2Proof.Machine

/-- The latches the validator fills from bytes 0 to 7 of a message that passes V3 (R66). -/
def fillHeader (m : Message) (l : Latches) : Latches :=
  { l with
    tid := some (be16 m 0), pid := some (be16 m 2), len := some (be16 m 4),
    uid := some (byteAt m 6), fc := some (byteAt m 7) }

/-- The values a packed-bit request writes: `UnpackBits(data, cnt)` (R80, R82). -/
def bitValues (data : List Byte) (cnt : Word) : List Value := (unpackBits data cnt.toNat).map Value.bool

/-- The values a register request writes: `be16` of the data, `cnt` of them (R87, R89, R91). -/
def wordValues (data : List Byte) (cnt : Word) : List Value := (unpackWords data cnt.toNat).map ofWord

/-- The operand latches a decoded instruction fills (R18, R52, R69). DESIGN CHOICE (log 39): of a single write R18 names
`val`, and R79, R81, R86, R88 hand the one value to the store without assigning `wvals`; here `wvals` is filled with it
as well, a Boolean in a bit table (R55), the 16-bit value in a register table. -/
def fillOperands (i : Instr) (l : Latches) : Latches :=
  match i with
  | .rdco a c | .rddi a c | .rdhr a c | .rdir a c => { l with addr := some a, cnt := some c }
  | .wsco a v | .wsdi a v => { l with addr := some a, val := some v, wvals := some [.bool (decodeBitValue v)] }
  | .wshr a v | .wsir a v => { l with addr := some a, val := some v, wvals := some [ofWord v] }
  | .wmco a c bc d | .wmdi a c bc d =>
    { l with addr := some a, cnt := some c, bc := some bc, wvals := some (bitValues d c) }
  | .wmhr a c bc d | .wmir a c bc d =>
    { l with addr := some a, cnt := some c, bc := some bc, wvals := some (wordValues d c) }
  | .mwhr a n o => { l with addr := some a, andm := some n, orm := some o }
  | .rwhr ra rc wa wc bc d =>
    { l with
      raddr := some ra, rcnt := some rc, waddr := some wa, wcnt := some wc, bc := some bc,
      wvals := some (wordValues d wc) }
  | .ign07 _ | .ign08 _ | .ign0B _ | .ign0C _ | .ign11 _ | .ign14 _ | .ign15 _ | .ign18 _ | .ign2B _ => l
  | .illfc _ _ => l

/-- The ranges of cells an instruction touches, as first cell and count (R70). -/
def rangesOf : Instr → List (Nat × Nat)
  | .rdco a c | .rddi a c | .rdhr a c | .rdir a c => [(a.toNat, c.toNat)]
  | .wmco a c _ _ | .wmhr a c _ _ | .wmdi a c _ _ | .wmir a c _ _ => [(a.toNat, c.toNat)]
  | .wsco a _ | .wshr a _ | .wsdi a _ | .wsir a _ => [(a.toNat, 1)]
  | .mwhr a _ _ => [(a.toNat, 1)]
  | .rwhr ra rc wa wc _ _ => [(wa.toNat, wc.toNat), (ra.toNat, rc.toNat)]
  | .ign07 _ | .ign08 _ | .ign0B _ | .ign0C _ | .ign11 _ | .ign14 _ | .ign15 _ | .ign18 _ | .ign2B _ => []
  | .illfc _ _ => []

/-- The range check of R70, on sums that do not wrap. -/
def rangesFit (n : Nat) (i : Instr) : Bool := (rangesOf i).all fun r => decide (r.1 + r.2 ≤ n)

/-- The count the answer to an instruction must carry (R25, R72): of a read its count, of 0x17 its read count. -/
def awaitedCount : Instr → Word
  | .rdco _ c | .rddi _ c | .rdhr _ c | .rdir _ c => c
  | .rwhr _ rc _ _ _ _ => rc
  | _ => 0#16

/-- The same count from the latches of function code `fc` (R72, R73); a latch that is needed and not filled faults
(D45). -/
def latchedCount (fc : Byte) (l : Latches) : Except Fault Nat :=
  match Code.ofByte fc with
  | .rdco | .rddi | .rdhr | .rdir =>
    match l.cnt with
    | some c => .ok c.toNat
    | none => .error (.unfilledLatch .cnt)
  | .rwhr =>
    match l.rcnt with
    | some c => .ok c.toNat
    | none => .error (.unfilledLatch .rcnt)
  | _ => .ok 0

/-- The success PDU of a bit read: function code, byte count, packed bits (R77, R78). -/
def bitReadPdu (c : Code) (cnt : Word) (vs : List Value) : Message :=
  [c.byte, BitVec.ofNat 8 (ceil8 cnt.toNat)] ++ packBits (vs.map truthOf)

/-- The success PDU of a register read: function code, byte count, values high byte first (R84, R85, R91). -/
def wordReadPdu (c : Code) (cnt : Word) (vs : List Value) : Message :=
  [c.byte, BitVec.ofNat 8 (2 * cnt.toNat)] ++ packWords (vs.map wordOf)

/-- A success PDU of a function code and two 16-bit fields (R51 `WSR`, `WMR`). -/
def twoFieldPdu (c : Code) (x y : Word) : Message := [c.byte] ++ enc16 x ++ enc16 y

/-- The success PDU of a mask write (R51 `MWR`, R90). -/
def maskPdu (c : Code) (a n o : Word) : Message := [c.byte] ++ enc16 a ++ enc16 n ++ enc16 o

end Sys2Proof.Machine
end

