-- ==== Sys2Proof/Machine/Flags.lean ====
section
/-! DEFINITION. The block's only flags are the verdict pairs `(valid, excode)` (spec/10_state.md R22): the request
validator's (spec/40_server_pipeline.md R66, R67), on bytes and on a decoded instruction, and the response
validator's (R72). -/

namespace Sys2Proof.Machine

/-- A count lies in its legal range (R67). -/
def countOk (cnt : Word) (most : Nat) : Bool := decide (1 ≤ cnt.toNat ∧ cnt.toNat ≤ most)

/-- `ShapeOK(fc, p)` on the bytes of a PDU, as R67 writes it. `any` has no shape to check: V4 and V5 decide first. -/
def shapeOkBytes (g : Cfg) (fc : Byte) (p : Message) : Bool :=
  let readsBits := decide (fc = 0x01#8 ∨ fc = 0x02#8)
  let writesBits := decide (fc = 0x0F#8 ∨ fc = 0x62#8)
  match (Code.ofByte fc).format with
  | .rd => decide (p.length = 5) && countOk (be16 p 3) (if readsBits then g.maxRdBits else g.maxRdRegs)
  | .ws => decide (p.length = 5)
  | .wm =>
    decide (6 ≤ p.length) && decide (p.length = 6 + (byteAt p 5).toNat) &&
    countOk (be16 p 3) (if writesBits then g.maxWrBits else g.maxWrRegs) &&
    decide ((byteAt p 5).toNat = if writesBits then ceil8 (be16 p 3).toNat else 2 * (be16 p 3).toNat)
  | .mw => decide (p.length = 7)
  | .rw =>
    decide (10 ≤ p.length) && decide (p.length = 10 + (byteAt p 9).toNat) &&
    countOk (be16 p 3) g.maxRdRegs && countOk (be16 p 7) g.maxWrRegs &&
    decide ((byteAt p 9).toNat = 2 * (be16 p 7).toNat)
  | .any => true

/-- `ValidateRequest(m, EXT_SRV)` (R66), the checks V1 to V7 in their order. -/
def validateRequest (g : Cfg) (m : Message) : Bool × Byte :=
  if m.length < 8 then (false, 0x00#8)
  else if be16 m 2 != 0#16 then (false, 0x00#8)
  else if (be16 m 4).toNat ≠ m.length - 6 then (false, 0x00#8)
  else
    let fc := byteAt m 7
    match (Code.ofByte fc).cls with
    | .ign => (true, 0x00#8)
    | .ill => (false, 0x01#8)
    | .ext =>
      if !g.extSrv then (false, 0x01#8)
      else if !shapeOkBytes g fc (pduOf m) then (false, 0x02#8) else (true, 0x00#8)
    | .std => if !shapeOkBytes g fc (pduOf m) then (false, 0x02#8) else (true, 0x00#8)

/-- The shape check of R67 on a decoded instruction: its counts lie in their ranges, and byte count, count and data
agree. -/
def shapeOk (g : Cfg) : Instr → Bool
  | .rdco _ c | .rddi _ c => countOk c g.maxRdBits
  | .rdhr _ c | .rdir _ c => countOk c g.maxRdRegs
  | .wsco _ _ | .wshr _ _ | .wsdi _ _ | .wsir _ _ => true
  | .wmco _ c bc d | .wmdi _ c bc d =>
    decide (d.length = bc.toNat) && countOk c g.maxWrBits && decide (bc.toNat = ceil8 c.toNat)
  | .wmhr _ c bc d | .wmir _ c bc d =>
    decide (d.length = bc.toNat) && countOk c g.maxWrRegs && decide (bc.toNat = 2 * c.toNat)
  | .mwhr _ _ _ => true
  | .rwhr _ rc _ wc bc d =>
    decide (d.length = bc.toNat) && countOk rc g.maxRdRegs && countOk wc g.maxWrRegs &&
    decide (bc.toNat = 2 * wc.toNat)
  | .ign07 _ | .ign08 _ | .ign0B _ | .ign0C _ | .ign11 _ | .ign14 _ | .ign15 _ | .ign18 _ | .ign2B _ => true
  | .illfc _ _ => true

/-- Whether the server performs the instruction's function: every class but `ILL`, and `EXT` only with EXT_SRV (R56,
R93). Both the validator and the dispatcher ask (log 30). -/
def permitted (g : Cfg) (i : Instr) : Bool :=
  match i.code.cls with
  | .std | .ign => true
  | .ext => g.extSrv
  | .ill => false

/-- The verdict on a frame that passes V1 to V3 and holds the instruction `i`: V4 to V7 of R66. -/
def verdictOf (g : Cfg) (i : Instr) : Bool × Byte :=
  if !permitted g i then (false, 0x01#8)
  else if !shapeOk g i then (false, 0x02#8)
  else (true, 0x00#8)

/-- The exception form of a response to function code `rfc`: a well-formed frame whose PDU is `rfc OR 0x80` and one
byte (R72 W1, W2). -/
def exceptionForm (m : Message) (rfc : Byte) : Bool :=
  headerOk m && decide (byteAt m 7 = rfc ||| 0x80#8) && decide ((pduOf m).length = 2)

/-- `ValidateResponse(m, ext, rfc, rcnt_exp)` (R72), the checks W1 to W5 in their order. -/
def validateResponse (ext : Bool) (m : Message) (rfc : Byte) (n : Nat) : Bool × Byte :=
  let p := pduOf m
  let c := Code.ofByte rfc
  if !headerOk m then (false, 0x00#8)
  else if exceptionForm m rfc then (true, 0x00#8)
  else if byteAt m 7 ≠ rfc then (false, 0x01#8)
  else if c.cls = .ill ∨ c.cls = .ign ∨ (c.cls = .ext ∧ !ext) then (false, 0x01#8)
  else
    let ok :=
      match c.respFormat with
      | .rdr =>
        decide (2 ≤ p.length) && decide (p.length = 2 + (byteAt p 1).toNat) &&
        decide ((byteAt p 1).toNat = if c.readsBits then ceil8 n else 2 * n)
      | .wsr | .wmr => decide (p.length = 5)
      | .mwr => decide (p.length = 7)
      | .exr => false
    if ok then (true, 0x00#8) else (false, 0x02#8)

/-- The outbound check of a response `m` (R73). The count latch is read only when the response is no exception, since
W2 decides before W5 asks for it. -/
def outboundVerdict (g : Cfg) (fc : Byte) (l : Latches) (m : Message) : Except Fault (Bool × Byte) :=
  if exceptionForm m fc then .ok (true, 0x00#8)
  else
    match latchedCount fc l with
    | .error f => .error f
    | .ok n => .ok (validateResponse g.extSrv m fc n)

/-- The frame that leaves in place of `m` (R73): `m` itself when the check passes, else an exception response with the
detected code, 0x04 where that is 0 (D14). -/
def outboundFrame (v : Bool × Byte) (tid : Word) (uid fc : Byte) (m : Message) : Message :=
  if v.1 then m else frame tid uid [fc ||| 0x80#8, if v.2 ≠ 0#8 then v.2 else 0x04#8]

end Sys2Proof.Machine
end

