-- ==== Sys2Proof/Machine/Transport.lean ====
section
/-! DEFINITION. The Listener (spec/40_server_pipeline.md R63), the peers and servers outside the block, the external
writers (spec/20_memory.md R30, R39) and the passing of time (spec/60_exceptions.md R141). A move that is not
possible changes nothing (log 4). -/

namespace Sys2Proof.Machine

/-- A session that counts against MAX_SESSIONS: one that is not CLOSED (R63). -/
def Connection.isLive (k : Connection) : Bool :=
  match k.session? with
  | some ses => decide (ses.sst ≠ .closed)
  | none => false

/-- How many sessions are not CLOSED. -/
def liveSessions (s : State) : Nat := s.conns.countP Connection.isLive

/-- Whether the Listener accepts another connection now (R63, D22). -/
def hasRoom (s : State) : Bool :=
  match s.cfg.maxSessions with
  | none => true
  | some n => decide (liveSessions s < n)

/-- A new connection with empty channels and its client end open. -/
def newConnection (o : Owner) (e : ServerEnd) : Connection := ⟨o, true, e, [], []⟩

/-- The connections with one more at the end. -/
def State.addConn (s : State) (k : Connection) : State := { s with conns := s.conns ++ [k] }

/-- The Listener accepts the waiting connection `c` and creates its session (R63); at MAX_SESSIONS it waits. -/
def acceptStep (c : Nat) (s : State) : State :=
  if hasRoom s then
    s.updConn c fun k =>
      match k.server with
      | .waiting => { k with server := .session Session.fresh }
      | _ => k
  else s

/-- A peer outside the block opens a connection, which waits for the Listener (R63). -/
def peerOpen (s : State) : State := s.addConn (newConnection .outside .waiting)

/-- Whether an outside peer holds the open client end of a connection. -/
def Connection.peerHolds (k : Connection) : Bool := decide (k.owner = .outside) && k.clientOpen

/-- An outside peer sends a message; an empty one is the end of a connection, which it sends by closing (R26). -/
def peerSend (c : Nat) (m : Message) (s : State) : State :=
  s.updConn c fun k => if k.peerHolds && m != [] then { k with toServer := k.toServer ++ [m] } else k

/-- An outside peer takes the oldest message sent to it (R26). -/
def peerRecv (c : Nat) (s : State) : State :=
  s.updConn c fun k => if k.owner = .outside then { k with toClient := k.toClient.tail } else k

/-- An outside peer closes its end: one empty message, then nothing (R26). -/
def peerClose (c : Nat) (s : State) : State :=
  s.updConn c fun k =>
    if k.peerHolds then { k with clientOpen := false, toServer := k.toServer ++ [[]] } else k

/-- A server outside the block sends a message on a connection it holds (log 13). -/
def foreignSend (c : Nat) (m : Message) (s : State) : State :=
  s.updConn c fun k =>
    if k.server = .foreign true ∧ m ≠ [] then { k with toClient := k.toClient ++ [m] } else k

/-- A server outside the block takes the oldest message sent to it. -/
def foreignRecv (c : Nat) (s : State) : State :=
  s.updConn c fun k =>
    match k.server with
    | .foreign _ => { k with toServer := k.toServer.tail }
    | _ => k

/-- A server outside the block closes its end: one empty message, then nothing (R26). -/
def foreignClose (c : Nat) (s : State) : State :=
  s.updConn c fun k =>
    if k.server = .foreign true then { k with server := .foreign false, toClient := k.toClient ++ [[]] } else k

/-- An external writer's `StoreSet` (R15, R30, R39); on failure nothing is written. -/
def extSet (t : TableKind) (a : Nat) (vals : List Value) (fail : Bool) (s : State) : State :=
  match storeSet s t a vals fail with
  | some m => { s with mem := m }
  | none => s

/-- An external writer's `StoreGet`: a read has no side effect (R38), and its result leaves the block (log 28). -/
def extGet (t : TableKind) (a c : Nat) (fail : Bool) (s : State) : State :=
  match storeGet s t a c fail with
  | some _ => s
  | none => s

/-- One time unit passes (log 20): it is one less to wait for a client between attempts (R109) and for the host between
ticks (R121). -/
def timePasses (s : State) : State :=
  { s with
    clients := s.clients.map fun cl => if cl.cst = .connecting then { cl with wait := cl.wait - 1 } else cl
    host := if s.host.phase = .sleep then { s.host with wait := s.host.wait - 1 } else s.host }

/-- The run's caller stops scheduling the host's ticks (R132 'whether it keeps ticking', R158; log 37). -/
def stopTicks (s : State) : State := { s with host := { s.host with scheduled := false } }

/-- A restart of the block (R146): everything is at its reset value, in the same configuration. DESIGN CHOICE (log 22):
the spec does not say what a caller blocked in a connect or send gets; here its call is forgotten and returns
nothing. -/
def restart (s : State) : State := State.resetWith s.cfg

end Sys2Proof.Machine
end

