-- ==== Sys2Proof/Machine/Client.lean ====
section
/-! DEFINITION. The client sequencer (spec/44_client_sequencer.md R105 to R118). -/

namespace Sys2Proof.Machine

/-- A finished call returns `r` to its caller (R105): to the user of client `k`, or to the host. -/
def deliver (caller : Caller) (k : Nat) (r : Return) (s : State) : State :=
  match caller with
  | .user => s.updClient k fun cl => { cl with ret := some r }
  | .host => { s with host := { s.host with inbox := some r } }

/-! ### Connect (R107 to R109) -/

/-- A connection attempt succeeds (R108): a connection with this server end is made, the client is READY, connect()
returns true. -/
def attemptSucceeds (k : Nat) (caller : Caller) (e : ServerEnd) (s : State) : State :=
  deliver caller k (.connect true)
    ((s.addConn (newConnection (.client k) e)).updClient k fun cl =>
      { cl with cst := .ready, conn := some s.conns.length })

/-- A connection attempt fails (R108): the client waits CONNECT_POLL time units for the next (R109). -/
def attemptFails (k : Nat) (s : State) : State :=
  s.updClient k fun cl => { cl with wait := s.cfg.connectPoll }

/-- One connection attempt with the outcome the environment draws (R108). The Listener at MAX_SESSIONS makes it
fail. -/
def attempt (k : Nat) (caller : Caller) (att : Attempt) (s : State) : State :=
  match att with
  | .fails => attemptFails k s
  | .listener => if hasRoom s then attemptSucceeds k caller (.session Session.fresh) s else attemptFails k s
  | .foreign => attemptSucceeds k caller (.foreign true) s

/-- `connect()` (R107): from IDLE the first attempt is made at once; in any other state nothing changes and false is
returned. -/
def clientConnect (k : Nat) (caller : Caller) (att : Attempt) (s : State) : State :=
  match s.clients[k]? with
  | none => s
  | some cl =>
    match cl.cst with
    | .idle =>
      attempt k caller att
        (s.updClient k fun x => { x with elapsed := 0, cst := .connecting, wait := 0, caller := caller })
    | .connecting | .ready | .await | .failed => deliver caller k (.connect false) s

/-- The poll that is due after CONNECT_POLL time units (R109): `elapsed` advances, and the client attempts again, or,
beyond CONNECT_BOUND, fails for good and connect() returns false. -/
def pollStep (k : Nat) (cl : Client) (att : Attempt) (s : State) : State :=
  let later := cl.elapsed + s.cfg.connectPoll
  if later ≤ s.cfg.connectBound then
    attempt k cl.caller att (s.updClient k fun x => { x with elapsed := later })
  else
    deliver cl.caller k (.connect false) (s.updClient k fun x => { x with elapsed := later, cst := .failed })

/-! ### Send (R106, R110 to R112) -/

/-- The pending-request record of a request with Transaction ID `tid` (R112). -/
def pendingOf (g : Cfg) (tid : Word) (i : Instr) : Pending :=
  ⟨tid, g.unitId, i.fc, awaitedCount i, i.code.respFormat⟩

/-- Whether the client encodes the request: one that names an extension code needs EXT_CLI (R106, D41). -/
def clientAdmits (g : Cfg) (i : Instr) : Bool := decide ((Code.ofByte i.fc).cls ≠ .ext) || g.extCli

/-- A transport failure at send or await (R117): the client is FAILED and `(false, Transport)` is returned. -/
def clientFails (k : Nat) (caller : Caller) (s : State) : State :=
  deliver caller k (.send .transport) (s.updClient k fun x => { x with cst := .failed, pend := none })

/-- The frame is transmitted on connection `c` and the client awaits its answer (R111, R112). -/
def transmit (k c : Nat) (caller : Caller) (i : Instr) (cl : Client) (s : State) : State :=
  let tid := cl.tidCtr + 1#16
  (s.pushToServer c (frame tid s.cfg.unitId (encode i))).updClient k fun x =>
    { x with tidCtr := tid, pend := some (pendingOf s.cfg tid i), cst := .await, caller := caller }

/-- `send(req)` (R106, R110 to R112) with the transport-error draw `err`. In AWAIT the call cannot be made: nothing
changes (R110, K21; log 21). Outside READY, and for an extension code the client does not admit, it returns NotReady,
whatever the request. A request that no frame carries is no call then (log 25). -/
def clientSend (k : Nat) (caller : Caller) (r : Request) (err : Bool) (s : State) :
    Host.Outcome State Fault Refusal :=
  match s.clients[k]? with
  | none => .next s
  | some cl =>
    match cl.cst with
    | .await => .next s
    | .idle | .connecting | .failed => .next (deliver caller k (.send .notReady) s)
    | .ready =>
      if !clientAdmits s.cfg r.instr then .next (deliver caller k (.send .notReady) s)
      else if !r.wellFormed then .next s
      else
        match cl.conn with
        | none => .fault .noConnection
        | some c =>
          match s.conns[c]? with
          | none => .fault .noConnection
          | some _ =>
            if err then .next (clientFails k caller s)
            else .next (transmit k c caller r.instr cl s)

/-! ### Await, check, report (R113 to R117) -/

/-- `Decode(fc, p, n)` (R116); the ignored and illegal codes have no response payload. -/
def decodeResponse (fc : Byte) (p : Message) (n : Nat) : Option Payload :=
  match Code.ofByte fc with
  | .rdco | .rddi => some (.bits (unpackBits (p.drop 2) n))
  | .rdhr | .rdir | .rwhr => some (.regs (unpackWords (p.drop 2) n))
  | .wsco | .wsdi => some (.bitWrite (be16 p 1) (decodeBitValue (be16 p 3)))
  | .wshr | .wsir => some (.regWrite (be16 p 1) (be16 p 3))
  | .wmco | .wmhr | .wmdi | .wmir => some (.multiple (be16 p 1) (be16 p 3))
  | .mwhr => some (.mask (be16 p 1) (be16 p 3) (be16 p 5))
  | .ign07 | .ign08 | .ign0B | .ign0C | .ign11 | .ign14 | .ign15 | .ign18 | .ign2B | .illfc => none

/-- Whether `m` is accepted as the matching response (R114). -/
def accepts (g : Cfg) (p : Pending) (m : Message) : Bool :=
  (validateResponse g.extCli m p.fc p.cnt.toNat).1 && be16 m 0 == p.tid && byteAt m 6 == p.uid

/-- What `send` returns for the message `m` (R114, R115). -/
def sendResult (g : Cfg) (p : Pending) (m : Message) : SendResult :=
  if !accepts g p m then .invalid
  else if byteAt m 7 = p.fc ||| 0x80#8 then .exceptionInfo p.fc (byteAt (pduOf m) 1)
  else
    match decodeResponse p.fc (pduOf m) p.cnt.toNat with
    | some d => .ok d
    | none => .invalid

/-- The operand latches a decoded response fills (R18, R116). -/
def fillPayload (r : SendResult) (p : Message) (l : Latches) : Latches :=
  match r with
  | .ok (.bits bs) => { l with bc := some (byteAt p 1), rvals := some (bs.map Value.bool) }
  | .ok (.regs vs) => { l with bc := some (byteAt p 1), rvals := some (vs.map ofWord) }
  | .ok (.bitWrite a _) => { l with addr := some a, val := some (be16 p 3) }
  | .ok (.regWrite a v) => { l with addr := some a, val := some v }
  | .ok (.multiple a c) => { l with addr := some a, cnt := some c }
  | .ok (.mask a n o) => { l with addr := some a, andm := some n, orm := some o }
  | .exceptionInfo _ _ | .invalid | .transport | .notReady => l

/-- The client's latches after the message `m` (R18): none is carried over from the message before (log 31). DESIGN
CHOICE (log 36): R66 fills header latches for requests only, and no rule says which latches a response fills. Here a
frame that passes W1 fills tid, pid, len, uid and fc even when it is then rejected as Invalid, an accepted success
response fills its operand latches as well, and any other message fills none. -/
def responseLatches (r : SendResult) (m : Message) : Latches :=
  if headerOk m then fillPayload r (pduOf m) (fillHeader m Latches.empty) else Latches.empty

/-- The awaited message is taken: the client is READY and the result is reported (R114, R115). -/
def report (k : Nat) (cl : Client) (p : Pending) (m : Message) (s : State) : State :=
  let r := sendResult s.cfg p m
  deliver cl.caller k (.send r)
    (s.updClient k fun x => { x with cst := .ready, pend := none, latch := responseLatches r m })

/-- Await (R113): a transport error or an empty message fails the client; the first message is the one it takes; an
empty channel blocks it, for ever if nothing comes (R150). -/
def awaitStep (k : Nat) (cl : Client) (err : Bool) (s : State) : Host.Outcome State Fault Refusal :=
  match cl.pend with
  | none => .fault .noPending
  | some p =>
    match cl.conn with
    | none => .fault .noConnection
    | some c =>
      match s.conns[c]? with
      | none => .fault .noConnection
      | some conn =>
        if err then .next (clientFails k cl.caller s)
        else
          match conn.toClient with
          | [] => .next s
          | m :: _ =>
            if m = [] then .next (clientFails k cl.caller (s.popToClient c))
            else .next (report k cl p m (s.popToClient c))

/-- A step of client `k`'s own: a connection attempt that is due, or the receipt it awaits. In every other state it has
none. -/
def clientStep (k : Nat) (err : Bool) (att : Attempt) (s : State) : Host.Outcome State Fault Refusal :=
  match s.clients[k]? with
  | none => .next s
  | some cl =>
    match cl.cst with
    | .connecting => if cl.wait = 0 then .next (pollStep k cl att s) else .next s
    | .await => awaitStep k cl err s
    | .idle | .ready | .failed => .next s

/-! ### Close and new clients (R117, R118) -/

/-- The client end of connection `c` closes: the peer is delivered one empty message (R26). -/
def closeClientEnd (c : Nat) (s : State) : State :=
  s.updConn c fun k => { k with clientOpen := false, toServer := k.toServer ++ [[]] }

/-- What a caller blocked in the client gets when the client is closed (R118): a send `(false, Transport)`, a connect
false (log 15). -/
def releaseCaller (k : Nat) (cl : Client) (s : State) : State :=
  match cl.cst with
  | .await => deliver cl.caller k (.send .transport) s
  | .connecting => deliver cl.caller k (.connect false) s
  | .idle | .ready | .failed => s

/-- `close()` (R118): the connection is closed, the client is IDLE, CLI_PEND is cleared, `tid_ctr` is kept. In FAILED
nothing changes. -/
def clientClose (k : Nat) (s : State) : State :=
  match s.clients[k]? with
  | none => s
  | some cl =>
    if cl.cst = .failed then s
    else
      let closed :=
        match cl.conn with
        | some c => closeClientEnd c s
        | none => s
      releaseCaller k cl
        (closed.updClient k fun x => { x with cst := .idle, pend := none, conn := none })

/-- A caller builds a new client, which starts at reset (R117). -/
def newClient (s : State) : State := { s with clients := s.clients ++ [Client.reset s.cfg] }

end Sys2Proof.Machine
end

