-- ==== Sys2Proof/Machine/Elevator.lean ====
section
/-! DEFINITION. The host: the elevator control loop (spec/45_host_control_loop.md R120 to R132). It drives client 0
(log 24) and never touches the store. -/

namespace Sys2Proof.Machine

/-- The client the host drives (log 24). -/
def hostClient : Nat := 0

/-! ### The state rules (R123 to R126) -/

/-- The distance of a floor from the current floor, on integers (R124). -/
def distance (floor current : Nat) : Nat := ((floor : Int) - (current : Int)).natAbs

/-- The scan of R124: of the requested floors the nearest, the first found among equals. -/
def nearest (current : Nat) : List (Nat × Bool) → Option Nat → Option Nat
  | [], best => best
  | (i, req) :: rest, best =>
    let better :=
      match best with
      | none => true
      | some b => decide (distance i current < distance b current)
    nearest current rest (if req && better then some i else best)

/-- The floor R124 selects. -/
def selectedFloor (x : TickInputs) : Option Nat :=
  nearest x.currentFloor.toNat [(0, x.req0), (1, x.req1), (2, x.req2), (3, x.req3)] none

/-- What a tick's state rule decides: the value it writes to HR[0], if any, and the host's state and target after it
(R123 to R126). -/
structure RuleOutcome where
  write : Option Word
  hst : HostState
  target : Word
  deriving DecidableEq, Repr

/-- The rule of the state the tick began in (R123 to R126, R129). -/
def hostRule (hst : HostState) (target : Word) (x : TickInputs) : RuleOutcome :=
  match hst with
  | .idle =>
    if x.doorClosed && !x.moving then ⟨none, .awaitingSelection, target⟩ else ⟨none, .idle, target⟩
  | .awaitingSelection =>
    match selectedFloor x with
    | some best => ⟨some (BitVec.ofNat 16 (best + 1)), .awaitingAck, BitVec.ofNat 16 (best + 1)⟩
    | none => ⟨none, .awaitingSelection, target⟩
  | .awaitingAck =>
    if x.observedCode = target ∧ 0 < target.toNat then ⟨some 0#16, .awaitingClear, 0#16⟩
    else ⟨none, .awaitingAck, target⟩
  | .awaitingClear =>
    if x.observedCode = 0#16 ∧ !x.moving then ⟨none, .idle, target⟩ else ⟨none, .awaitingClear, target⟩
  | .halted => ⟨none, .halted, target⟩

/-! ### The tick (R121, R122, R127, R128) -/

/-- A change of the host. -/
def State.updHost (s : State) (f : HostLoop → HostLoop) : State := { s with host := f s.host }

/-- The host calls `send(r)` on its client and waits for the value it returns. -/
def hostSend (r : Request) (err : Bool) (phase : HostPhase) (s : State) : Host.Outcome State Fault Refusal :=
  clientSend hostClient .host r err (s.updHost fun h => { h with phase := phase, inbox := none })

/-- A send of a tick failed: the loop terminates (R128). -/
def hostHalts (s : State) : State :=
  s.updHost fun h => { h with hst := .halted, phase := .stopped, inbox := none }

/-- The host takes the value its send returned: it stops when that is no success (R128), and goes on with the payload
otherwise. While nothing has been returned it is blocked. -/
def afterSend (k : Payload → Host.Outcome State Fault Refusal) (s : State) : Host.Outcome State Fault Refusal :=
  match s.host.inbox with
  | none => .next s
  | some (.send (.ok p)) => k p
  | some (.send _) => .next (hostHalts s)
  | some (.connect _) => .fault .hostReturn

/-- The write-back of R127. -/
def writeBack (err : Bool) (s : State) : Host.Outcome State Fault Refusal :=
  hostSend (.wshr 0#16 s.host.localTarget) err .awaitBack s

/-- The rule's new state and target are taken, and the write-back sent, in one step (R124, R125, R127; log 38). -/
def applyRule (r : RuleOutcome) (err : Bool) (s : State) : Host.Outcome State Fault Refusal :=
  writeBack err (s.updHost fun h => { h with hst := r.hst, localTarget := r.target })

/-- The rule of the current tick. -/
def currentRule (s : State) : RuleOutcome := hostRule s.host.hst s.host.localTarget s.host.inputs

/-- The discrete inputs have been read (R122); the input registers are next (R121). -/
def takeDi (err : Bool) (s : State) (p : Payload) : Host.Outcome State Fault Refusal :=
  match p with
  | .bits [systemOn, doorClosed, moving] =>
    hostSend (.rdir 0#16 6#16) err .awaitIr
      (s.updHost fun h =>
        { h with inputs := { h.inputs with systemOn := systemOn, doorClosed := doorClosed, moving := moving } })
  | _ => .fault .hostReturn

/-- The input registers have been read (R122); the holding register is next (R121). -/
def takeIr (err : Bool) (s : State) (p : Payload) : Host.Outcome State Fault Refusal :=
  match p with
  | .regs [floor, ms, r0, r1, r2, r3] =>
    hostSend (.rdhr 0#16 1#16) err .awaitHr
      (s.updHost fun h =>
        { h with
          inputs :=
            { h.inputs with
              currentFloor := floor, msToClose := ms,
              req0 := r0 != 0#16, req1 := r1 != 0#16, req2 := r2 != 0#16, req3 := r3 != 0#16 } })
  | _ => .fault .hostReturn

/-- The holding register has been read (R122): the state's rule is evaluated, and its write or, when it writes
nothing, the write-back is sent (R121 to R127). -/
def takeHr (err : Bool) (s : State) (p : Payload) : Host.Outcome State Fault Refusal :=
  match p with
  | .regs [code] =>
    let seen := s.updHost fun h => { h with inputs := { h.inputs with observedCode := code } }
    match (currentRule seen).write with
    | some v => hostSend (.wshr 0#16 v) err .awaitRule seen
    | none => applyRule (currentRule seen) err seen
  | _ => .fault .hostReturn

/-- A send of the host is made unless its client `cl` is in AWAIT on another caller's send, when it cannot be made (R110;
log 21): nothing changes then, the local work joined to the send included (log 38). What the host does without a send,
halting among it (R128), does not wait for it. -/
def whenFree (cl : Client) (send : Host.Outcome State Fault Refusal) (s : State) : Host.Outcome State Fault Refusal :=
  if cl.cst = .await then .next s else send

/-- One step of the host, with the draws for the call it makes. It neither boots nor begins a tick once the run's caller
has stopped scheduling its ticks; a tick that has begun goes to its end (log 37). DESIGN CHOICE (log 38): R121 orders the
host's local work but does not say how finely it steps. Here taking a read's value, evaluating the rule and updating
`hst` and `localTarget` are one step with the send that follows, so that all of it waits while client 0 is in AWAIT for
another caller. -/
def hostStep (err : Bool) (att : Attempt) (s : State) : Host.Outcome State Fault Refusal :=
  match s.clients[hostClient]? with
  | none => .next s
  | some cl =>
    match s.host.phase with
    | .boot =>
      if s.host.scheduled then
        .next (clientConnect hostClient .host att
          (s.updHost fun h => { h with phase := .connecting, inbox := none }))
      else .next s
    | .connecting =>
      match s.host.inbox with
      | none => .next s
      | some (.connect ok) =>
        .next (s.updHost fun h =>
          { h with phase := if ok then .sleep else .stopped, wait := 0, inbox := none })
      | some (.send _) => .fault .hostReturn
    | .sleep =>
      if s.host.scheduled && decide (s.host.wait = 0) then
        whenFree cl (hostSend (.rddi 0#16 3#16) err .awaitDi s) s
      else .next s
    | .awaitDi => afterSend (fun p => whenFree cl (takeDi err s p) s) s
    | .awaitIr => afterSend (fun p => whenFree cl (takeIr err s p) s) s
    | .awaitHr => afterSend (fun p => whenFree cl (takeHr err s p) s) s
    | .awaitRule => afterSend (fun _ => whenFree cl (applyRule (currentRule s) err s) s) s
    | .awaitBack =>
      afterSend (fun _ =>
        .next (s.updHost fun h => { h with phase := .sleep, wait := s.cfg.tick, inbox := none })) s
    | .stopped => .next s

end Sys2Proof.Machine
end

