-- ==== Sys2Proof/Machine/Serve.lean ====
section
/-! DEFINITION. How a session runs one instruction (spec/40_server_pipeline.md R64, R66 to R71): the step in VALIDATE
that classifies it, decodes its operands and checks its ranges, and the store calls in DISPATCH, one a step. The
instructions' meanings are one line each over these. -/

namespace Sys2Proof.Machine

/-- The step of a session in VALIDATE on a frame that holds `i` (R66 V4 to V7, R68): an ignored code goes back to
RECV; a rejected one raises its code; any other goes to DISPATCH with its operand latches filled, or, when a range
it touches leaves the table, raises 0x02 (R70). Decoding and the range check take effect within this step (R64;
log 5). DEDUCED (log 40): R18 and R69 decode the operand latches before the range check, while R80, R82, R87, R89 and R91
write the assignment of `wvals` after it; here `wvals` is filled with the other operand latches, before it, so it stays
filled when the check raises 0x02. -/
def validateStep (i : Instr) (c : Nat) (s : State) : Host.Outcome State Fault Refusal :=
  let v := verdictOf s.cfg i
  let judged := recordVerdict v c s
  if v.1 then
    if i.code.cls = .ign then ignoreRequest c judged
    else
      let ready := judged.updSession c fun x =>
        { x with latch := fillOperands i x.latch, calls := 0, sst := .dispatch }
      if rangesFit s.cfg.tableLen i then .next ready else raiseException 0x02#8 c ready
  else raiseException v.2 c judged

/-- The step of a session on the instruction `i`: R66 to R70 in VALIDATE, `body` in DISPATCH. The dispatcher asks the
extension flag again (R93, log 30). -/
def serve (i : Instr) (body : Active → State → Host.Outcome State Fault Refusal) (s : State) :
    Host.Outcome State Fault Refusal :=
  match s.active with
  | none => .fault .noActiveSession
  | some a =>
    match a.ses.sst with
    | .validate => validateStep i a.conn s
    | .dispatch => if permitted s.cfg i then body a s else raiseException 0x01#8 a.conn s
    | .recv | .respond | .closed => .fault .notExecuting

/-- A store call has been made and its values are in the latch `rvals` (R18: filled by a store read; that 0x16's read,
whose value is not for the response, fills it too is log 39). -/
def latchRead (vs : List Value) (c : Nat) (s : State) : State :=
  s.updSession c fun x => { x with latch := { x.latch with rvals := some vs }, calls := x.calls + 1 }

/-- A store call has been made and the store is `m`. -/
def latchWrite (m : Memory) (c : Nat) (s : State) : State :=
  { s with mem := m }.updSession c fun x => { x with calls := x.calls + 1 }

/-- One `StoreGet`, whose failure raises 0x04 (R71), and what follows it. -/
def readThen (t : TableKind) (addr cnt : Nat) (k : List Value → State → Host.Outcome State Fault Refusal)
    (a : Active) (s : State) : Host.Outcome State Fault Refusal :=
  match storeGet s t addr cnt a.fail with
  | none => raiseException 0x04#8 a.conn s
  | some vs => k vs (latchRead vs a.conn s)

/-- One `StoreSet`, whose failure raises 0x04 (R71), and what follows it. -/
def writeThen (t : TableKind) (addr : Nat) (vals : List Value) (k : State → Host.Outcome State Fault Refusal)
    (a : Active) (s : State) : Host.Outcome State Fault Refusal :=
  match storeSet s t addr vals a.fail with
  | none => raiseException 0x04#8 a.conn s
  | some m => k (latchWrite m a.conn s)

/-- A bit read (R77, R78). -/
def readBits (c : Code) (t : TableKind) (addr cnt : Word) (a : Active) (s : State) :
    Host.Outcome State Fault Refusal :=
  readThen t addr.toNat cnt.toNat (fun vs => respond (bitReadPdu c cnt vs) a.conn) a s

/-- A register read (R84, R85). -/
def readWords (c : Code) (t : TableKind) (addr cnt : Word) (a : Active) (s : State) :
    Host.Outcome State Fault Refusal :=
  readThen t addr.toNat cnt.toNat (fun vs => respond (wordReadPdu c cnt vs) a.conn) a s

/-- A single-bit write, answered with the canonical value (R79, R81; D11). -/
def writeBit (c : Code) (t : TableKind) (addr val : Word) (a : Active) (s : State) :
    Host.Outcome State Fault Refusal :=
  let b := decodeBitValue val
  writeThen t addr.toNat [.bool b] (respond (twoFieldPdu c addr (encodeBitValue b)) a.conn) a s

/-- A single-register write, answered with the request (R86, R88). -/
def writeWord (c : Code) (t : TableKind) (addr val : Word) (a : Active) (s : State) :
    Host.Outcome State Fault Refusal :=
  writeThen t addr.toNat [ofWord val] (respond (twoFieldPdu c addr val) a.conn) a s

/-- A write of several cells in one store call, answered with address and count (R80, R82, R87, R89). -/
def writeMany (c : Code) (t : TableKind) (addr cnt : Word) (vals : List Value) (a : Active) (s : State) :
    Host.Outcome State Fault Refusal :=
  writeThen t addr.toNat vals (respond (twoFieldPdu c addr cnt) a.conn) a s

end Sys2Proof.Machine
end

