-- ==== Sys2Proof/Machine/BitAccess.lean ====
section
/-! DEFINITION. The bit-table function codes (spec/41_bit_access.md R77 to R82). -/

namespace Sys2Proof.Machine

/-- RDCO, Read Coils (R77). -/
def execRdco (addr cnt : Word) (s : State) : Host.Outcome State Fault Refusal :=
  serve (.rdco addr cnt) (readBits .rdco .co addr cnt) s

/-- RDDI, Read Discrete Inputs (R78). -/
def execRddi (addr cnt : Word) (s : State) : Host.Outcome State Fault Refusal :=
  serve (.rddi addr cnt) (readBits .rddi .di addr cnt) s

/-- WSCO, Write Single Coil (R79). -/
def execWsco (addr val : Word) (s : State) : Host.Outcome State Fault Refusal :=
  serve (.wsco addr val) (writeBit .wsco .co addr val) s

/-- WMCO, Write Multiple Coils (R80). -/
def execWmco (addr cnt : Word) (bc : Byte) (data : List Byte) (s : State) : Host.Outcome State Fault Refusal :=
  serve (.wmco addr cnt bc data) (writeMany .wmco .co addr cnt (bitValues data cnt)) s

/-- WSDI, Write Single Discrete Input (R81), an extension code (R93). -/
def execWsdi (addr val : Word) (s : State) : Host.Outcome State Fault Refusal :=
  serve (.wsdi addr val) (writeBit .wsdi .di addr val) s

/-- WMDI, Write Multiple Discrete Inputs (R82), an extension code (R93). -/
def execWmdi (addr cnt : Word) (bc : Byte) (data : List Byte) (s : State) : Host.Outcome State Fault Refusal :=
  serve (.wmdi addr cnt bc data) (writeMany .wmdi .di addr cnt (bitValues data cnt)) s

end Sys2Proof.Machine
end

