-- ==== Sys2Proof/Machine/Ignored.lean ====
section
/-! DEFINITION. The ignored codes and the illegal codes (spec/43_ignored_and_illegal.md R94 to R104). -/

namespace Sys2Proof.Machine

/-- IGN07, function code 0x07 (R94, R95): no store call, no response, back to RECV. -/
def execIgn07 (payload : List Byte) (s : State) : Host.Outcome State Fault Refusal :=
  serve (.ign07 payload) (fun a => ignoreRequest a.conn) s

/-- IGN08, function code 0x08 (R94, R96): no store call, no response, back to RECV. -/
def execIgn08 (payload : List Byte) (s : State) : Host.Outcome State Fault Refusal :=
  serve (.ign08 payload) (fun a => ignoreRequest a.conn) s

/-- IGN0B, function code 0x0B (R94, R97): no store call, no response, back to RECV. -/
def execIgn0B (payload : List Byte) (s : State) : Host.Outcome State Fault Refusal :=
  serve (.ign0B payload) (fun a => ignoreRequest a.conn) s

/-- IGN0C, function code 0x0C (R94, R98): no store call, no response, back to RECV. -/
def execIgn0C (payload : List Byte) (s : State) : Host.Outcome State Fault Refusal :=
  serve (.ign0C payload) (fun a => ignoreRequest a.conn) s

/-- IGN11, function code 0x11 (R94, R99): no store call, no response, back to RECV. -/
def execIgn11 (payload : List Byte) (s : State) : Host.Outcome State Fault Refusal :=
  serve (.ign11 payload) (fun a => ignoreRequest a.conn) s

/-- IGN14, function code 0x14 (R94, R100): no store call, no response, back to RECV. -/
def execIgn14 (payload : List Byte) (s : State) : Host.Outcome State Fault Refusal :=
  serve (.ign14 payload) (fun a => ignoreRequest a.conn) s

/-- IGN15, function code 0x15 (R94, R101): no store call, no response, back to RECV. -/
def execIgn15 (payload : List Byte) (s : State) : Host.Outcome State Fault Refusal :=
  serve (.ign15 payload) (fun a => ignoreRequest a.conn) s

/-- IGN18, function code 0x18 (R94, R102): no store call, no response, back to RECV. -/
def execIgn18 (payload : List Byte) (s : State) : Host.Outcome State Fault Refusal :=
  serve (.ign18 payload) (fun a => ignoreRequest a.conn) s

/-- IGN2B, function code 0x2B (R94, R103): no store call, no response, back to RECV. -/
def execIgn2B (payload : List Byte) (s : State) : Host.Outcome State Fault Refusal :=
  serve (.ign2B payload) (fun a => ignoreRequest a.conn) s

/-- ILLFC, every function code of class `ILL` (R104): exception 0x01, whatever the payload. -/
def execIllfc (fc : Byte) (payload : List Byte) (s : State) : Host.Outcome State Fault Refusal :=
  serve (.illfc fc payload) (fun a => raiseException 0x01#8 a.conn) s

end Sys2Proof.Machine
end

