-- ==== Sys2Proof/Machine/RegisterAccess.lean ====
section
/-! DEFINITION. The register-table function codes (spec/42_register_access.md R84 to R91). -/

namespace Sys2Proof.Machine

/-- RDHR, Read Holding Registers (R84). -/
def execRdhr (addr cnt : Word) (s : State) : Host.Outcome State Fault Refusal :=
  serve (.rdhr addr cnt) (readWords .rdhr .hr addr cnt) s

/-- RDIR, Read Input Registers (R85). -/
def execRdir (addr cnt : Word) (s : State) : Host.Outcome State Fault Refusal :=
  serve (.rdir addr cnt) (readWords .rdir .ir addr cnt) s

/-- WSHR, Write Single Register (R86). -/
def execWshr (addr val : Word) (s : State) : Host.Outcome State Fault Refusal :=
  serve (.wshr addr val) (writeWord .wshr .hr addr val) s

/-- WMHR, Write Multiple Registers (R87). -/
def execWmhr (addr cnt : Word) (bc : Byte) (data : List Byte) (s : State) : Host.Outcome State Fault Refusal :=
  serve (.wmhr addr cnt bc data) (writeMany .wmhr .hr addr cnt (wordValues data cnt)) s

/-- WSIR, Write Single Input Register (R88), an extension code (R93). -/
def execWsir (addr val : Word) (s : State) : Host.Outcome State Fault Refusal :=
  serve (.wsir addr val) (writeWord .wsir .ir addr val) s

/-- WMIR, Write Multiple Input Registers (R89), an extension code (R93). -/
def execWmir (addr cnt : Word) (bc : Byte) (data : List Byte) (s : State) : Host.Outcome State Fault Refusal :=
  serve (.wmir addr cnt bc data) (writeMany .wmir .ir addr cnt (wordValues data cnt)) s

/-- The value a mask write stores (R90): the source's formula, not the standard one. -/
def maskedValue (v andm orm : Word) : Word := (v &&& andm) ||| orm

/-- MWHR's second store call (R90): the value read before is in the latch `rvals`. -/
def maskWrite (addr andm orm : Word) (a : Active) (s : State) : Host.Outcome State Fault Refusal :=
  match a.ses.latch.rvals with
  | some (v :: _) =>
    writeThen .hr addr.toNat [ofWord (maskedValue (wordOf v) andm orm)]
      (respond (maskPdu .mwhr addr andm orm) a.conn) a s
  | _ => .fault (.unfilledLatch .rvals)

/-- MWHR, Mask Write Register (R90): a StoreGet, then a StoreSet, one a step (R42, R64), so that other agents' calls
may fall between the two. -/
def execMwhr (addr andm orm : Word) (s : State) : Host.Outcome State Fault Refusal :=
  serve (.mwhr addr andm orm)
    (fun a s =>
      if a.ses.calls = 0 then readThen .hr addr.toNat 1 (fun _ => .next) a s
      else maskWrite addr andm orm a s) s

/-- RWHR, Read/Write Multiple Registers (R91): a StoreSet, then a StoreGet, one a step (R42, R64). -/
def execRwhr (raddr rcnt waddr wcnt : Word) (bc : Byte) (data : List Byte) (s : State) :
    Host.Outcome State Fault Refusal :=
  serve (.rwhr raddr rcnt waddr wcnt bc data)
    (fun a s =>
      if a.ses.calls = 0 then writeThen .hr waddr.toNat (wordValues data wcnt) .next a s
      else readWords .rwhr .hr raddr rcnt a s) s

end Sys2Proof.Machine
end

