-- ==== Sys2Proof/Machine/Dispatch.lean ====
section
/-! DEFINITION. The dispatch table of spec/40_server_pipeline.md R69: one arm per instruction. -/

namespace Sys2Proof.Machine

def exec (i : Instr) (s : State) : Host.Outcome State Fault Refusal :=
  match i with
  | .rdco addr cnt => Sys2Proof.Machine.execRdco addr cnt s
  | .rddi addr cnt => Sys2Proof.Machine.execRddi addr cnt s
  | .rdhr addr cnt => Sys2Proof.Machine.execRdhr addr cnt s
  | .rdir addr cnt => Sys2Proof.Machine.execRdir addr cnt s
  | .wsco addr val => Sys2Proof.Machine.execWsco addr val s
  | .wshr addr val => Sys2Proof.Machine.execWshr addr val s
  | .wmco addr cnt bc data => Sys2Proof.Machine.execWmco addr cnt bc data s
  | .wmhr addr cnt bc data => Sys2Proof.Machine.execWmhr addr cnt bc data s
  | .mwhr addr andm orm => Sys2Proof.Machine.execMwhr addr andm orm s
  | .rwhr raddr rcnt waddr wcnt bc data => Sys2Proof.Machine.execRwhr raddr rcnt waddr wcnt bc data s
  | .wmdi addr cnt bc data => Sys2Proof.Machine.execWmdi addr cnt bc data s
  | .wmir addr cnt bc data => Sys2Proof.Machine.execWmir addr cnt bc data s
  | .wsdi addr val => Sys2Proof.Machine.execWsdi addr val s
  | .wsir addr val => Sys2Proof.Machine.execWsir addr val s
  | .ign07 payload => Sys2Proof.Machine.execIgn07 payload s
  | .ign08 payload => Sys2Proof.Machine.execIgn08 payload s
  | .ign0B payload => Sys2Proof.Machine.execIgn0B payload s
  | .ign0C payload => Sys2Proof.Machine.execIgn0C payload s
  | .ign11 payload => Sys2Proof.Machine.execIgn11 payload s
  | .ign14 payload => Sys2Proof.Machine.execIgn14 payload s
  | .ign15 payload => Sys2Proof.Machine.execIgn15 payload s
  | .ign18 payload => Sys2Proof.Machine.execIgn18 payload s
  | .ign2B payload => Sys2Proof.Machine.execIgn2B payload s
  | .illfc fc payload => Sys2Proof.Machine.execIllfc fc payload s

end Sys2Proof.Machine
end

