-- ==== Sys2Proof/Machine/Session.lean ====
section
/-! DEFINITION. The steps of a session handler (spec/40_server_pipeline.md R64 to R68, R72 to R75): receive, validate,
one store call, send. -/

namespace Sys2Proof.Machine

/-- The session of connection `c` goes to CLOSED and its end of the connection closes: the peer is delivered one empty
message (R26, R65, R74; log 10). -/
def closeSession (c : Nat) (s : State) : State :=
  (s.updSession c fun x => { x with sst := .closed }).pushToClient c []

/-- A new message is taken into `rx` (R65): no verdict and no latch of the message before is carried over (R18,
R22). DESIGN CHOICE (log 41): `tx` keeps the frame of the message before until a new frame is built. -/
def acceptMessage (m : Message) (c : Nat) (s : State) : State :=
  s.updSession c fun x =>
    { x with rx := m, sst := .validate, verdict := none, latch := Latches.empty, calls := 0 }

/-- Receive (R65): a transport error or an empty message closes the session, a message goes to VALIDATE, and an empty
channel blocks it, which leaves everything as it is. -/
def receiveStep (err : Bool) (c : Nat) (k : Connection) (s : State) : State :=
  if err then closeSession c s
  else
    match k.toServer with
    | [] => s
    | m :: _ => if m = [] then closeSession c (s.popToServer c) else acceptMessage m c (s.popToServer c)

/-- Validate (R66, R68). A frame that fails V1 to V3 is dropped; otherwise the header latches are filled and the
instruction the PDU holds is run; a PDU of the wrong length for its code holds none and gets the validator's
code. -/
def validateMessage (c : Nat) (ses : Session) (s : State) : Host.Outcome State Fault Refusal :=
  if headerOk ses.rx then
    let filled := s.updSession c fun x => { x with latch := fillHeader ses.rx x.latch }
    match decode (pduOf ses.rx) with
    | .ok i => exec i filled
    | .error _ =>
      let v := validateRequest s.cfg ses.rx
      raiseException v.2 c (recordVerdict v c filled)
  else .next (returnToReceive c (recordVerdict (validateRequest s.cfg ses.rx) c s))

/-- Respond (R73, R74): the response is checked, replaced where the check fails, and sent; on a transport error the
session closes instead. DESIGN CHOICE (log 35): R74 and R137 do not say whether the frame of a send that errs reaches
the channel; here it does not, and the peer is delivered the empty message alone (log 10). -/
def respondStep (err : Bool) (c : Nat) (ses : Session) (s : State) : Host.Outcome State Fault Refusal :=
  match ses.latch.tid with
  | none => .fault (.unfilledLatch .tid)
  | some tid =>
    match ses.latch.uid with
    | none => .fault (.unfilledLatch .uid)
    | some uid =>
      match ses.latch.fc with
      | none => .fault (.unfilledLatch .fc)
      | some fc =>
        match outboundVerdict s.cfg fc ses.latch ses.tx with
        | .error f => .fault f
        | .ok v =>
          let m := outboundFrame v tid uid fc ses.tx
          let framed := s.updSession c fun x => { x with tx := m }
          if err then .next (closeSession c framed)
          else .next (returnToReceive c (framed.pushToClient c m))

/-- One step of the session of connection `c` (R64), with the transport-error draw `err`. A connection that no session
serves, and a session in CLOSED, have no step: nothing changes (log 4). -/
def sessionStep (c : Nat) (err : Bool) (s : State) : Host.Outcome State Fault Refusal :=
  match s.conns[c]? with
  | none => .next s
  | some k =>
    match k.session? with
    | none => .next s
    | some ses =>
      match ses.sst with
      | .recv => .next (receiveStep err c k s)
      | .validate => validateMessage c ses s
      | .dispatch =>
        match decode (pduOf ses.rx) with
        | .ok i => exec i s
        | .error _ => .fault .undecodableDispatch
      | .respond => respondStep err c ses s
      | .closed => .next s

end Sys2Proof.Machine
end

