-- ==== Sys2Proof/Machine/Moves.lean ====
section
/-! DEFINITION. What each move of an agent does (spec/10_state.md R15, spec/60_exceptions.md R139). -/

namespace Sys2Proof.Machine

/-- One step of the agent the move names. -/
def act (m : Move) (s : State) : Host.Outcome State Fault Refusal :=
  match m with
  | .session c err _ => sessionStep c err s
  | .accept c => .next (acceptStep c s)
  | .peerOpen => .next (peerOpen s)
  | .peerSend c m => .next (peerSend c m s)
  | .peerRecv c => .next (peerRecv c s)
  | .peerClose c => .next (peerClose c s)
  | .foreignSend c m => .next (foreignSend c m s)
  | .foreignRecv c => .next (foreignRecv c s)
  | .foreignClose c => .next (foreignClose c s)
  | .client k err att => clientStep k err att s
  | .userConnect k att => .next (clientConnect k .user att s)
  | .userSend k r err => clientSend k .user r err s
  | .userClose k => .next (clientClose k s)
  | .newClient => .next (newClient s)
  | .host err att => hostStep err att s
  | .stopTicks => .next (stopTicks s)
  | .time => .next (timePasses s)
  | .extGet t a c fail => .next (extGet t a c fail s)
  | .extSet t a vals fail => .next (extSet t a vals fail s)
  | .restart => .next (restart s)

/-- The next move is drawn (log 3): draw number `n`. -/
def redraw (n : Nat) (s : State) : State := { s with choice := Config.draw n, draws := n + 1 }

/-- The outcome of a move, with the next move drawn. -/
def thenRedraw (n : Nat) : Host.Outcome State Fault Refusal → Host.Outcome State Fault Refusal
  | .next t => .next (redraw n t)
  | .fault f => .fault f
  | .refused r => .refused r

/-- A session in VALIDATE that has received the message `m`. -/
def holding (m : Message) : Session := { Session.fresh with sst := .validate, rx := m }

/-- The state with one more connection, whose session has received `m` and takes the next step. -/
def withReceived (m : Message) (s : State) : State :=
  { s.addConn (newConnection .outside (.session (holding m))) with
    choice := .session s.conns.length false false }

end Sys2Proof.Machine
end

