-- ==== Sys2Proof/Machine/Step.lean ====
section
/-! DEFINITION. One step of the whole system: the move that has been drawn is made, and the next one is drawn
(spec/10_state.md R15, spec/20_memory.md R39; log 3). -/

namespace Sys2Proof.Machine

/-- One step. -/
def step (s : State) : Host.Outcome State Fault Refusal := thenRedraw s.draws (act s.choice s)

/-- The state with the instruction of table word `w` received by a session that takes the next step (log 23): a frame
with Transaction ID 0 and Unit ID 0 on a connection of its own. The block fetches no instruction from memory (R43);
a request comes to a session from its channel (R65). -/
def State.withFetchWord (s : State) (nbits w : Nat) : State := withReceived (frame 0#16 0#8 (tablePdu nbits w)) s

end Sys2Proof.Machine
end

