-- ==== Sys2Proof/Safety.lean ====
section
/-! DEFINITION. What counts as a sound state, and the end of a run. `State.sound` is the invariant claims rest on; `finished`
and `hung` are spec/70_reset_and_hazards.md R158 and R150. -/

namespace Sys2Proof.Machine

/-! ### Sessions -/

/-- Where a session in DISPATCH stands between the store calls of its instruction (R42, R64): no call made, or the
first of 0x16's or 0x17's two (log 8), 0x16's having filled `rvals` with one value (log 39). -/
def Session.callsOk (ses : Session) (i : Instr) : Bool :=
  match ses.calls, i, ses.latch.rvals with
  | 0, _, none => true
  | 1, .mwhr _ _ _, some [_] => true
  | 1, .rwhr _ _ _ _ _ _, none => true
  | _, _, _ => false

/-- A session in DISPATCH holds a frame whose instruction passed the validator and the range check, and the latches
that instruction fills (R18, R66 to R70; that the range check is behind it is log 5, that the latches agree with `rx` log 7,
that a single write has filled `wvals` log 39). -/
def Session.dispatchOk (g : Cfg) (ses : Session) : Bool :=
  headerOk ses.rx &&
  match decode (pduOf ses.rx) with
  | .error _ => false
  | .ok i =>
    (verdictOf g i).1 && decide (i.code.cls ≠ .ign) && rangesFit g.tableLen i && ses.callsOk i &&
    decide ({ ses.latch with rvals := none } = fillOperands i (fillHeader ses.rx Latches.empty))

/-- A session in RESPOND has the header latches its response is framed with, and its response passes the outbound
check (R73). -/
def Session.respondOk (g : Cfg) (ses : Session) : Bool :=
  match ses.latch.tid, ses.latch.uid, ses.latch.fc with
  | some _, some _, some fc =>
    match outboundVerdict g fc ses.latch ses.tx with
    | .ok v => v.1
    | .error _ => false
  | _, _, _ => false

/-- A verdict pair the validator can give (R22, R23): code 0 with `valid`, and 0x00, 0x01 or 0x02 in any case. -/
def verdictLegal (v : Bool × Byte) : Bool :=
  (!v.1 || decide (v.2 = 0x00#8)) && decide (v.2 = 0x00#8 ∨ v.2 = 0x01#8 ∨ v.2 = 0x02#8)

/-- A session as a run can leave it: its verdict register holds a pair the validator can give, and in VALIDATE no latch
is filled yet (R18; cleared in RECV: log 31). -/
def Session.sound (g : Cfg) (ses : Session) : Bool :=
  (match ses.verdict with
   | some v => verdictLegal v
   | none => true) &&
  match ses.sst with
  | .recv | .closed => true
  | .validate => decide (ses.latch = Latches.empty)
  | .dispatch => ses.dispatchOk g
  | .respond => ses.respondOk g

/-- A connection whose session, if it has one, is sound. -/
def Connection.sound (g : Cfg) (k : Connection) : Bool :=
  match k.session? with
  | some ses => ses.sound g
  | none => true

/-! ### Clients -/

/-- A client that has a connection has one of its own (R15, R108), and one that has none yet holds none. -/
def Client.connOk (s : State) (k : Nat) (cl : Client) : Bool :=
  match cl.cst with
  | .ready | .await =>
    match cl.conn with
    | some c =>
      match s.conns[c]? with
      | some conn => decide (conn.owner = .client k)
      | none => false
    | none => false
  | .idle | .connecting => decide (cl.conn = none)
  | .failed => true

/-- `elapsed` stays in the range of R23: within CONNECT_BOUND while CONNECTING, and beyond it by at most one
CONNECT_POLL. -/
def Client.elapsedOk (g : Cfg) (cl : Client) : Bool :=
  decide (cl.elapsed ≤ g.connectBound + g.connectPoll) &&
  (decide (cl.cst ≠ .connecting) || decide (cl.elapsed ≤ g.connectBound))

/-- A client as a run can leave it: CLI_PEND is present exactly in AWAIT (R25), it has its connection, and only client 0
works for the host (log 24; whom it works for is the register `caller`: log 34). -/
def Client.sound (s : State) (k : Nat) (cl : Client) : Bool :=
  decide (cl.pend.isSome ↔ cl.cst = .await) && cl.connOk s k && cl.elapsedOk s.cfg &&
  (decide (k = hostClient) || decide (cl.caller = .user))

/-! ### The host -/

/-- Whether a client in AWAIT with this pending record can be working on the host's send of phase `ph` (R121, R124,
R125, R127). -/
def HostPhase.sends (ph : HostPhase) (p : Pending) : Bool :=
  match ph with
  | .awaitDi => decide (p.fc = 0x02#8 ∧ p.cnt = 3#16)
  | .awaitIr => decide (p.fc = 0x04#8 ∧ p.cnt = 6#16)
  | .awaitHr => decide (p.fc = 0x03#8 ∧ p.cnt = 1#16)
  | .awaitRule | .awaitBack => decide (p.fc = 0x06#8)
  | .boot | .connecting | .sleep | .stopped => false

/-- Whether a returned value is one the host's call of phase `ph` can return (R105, R107, R116). -/
def HostPhase.takes (ph : HostPhase) (r : Return) : Bool :=
  match ph, r with
  | .connecting, .connect _ => true
  | .connecting, .send _ => false
  | .awaitDi, .send (.ok (.bits [_, _, _])) => true
  | .awaitIr, .send (.ok (.regs [_, _, _, _, _, _])) => true
  | .awaitHr, .send (.ok (.regs [_])) => true
  | .awaitDi, .send (.ok _) | .awaitIr, .send (.ok _) | .awaitHr, .send (.ok _) => false
  | .awaitDi, .send _ | .awaitIr, .send _ | .awaitHr, .send _ => true
  | .awaitRule, .send _ | .awaitBack, .send _ => true
  | .awaitDi, .connect _ | .awaitIr, .connect _ | .awaitHr, .connect _ => false
  | .awaitRule, .connect _ | .awaitBack, .connect _ => false
  | .boot, _ | .sleep, _ | .stopped, _ => true

/-- What client 0 may be working on for the host: the call of the host's phase (log 19), which has not returned to the
inbox yet (log 24, log 34). -/
def HostLoop.callOk (h : HostLoop) (cl : Client) : Bool :=
  match cl.caller, cl.cst with
  | .host, .connecting => decide (h.phase = .connecting) && decide (h.inbox = none)
  | .host, .await =>
    match cl.pend with
    | some p => h.phase.sends p && decide (h.inbox = none)
    | none => false
  | _, _ => true

/-- The target code a control-loop state goes with (R124, R125, R130): 1 to 4 in AwaitingAck, at most 4 once Halted,
else 0. State and target change in one step (log 38). -/
def HostLoop.targetOk (h : HostLoop) : Bool :=
  match h.hst with
  | .idle | .awaitingSelection | .awaitingClear => decide (h.localTarget = 0#16)
  | .awaitingAck => decide (1 ≤ h.localTarget.toNat ∧ h.localTarget.toNat ≤ 4)
  | .halted => decide (h.localTarget.toNat ≤ 4)

/-- The host as a run can leave it: its returned value fits its phase, its client's call is its own, its target code
fits its state, and once Halted it is stopped (R128). -/
def HostLoop.sound (s : State) (h : HostLoop) : Bool :=
  (match h.inbox with
   | some r => h.phase.takes r
   | none => true) &&
  (match s.clients[hostClient]? with
   | some cl => h.callOk cl
   | none => true) &&
  h.targetOk && (decide (h.hst ≠ .halted) || decide (h.phase = .stopped))

/-! ### The invariant -/

/-- The invariant of the whole system. `Obligations.StepKeepsInvariant` names the log entries of the model's own registers
and choices in it. -/
structure State.Inv (s : State) : Prop where
  cfg : s.cfg.legal = true
  memWf : s.mem.wf = true
  memFits : s.mem.fits s.cfg.tableLen = true
  conns : ∀ (c : Nat) (k : Connection), s.conns[c]? = some k → k.sound s.cfg = true
  clients : ∀ (k : Nat) (cl : Client), s.clients[k]? = some cl → cl.sound s k = true
  host : s.host.sound s = true

/-! ### The end of a run (R158) and hangs (R150) -/

/-- A connection on which nothing is under way at the server: no session, or one that is CLOSED or in RECV with nothing
to receive. -/
def Connection.quiet (k : Connection) : Bool :=
  match k.session? with
  | none => true
  | some ses => decide (ses.sst = .closed) || (decide (ses.sst = .recv) && decide (k.toServer = []))

/-- A move that is a call outstanding: an external writer's step, or a user's connect or send, drawn and not made yet
(log 37). -/
def Move.isCall : Move → Bool
  | .extGet _ _ _ _ | .extSet _ _ _ _ | .userConnect _ _ | .userSend _ _ _ => true
  | _ => false

/-- A host that is Halted, or whose ticks are no longer scheduled (R158): its connect failed, so that it never ticks
(R132), or the run's caller stopped scheduling while no tick and no connect of it was under way (log 37). -/
def HostLoop.done (h : HostLoop) : Bool :=
  decide (h.hst = .halted) || decide (h.phase = .stopped) ||
  (!h.scheduled && decide (h.phase = .boot ∨ h.phase = .sleep))

/-- A finished state (R158): every client is in IDLE, READY or FAILED, so that no caller has a call outstanding; every
session is CLOSED or in RECV with an empty inbound channel; the host is Halted or its ticks are no longer scheduled; no
external writer has a step outstanding. -/
def State.finished (s : State) : Bool :=
  s.clients.all (fun cl => decide (cl.cst = .idle ∨ cl.cst = .ready ∨ cl.cst = .failed)) &&
  s.conns.all Connection.quiet && s.host.done && !Move.isCall s.choice

/-- Client `k` hangs on connection `c` (R150, R158): it is in AWAIT there, its inbound channel is empty, and the session
serving it is in RECV with an empty inbound channel. -/
def State.hung (s : State) (k c : Nat) : Prop :=
  ∃ cl conn ses, s.clients[k]? = some cl ∧ cl.cst = .await ∧ cl.conn = some c ∧
    s.conns[c]? = some conn ∧ conn.toClient = [] ∧ conn.toServer = [] ∧
    conn.session? = some ses ∧ ses.sst = .recv

/-- The moves that can end such a wait: a transport error of the session or of the client, a close from outside the
blocked caller (R118), a restart. Everything else the agents and the environment do leaves it. -/
def endsWait (k c : Nat) : Move → Bool
  | .session d err _ => decide (d = c) && err
  | .client j err _ => decide (j = k) && err
  | .userClose j => decide (j = k)
  | .restart => true
  | _ => false

/-! ### What statements about instructions say -/

/-- The session step being taken is that of connection `c`, whose session `ses` is in state `sst` with the header
latches `tid`, `uid`, `fc` filled; `fail` is its store-failure draw. -/
structure Executing (s : State) (sst : SesState) (c : Nat) (fail : Bool) (ses : Session) (tid : Word) (uid fc : Byte) :
    Prop where
  active : s.active = some ⟨c, fail, ses⟩
  state : ses.sst = sst
  tid : ses.latch.tid = some tid
  uid : ses.latch.uid = some uid
  fc : ses.latch.fc = some fc

/-- The state after the session of connection `c` has chosen the response `pdu`: it is framed with the request's
Transaction ID and Unit ID (R61) and the session is in RESPOND; nothing else differs from `s`. -/
def State.answered (s : State) (c : Nat) (tid : Word) (uid : Byte) (pdu : Message) : State :=
  s.updSession c fun x => { x with tx := frame tid uid pdu, sst := .respond }

/-- The state after a StoreGet has given `vs` and the response `pdu` has been chosen: the latch `rvals` is filled, one
more store call is counted, the response is framed and the session is in RESPOND. -/
def State.readAnswered (s : State) (c : Nat) (tid : Word) (uid : Byte) (vs : List Value) (pdu : Message) : State :=
  s.updSession c fun x =>
    { x with
      latch := { x.latch with rvals := some vs }, calls := x.calls + 1, tx := frame tid uid pdu, sst := .respond }

/-- The state after a StoreSet has made the store `m` and the response `pdu` has been chosen: one more store call is
counted, the response is framed and the session is in RESPOND. -/
def State.wroteAnswered (s : State) (m : Memory) (c : Nat) (tid : Word) (uid : Byte) (pdu : Message) : State :=
  { s with mem := m }.updSession c fun x =>
    { x with calls := x.calls + 1, tx := frame tid uid pdu, sst := .respond }

/-- `cnt` cells of a bit table from cell `a` on, each true exactly when it is not 0 (R31). -/
def State.bitsAt (s : State) (t : TableKind) (a cnt : Nat) : List Bool :=
  (List.range cnt).map fun j => s.mem.cell t (a + j) != 0#16

/-- `cnt` cells of a register table from cell `a` on (R31). -/
def State.wordsAt (s : State) (t : TableKind) (a cnt : Nat) : List Word :=
  (List.range cnt).map fun j => s.mem.cell t (a + j)

/-- The store `m` is `s`'s but for the cells `a` to `a + n - 1` of table `t`, where cell `a + j` is `v j`. -/
def State.writes (s : State) (m : Memory) (t : TableKind) (a n : Nat) (v : Nat → Word) : Prop :=
  m.wf = true ∧
    ∀ u b, m.cell u b = if u = t ∧ a ≤ b ∧ b < a + n then v (b - a) else s.mem.cell u b

/-- What an instruction leaves of its session: the message in `rx` and the header latches (R18, R66). -/
structure Session.SameHeader (x y : Session) : Prop where
  rx : y.rx = x.rx
  tid : y.latch.tid = x.latch.tid
  pid : y.latch.pid = x.latch.pid
  len : y.latch.len = x.latch.len
  uid : y.latch.uid = x.latch.uid
  fc : y.latch.fc = x.latch.fc

/-- From `s` to `t` nothing changed but the store and the session of connection `c`, whose message and header latches
stay. -/
structure OnlySession (s t : State) (c : Nat) : Prop where
  cfg : t.cfg = s.cfg
  listener : t.listener = s.listener
  clients : t.clients = s.clients
  host : t.host = s.host
  choice : t.choice = s.choice
  draws : t.draws = s.draws
  others : ∀ d, d ≠ c → t.conns[d]? = s.conns[d]?
  own : ∃ f : Session → Session, (∀ x : Session, x.SameHeader (f x)) ∧
    t.conns[c]? = s.conns[c]?.map (Connection.mapSession f)

/-- The cells an instruction's StoreSet writes: table, first cell, count (R79 to R82, R86 to R91). -/
def storedCells : Instr → Option (TableKind × Nat × Nat)
  | .wsco a _ => some (.co, a.toNat, 1)
  | .wsdi a _ => some (.di, a.toNat, 1)
  | .wshr a _ => some (.hr, a.toNat, 1)
  | .wsir a _ => some (.ir, a.toNat, 1)
  | .wmco a c _ _ => some (.co, a.toNat, c.toNat)
  | .wmdi a c _ _ => some (.di, a.toNat, c.toNat)
  | .wmhr a c _ _ => some (.hr, a.toNat, c.toNat)
  | .wmir a c _ _ => some (.ir, a.toNat, c.toNat)
  | .mwhr a _ _ => some (.hr, a.toNat, 1)
  | .rwhr _ _ wa wc _ _ => some (.hr, wa.toNat, wc.toNat)
  | .rdco _ _ | .rddi _ _ | .rdhr _ _ | .rdir _ _ => none
  | .ign07 _ | .ign08 _ | .ign0B _ | .ign0C _ | .ign11 _ | .ign14 _ | .ign15 _ | .ign18 _ | .ign2B _ => none
  | .illfc _ _ => none

/-! ### Chosen moves -/

/-- One step in which the move `m` is taken, whatever had been drawn. -/
def State.take (m : Move) (s : State) : Host.Outcome State Fault Refusal := step { s with choice := m }

/-- The moves `ms` are taken one after another. -/
def State.takeAll : List Move → State → Host.Outcome State Fault Refusal
  | [], s => .next s
  | m :: ms, s =>
    match s.take m with
    | .next t => t.takeAll ms
    | .fault f => .fault f
    | .refused r => .refused r

/-- The moves by which something is done at client `k`: its own step, a call of a user, the passing of time, and, at the
host's client, the host's step. -/
def Move.atClient (k : Nat) : Move → Bool
  | .client j _ _ | .userConnect j _ | .userSend j _ _ | .userClose j => decide (j = k)
  | .host _ _ => decide (k = hostClient)
  | .time | .restart => true
  | _ => false

/-- The host's next step in `s` is the call `send(i)` on client 0, with `h` the host that waits for what it returns:
in READY the request is transmitted, or, on a transport error, the client is FAILED and Transport comes back (R111, R112,
R117; log 14; what comes back stands in the inbox: log 34); in IDLE, CONNECTING and FAILED NotReady comes back and nothing is sent (R110); in AWAIT, which is another caller's,
the call cannot be made yet, and the host's step, the local work joined to the call included, changes nothing (log 21,
log 38). -/
def State.hostSends (s : State) (i : Instr) (h : HostLoop) : Prop :=
  ∀ (cl : Client) (att : Attempt), s.clients[hostClient]? = some cl →
    (∀ (c : Nat) (conn : Connection), cl.cst = .ready → cl.conn = some c → s.conns[c]? = some conn →
      s.take (.host false att) = .next (redraw s.draws
        ((({ s with host := h }).pushToServer c (frame (cl.tidCtr + 1#16) s.cfg.unitId (encode i))).updClient hostClient
          fun x =>
            { x with
              tidCtr := x.tidCtr + 1#16, cst := .await, caller := .host,
              pend := some ⟨cl.tidCtr + 1#16, s.cfg.unitId, i.fc, awaitedCount i, i.code.respFormat⟩ })) ∧
      s.take (.host true att) = .next (redraw s.draws
        (({ s with host := { h with inbox := some (.send .transport) } }).updClient hostClient fun x =>
          { x with cst := .failed, pend := none }))) ∧
    ∀ err : Bool,
      (cl.cst = .idle ∨ cl.cst = .connecting ∨ cl.cst = .failed →
        s.take (.host err att) =
          .next (redraw s.draws { s with host := { h with inbox := some (.send .notReady) } })) ∧
      (cl.cst = .await → s.take (.host err att) = .next (redraw s.draws s))

/-! ### Runs and progress (R157) -/

/-- The agents whose steps R157 speaks of, those of R15 that hold a step of their own in the block; `clock` lets time
units pass while an agent waits for them. What users, outside peers and external writers do next is theirs to decide
(log 26). -/
inductive Agent where
  | listener | session (c : Nat) | client (k : Nat) | host | clock
  deriving DecidableEq, Repr

/-- The agent whose step a move is. -/
def Move.agent : Move → Option Agent
  | .accept _ => some .listener
  | .session c _ _ => some (.session c)
  | .client k _ _ => some (.client k)
  | .host _ _ => some .host
  | .time => some .clock
  | .peerOpen | .peerSend _ _ | .peerRecv _ | .peerClose _ => none
  | .foreignSend _ _ | .foreignRecv _ | .foreignClose _ => none
  | .userConnect _ _ | .userSend _ _ _ | .userClose _ | .newClient => none
  | .stopTicks | .extGet _ _ _ _ | .extSet _ _ _ _ | .restart => none

/-- A move for which the environment draws a transport error (R65, R74, R113). -/
def Move.errs : Move → Bool
  | .session _ err _ | .client _ err _ | .host err _ | .userSend _ _ err => err
  | _ => false

/-- A move that does something here: one of a blocked or absent agent changes nothing (log 4). -/
def Move.effective (m : Move) (s : State) : Prop := act m { s with choice := m } ≠ .next { s with choice := m }

/-- The step of an agent is enabled: some move of it does something without a transport error, which would be an event
of the environment and not a step the agent could take (R65, R139). -/
def Agent.enabled (a : Agent) (s : State) : Prop := ∃ m, Move.agent m = some a ∧ Move.errs m = false ∧ Move.effective m s

/-- A run: a sequence of states, each reached from the one before by taking the move chosen for it. With the drawn moves,
`moves n = (run n).choice`, each state is the `step` of the one before. -/
def IsRun (moves : Nat → Move) (run : Nat → State) : Prop := ∀ n, (run n).take (moves n) = .next (run (n + 1))

/-- Weak fairness (R157, D43): an agent whose step stays enabled from some point on takes it at some later point. No
step assumes it; a claim that a request is answered takes it as a premise (log 26). -/
def WeaklyFair (moves : Nat → Move) (run : Nat → State) : Prop :=
  ∀ (a : Agent) (n : Nat), (∀ m, n ≤ m → a.enabled (run m)) →
    ∃ m, n ≤ m ∧ Move.agent (moves m) = some a ∧ Move.effective (moves m) (run m)

end Sys2Proof.Machine
end

