-- ==== Sys2Proof/Certificates/Slice0/Obligations.lean ====
section
/-! DEFINITION. The statements for the provers. Each docstring names the rules of spec/ the statement formalises, and the
log entries of the model's own choices it rests on. That a step draws the move after it (`redraw`) is log 3
throughout. -/

section Statements

open Sys2Proof Sys2Proof.Machine

/-! ### Fetching and decoding -/

/-- R64, R68, R69: when the message in `rx` of the session that steps holds the instruction `i`, the step is exec of
`i`: in DISPATCH at the state as it is, in VALIDATE at the state whose header latches V3 has filled (R66). Around
exec the step only draws the next move (log 3). -/
def Obligations.StepRunsDecodedInstruction : Prop :=
  ∀ (s : State) (c : Nat) (err fail : Bool) (ses : Session) (i : Instr),
    s.choice = .session c err fail → s.session? c = some ses → decode (pduOf ses.rx) = .ok i →
    (ses.sst = .dispatch → step s = thenRedraw s.draws (exec i s)) ∧
    (ses.sst = .validate → headerOk ses.rx = true →
      step s = thenRedraw s.draws
        (exec i (s.updSession c fun x =>
          { x with
            latch :=
              { x.latch with
                tid := some (be16 ses.rx 0), pid := some (be16 ses.rx 2), len := some (be16 ses.rx 4),
                uid := some (byteAt ses.rx 6), fc := some (byteAt ses.rx 7) } })))

/-- R48, R49, R66: a session that holds `Frame(tid, uid, encode i)` of a well-formed instruction `i` runs exec of `i`,
at a state whose session has the frame's Transaction ID, Unit ID and function code in its latches. -/
def Obligations.FramedInstructionIsExecuted : Prop :=
  ∀ (s : State) (c : Nat) (err fail : Bool) (ses : Session) (i : Instr) (tid : Word) (uid : Byte),
    s.choice = .session c err fail → s.session? c = some ses → ses.sst = .validate → i.wellFormed = true →
    ses.rx = frame tid uid (encode i) →
    ∃ u x, step s = thenRedraw s.draws (exec i u) ∧ Executing u .validate c fail x tid uid i.fc ∧ x.rx = ses.rx ∧
      u.mem = s.mem ∧ u.cfg = s.cfg

/-- R50, R52 to R54, R56: words of every format, written out byte by byte, decode to the instruction they stand for;
a wrong length is refused by name. -/
def Obligations.SpecWordsDecode : Prop :=
  decode [0x01#8, 0x00#8, 0x13#8, 0x00#8, 0x0A#8] = .ok (.rdco 0x0013#16 10#16) ∧
  decode [0x03#8, 0x12#8, 0x34#8, 0x00#8, 0x7F#8] = .ok (.rdhr 0x1234#16 127#16) ∧
  decode [0x65#8, 0x00#8, 0x0F#8, 0x80#8, 0x00#8] = .ok (.wsdi 15#16 0x8000#16) ∧
  decode [0x0F#8, 0x00#8, 0x02#8, 0x00#8, 0x03#8, 0x01#8, 0x05#8] = .ok (.wmco 2#16 3#16 1#8 [0x05#8]) ∧
  decode [0x16#8, 0x00#8, 0x04#8, 0x00#8, 0xF2#8, 0x00#8, 0x25#8] = .ok (.mwhr 4#16 0x00F2#16 0x0025#16) ∧
  decode [0x17#8, 0x00#8, 0x00#8, 0x00#8, 0x02#8, 0x00#8, 0x01#8, 0x00#8, 0x01#8, 0x02#8, 0x00#8, 0xFF#8] =
    .ok (.rwhr 0#16 2#16 1#16 1#16 2#8 [0x00#8, 0xFF#8]) ∧
  decode [0x2B#8, 0x0E#8, 0x01#8, 0x00#8] = .ok (.ign2B [0x0E#8, 0x01#8, 0x00#8]) ∧
  decode [0x83#8] = .ok (.illfc 0x83#8 []) ∧
  decode [0x03#8, 0x00#8, 0x00#8, 0x00#8] = .error (.length 0x03#8) ∧
  decode [] = .error .empty

/-- R48 to R53: the decoder reads from the words of a well-formed instruction, alone or framed, that instruction, and
its frame passes V1 to V3. -/
def Obligations.DecodeEncode : Prop :=
  ∀ (i : Instr) (tid : Word) (uid : Byte), i.wellFormed = true →
    decode (encode i) = .ok i ∧ headerOk (frame tid uid (encode i)) = true ∧
      decode (pduOf (frame tid uid (encode i))) = .ok i

/-- R50, R52: no two PDUs are the same instruction: the words of the instruction a PDU decodes to are that PDU, and in
a frame that passes V1 to V3 it is well-formed. -/
def Obligations.EncodeDecode : Prop :=
  (∀ (p : Message) (i : Instr), decode p = .ok i → encode i = p) ∧
  ∀ (m : Message) (i : Instr), headerOk m = true → decode (pduOf m) = .ok i → i.wellFormed = true

/-! ### The codec -/

/-- R49: the fields of `Frame(tid, uid, pdu)`; its length; it is well formed, and the PDU is read back from it. -/
def Obligations.FrameFields : Prop :=
  ∀ (tid : Word) (uid : Byte) (pdu : Message), 1 ≤ pdu.length → pdu.length ≤ 65534 →
    frame tid uid pdu =
      enc16 tid ++ [0x00#8, 0x00#8] ++ enc16 (BitVec.ofNat 16 (1 + pdu.length)) ++ [uid] ++ pdu ∧
    (frame tid uid pdu).length = 7 + pdu.length ∧ be16 (frame tid uid pdu) 0 = tid ∧
    be16 (frame tid uid pdu) 2 = 0#16 ∧
    (be16 (frame tid uid pdu) 4).toNat = 1 + pdu.length ∧
    (be16 (frame tid uid pdu) 4).toNat = (frame tid uid pdu).length - 6 ∧
    byteAt (frame tid uid pdu) 6 = uid ∧ pduOf (frame tid uid pdu) = pdu ∧ headerOk (frame tid uid pdu) = true

/-- R54: `PackBits` puts bit `j` in bit `j mod 8` of byte `j div 8` of `ceil8(N)` bytes, with 0 beyond `N`;
`UnpackBits` is its inverse and ignores the padding. -/
def Obligations.BitPacking : Prop :=
  ∀ (bs : List Bool),
    (packBits bs).length = (bs.length + 7) / 8 ∧
    (∀ j, j < 8 * ((bs.length + 7) / 8) →
      (byteAt (packBits bs) (j / 8)).getLsbD (j % 8) = if j < bs.length then bs.getD j false else false) ∧
    unpackBits (packBits bs) bs.length = bs ∧
    ∀ (d : List Byte) (n j : Nat), j < n →
      (unpackBits d n)[j]? = some ((byteAt d (j / 8)).getLsbD (j % 8))

/-- R56: the class of each of the 256 values of the function-code byte. -/
def Obligations.FunctionCodeClasses : Prop :=
  ∀ fc : Byte,
    (Code.ofByte fc).cls =
      if fc.toNat ∈ [0x01, 0x02, 0x03, 0x04, 0x05, 0x06, 0x0F, 0x10, 0x16, 0x17] then .std
      else if fc.toNat ∈ [0x62, 0x64, 0x65, 0x66] then .ext
      else if fc.toNat ∈ [0x07, 0x08, 0x0B, 0x0C, 0x11, 0x14, 0x15, 0x18, 0x2B] then .ign
      else .ill

/-! ### Reset -/

/-- R145, R146: what a reset leaves, in any configuration `g`; a session when it is created; and a restart leaves that
same state in its configuration, but for the next move (log 22), whatever stood before. -/
def Obligations.ResetLeavesSpecState : Prop :=
  (∀ s : State, ∃ t, s.take .restart = .next t ∧
    t = { State.resetWith s.cfg with choice := t.choice, draws := t.draws }) ∧
  ∀ g : Cfg,
    (∀ (t : TableKind) (a : Nat), (State.resetWith g).mem.cell t a = 0#16) ∧
    (State.resetWith g).listener = .listen ∧ (State.resetWith g).conns = [] ∧ (State.resetWith g).cfg = g ∧
    (∀ cl ∈ (State.resetWith g).clients,
      cl.cst = .idle ∧ cl.tidCtr = g.tidReset ∧ cl.elapsed = 0 ∧ cl.pend = none) ∧
    (State.resetWith g).host.hst = .idle ∧ (State.resetWith g).host.localTarget = 0#16 ∧
    Session.fresh.sst = .recv ∧ Session.fresh.rx = [] ∧ Session.fresh.tx = [] ∧
    Session.fresh.latch = Latches.empty ∧ Session.fresh.verdict = none

/-- The state right after reset meets the invariant, in every legal configuration, and so in the one State.reset carries
(log 2). -/
def Obligations.ResetMeetsInvariant : Prop :=
  (∀ g : Cfg, g.legal = true → (State.resetWith g).Inv) ∧ State.reset.Inv

/-! ### Invariants of every step -/

/-- Every step keeps the invariant of Safety.lean: the configuration is legal and the store canonical, inside the
tables and with bit cells 0 or 1 (R17); verdicts are legal (R22); a session in VALIDATE has no latch filled (R18), one
in DISPATCH holds an instruction that
passed every check, with the latches it fills (R18, R66 to R70), one in RESPOND a response that passes the outbound
check (R73); CLI_PEND is present exactly in AWAIT (R25); `elapsed` and `localTarget` keep their ranges (R23, R130);
a host that is Halted is stopped (R128). The model's own in it: how the configuration and the store are held (log 1,
log 6, log 32), and connections (log 9, log 12); the latches as Options and that they agree with `rx` (log 7); in DISPATCH
that the ranges already fit (log 5), the count `calls` of store calls made (log 8), that a single write has `wvals` filled
and that 0x16's value stands in `rvals` between its two calls (log 39); that no latch is filled in VALIDATE because
they are cleared in RECV (log 31); and the registers that the client's and the host's clauses speak of: client 0 as the
host's (log 24), `caller` and the host's inbox (log 34), the host's phase (log 19), and `hst` and `localTarget`, which
change together with the send that follows (log 38). -/
def Obligations.StepKeepsInvariant : Prop :=
  ∀ s t : State, s.Inv → step s = .next t → t.Inv

/-- In a state that meets the invariant every step answers a next state: no fault or refusal of the model is reached
(log 29), and the move of a blocked or absent agent answers one too, which changes nothing (log 4). The premise is the
invariant with the model's own registers and choices that `Obligations.StepKeepsInvariant` names. -/
def Obligations.StepNeverStops : Prop :=
  ∀ s : State, s.Inv → ∃ t, step s = .next t

/-- R16: no step writes the configuration, which the state carries (log 1). -/
def Obligations.ConfigurationIsFixed : Prop :=
  ∀ s t : State, step s = .next t → t.cfg = s.cfg

/-- R11, R35: the store changes only by a StoreSet of an external writer, by a restart, or by a session's step in
DISPATCH on an instruction that writes cells. What an external writer's calls do: its StoreSet writes what the store's
rule gives, or nothing where that fails, and its StoreGet changes nothing (R38; what it does with the values is log 28);
neither changes anything but the store. -/
def Obligations.StoreChangesOnlyByStoreCalls : Prop :=
  (∀ s t : State, step s = .next t → t.mem ≠ s.mem →
    (∃ tab a vals fail, s.choice = .extSet tab a vals fail) ∨ s.choice = .restart ∨
    ∃ c err fail ses i, s.choice = .session c err fail ∧ s.session? c = some ses ∧ ses.sst = .dispatch ∧
      decode (pduOf ses.rx) = .ok i ∧ storedCells i ≠ none) ∧
  ∀ (s : State) (tab : TableKind) (a n : Nat) (vals : List Value) (fail : Bool),
    (∀ m, storeSet s tab a vals fail = some m →
      s.take (.extSet tab a vals fail) = .next (redraw s.draws { s with mem := m })) ∧
    (storeSet s tab a vals fail = none → s.take (.extSet tab a vals fail) = .next (redraw s.draws s)) ∧
    s.take (.extGet tab a n fail) = .next (redraw s.draws s)

/-- R142, R74, R75: a session's step changes no other connection, no client, not the host and not the Listener. It
takes a message from its channel only in RECV, and sends at most one message on its connection, only in RESPOND or,
as the end of the connection (log 10), in RECV. Conversely, no other agent's move changes a session, and a session in
CLOSED is changed by nothing but a restart (R19, R139, R142); a session comes into being in RECV with nothing held,
by the Listener's move for its connection or by a connection attempt that makes the connection (R63, R108). The rest
says what each move of the peers and servers outside the block does, which R26 leaves to them (log 9, log 12, log 13):
it changes one channel or one end of the one connection it names, if that end is theirs and open, and nothing else. -/
def Obligations.SessionStepIsLocal : Prop :=
  (∀ (s t : State) (c : Nat) (err fail : Bool), s.choice = .session c err fail → step s = .next t →
    t.cfg = s.cfg ∧ t.listener = s.listener ∧ t.clients = s.clients ∧ t.host = s.host ∧
    t.conns.length = s.conns.length ∧ (∀ d, d ≠ c → t.conns[d]? = s.conns[d]?) ∧
    ∀ (k : Connection) (ses : Session), s.conns[c]? = some k → k.session? = some ses →
      ∃ k', t.conns[c]? = some k' ∧
        (k'.toServer = k.toServer ∨ (ses.sst = .recv ∧ k'.toServer = k.toServer.tail)) ∧
        (k'.toClient = k.toClient ∨ (ses.sst = .respond ∧ ∃ m, k'.toClient = k.toClient ++ [m]) ∨
          (ses.sst = .recv ∧ k'.toClient = k.toClient ++ [[]]))) ∧
  (∀ (s t : State) (c : Nat), step s = .next t → s.choice ≠ .restart →
    (∀ ses, s.session? c = some ses → (∀ err fail, s.choice ≠ .session c err fail) ∨ ses.sst = .closed →
      t.session? c = some ses) ∧
    (∀ ses, s.session? c = none → t.session? c = some ses →
      ses = ⟨.recv, [], [], none, Latches.empty, 0⟩ ∧
        (s.choice = .accept c ∨
          (c = s.conns.length ∧
            ((∃ k att, s.choice = .userConnect k att) ∨ (∃ k err att, s.choice = .client k err att) ∨
              ∃ err att, s.choice = .host err att)))) ∧
    (s.session? c ≠ none → t.session? c ≠ none)) ∧
  (∀ s : State, s.take .peerOpen =
    .next (redraw s.draws { s with conns := s.conns ++ [⟨.outside, true, .waiting, [], []⟩] })) ∧
  (∀ (s : State) (c : Nat) (k : Connection) (m : Message), s.conns[c]? = some k →
    s.take (.peerSend c m) = .next (redraw s.draws (s.updConn c fun _ =>
      if k.owner = .outside ∧ k.clientOpen = true ∧ m ≠ [] then { k with toServer := k.toServer ++ [m] } else k)) ∧
    s.take (.peerRecv c) = .next (redraw s.draws (s.updConn c fun _ =>
      if k.owner = .outside then { k with toClient := k.toClient.tail } else k)) ∧
    s.take (.peerClose c) = .next (redraw s.draws (s.updConn c fun _ =>
      if k.owner = .outside ∧ k.clientOpen = true then
        { k with clientOpen := false, toServer := k.toServer ++ [[]] }
      else k)) ∧
    s.take (.foreignSend c m) = .next (redraw s.draws (s.updConn c fun _ =>
      if k.server = .foreign true ∧ m ≠ [] then { k with toClient := k.toClient ++ [m] } else k)) ∧
    s.take (.foreignRecv c) = .next (redraw s.draws (s.updConn c fun _ =>
      if k.server = .foreign true ∨ k.server = .foreign false then { k with toServer := k.toServer.tail } else k)) ∧
    s.take (.foreignClose c) = .next (redraw s.draws (s.updConn c fun _ =>
      if k.server = .foreign true then { k with server := .foreign false, toClient := k.toClient ++ [[]] } else k))) ∧
  ∀ (s : State) (c : Nat) (m : Message), s.conns[c]? = none →
    ∀ mv ∈ [Move.peerSend c m, .peerRecv c, .peerClose c, .foreignSend c m, .foreignRecv c, .foreignClose c],
      s.take mv = .next (redraw s.draws s)

/-! ### Receive, validate -/

/-- R65: a session in RECV: a transport error or an empty message closes it, a message goes to `rx` and the session to
VALIDATE, an empty channel blocks it. The model's choice: no latch, verdict or call count of the message before is
kept (log 31, log 8), its frame stays in `tx` (log 41), a closed session's peer is delivered an empty message (log 10),
a transport error takes no message (log 11). -/
def Obligations.Receive : Prop :=
  ∀ (s : State) (c : Nat) (err fail : Bool) (k : Connection) (ses : Session),
    s.conns[c]? = some k → k.session? = some ses → ses.sst = .recv →
    s.take (.session c err fail) = .next (redraw s.draws
      (if err = true then
        (s.updSession c fun x => { x with sst := .closed }).pushToClient c []
      else
        match k.toServer with
        | [] => s
        | [] :: _ => ((s.popToServer c).updSession c fun x => { x with sst := .closed }).pushToClient c []
        | m :: _ =>
          (s.popToServer c).updSession c fun x =>
            { x with rx := m, sst := .validate, verdict := none, latch := Latches.empty, calls := 0 }))

/-- R66, R67 (V1 to V7): the validator on bytes. A frame failing V1 to V3 has the verdict `(false, 0)`; otherwise an
ignored code passes, an illegal code and a disabled extension code have `(false, 1)`, and the rest passes exactly
when its PDU has its format's exact length, its count is in range and its byte count agrees, else `(false, 2)`. The
last clause spells the ranges and byte counts out: 1 to MAX_RD_BITS for 0x01 and 0x02, 1 to MAX_RD_REGS for 0x03 and
0x04 and the read half of 0x17, 1 to MAX_WR_BITS with `ceil8(cnt)` bytes for 0x0F and 0x62, 1 to MAX_WR_REGS with
`2 * cnt` bytes for 0x10, 0x64 and the write half of 0x17; the single writes and the mask write have none. -/
def Obligations.ValidatorVerdicts : Prop :=
  (∀ (g : Cfg) (m : Message),
    (m.length < 8 ∨ be16 m 2 ≠ 0#16 ∨ (be16 m 4).toNat ≠ m.length - 6 → validateRequest g m = (false, 0x00#8)) ∧
    (8 ≤ m.length → be16 m 2 = 0#16 → (be16 m 4).toNat = m.length - 6 →
      validateRequest g m =
        match (Code.ofByte (byteAt m 7)).cls with
        | .ign => (true, 0x00#8)
        | .ill => (false, 0x01#8)
        | .ext =>
          if g.extSrv = false then (false, 0x01#8)
          else
            match decode (pduOf m) with
            | .ok i => if shapeOk g i = true then (true, 0x00#8) else (false, 0x02#8)
            | .error _ => (false, 0x02#8)
        | .std =>
          match decode (pduOf m) with
          | .ok i => if shapeOk g i = true then (true, 0x00#8) else (false, 0x02#8)
          | .error _ => (false, 0x02#8))) ∧
  ∀ (g : Cfg) (a n b k v : Word) (bc : Byte) (d : List Byte),
    (∀ i ∈ [Instr.rdco a n, .rddi a n], shapeOk g i = true ↔ 1 ≤ n.toNat ∧ n.toNat ≤ g.maxRdBits) ∧
    (∀ i ∈ [Instr.rdhr a n, .rdir a n], shapeOk g i = true ↔ 1 ≤ n.toNat ∧ n.toNat ≤ g.maxRdRegs) ∧
    (∀ i ∈ [Instr.wsco a v, .wsdi a v, .wshr a v, .wsir a v, .mwhr a n v], shapeOk g i = true) ∧
    (∀ i ∈ [Instr.wmco a n bc d, .wmdi a n bc d], shapeOk g i = true ↔
      d.length = bc.toNat ∧ 1 ≤ n.toNat ∧ n.toNat ≤ g.maxWrBits ∧ bc.toNat = (n.toNat + 7) / 8) ∧
    (∀ i ∈ [Instr.wmhr a n bc d, .wmir a n bc d], shapeOk g i = true ↔
      d.length = bc.toNat ∧ 1 ≤ n.toNat ∧ n.toNat ≤ g.maxWrRegs ∧ bc.toNat = 2 * n.toNat) ∧
    (shapeOk g (.rwhr a n b k bc d) = true ↔
      d.length = bc.toNat ∧ 1 ≤ n.toNat ∧ n.toNat ≤ g.maxRdRegs ∧ 1 ≤ k.toNat ∧ k.toNat ≤ g.maxWrRegs ∧
        bc.toNat = 2 * k.toNat)

/-- R68, R138: a frame that fails V1 to V3 is dropped: the verdict `(false, 0)`, no message sent, back to RECV, nothing
else changed; that `tx` keeps the frame of the message before is log 41. -/
def Obligations.MalformedFrameIsDropped : Prop :=
  ∀ (s : State) (c : Nat) (err fail : Bool) (ses : Session),
    s.session? c = some ses → ses.sst = .validate →
    ses.rx.length < 8 ∨ be16 ses.rx 2 ≠ 0#16 ∨ (be16 ses.rx 4).toNat ≠ ses.rx.length - 6 →
    s.take (.session c err fail) =
      .next (redraw s.draws (s.updSession c fun x => { x with verdict := some (false, 0x00#8), sst := .recv }))

/-- R66, R67, R136: a well-formed frame whose PDU has not its format's length is answered with 0x02, or with 0x01 where
its code is an extension code that is not enabled (R93). -/
def Obligations.MalformedPduRaises : Prop :=
  ∀ (s : State) (c : Nat) (err fail : Bool) (ses : Session) (e : DecodeError),
    s.session? c = some ses → ses.sst = .validate → headerOk ses.rx = true → decode (pduOf ses.rx) = .error e →
    ∃ code : Byte,
      code = (if (Code.ofByte (byteAt ses.rx 7)).cls = .ext ∧ s.cfg.extSrv = false then 0x01#8 else 0x02#8) ∧
      s.take (.session c err fail) =
        .next (redraw s.draws (s.updSession c fun x =>
          { x with
            latch :=
              { x.latch with
                tid := some (be16 ses.rx 0), pid := some (be16 ses.rx 2), len := some (be16 ses.rx 4),
                uid := some (byteAt ses.rx 6), fc := some (byteAt ses.rx 7) },
            verdict := some (false, code),
            tx := frame (be16 ses.rx 0) (byteAt ses.rx 6) [byteAt ses.rx 7 ||| 0x80#8, code], sst := .respond }))

/-- R66 (V4 to V7), R68, R70, R136: the step in VALIDATE on any instruction. An ignored code goes back to RECV; a
rejected one raises the verdict's code; one that passes goes to DISPATCH with its operand latches filled when every
range it touches lies in the tables, and raises 0x02 otherwise. Nothing but the session changes. That all this is
one step is the model's choice (log 5). The second part names what each operand latch holds then (R18, R52 to R55); that
a single write fills `wvals` (log 39) and that `wvals` is filled also where the range check then fails (log 40) are the
model's own, and so is that `tx` is kept where no response is framed (log 41). -/
def Obligations.AdmissionOfEveryInstruction : Prop :=
  (∀ (s : State) (c : Nat) (fail : Bool) (ses : Session) (tid : Word) (uid fc : Byte) (i : Instr),
    Executing s .validate c fail ses tid uid fc →
    exec i s = .next (s.updSession c fun x =>
      if permitted s.cfg i = false then
        { x with verdict := some (false, 0x01#8), tx := frame tid uid [fc ||| 0x80#8, 0x01#8], sst := .respond }
      else if shapeOk s.cfg i = false then
        { x with verdict := some (false, 0x02#8), tx := frame tid uid [fc ||| 0x80#8, 0x02#8], sst := .respond }
      else if i.code.cls = .ign then { x with verdict := some (true, 0x00#8), sst := .recv }
      else if (∀ r ∈ rangesOf i, r.1 + r.2 ≤ s.cfg.tableLen) then
        { x with verdict := some (true, 0x00#8), latch := fillOperands i x.latch, calls := 0, sst := .dispatch }
      else
        { x with
          verdict := some (true, 0x00#8), latch := fillOperands i x.latch, calls := 0,
          tx := frame tid uid [fc ||| 0x80#8, 0x02#8], sst := .respond })) ∧
  ∀ (l : Latches) (a n b k v o : Word) (bc : Byte) (d : List Byte) (bits words : List Value),
    bits = ((List.range n.toNat).map fun j => .bool ((byteAt d (j / 8)).getLsbD (j % 8))) →
    words = ((List.range n.toNat).map fun j => .int (be16 d (2 * j)).toNat) →
    (∀ i ∈ [Instr.rdco a n, .rddi a n, .rdhr a n, .rdir a n],
      fillOperands i l = { l with addr := some a, cnt := some n }) ∧
    (∀ i ∈ [Instr.wsco a v, .wsdi a v],
      fillOperands i l = { l with addr := some a, val := some v, wvals := some [.bool (decide (v ≠ 0#16))] }) ∧
    (∀ i ∈ [Instr.wshr a v, .wsir a v],
      fillOperands i l = { l with addr := some a, val := some v, wvals := some [.int v.toNat] }) ∧
    (∀ i ∈ [Instr.wmco a n bc d, .wmdi a n bc d],
      fillOperands i l = { l with addr := some a, cnt := some n, bc := some bc, wvals := some bits }) ∧
    (∀ i ∈ [Instr.wmhr a n bc d, .wmir a n bc d],
      fillOperands i l = { l with addr := some a, cnt := some n, bc := some bc, wvals := some words }) ∧
    fillOperands (.mwhr a v o) l = { l with addr := some a, andm := some v, orm := some o } ∧
    fillOperands (.rwhr b k a n bc d) l =
      { l with
        raddr := some b, rcnt := some k, waddr := some a, wcnt := some n, bc := some bc, wvals := some words }

/-- R64, R69: an executed instruction that passes every check in VALIDATE stands in DISPATCH after that step, ready for
its first store call, with nothing in the store changed. That this is one step is log 5, the count of store calls
log 8. -/
def Obligations.AdmittedInstructionIsReady : Prop :=
  ∀ (s : State) (c : Nat) (err fail : Bool) (ses : Session) (i : Instr) (tid : Word) (uid : Byte),
    s.session? c = some ses → ses.sst = .validate → ses.rx = frame tid uid (encode i) → i.wellFormed = true →
    permitted s.cfg i = true → shapeOk s.cfg i = true → i.code.cls = .std ∨ i.code.cls = .ext →
    (∀ r ∈ rangesOf i, r.1 + r.2 ≤ s.cfg.tableLen) →
    ∃ t x, s.take (.session c err fail) = .next t ∧ t.mem = s.mem ∧ t.cfg = s.cfg ∧ x.calls = 0 ∧ x.rx = ses.rx ∧
      ∀ err' fail',
        Executing { t with choice := .session c err' fail' } .dispatch c fail' x tid uid i.fc

/-! ### Ignored codes, illegal codes, the extension gate, exceptions -/

/-- R94 to R103: each of the nine ignored codes, whatever its payload, ends in VALIDATE with no store call and no
response: the session is back in RECV and nothing else but its verdict changed; that `tx` keeps the frame of the message
before is log 41. -/
def Obligations.IgnoredCodesDoNothing : Prop :=
  ∀ (s : State) (c : Nat) (fail : Bool) (ses : Session) (tid : Word) (uid fc : Byte) (p : List Byte) (i : Instr),
    Executing s .validate c fail ses tid uid fc →
    i ∈ [.ign07 p, .ign08 p, .ign0B p, .ign0C p, .ign11 p, .ign14 p, .ign15 p, .ign18 p, .ign2B p] →
    exec i s = .next (s.updSession c fun x => { x with verdict := some (true, 0x00#8), sst := .recv })

/-- R104: a function code of class `ILL`, whatever its payload, raises exception 0x01: the session is in RESPOND with
`[fc | 0x80, 0x01]` framed, and for `fc` from 0x80 up the first byte is `fc` itself. -/
def Obligations.IllegalCodesRaise01 : Prop :=
  ∀ (s : State) (c : Nat) (fail : Bool) (ses : Session) (tid : Word) (uid fc : Byte) (p : List Byte),
    Executing s .validate c fail ses tid uid fc →
    exec (.illfc fc p) s = .next (s.updSession c fun x =>
      { x with
        verdict := some (false, 0x01#8), tx := frame tid uid [fc ||| 0x80#8, 0x01#8], sst := .respond }) ∧
    (0x80 ≤ fc.toNat → fc ||| 0x80#8 = fc)

/-- R93: with EXT_SRV false the four extension codes are answered with 0x01, whatever the rest of the PDU holds, by the
validator (before any shape check) and again by the dispatcher; no cell changes. -/
def Obligations.ExtensionGate : Prop :=
  (∀ (g : Cfg) (m : Message), g.extSrv = false → headerOk m = true →
    byteAt m 7 ∈ [0x62#8, 0x64#8, 0x65#8, 0x66#8] → validateRequest g m = (false, 0x01#8)) ∧
  ∀ (s : State) (c : Nat) (fail : Bool) (ses : Session) (tid : Word) (uid fc : Byte) (i : Instr)
    (a x : Word) (bc : Byte) (d : List Byte), s.cfg.extSrv = false →
    i ∈ [.wsdi a x, .wmdi a x bc d, .wsir a x, .wmir a x bc d] →
    (Executing s .validate c fail ses tid uid fc →
      exec i s = .next (s.updSession c fun y =>
        { y with
          verdict := some (false, 0x01#8), tx := frame tid uid [fc ||| 0x80#8, 0x01#8], sst := .respond })) ∧
    (Executing s .dispatch c fail ses tid uid fc →
      exec i s = .next (s.answered c tid uid [fc ||| 0x80#8, 0x01#8]))

/-- R136, R57: taking an exception: the PDU `[fc | 0x80, code]` is framed with the request's Transaction ID and Unit ID,
the session goes to RESPOND, and nothing else changes: the store keeps the effects of the calls already made, and
nothing is saved. -/
def Obligations.ExceptionEntry : Prop :=
  ∀ (s : State) (c : Nat) (ses : Session) (tid : Word) (uid fc code : Byte),
    s.session? c = some ses → ses.latch.tid = some tid → ses.latch.uid = some uid → ses.latch.fc = some fc →
    ∃ t, raiseException code c s = .next t ∧
      t = s.updSession c (fun x => { x with tx := frame tid uid [fc ||| 0x80#8, code], sst := .respond }) ∧
      t.mem = s.mem ∧ t.session? c = some { ses with tx := frame tid uid [fc ||| 0x80#8, code], sst := .respond }

/-- R137, R74: an exception response passes the outbound check and is sent as it stands, and the session returns to
RECV with nothing to restore; a transport error closes it instead (its peer is delivered an empty message and not
the response: log 10, log 35). -/
def Obligations.ExceptionReturn : Prop :=
  ∀ (s : State) (c : Nat) (fail : Bool) (ses : Session) (tid : Word) (uid fc code : Byte),
    s.session? c = some ses → ses.sst = .respond → ses.latch.tid = some tid → ses.latch.uid = some uid →
    ses.latch.fc = some fc → ses.tx = frame tid uid [fc ||| 0x80#8, code] →
    s.take (.session c false fail) =
      .next (redraw s.draws ((s.pushToClient c ses.tx).updSession c fun x => { x with sst := .recv })) ∧
    s.take (.session c true fail) =
      .next (redraw s.draws ((s.pushToClient c []).updSession c fun x => { x with sst := .closed }))

/-- R73, R74: in RESPOND the session sends its response as it stands when the check of R72 passes it, and otherwise an
exception response with the detected code, or 0x04 where that is 0; the invalid one is never sent. The count the
check takes is the request's (R72; which responses it passes and with what verdict pair the others fail,
`Obligations.ResponseReport` spells out). In a state that meets the invariant the check never fails. On a transport error
the session is CLOSED and the store keeps the effects of the request's store calls. That check and send are one step
(log 5), that the frame of a send that errs does not reach the channel (log 35) and that the peer is delivered an
empty message then (log 10) are the model's choices. -/
def Obligations.OutboundCheck : Prop :=
  ∀ (s : State) (c : Nat) (fail : Bool) (ses : Session) (tid : Word) (uid fc : Byte) (n : Nat),
    s.session? c = some ses → ses.sst = .respond → ses.latch.tid = some tid → ses.latch.uid = some uid →
    ses.latch.fc = some fc → latchedCount fc ses.latch = .ok n →
    ∃ m, s.take (.session c false fail) =
        .next (redraw s.draws
          ((s.updSession c fun x => { x with tx := m, sst := .recv }).pushToClient c m)) ∧
      s.take (.session c true fail) =
        .next (redraw s.draws
          ((s.updSession c fun x => { x with tx := m, sst := .closed }).pushToClient c [])) ∧
      ((validateResponse s.cfg.extSrv ses.tx fc n).1 = true → m = ses.tx) ∧
      ((validateResponse s.cfg.extSrv ses.tx fc n).1 = false →
        m = frame tid uid [fc ||| 0x80#8,
          if (validateResponse s.cfg.extSrv ses.tx fc n).2 = 0x00#8 then 0x04#8
          else (validateResponse s.cfg.extSrv ses.tx fc n).2]) ∧
      headerOk m = true ∧ (s.Inv → m = ses.tx)

/-! ### The instructions that are executed -/

/-- R77, R78: RDCO and RDDI answer with the function code, the byte count and the packed bits of the cells
`addr .. addr + cnt - 1`, the first in the lowest bit; the values are latched and nothing else changes. -/
def Obligations.BitReads : Prop :=
  ∀ (s : State) (c : Nat) (fail : Bool) (ses : Session) (tid : Word) (uid fc : Byte) (addr cnt : Word),
    Executing s .dispatch c fail ses tid uid fc → storeFails s fail = false →
    addr.toNat + cnt.toNat ≤ s.cfg.tableLen →
    exec (.rdco addr cnt) s = .next (s.readAnswered c tid uid ((s.bitsAt .co addr.toNat cnt.toNat).map .bool)
      ([0x01#8, BitVec.ofNat 8 ((cnt.toNat + 7) / 8)] ++ packBits (s.bitsAt .co addr.toNat cnt.toNat))) ∧
    exec (.rddi addr cnt) s = .next (s.readAnswered c tid uid ((s.bitsAt .di addr.toNat cnt.toNat).map .bool)
      ([0x02#8, BitVec.ofNat 8 ((cnt.toNat + 7) / 8)] ++ packBits (s.bitsAt .di addr.toNat cnt.toNat)))

/-- R84, R85: RDHR and RDIR answer with the function code, the byte count and the registers `addr .. addr + cnt - 1`,
high byte first; the values are latched and nothing else changes. -/
def Obligations.RegisterReads : Prop :=
  ∀ (s : State) (c : Nat) (fail : Bool) (ses : Session) (tid : Word) (uid fc : Byte) (addr cnt : Word),
    Executing s .dispatch c fail ses tid uid fc → storeFails s fail = false →
    addr.toNat + cnt.toNat ≤ s.cfg.tableLen →
    exec (.rdhr addr cnt) s = .next (s.readAnswered c tid uid ((s.wordsAt .hr addr.toNat cnt.toNat).map ofWord)
      ([0x03#8, BitVec.ofNat 8 (2 * cnt.toNat)] ++ (s.wordsAt .hr addr.toNat cnt.toNat).flatMap enc16)) ∧
    exec (.rdir addr cnt) s = .next (s.readAnswered c tid uid ((s.wordsAt .ir addr.toNat cnt.toNat).map ofWord)
      ([0x04#8, BitVec.ofNat 8 (2 * cnt.toNat)] ++ (s.wordsAt .ir addr.toNat cnt.toNat).flatMap enc16))

/-- R79, R81, R55: WSCO, and WSDI with EXT_SRV, set the one cell to 1 when `val` is not 0 and to 0 when it is, change no
other cell, and answer with the canonical 0xFF00 or 0x0000. -/
def Obligations.SingleBitWrites : Prop :=
  ∀ (s : State) (c : Nat) (fail : Bool) (ses : Session) (tid : Word) (uid fc : Byte) (addr val : Word),
    Executing s .dispatch c fail ses tid uid fc → storeFails s fail = false → s.mem.wf = true →
    addr.toNat + 1 ≤ s.cfg.tableLen →
    (∃ m, s.writes m .co addr.toNat 1 (fun _ => if val = 0#16 then 0#16 else 1#16) ∧
      exec (.wsco addr val) s = .next (s.wroteAnswered m c tid uid
        ([0x05#8] ++ enc16 addr ++ enc16 (if val = 0#16 then 0x0000#16 else 0xFF00#16)))) ∧
    (s.cfg.extSrv = true →
      ∃ m, s.writes m .di addr.toNat 1 (fun _ => if val = 0#16 then 0#16 else 1#16) ∧
        exec (.wsdi addr val) s = .next (s.wroteAnswered m c tid uid
          ([0x65#8] ++ enc16 addr ++ enc16 (if val = 0#16 then 0x0000#16 else 0xFF00#16))))

/-- R86, R88: WSHR, and WSIR with EXT_SRV, store `val` unchanged in the one register, change no other cell, and answer
with the request. -/
def Obligations.SingleRegisterWrites : Prop :=
  ∀ (s : State) (c : Nat) (fail : Bool) (ses : Session) (tid : Word) (uid fc : Byte) (addr val : Word),
    Executing s .dispatch c fail ses tid uid fc → storeFails s fail = false → s.mem.wf = true →
    addr.toNat + 1 ≤ s.cfg.tableLen →
    (∃ m, s.writes m .hr addr.toNat 1 (fun _ => val) ∧
      exec (.wshr addr val) s =
        .next (s.wroteAnswered m c tid uid ([0x06#8] ++ enc16 addr ++ enc16 val))) ∧
    (s.cfg.extSrv = true →
      ∃ m, s.writes m .ir addr.toNat 1 (fun _ => val) ∧
        exec (.wsir addr val) s =
          .next (s.wroteAnswered m c tid uid ([0x66#8] ++ enc16 addr ++ enc16 val)))

/-- R80, R82, R54: WMCO, and WMDI with EXT_SRV, set cell `addr + j` to bit `j mod 8` of data byte `j div 8` for
`j < cnt`, in one store call; padding bits are ignored, no other cell changes, and the answer is address and
count. -/
def Obligations.MultipleBitWrites : Prop :=
  ∀ (s : State) (c : Nat) (fail : Bool) (ses : Session) (tid : Word) (uid fc : Byte) (addr cnt : Word) (bc : Byte)
    (data : List Byte),
    Executing s .dispatch c fail ses tid uid fc → storeFails s fail = false → s.mem.wf = true →
    addr.toNat + cnt.toNat ≤ s.cfg.tableLen →
    (∃ m, s.writes m .co addr.toNat cnt.toNat
        (fun j => if (byteAt data (j / 8)).getLsbD (j % 8) = true then 1#16 else 0#16) ∧
      exec (.wmco addr cnt bc data) s =
        .next (s.wroteAnswered m c tid uid ([0x0F#8] ++ enc16 addr ++ enc16 cnt))) ∧
    (s.cfg.extSrv = true →
      ∃ m, s.writes m .di addr.toNat cnt.toNat
          (fun j => if (byteAt data (j / 8)).getLsbD (j % 8) = true then 1#16 else 0#16) ∧
        exec (.wmdi addr cnt bc data) s =
          .next (s.wroteAnswered m c tid uid ([0x62#8] ++ enc16 addr ++ enc16 cnt)))

/-- R87, R89, R53: WMHR, and WMIR with EXT_SRV, set register `addr + j` to the 16-bit value at data bytes `2j`, `2j + 1`
for `j < cnt`, in one store call; no other cell changes, and the answer is address and count. -/
def Obligations.MultipleRegisterWrites : Prop :=
  ∀ (s : State) (c : Nat) (fail : Bool) (ses : Session) (tid : Word) (uid fc : Byte) (addr cnt : Word) (bc : Byte)
    (data : List Byte),
    Executing s .dispatch c fail ses tid uid fc → storeFails s fail = false → s.mem.wf = true →
    addr.toNat + cnt.toNat ≤ s.cfg.tableLen →
    (∃ m, s.writes m .hr addr.toNat cnt.toNat (fun j => be16 data (2 * j)) ∧
      exec (.wmhr addr cnt bc data) s =
        .next (s.wroteAnswered m c tid uid ([0x10#8] ++ enc16 addr ++ enc16 cnt))) ∧
    (s.cfg.extSrv = true →
      ∃ m, s.writes m .ir addr.toNat cnt.toNat (fun j => be16 data (2 * j)) ∧
        exec (.wmir addr cnt bc data) s =
          .next (s.wroteAnswered m c tid uid ([0x64#8] ++ enc16 addr ++ enc16 cnt)))

/-- R90, R42: MWHR makes two store calls. The first reads the register into `rvals` and changes nothing else; the second
stores `(v AND andm) OR orm` of the value `v` read before, changes no other cell, and answers with the request. Where
the session stands between the two is counted in `calls` (log 8), and that the value read stands in `rvals` is log 39. -/
def Obligations.MaskWriteRegister : Prop :=
  ∀ (s : State) (c : Nat) (fail : Bool) (ses : Session) (tid : Word) (uid fc : Byte) (addr andm orm : Word),
    Executing s .dispatch c fail ses tid uid fc → storeFails s fail = false → s.mem.wf = true →
    addr.toNat + 1 ≤ s.cfg.tableLen →
    (ses.calls = 0 →
      exec (.mwhr addr andm orm) s = .next (s.updSession c fun x =>
        { x with
          latch := { x.latch with rvals := some [ofWord (s.mem.cell .hr addr.toNat)] }, calls := x.calls + 1 })) ∧
    ∀ v : Word, ses.calls = 1 → ses.latch.rvals = some [ofWord v] →
      ∃ m, s.writes m .hr addr.toNat 1 (fun _ => (v &&& andm) ||| orm) ∧
        exec (.mwhr addr andm orm) s =
          .next (s.wroteAnswered m c tid uid ([0x16#8] ++ enc16 addr ++ enc16 andm ++ enc16 orm))

/-- R91, R42: RWHR makes two store calls. The first writes the `wcnt` registers and changes nothing else; the second
reads the `rcnt` registers as they then stand and answers with them. Where the session stands between the two is
counted in `calls` (log 8). -/
def Obligations.ReadWriteRegisters : Prop :=
  ∀ (s : State) (c : Nat) (fail : Bool) (ses : Session) (tid : Word) (uid fc : Byte) (raddr rcnt waddr wcnt : Word)
    (bc : Byte) (data : List Byte),
    Executing s .dispatch c fail ses tid uid fc → storeFails s fail = false → s.mem.wf = true →
    waddr.toNat + wcnt.toNat ≤ s.cfg.tableLen → raddr.toNat + rcnt.toNat ≤ s.cfg.tableLen →
    (ses.calls = 0 →
      ∃ m, s.writes m .hr waddr.toNat wcnt.toNat (fun j => be16 data (2 * j)) ∧
        exec (.rwhr raddr rcnt waddr wcnt bc data) s =
          .next ({ s with mem := m }.updSession c fun x => { x with calls := x.calls + 1 })) ∧
    (ses.calls = 1 →
      exec (.rwhr raddr rcnt waddr wcnt bc data) s =
        .next (s.readAnswered c tid uid ((s.wordsAt .hr raddr.toNat rcnt.toNat).map ofWord)
          ([0x17#8, BitVec.ofNat 8 (2 * rcnt.toNat)] ++ (s.wordsAt .hr raddr.toNat rcnt.toNat).flatMap enc16)))

/-- R71, R34: a store call that fails, as STORE_FAULTS lets it, ends the request with exception 0x04 and changes no
cell, so that the cells RWHR's first call has written stay when its second, the read, fails. MWHR's second call needs the
value its first has latched (in `rvals`: log 39; the session's place between two calls is its count `calls`: log 8). -/
def Obligations.StoreFailureRaises04 : Prop :=
  ∀ (s : State) (c : Nat) (fail : Bool) (ses : Session) (tid : Word) (uid fc : Byte) (i : Instr),
    Executing s .dispatch c fail ses tid uid fc → storeFails s fail = true → permitted s.cfg i = true →
    i.code.cls = .std ∨ i.code.cls = .ext →
    (i.code = .mwhr → ses.calls = 0 ∨ ∃ v, ses.latch.rvals = some [v]) →
    exec i s = .next (s.answered c tid uid [fc ||| 0x80#8, 0x04#8])

/-! ### Frames -/

/-- R77, R78, R84, R85, R94, R104: the reads, the ignored codes and the illegal codes leave every cell as it was, in
VALIDATE and in DISPATCH. -/
def Obligations.FrameOfCodesThatStoreNothing : Prop :=
  ∀ (s t : State) (i : Instr), storedCells i = none → exec i s = .next t →
    ∀ (u : TableKind) (b : Nat), t.mem.cell u b = s.mem.cell u b

/-- R79 to R82, R86 to R91: an instruction that stores leaves every cell but those its StoreSet covers (the cells
`storedCells` computes) as it was; in VALIDATE it stores nothing (R136). -/
def Obligations.FrameOfCodesThatStore : Prop :=
  ∀ (s t : State) (i : Instr) (tab : TableKind) (a n : Nat), s.mem.wf = true →
    storedCells i = some (tab, a, n) → exec i s = .next t →
    (∀ (u : TableKind) (b : Nat), ¬(u = tab ∧ a ≤ b ∧ b < a + n) → t.mem.cell u b = s.mem.cell u b) ∧
    ((∃ x, s.active = some x ∧ x.ses.sst = .validate) → t.mem = s.mem)

/-- R142, R136: no instruction changes anything but the store and its own session: not the configuration, a client, the
host, a channel or another session; its own message and header latches stay. -/
def Obligations.FrameOfTheRest : Prop :=
  ∀ (s t : State) (i : Instr), exec i s = .next t → ∃ x, s.active = some x ∧ OnlySession s t x.conn

/-! ### The store -/

/-- R31: StoreGet fails exactly when the range leaves the table, and otherwise gives the cells, Booleans of a bit table
(true exactly when not 0) and 16-bit values of a register table; the sum does not wrap. -/
def Obligations.StoreGetRule : Prop :=
  ∀ (s : State) (t : TableKind) (a c : Nat) (fail : Bool), storeFails s fail = false →
    storeGet s t a c fail =
      if a + c > s.cfg.tableLen then none
      else if t = .di ∨ t = .co then some ((s.bitsAt t a c).map .bool)
      else some ((s.wordsAt t a c).map fun w => .int w.toNat)

/-- R32, R33: StoreSet fails, with no cell written, exactly when the range leaves the table or a value is not of the
table's type; otherwise it writes every cell of the range and no other: 1 or 0 in a bit table, the value itself in
a register table. -/
def Obligations.StoreSetRule : Prop :=
  ∀ (s : State) (t : TableKind) (a : Nat) (vals : List Value) (fail : Bool), storeFails s fail = false →
    s.mem.wf = true →
    ((a + vals.length > s.cfg.tableLen ∨
        ∃ v ∈ vals, v = .other ∨
          ((t = .ir ∨ t = .hr) ∧ ((∃ b, v = .bool b) ∨ ∃ n : Int, v = .int n ∧ (n < 0 ∨ 65535 < n)))) ↔
      storeSet s t a vals fail = none) ∧
    ∀ m, storeSet s t a vals fail = some m →
      ∃ w : Nat → Word, s.writes m t a vals.length w ∧
        ∀ (j : Nat) (v : Value), vals[j]? = some v →
          ((t = .di ∨ t = .co) →
            w j =
              match v with
              | .bool b => if b = true then 1#16 else 0#16
              | .int n => if n = 0 then 0#16 else 1#16
              | .other => 0#16) ∧
          ((t = .ir ∨ t = .hr) → ∀ n : Nat, v = .int n → w j = BitVec.ofNat 16 n)

/-- R83, R92: a StoreGet of the range a StoreSet has written, with nothing between, gives the values written: their truth
in a bit table, the values themselves in a register table. -/
def Obligations.ReadAfterWrite : Prop :=
  ∀ (s : State) (t : TableKind) (a : Nat) (vals : List Value) (m : Memory), s.mem.wf = true →
    storeSet s t a vals false = some m →
    storeGet { s with mem := m } t a vals.length false =
      some (if t = .di ∨ t = .co then
          vals.map fun v => .bool (decide (v = .bool true ∨ (v ≠ .bool false ∧ v ≠ .int 0)))
        else vals)

/-- R92, R39: two WSHR requests of different sessions to different registers give the same store in either order, with
both values in it. -/
def Obligations.DisjointWritesCommute : Prop :=
  ∀ (s : State) (c d : Nat) (x y : Session) (tid₁ tid₂ : Word) (uid₁ uid₂ fc₁ fc₂ : Byte) (a b v w : Word),
    c ≠ d → a ≠ b → s.mem.wf = true →
    Executing { s with choice := .session c false false } .dispatch c false x tid₁ uid₁ fc₁ →
    Executing { s with choice := .session d false false } .dispatch d false y tid₂ uid₂ fc₂ →
    decode (pduOf x.rx) = .ok (.wshr a v) → decode (pduOf y.rx) = .ok (.wshr b w) →
    a.toNat < s.cfg.tableLen → b.toNat < s.cfg.tableLen →
    ∃ t u,
      s.takeAll [.session c false false, .session d false false] = .next t ∧
      s.takeAll [.session d false false, .session c false false] = .next u ∧
      t.mem = u.mem ∧ t.conns = u.conns ∧
      t.mem.cell .hr a.toNat = v ∧ t.mem.cell .hr b.toNat = w

/-- R42, R151 (P5): an external writer's value stored between the two store calls of MWHR is lost: the register ends with
the mask of the value read before. That the first call is yet to be made is `calls = 0` (log 8). -/
def Obligations.MaskWriteLosesUpdate : Prop :=
  ∀ (s : State) (c : Nat) (ses : Session) (tid : Word) (uid fc : Byte) (addr andm orm : Word) (n : Nat),
    Executing { s with choice := .session c false false } .dispatch c false ses tid uid fc → ses.calls = 0 →
    decode (pduOf ses.rx) = .ok (.mwhr addr andm orm) → addr.toNat < s.cfg.tableLen → s.mem.wf = true → n ≤ 65535 →
    ∃ t u,
      s.takeAll [.session c false false, .extSet .hr addr.toNat [.int n] false] = .next t ∧
      t.mem.cell .hr addr.toNat = BitVec.ofNat 16 n ∧
      t.take (.session c false false) = .next u ∧
      u.mem.cell .hr addr.toNat = (s.mem.cell .hr addr.toNat &&& andm) ||| orm

/-! ### Listener and client -/

/-- R63: the Listener accepts a waiting connection while fewer than MAX_SESSIONS sessions are not CLOSED: a fresh session
in RECV serves it, and nothing else changes; at the bound the connection waits (as an entry of the list of
connections: log 9). -/
def Obligations.ListenerAccepts : Prop :=
  ∀ (s : State) (c : Nat) (k : Connection), s.conns[c]? = some k → k.server = .waiting →
    ∃ t, s.take (.accept c) = .next t ∧ t.mem = s.mem ∧ t.clients = s.clients ∧ t.host = s.host ∧ t.cfg = s.cfg ∧
      (∀ d, d ≠ c → t.conns[d]? = s.conns[d]?) ∧
      t.conns[c]? =
        (if (∀ n, s.cfg.maxSessions = some n → liveSessions s < n) then
          some { k with server := .session ⟨.recv, [], [], none, Latches.empty, 0⟩ }
        else some k)

/-- R107, R108: `connect()` in IDLE sets `elapsed` to 0 and makes the first attempt at once: it succeeds, and the client
is READY on a new connection and true is returned, or it fails, and the client is CONNECTING with CONNECT_POLL time
units to wait. In any other state nothing changes and false is returned. A success may also come from a server
outside the block (log 13). A user finds what is returned in `ret`, the host, which calls once, when it boots (R132,
R147), in its inbox (log 34, log 19). -/
def Obligations.Connect : Prop :=
  (∀ (s : State) (k : Nat) (cl : Client) (att : Attempt), s.clients[k]? = some cl →
    (cl.cst ≠ .idle →
      s.take (.userConnect k att) =
        .next (redraw s.draws (s.updClient k fun x => { x with ret := some (.connect false) }))) ∧
    (cl.cst = .idle →
      ∃ t, s.take (.userConnect k att) = .next t ∧ t.mem = s.mem ∧ t.host = s.host ∧
        (∀ j, j ≠ k → t.clients[j]? = s.clients[j]?) ∧
        ((att = .foreign ∨ (att = .listener ∧ hasRoom s = true)) →
          t.clients[k]? =
              some { cl with
                cst := .ready, elapsed := 0, wait := 0, caller := .user, conn := some s.conns.length,
                ret := some (.connect true) } ∧
            t.conns =
              s.conns ++
                [⟨.client k, true, if att = .foreign then .foreign true else .session Session.fresh, [], []⟩]) ∧
        ((att = .fails ∨ (att = .listener ∧ hasRoom s = false)) →
          t.clients[k]? =
              some { cl with cst := .connecting, elapsed := 0, wait := s.cfg.connectPoll, caller := .user } ∧
            t.conns = s.conns))) ∧
  ∀ (s : State) (cl : Client) (err : Bool) (att : Attempt), s.clients[0]? = some cl → s.host.phase = .boot →
    s.host.scheduled = true →
    (cl.cst ≠ .idle →
      s.take (.host err att) = .next (redraw s.draws
        { s with host := { s.host with phase := .connecting, inbox := some (.connect false) } })) ∧
    (cl.cst = .idle →
      ∃ t, s.take (.host err att) = .next t ∧ t.mem = s.mem ∧
        (∀ j, j ≠ 0 → t.clients[j]? = s.clients[j]?) ∧
        ((att = .foreign ∨ (att = .listener ∧ hasRoom s = true)) →
          t.host = { s.host with phase := .connecting, inbox := some (.connect true) } ∧
            t.clients[0]? =
              some { cl with
                cst := .ready, elapsed := 0, wait := 0, caller := .host, conn := some s.conns.length } ∧
            t.conns =
              s.conns ++
                [⟨.client 0, true, if att = .foreign then .foreign true else .session Session.fresh, [], []⟩]) ∧
        ((att = .fails ∨ (att = .listener ∧ hasRoom s = false)) →
          t.host = { s.host with phase := .connecting, inbox := none } ∧
            t.clients[0]? =
              some { cl with cst := .connecting, elapsed := 0, wait := s.cfg.connectPoll, caller := .host } ∧
            t.conns = s.conns))

/-- R109: a client in CONNECTING waits until CONNECT_POLL time units have passed; then `elapsed` advances by
CONNECT_POLL, and it attempts again while that is at most CONNECT_BOUND; beyond it is FAILED, and `connect()` returns
false, to a user in `ret` and to the host in its inbox (log 34). Time passes in whole units (log 20): one that passes
is one less to wait for each client in CONNECTING and for a host that sleeps (R121), and changes nothing else. A
success may come from a server outside the block (log 13). -/
def Obligations.BoundedRetry : Prop :=
  (∀ (s : State) (k : Nat) (cl : Client) (err : Bool) (att : Attempt) (back : Return → State → State),
    s.clients[k]? = some cl → cl.cst = .connecting →
    back = (fun r t =>
      match cl.caller with
      | .user => t.updClient k fun x => { x with ret := some r }
      | .host => { t with host := { t.host with inbox := some r } }) →
    (0 < cl.wait → s.take (.client k err att) = .next (redraw s.draws s)) ∧
    (cl.wait = 0 → cl.elapsed + s.cfg.connectPoll > s.cfg.connectBound →
      s.take (.client k err att) = .next (redraw s.draws (back (.connect false) (s.updClient k fun x =>
        { x with cst := .failed, elapsed := x.elapsed + s.cfg.connectPoll })))) ∧
    (cl.wait = 0 → cl.elapsed + s.cfg.connectPoll ≤ s.cfg.connectBound →
      (att = .fails ∨ (att = .listener ∧ hasRoom s = false)) →
      s.take (.client k err att) = .next (redraw s.draws (s.updClient k fun x =>
        { x with elapsed := x.elapsed + s.cfg.connectPoll, wait := s.cfg.connectPoll }))) ∧
    (cl.wait = 0 → cl.elapsed + s.cfg.connectPoll ≤ s.cfg.connectBound →
      (att = .foreign ∨ (att = .listener ∧ hasRoom s = true)) →
      ∃ t u, s.take (.client k err att) = .next (redraw s.draws t) ∧ t = back (.connect true) u ∧
        u.conns.length = s.conns.length + 1 ∧ u.host = s.host ∧ u.mem = s.mem ∧
        u.clients[k]? =
          some { cl with
            cst := .ready, elapsed := cl.elapsed + s.cfg.connectPoll, conn := some s.conns.length })) ∧
  ∀ s : State, ∃ t, s.take .time = .next t ∧
    (∀ k : Nat, t.clients[k]? =
      s.clients[k]?.map fun cl => if cl.cst = .connecting then { cl with wait := cl.wait - 1 } else cl) ∧
    t.host = (if s.host.phase = .sleep then { s.host with wait := s.host.wait - 1 } else s.host) ∧
    t.mem = s.mem ∧ t.conns = s.conns ∧ t.cfg = s.cfg ∧ t.listener = s.listener

/-- R110, R106: `send` in IDLE, CONNECTING or FAILED, and in READY of a request that names an extension code while
EXT_CLI is false, returns `(false, NotReady)` and sends nothing, whatever the rest of the request; in AWAIT the call
cannot be made and changes nothing (log 21), and in READY a request that is admitted and that no frame carries is no
call (log 25). -/
def Obligations.SendPreconditions : Prop :=
  ∀ (s : State) (k : Nat) (cl : Client) (r : Request) (err : Bool), s.clients[k]? = some cl →
    (cl.cst = .idle ∨ cl.cst = .connecting ∨ cl.cst = .failed ∨
        (cl.cst = .ready ∧ (Code.ofByte r.instr.fc).cls = .ext ∧ s.cfg.extCli = false) →
      s.take (.userSend k r err) =
        .next (redraw s.draws (s.updClient k fun x => { x with ret := some (.send .notReady) }))) ∧
    (cl.cst = .await → s.take (.userSend k r err) = .next (redraw s.draws s)) ∧
    (cl.cst = .ready → ((Code.ofByte r.instr.fc).cls = .ext → s.cfg.extCli = true) → r.wellFormed = false →
      s.take (.userSend k r err) = .next (redraw s.draws s))

/-- R111, R112, R117: a send in READY advances the Transaction ID counter (modulo 2^16), puts the frame with the new value
on the connection, records the pending request, and goes to AWAIT. On a transport error it makes the client FAILED
and returns `(false, Transport)` instead; that the counter is kept then and nothing is on the channel is log 14. The
count recorded is that of a read, the read count of 0x17, and 0 otherwise. -/
def Obligations.Transmit : Prop :=
  (∀ (s : State) (k c : Nat) (cl : Client) (conn : Connection) (r : Request), s.clients[k]? = some cl →
    cl.cst = .ready → cl.conn = some c → s.conns[c]? = some conn → r.wellFormed = true →
    (r.instr.code.cls = .ext → s.cfg.extCli = true) →
    s.take (.userSend k r false) = .next (redraw s.draws
      ((s.pushToServer c (frame (cl.tidCtr + 1#16) s.cfg.unitId (encode r.instr))).updClient k fun x =>
        { x with
          tidCtr := x.tidCtr + 1#16, cst := .await, caller := .user,
          pend := some ⟨cl.tidCtr + 1#16, s.cfg.unitId, r.instr.fc, awaitedCount r.instr,
            r.instr.code.respFormat⟩ })) ∧
    s.take (.userSend k r true) = .next (redraw s.draws (s.updClient k fun x =>
      { x with cst := .failed, pend := none, ret := some (.send .transport) }))) ∧
  ∀ (a n ra wa wc : Word) (bc : Byte) (d : List Byte),
    awaitedCount (.rdco a n) = n ∧ awaitedCount (.rddi a n) = n ∧ awaitedCount (.rdhr a n) = n ∧
    awaitedCount (.rdir a n) = n ∧ awaitedCount (.rwhr ra n wa wc bc d) = n ∧
    ∀ i : Instr, i.fc ∉ [0x01#8, 0x02#8, 0x03#8, 0x04#8, 0x17#8] → awaitedCount i = 0#16

/-- R111, R117, R118: no step but a restart takes a client out of FAILED; no step but a send or a restart changes its
Transaction ID counter, and a send advances it by one (modulo 2^16) and leaves the client in AWAIT. A
client changes only by its own step, a user's call on it, the passing of time, a restart, and, client 0, the host's
step (R139; log 24). A new client starts at reset, beside the others (R117). -/
def Obligations.ClientRegistersAcrossSteps : Prop :=
  (∀ (s t : State) (k : Nat) (cl : Client), step s = .next t → s.clients[k]? = some cl → s.choice ≠ .restart →
    ∃ cl', t.clients[k]? = some cl' ∧ (cl.cst = .failed → cl'.cst = .failed) ∧
      (cl'.tidCtr = cl.tidCtr ∨
        (cl'.tidCtr = cl.tidCtr + 1#16 ∧ cl.cst = .ready ∧ cl'.cst = .await ∧
          ((∃ r err, s.choice = .userSend k r err) ∨ (k = 0 ∧ ∃ err att, s.choice = .host err att)))) ∧
      (Move.atClient k s.choice = false → cl' = cl)) ∧
  ∀ s : State, s.take .newClient = .next (redraw s.draws
    { s with
      clients := s.clients ++ [⟨.idle, s.cfg.tidReset, 0, none, Latches.empty, none, 0, .user, none⟩] })

/-- R113, R117: a client in AWAIT takes the oldest message of its channel, whatever it is, and is READY with what R114
and R115 report; an empty message or a transport error makes it FAILED and returns `(false, Transport)`; an empty
channel blocks it. What is returned goes to a user's `ret` or to the host's inbox (log 34). That an error takes no
message is the model's choice (log 11). The second part names what each of the client's latches holds after the
message (R18, R52, R116); which of them a rejected or an exception response fills is the model's choice (log 36). -/
def Obligations.Await : Prop :=
  (∀ (s : State) (k c : Nat) (cl : Client) (p : Pending) (conn : Connection) (att : Attempt)
      (back : SendResult → State → State),
    s.clients[k]? = some cl → cl.cst = .await → cl.pend = some p → cl.conn = some c → s.conns[c]? = some conn →
    back = (fun r t =>
      match cl.caller with
      | .user => t.updClient k fun x => { x with ret := some (.send r) }
      | .host => { t with host := { t.host with inbox := some (.send r) } }) →
    s.take (.client k true att) = .next (redraw s.draws (back .transport (s.updClient k fun x =>
      { x with cst := .failed, pend := none }))) ∧
    (conn.toClient = [] → s.take (.client k false att) = .next (redraw s.draws s)) ∧
    (∀ q, conn.toClient = [] :: q →
      s.take (.client k false att) =
        .next (redraw s.draws (back .transport ((s.popToClient c).updClient k fun x =>
          { x with cst := .failed, pend := none })))) ∧
    ∀ m q, conn.toClient = m :: q → m ≠ [] →
      s.take (.client k false att) =
        .next (redraw s.draws (back (sendResult s.cfg p m) ((s.popToClient c).updClient k fun x =>
          { x with cst := .ready, pend := none, latch := responseLatches (sendResult s.cfg p m) m })))) ∧
  ∀ (g : Cfg) (p : Pending) (m : Message) (r : SendResult) (l : Latches), r = sendResult g p m →
    l = { Latches.empty with
      tid := some (be16 m 0), pid := some (be16 m 2), len := some (be16 m 4), uid := some (byteAt m 6),
      fc := some (byteAt m 7) } →
    (headerOk m = false → responseLatches r m = Latches.empty) ∧
    (headerOk m = true → (∀ d, r ≠ .ok d) → responseLatches r m = l) ∧
    (∀ bs, r = .ok (.bits bs) →
      responseLatches r m = { l with bc := some (byteAt m 8), rvals := some (bs.map .bool) }) ∧
    (∀ vs, r = .ok (.regs vs) →
      responseLatches r m = { l with bc := some (byteAt m 8), rvals := some (vs.map fun w => .int w.toNat) }) ∧
    (∀ a b, r = .ok (.bitWrite a b) → responseLatches r m = { l with addr := some a, val := some (be16 m 10) }) ∧
    (∀ a v, r = .ok (.regWrite a v) → responseLatches r m = { l with addr := some a, val := some v }) ∧
    (∀ a n, r = .ok (.multiple a n) → responseLatches r m = { l with addr := some a, cnt := some n }) ∧
    ∀ a x y, r = .ok (.mask a x y) →
      responseLatches r m = { l with addr := some a, andm := some x, orm := some y }

/-- R72, R114, R115: the response check on bytes, W1 to W5 with their verdict pairs: the server's outbound check (R73) and
the first part of the client's. The message is reported `Invalid` exactly when the response check of R72 fails or its Transaction ID or
Unit ID is not the request's; an accepted exception form is reported with its code as received; any other accepted
one with its payload. -/
def Obligations.ResponseReport : Prop :=
  (∀ (ext : Bool) (m : Message) (rfc : Byte) (n : Nat),
    validateResponse ext m rfc n =
      if m.length < 8 ∨ be16 m 2 ≠ 0#16 ∨ (be16 m 4).toNat ≠ m.length - 6 then (false, 0x00#8)
      else if byteAt m 7 = rfc ||| 0x80#8 ∧ m.length = 9 then (true, 0x00#8)
      else if byteAt m 7 ≠ rfc then (false, 0x01#8)
      else if (Code.ofByte rfc).cls = .ill ∨ (Code.ofByte rfc).cls = .ign ∨
          ((Code.ofByte rfc).cls = .ext ∧ ext = false) then (false, 0x01#8)
      else if rfc ∈ [0x01#8, 0x02#8] then
        if 9 ≤ m.length ∧ m.length = 9 + (byteAt m 8).toNat ∧ (byteAt m 8).toNat = (n + 7) / 8 then (true, 0x00#8)
        else (false, 0x02#8)
      else if rfc ∈ [0x03#8, 0x04#8, 0x17#8] then
        if 9 ≤ m.length ∧ m.length = 9 + (byteAt m 8).toNat ∧ (byteAt m 8).toNat = 2 * n then (true, 0x00#8)
        else (false, 0x02#8)
      else if rfc = 0x16#8 then if m.length = 14 then (true, 0x00#8) else (false, 0x02#8)
      else if m.length = 12 then (true, 0x00#8) else (false, 0x02#8)) ∧
  ∀ (g : Cfg) (p : Pending) (m : Message),
    (sendResult g p m = .invalid ↔
      ¬((validateResponse g.extCli m p.fc p.cnt.toNat).1 = true ∧ be16 m 0 = p.tid ∧ byteAt m 6 = p.uid)) ∧
    (sendResult g p m ≠ .invalid → byteAt m 7 = p.fc ||| 0x80#8 →
      sendResult g p m = .exceptionInfo p.fc (byteAt m 8)) ∧
    (sendResult g p m ≠ .invalid → byteAt m 7 ≠ p.fc ||| 0x80#8 →
      ∃ d, sendResult g p m = .ok d ∧ decodeResponse p.fc (pduOf m) p.cnt.toNat = some d)

/-- R116, R119: the client's decoding of what the server encodes is the payload: bits, registers, the echoes, address and
count, masks; and an exception response is reported with its code. For the extension codes this needs EXT_CLI. -/
def Obligations.ResponseRoundTrip : Prop :=
  ∀ (g : Cfg) (tid : Word) (uid : Byte),
    (∀ (c : Code) (n : Word) (bs : List Bool), c ∈ [.rdco, .rddi] → bs.length = n.toNat → n.toNat ≤ 2040 →
      sendResult g ⟨tid, uid, c.byte, n, .rdr⟩ (frame tid uid (bitReadPdu c n (bs.map .bool))) = .ok (.bits bs)) ∧
    (∀ (c : Code) (n : Word) (vs : List Word), c ∈ [.rdhr, .rdir, .rwhr] → vs.length = n.toNat → n.toNat ≤ 127 →
      sendResult g ⟨tid, uid, c.byte, n, .rdr⟩ (frame tid uid (wordReadPdu c n (vs.map ofWord))) = .ok (.regs vs)) ∧
    (∀ (c : Code) (a : Word) (b : Bool), c = .wsco ∨ (c = .wsdi ∧ g.extCli = true) →
      sendResult g ⟨tid, uid, c.byte, 0#16, .wsr⟩ (frame tid uid (twoFieldPdu c a (encodeBitValue b))) =
        .ok (.bitWrite a b)) ∧
    (∀ (c : Code) (a v : Word), c = .wshr ∨ (c = .wsir ∧ g.extCli = true) →
      sendResult g ⟨tid, uid, c.byte, 0#16, .wsr⟩ (frame tid uid (twoFieldPdu c a v)) = .ok (.regWrite a v)) ∧
    (∀ (c : Code) (a n : Word), c ∈ [.wmco, .wmhr] ∨ (c ∈ [.wmdi, .wmir] ∧ g.extCli = true) →
      sendResult g ⟨tid, uid, c.byte, 0#16, .wmr⟩ (frame tid uid (twoFieldPdu c a n)) = .ok (.multiple a n)) ∧
    (∀ a x y : Word,
      sendResult g ⟨tid, uid, 0x16#8, 0#16, .mwr⟩ (frame tid uid (maskPdu .mwhr a x y)) = .ok (.mask a x y)) ∧
    ∀ (fc code : Byte) (n : Word) (k : RespFormat),
      sendResult g ⟨tid, uid, fc, n, k⟩ (frame tid uid [fc ||| 0x80#8, code]) = .exceptionInfo fc code

/-- R106, R119: the server decodes from every request of a client the request's operands: of a multiple write the
address, the count, the byte count the count implies, and data that unpacks to the values written; of a single-bit
write 0xFF00 or 0x0000, or the raw value (log 17); of the other requests the operands as they stand; of an ignored or
illegal code the payload. -/
def Obligations.RequestRoundTrip : Prop :=
  (∀ (a n : Word) (bs : List Bool), bs.length = n.toNat → n.toNat ≤ 2040 →
    decode (encode (Request.wmco a n bs).instr) =
        .ok (.wmco a n (BitVec.ofNat 8 ((n.toNat + 7) / 8)) (packBits bs)) ∧
      decode (encode (Request.wmdi a n bs).instr) =
        .ok (.wmdi a n (BitVec.ofNat 8 ((n.toNat + 7) / 8)) (packBits bs)) ∧
      unpackBits (packBits bs) n.toNat = bs) ∧
  (∀ (a n ra rn : Word) (vs : List Word), vs.length = n.toNat → n.toNat ≤ 127 →
    decode (encode (Request.wmhr a n vs).instr) =
        .ok (.wmhr a n (BitVec.ofNat 8 (2 * n.toNat)) (vs.flatMap enc16)) ∧
      decode (encode (Request.wmir a n vs).instr) =
        .ok (.wmir a n (BitVec.ofNat 8 (2 * n.toNat)) (vs.flatMap enc16)) ∧
      decode (encode (Request.rwhr ra rn a n vs).instr) =
        .ok (.rwhr ra rn a n (BitVec.ofNat 8 (2 * n.toNat)) (vs.flatMap enc16)) ∧
      unpackWords (vs.flatMap enc16) n.toNat = vs) ∧
  (∀ (a v : Word) (b : Bool),
    decode (encode (Request.wsco a (.bool b)).instr) = .ok (.wsco a (if b = true then 0xFF00#16 else 0x0000#16)) ∧
    decode (encode (Request.wsdi a (.bool b)).instr) = .ok (.wsdi a (if b = true then 0xFF00#16 else 0x0000#16)) ∧
    decode (encode (Request.wsco a (.raw v)).instr) = .ok (.wsco a v) ∧
    decode (encode (Request.wsdi a (.raw v)).instr) = .ok (.wsdi a v)) ∧
  (∀ a n v : Word,
    decode (encode (Request.rdco a n).instr) = .ok (.rdco a n) ∧
    decode (encode (Request.rddi a n).instr) = .ok (.rddi a n) ∧
    decode (encode (Request.rdhr a n).instr) = .ok (.rdhr a n) ∧
    decode (encode (Request.rdir a n).instr) = .ok (.rdir a n) ∧
    decode (encode (Request.wshr a v).instr) = .ok (.wshr a v) ∧
    decode (encode (Request.wsir a v).instr) = .ok (.wsir a v) ∧
    decode (encode (Request.mwhr a n v).instr) = .ok (.mwhr a n v)) ∧
  ∀ (fc : Byte) (p : List Byte), (Code.ofByte fc).cls = .ign ∨ (Code.ofByte fc).cls = .ill →
    encode (Request.other fc p).instr = fc :: p ∧
      decode (fc :: p) = .ok (Request.other fc p).instr ∧ (Request.other fc p).instr.code = Code.ofByte fc

/-- R118: `close()` in FAILED changes nothing; in any other state the peer is sent an empty message, the client is IDLE
with CLI_PEND empty, and its counter is kept; a caller blocked in AWAIT gets `(false, Transport)`, a user in `ret`, the
host in its inbox (log 34). -/
def Obligations.Close : Prop :=
  ∀ (s : State) (k : Nat) (cl : Client), s.clients[k]? = some cl →
    (cl.cst = .failed → s.take (.userClose k) = .next (redraw s.draws s)) ∧
    (cl.cst ≠ .failed →
      ∃ t, s.take (.userClose k) = .next t ∧ t.mem = s.mem ∧
        (∃ cl', t.clients[k]? = some cl' ∧ cl'.cst = .idle ∧ cl'.pend = none ∧ cl'.conn = none ∧
          cl'.tidCtr = cl.tidCtr ∧
          (cl.cst = .await → cl.caller = .user → cl'.ret = some (.send .transport))) ∧
        (cl.cst = .await → cl.caller = .host → t.host = { s.host with inbox := some (.send .transport) }) ∧
        ∀ (c : Nat) (conn : Connection), cl.conn = some c → s.conns[c]? = some conn →
          t.conns[c]? = some { conn with clientOpen := false, toServer := conn.toServer ++ [[]] })

/-! ### The host -/

/-- R123 to R126, R130: the rules of the host's four states. In AwaitingSelection with no request set it stays as it is;
otherwise it picks a requested floor such that every requested floor before it is farther from the current floor and
every other one at least as far, writes that floor's code to HR[0], records it, and goes to AwaitingAck. -/
def Obligations.HostStateRules : Prop :=
  ∀ (target : Word) (x : TickInputs),
    hostRule .idle target x =
      ⟨none, if x.doorClosed = true ∧ x.moving = false then .awaitingSelection else .idle, target⟩ ∧
    ((∀ i, i < 4 → [x.req0, x.req1, x.req2, x.req3].getD i false = false) →
      hostRule .awaitingSelection target x = ⟨none, .awaitingSelection, target⟩) ∧
    ((∃ i, i < 4 ∧ [x.req0, x.req1, x.req2, x.req3].getD i false = true) →
      ∃ best, best < 4 ∧ [x.req0, x.req1, x.req2, x.req3].getD best false = true ∧
        hostRule .awaitingSelection target x =
          ⟨some (BitVec.ofNat 16 (best + 1)), .awaitingAck, BitVec.ofNat 16 (best + 1)⟩ ∧
        ∀ i, i < 4 → [x.req0, x.req1, x.req2, x.req3].getD i false = true →
          (i < best → ((best : Int) - x.currentFloor.toNat).natAbs < ((i : Int) - x.currentFloor.toNat).natAbs) ∧
          (best ≤ i → ((best : Int) - x.currentFloor.toNat).natAbs ≤ ((i : Int) - x.currentFloor.toNat).natAbs)) ∧
    (x.observedCode = target ∧ 0#16 < target →
      hostRule .awaitingAck target x = ⟨some 0#16, .awaitingClear, 0#16⟩) ∧
    (¬(x.observedCode = target ∧ 0#16 < target) →
      hostRule .awaitingAck target x = ⟨none, .awaitingAck, target⟩) ∧
    hostRule .awaitingClear target x =
      ⟨none, if x.observedCode = 0#16 ∧ x.moving = false then .idle else .awaitingClear, target⟩

/-- R121, R122, R124, R125, R127: the sends of a tick, in order, each made when the one before has returned a success:
RDDI 0,3; RDIR 0,6; RDHR 0,1; the rule's write, if it has one; the write-back of the new target. `State.hostSends` says
what each does whatever the state of client 0: it transmits, or a transport error or NotReady comes back to the inbox
(R110, R112, R117), or it waits for another caller's answer (log 21); the local work of the tick between two sends is
one step with the later of them (log 38). The inputs are taken from the three reads. Then the host sleeps TICK time
units (log 20). Its first tick is due when its connect has returned true; when that returned false it stops (R132, R147;
log 19). It begins no tick once the run's caller has stopped scheduling them (R132, R158; log 37). -/
def Obligations.HostTick : Prop :=
  (∀ s : State,
    (s.host.phase = .sleep → s.host.wait = 0 → s.host.scheduled = true →
      s.hostSends (.rddi 0#16 3#16) { s.host with phase := .awaitDi, inbox := none }) ∧
    (∀ a b d, s.host.phase = .awaitDi → s.host.inbox = some (.send (.ok (.bits [a, b, d]))) →
      s.hostSends (.rdir 0#16 6#16)
        { s.host with
          phase := .awaitIr, inbox := none,
          inputs := { s.host.inputs with systemOn := a, doorClosed := b, moving := d } }) ∧
    (∀ f ms r0 r1 r2 r3, s.host.phase = .awaitIr →
      s.host.inbox = some (.send (.ok (.regs [f, ms, r0, r1, r2, r3]))) →
      s.hostSends (.rdhr 0#16 1#16)
        { s.host with
          phase := .awaitHr, inbox := none,
          inputs :=
            { s.host.inputs with
              currentFloor := f, msToClose := ms, req0 := r0 != 0#16, req1 := r1 != 0#16,
              req2 := r2 != 0#16, req3 := r3 != 0#16 } }) ∧
    (∀ v x o, s.host.phase = .awaitHr → s.host.inbox = some (.send (.ok (.regs [v]))) →
      x = { s.host.inputs with observedCode := v } → o = hostRule s.host.hst s.host.localTarget x →
      (∀ w, o.write = some w →
        s.hostSends (.wshr 0#16 w) { s.host with phase := .awaitRule, inbox := none, inputs := x }) ∧
      (o.write = none →
        s.hostSends (.wshr 0#16 o.target)
          { s.host with
            phase := .awaitBack, inbox := none, inputs := x, hst := o.hst, localTarget := o.target })) ∧
    ∀ d o, s.host.phase = .awaitRule → s.host.inbox = some (.send (.ok d)) →
      o = hostRule s.host.hst s.host.localTarget s.host.inputs →
      s.hostSends (.wshr 0#16 o.target)
        { s.host with phase := .awaitBack, inbox := none, hst := o.hst, localTarget := o.target }) ∧
  ∀ (s : State) (cl : Client) (err : Bool) (att : Attempt), s.clients[0]? = some cl →
    (∀ d, s.host.phase = .awaitBack → s.host.inbox = some (.send (.ok d)) →
      s.take (.host err att) = .next (redraw s.draws
        { s with host := { s.host with phase := .sleep, wait := s.cfg.tick, inbox := none } })) ∧
    (∀ ok, s.host.phase = .connecting → s.host.inbox = some (.connect ok) →
      s.take (.host err att) = .next (redraw s.draws
        { s with host := { s.host with phase := if ok = true then .sleep else .stopped, wait := 0, inbox := none } })) ∧
    (s.host.phase = .boot ∨ s.host.phase = .sleep → s.host.scheduled = false →
      s.take (.host err att) = .next (redraw s.draws s)) ∧
    (s.host.phase = .sleep → 0 < s.host.wait → s.take (.host err att) = .next (redraw s.draws s)) ∧
    s.take .stopTicks = .next (redraw s.draws { s with host := { s.host with scheduled := false } })

/-- R128: any send of a tick that returns no success stops the host for good: it is Halted, whatever else its client is
doing, and no later step of it does anything. Halted and stopped last over every step of any agent but a restart. The
control state, the target and the tick's inputs and phase are the host's own: no move but its step or a restart changes
them (R120, R132), and while a call of its is outstanding its step changes nothing (R128). -/
def Obligations.HostHalts : Prop :=
  (∀ (s : State) (cl : Client) (err : Bool) (att : Attempt), s.clients[0]? = some cl →
    (∀ r, s.host.phase ∈ [.awaitDi, .awaitIr, .awaitHr, .awaitRule, .awaitBack] →
      s.host.inbox = some (.send r) → (∀ d, r ≠ .ok d) →
      s.take (.host err att) = .next (redraw s.draws
        { s with host := { s.host with hst := .halted, phase := .stopped, inbox := none } })) ∧
    (s.host.phase = .stopped → s.take (.host err att) = .next (redraw s.draws s)) ∧
    (s.host.phase ∈ [.connecting, .awaitDi, .awaitIr, .awaitHr, .awaitRule, .awaitBack] → s.host.inbox = none →
      s.take (.host err att) = .next (redraw s.draws s))) ∧
  ∀ s t : State, step s = .next t → s.choice ≠ .restart →
    (s.host.hst = .halted → t.host.hst = .halted) ∧ (s.host.phase = .stopped → t.host.phase = .stopped) ∧
    ((∀ err att, s.choice ≠ .host err att) →
      t.host.hst = s.host.hst ∧ t.host.localTarget = s.host.localTarget ∧ t.host.inputs = s.host.inputs ∧
        t.host.phase = s.host.phase)

/-! ### Whole-machine properties -/

/-- R150, R158: a hang lasts: when a client awaits an answer on a connection whose channels are empty and whose session
is in RECV, every step but a transport error of that session or client, a close of that client, or a restart leaves
it so; and no such state is finished. -/
def Obligations.HangPersists : Prop :=
  (∀ (s : State) (k c : Nat), s.hung k c → s.finished = false) ∧
  ∀ (s t : State) (k c : Nat), s.Inv → s.hung k c → endsWait k c s.choice = false → step s = .next t → t.hung k c

/-- R119, R92, R84, R86 (S6, S7): a client that is READY on a connection whose session is in RECV writes a register of
the table and reads it back: with no other agent's step between, both calls succeed, the second returns the value
written, the register holds it and no other cell changed, and the counter has advanced by two. -/
def Obligations.WriteThenReadTransaction : Prop :=
  ∀ (s : State) (k c : Nat) (cl : Client) (conn : Connection) (ses : Session) (a v : Word),
    s.cfg.legal = true → s.mem.wf = true → s.clients[k]? = some cl → cl.cst = .ready → cl.conn = some c →
    s.conns[c]? = some conn → conn.toServer = [] → conn.toClient = [] → conn.session? = some ses →
    ses.sst = .recv → a.toNat < s.cfg.tableLen → s.cfg.storeFaults = false →
    ∃ t u clt clu,
      s.takeAll [.userSend k (.wshr a v) false, .session c false false, .session c false false,
        .session c false false, .session c false false, .client k false .fails] = .next t ∧
      t.clients[k]? = some clt ∧ clt.ret = some (.send (.ok (.regWrite a v))) ∧
      s.writes t.mem .hr a.toNat 1 (fun _ => v) ∧
      t.takeAll [.userSend k (.rdhr a 1#16) false, .session c false false, .session c false false,
        .session c false false, .session c false false, .client k false .fails] = .next u ∧
      u.clients[k]? = some clu ∧ clu.ret = some (.send (.ok (.regs [v]))) ∧ clu.cst = .ready ∧
      clu.tidCtr = cl.tidCtr + 2#16 ∧ u.mem = t.mem

end Statements
end

