-- ==== Sys2Proof/Laws/State.lean ====
section
/-! SUPPORT. What each update of the state leaves in each field: one lemma per field per update, so that no later proof
unfolds a record update. -/

namespace Sys2Proof.Machine

@[simp] theorem State.updConn_cfg (s : State) (c : Nat) (f : Connection → Connection) : (s.updConn c f).cfg = s.cfg := rfl
@[simp] theorem State.updConn_mem (s : State) (c : Nat) (f : Connection → Connection) : (s.updConn c f).mem = s.mem := rfl
@[simp] theorem State.updConn_listener (s : State) (c : Nat) (f : Connection → Connection) : (s.updConn c f).listener = s.listener := rfl
@[simp] theorem State.updConn_conns (s : State) (c : Nat) (f : Connection → Connection) : (s.updConn c f).conns = s.conns.modify c f := rfl
@[simp] theorem State.updConn_clients (s : State) (c : Nat) (f : Connection → Connection) : (s.updConn c f).clients = s.clients := rfl
@[simp] theorem State.updConn_host (s : State) (c : Nat) (f : Connection → Connection) : (s.updConn c f).host = s.host := rfl
@[simp] theorem State.updConn_choice (s : State) (c : Nat) (f : Connection → Connection) : (s.updConn c f).choice = s.choice := rfl
@[simp] theorem State.updConn_draws (s : State) (c : Nat) (f : Connection → Connection) : (s.updConn c f).draws = s.draws := rfl

@[simp] theorem State.updSession_cfg (s : State) (c : Nat) (f : Session → Session) : (s.updSession c f).cfg = s.cfg := rfl
@[simp] theorem State.updSession_mem (s : State) (c : Nat) (f : Session → Session) : (s.updSession c f).mem = s.mem := rfl
@[simp] theorem State.updSession_listener (s : State) (c : Nat) (f : Session → Session) : (s.updSession c f).listener = s.listener := rfl
@[simp] theorem State.updSession_conns (s : State) (c : Nat) (f : Session → Session) : (s.updSession c f).conns = s.conns.modify c (Connection.mapSession f) := rfl
@[simp] theorem State.updSession_clients (s : State) (c : Nat) (f : Session → Session) : (s.updSession c f).clients = s.clients := rfl
@[simp] theorem State.updSession_host (s : State) (c : Nat) (f : Session → Session) : (s.updSession c f).host = s.host := rfl
@[simp] theorem State.updSession_choice (s : State) (c : Nat) (f : Session → Session) : (s.updSession c f).choice = s.choice := rfl
@[simp] theorem State.updSession_draws (s : State) (c : Nat) (f : Session → Session) : (s.updSession c f).draws = s.draws := rfl

@[simp] theorem State.updClient_cfg (s : State) (k : Nat) (f : Client → Client) : (s.updClient k f).cfg = s.cfg := rfl
@[simp] theorem State.updClient_mem (s : State) (k : Nat) (f : Client → Client) : (s.updClient k f).mem = s.mem := rfl
@[simp] theorem State.updClient_listener (s : State) (k : Nat) (f : Client → Client) : (s.updClient k f).listener = s.listener := rfl
@[simp] theorem State.updClient_conns (s : State) (k : Nat) (f : Client → Client) : (s.updClient k f).conns = s.conns := rfl
@[simp] theorem State.updClient_clients (s : State) (k : Nat) (f : Client → Client) : (s.updClient k f).clients = s.clients.modify k f := rfl
@[simp] theorem State.updClient_host (s : State) (k : Nat) (f : Client → Client) : (s.updClient k f).host = s.host := rfl
@[simp] theorem State.updClient_choice (s : State) (k : Nat) (f : Client → Client) : (s.updClient k f).choice = s.choice := rfl
@[simp] theorem State.updClient_draws (s : State) (k : Nat) (f : Client → Client) : (s.updClient k f).draws = s.draws := rfl

@[simp] theorem State.updHost_cfg (s : State) (f : HostLoop → HostLoop) : (s.updHost f).cfg = s.cfg := rfl
@[simp] theorem State.updHost_mem (s : State) (f : HostLoop → HostLoop) : (s.updHost f).mem = s.mem := rfl
@[simp] theorem State.updHost_listener (s : State) (f : HostLoop → HostLoop) : (s.updHost f).listener = s.listener := rfl
@[simp] theorem State.updHost_conns (s : State) (f : HostLoop → HostLoop) : (s.updHost f).conns = s.conns := rfl
@[simp] theorem State.updHost_clients (s : State) (f : HostLoop → HostLoop) : (s.updHost f).clients = s.clients := rfl
@[simp] theorem State.updHost_host (s : State) (f : HostLoop → HostLoop) : (s.updHost f).host = f s.host := rfl
@[simp] theorem State.updHost_choice (s : State) (f : HostLoop → HostLoop) : (s.updHost f).choice = s.choice := rfl
@[simp] theorem State.updHost_draws (s : State) (f : HostLoop → HostLoop) : (s.updHost f).draws = s.draws := rfl

@[simp] theorem State.addConn_cfg (s : State) (k : Connection) : (s.addConn k).cfg = s.cfg := rfl
@[simp] theorem State.addConn_mem (s : State) (k : Connection) : (s.addConn k).mem = s.mem := rfl
@[simp] theorem State.addConn_listener (s : State) (k : Connection) : (s.addConn k).listener = s.listener := rfl
@[simp] theorem State.addConn_conns (s : State) (k : Connection) : (s.addConn k).conns = s.conns ++ [k] := rfl
@[simp] theorem State.addConn_clients (s : State) (k : Connection) : (s.addConn k).clients = s.clients := rfl
@[simp] theorem State.addConn_host (s : State) (k : Connection) : (s.addConn k).host = s.host := rfl
@[simp] theorem State.addConn_choice (s : State) (k : Connection) : (s.addConn k).choice = s.choice := rfl
@[simp] theorem State.addConn_draws (s : State) (k : Connection) : (s.addConn k).draws = s.draws := rfl

@[simp] theorem State.pushToServer_cfg (s : State) (c : Nat) (m : Message) : (s.pushToServer c m).cfg = s.cfg := rfl
@[simp] theorem State.pushToServer_mem (s : State) (c : Nat) (m : Message) : (s.pushToServer c m).mem = s.mem := rfl
@[simp] theorem State.pushToServer_listener (s : State) (c : Nat) (m : Message) : (s.pushToServer c m).listener = s.listener := rfl
@[simp] theorem State.pushToServer_conns (s : State) (c : Nat) (m : Message) : (s.pushToServer c m).conns = s.conns.modify c fun k => { k with toServer := k.toServer ++ [m] } := rfl
@[simp] theorem State.pushToServer_clients (s : State) (c : Nat) (m : Message) : (s.pushToServer c m).clients = s.clients := rfl
@[simp] theorem State.pushToServer_host (s : State) (c : Nat) (m : Message) : (s.pushToServer c m).host = s.host := rfl
@[simp] theorem State.pushToServer_choice (s : State) (c : Nat) (m : Message) : (s.pushToServer c m).choice = s.choice := rfl
@[simp] theorem State.pushToServer_draws (s : State) (c : Nat) (m : Message) : (s.pushToServer c m).draws = s.draws := rfl

@[simp] theorem State.pushToClient_cfg (s : State) (c : Nat) (m : Message) : (s.pushToClient c m).cfg = s.cfg := rfl
@[simp] theorem State.pushToClient_mem (s : State) (c : Nat) (m : Message) : (s.pushToClient c m).mem = s.mem := rfl
@[simp] theorem State.pushToClient_listener (s : State) (c : Nat) (m : Message) : (s.pushToClient c m).listener = s.listener := rfl
@[simp] theorem State.pushToClient_conns (s : State) (c : Nat) (m : Message) : (s.pushToClient c m).conns = s.conns.modify c fun k => { k with toClient := k.toClient ++ [m] } := rfl
@[simp] theorem State.pushToClient_clients (s : State) (c : Nat) (m : Message) : (s.pushToClient c m).clients = s.clients := rfl
@[simp] theorem State.pushToClient_host (s : State) (c : Nat) (m : Message) : (s.pushToClient c m).host = s.host := rfl
@[simp] theorem State.pushToClient_choice (s : State) (c : Nat) (m : Message) : (s.pushToClient c m).choice = s.choice := rfl
@[simp] theorem State.pushToClient_draws (s : State) (c : Nat) (m : Message) : (s.pushToClient c m).draws = s.draws := rfl

@[simp] theorem State.popToServer_cfg (s : State) (c : Nat) : (s.popToServer c).cfg = s.cfg := rfl
@[simp] theorem State.popToServer_mem (s : State) (c : Nat) : (s.popToServer c).mem = s.mem := rfl
@[simp] theorem State.popToServer_listener (s : State) (c : Nat) : (s.popToServer c).listener = s.listener := rfl
@[simp] theorem State.popToServer_conns (s : State) (c : Nat) : (s.popToServer c).conns = s.conns.modify c fun k => { k with toServer := k.toServer.tail } := rfl
@[simp] theorem State.popToServer_clients (s : State) (c : Nat) : (s.popToServer c).clients = s.clients := rfl
@[simp] theorem State.popToServer_host (s : State) (c : Nat) : (s.popToServer c).host = s.host := rfl
@[simp] theorem State.popToServer_choice (s : State) (c : Nat) : (s.popToServer c).choice = s.choice := rfl
@[simp] theorem State.popToServer_draws (s : State) (c : Nat) : (s.popToServer c).draws = s.draws := rfl

@[simp] theorem State.popToClient_cfg (s : State) (c : Nat) : (s.popToClient c).cfg = s.cfg := rfl
@[simp] theorem State.popToClient_mem (s : State) (c : Nat) : (s.popToClient c).mem = s.mem := rfl
@[simp] theorem State.popToClient_listener (s : State) (c : Nat) : (s.popToClient c).listener = s.listener := rfl
@[simp] theorem State.popToClient_conns (s : State) (c : Nat) : (s.popToClient c).conns = s.conns.modify c fun k => { k with toClient := k.toClient.tail } := rfl
@[simp] theorem State.popToClient_clients (s : State) (c : Nat) : (s.popToClient c).clients = s.clients := rfl
@[simp] theorem State.popToClient_host (s : State) (c : Nat) : (s.popToClient c).host = s.host := rfl
@[simp] theorem State.popToClient_choice (s : State) (c : Nat) : (s.popToClient c).choice = s.choice := rfl
@[simp] theorem State.popToClient_draws (s : State) (c : Nat) : (s.popToClient c).draws = s.draws := rfl

@[simp] theorem returnToReceive_cfg (c : Nat) (s : State) : (returnToReceive c s).cfg = s.cfg := rfl
@[simp] theorem returnToReceive_mem (c : Nat) (s : State) : (returnToReceive c s).mem = s.mem := rfl
@[simp] theorem returnToReceive_listener (c : Nat) (s : State) : (returnToReceive c s).listener = s.listener := rfl
@[simp] theorem returnToReceive_clients (c : Nat) (s : State) : (returnToReceive c s).clients = s.clients := rfl
@[simp] theorem returnToReceive_host (c : Nat) (s : State) : (returnToReceive c s).host = s.host := rfl
@[simp] theorem returnToReceive_choice (c : Nat) (s : State) : (returnToReceive c s).choice = s.choice := rfl
@[simp] theorem returnToReceive_draws (c : Nat) (s : State) : (returnToReceive c s).draws = s.draws := rfl

@[simp] theorem recordVerdict_cfg (v : Bool × Byte) (c : Nat) (s : State) : (recordVerdict v c s).cfg = s.cfg := rfl
@[simp] theorem recordVerdict_mem (v : Bool × Byte) (c : Nat) (s : State) : (recordVerdict v c s).mem = s.mem := rfl
@[simp] theorem recordVerdict_listener (v : Bool × Byte) (c : Nat) (s : State) : (recordVerdict v c s).listener = s.listener := rfl
@[simp] theorem recordVerdict_clients (v : Bool × Byte) (c : Nat) (s : State) : (recordVerdict v c s).clients = s.clients := rfl
@[simp] theorem recordVerdict_host (v : Bool × Byte) (c : Nat) (s : State) : (recordVerdict v c s).host = s.host := rfl
@[simp] theorem recordVerdict_choice (v : Bool × Byte) (c : Nat) (s : State) : (recordVerdict v c s).choice = s.choice := rfl
@[simp] theorem recordVerdict_draws (v : Bool × Byte) (c : Nat) (s : State) : (recordVerdict v c s).draws = s.draws := rfl

@[simp] theorem latchRead_cfg (vs : List Value) (c : Nat) (s : State) : (latchRead vs c s).cfg = s.cfg := rfl
@[simp] theorem latchRead_mem (vs : List Value) (c : Nat) (s : State) : (latchRead vs c s).mem = s.mem := rfl
@[simp] theorem latchRead_listener (vs : List Value) (c : Nat) (s : State) : (latchRead vs c s).listener = s.listener := rfl
@[simp] theorem latchRead_clients (vs : List Value) (c : Nat) (s : State) : (latchRead vs c s).clients = s.clients := rfl
@[simp] theorem latchRead_host (vs : List Value) (c : Nat) (s : State) : (latchRead vs c s).host = s.host := rfl
@[simp] theorem latchRead_choice (vs : List Value) (c : Nat) (s : State) : (latchRead vs c s).choice = s.choice := rfl
@[simp] theorem latchRead_draws (vs : List Value) (c : Nat) (s : State) : (latchRead vs c s).draws = s.draws := rfl

@[simp] theorem latchWrite_cfg (m : Memory) (c : Nat) (s : State) : (latchWrite m c s).cfg = s.cfg := rfl
@[simp] theorem latchWrite_mem (m : Memory) (c : Nat) (s : State) : (latchWrite m c s).mem = m := rfl
@[simp] theorem latchWrite_listener (m : Memory) (c : Nat) (s : State) : (latchWrite m c s).listener = s.listener := rfl
@[simp] theorem latchWrite_clients (m : Memory) (c : Nat) (s : State) : (latchWrite m c s).clients = s.clients := rfl
@[simp] theorem latchWrite_host (m : Memory) (c : Nat) (s : State) : (latchWrite m c s).host = s.host := rfl
@[simp] theorem latchWrite_choice (m : Memory) (c : Nat) (s : State) : (latchWrite m c s).choice = s.choice := rfl
@[simp] theorem latchWrite_draws (m : Memory) (c : Nat) (s : State) : (latchWrite m c s).draws = s.draws := rfl

@[simp] theorem closeSession_cfg (c : Nat) (s : State) : (closeSession c s).cfg = s.cfg := rfl
@[simp] theorem closeSession_mem (c : Nat) (s : State) : (closeSession c s).mem = s.mem := rfl
@[simp] theorem closeSession_listener (c : Nat) (s : State) : (closeSession c s).listener = s.listener := rfl
@[simp] theorem closeSession_clients (c : Nat) (s : State) : (closeSession c s).clients = s.clients := rfl
@[simp] theorem closeSession_host (c : Nat) (s : State) : (closeSession c s).host = s.host := rfl
@[simp] theorem closeSession_choice (c : Nat) (s : State) : (closeSession c s).choice = s.choice := rfl
@[simp] theorem closeSession_draws (c : Nat) (s : State) : (closeSession c s).draws = s.draws := rfl

@[simp] theorem acceptMessage_cfg (m : Message) (c : Nat) (s : State) : (acceptMessage m c s).cfg = s.cfg := rfl
@[simp] theorem acceptMessage_mem (m : Message) (c : Nat) (s : State) : (acceptMessage m c s).mem = s.mem := rfl
@[simp] theorem acceptMessage_listener (m : Message) (c : Nat) (s : State) : (acceptMessage m c s).listener = s.listener := rfl
@[simp] theorem acceptMessage_clients (m : Message) (c : Nat) (s : State) : (acceptMessage m c s).clients = s.clients := rfl
@[simp] theorem acceptMessage_host (m : Message) (c : Nat) (s : State) : (acceptMessage m c s).host = s.host := rfl
@[simp] theorem acceptMessage_choice (m : Message) (c : Nat) (s : State) : (acceptMessage m c s).choice = s.choice := rfl
@[simp] theorem acceptMessage_draws (m : Message) (c : Nat) (s : State) : (acceptMessage m c s).draws = s.draws := rfl

@[simp] theorem closeClientEnd_cfg (c : Nat) (s : State) : (closeClientEnd c s).cfg = s.cfg := rfl
@[simp] theorem closeClientEnd_mem (c : Nat) (s : State) : (closeClientEnd c s).mem = s.mem := rfl
@[simp] theorem closeClientEnd_listener (c : Nat) (s : State) : (closeClientEnd c s).listener = s.listener := rfl
@[simp] theorem closeClientEnd_clients (c : Nat) (s : State) : (closeClientEnd c s).clients = s.clients := rfl
@[simp] theorem closeClientEnd_host (c : Nat) (s : State) : (closeClientEnd c s).host = s.host := rfl
@[simp] theorem closeClientEnd_choice (c : Nat) (s : State) : (closeClientEnd c s).choice = s.choice := rfl
@[simp] theorem closeClientEnd_draws (c : Nat) (s : State) : (closeClientEnd c s).draws = s.draws := rfl

@[simp] theorem redraw_cfg (n : Nat) (s : State) : (redraw n s).cfg = s.cfg := rfl
@[simp] theorem redraw_mem (n : Nat) (s : State) : (redraw n s).mem = s.mem := rfl
@[simp] theorem redraw_listener (n : Nat) (s : State) : (redraw n s).listener = s.listener := rfl
@[simp] theorem redraw_conns (n : Nat) (s : State) : (redraw n s).conns = s.conns := rfl
@[simp] theorem redraw_clients (n : Nat) (s : State) : (redraw n s).clients = s.clients := rfl
@[simp] theorem redraw_host (n : Nat) (s : State) : (redraw n s).host = s.host := rfl
@[simp] theorem redraw_choice (n : Nat) (s : State) : (redraw n s).choice = Config.draw n := rfl
@[simp] theorem redraw_draws (n : Nat) (s : State) : (redraw n s).draws = n + 1 := rfl

@[simp] theorem newClient_cfg (s : State) : (newClient s).cfg = s.cfg := rfl
@[simp] theorem newClient_mem (s : State) : (newClient s).mem = s.mem := rfl
@[simp] theorem newClient_listener (s : State) : (newClient s).listener = s.listener := rfl
@[simp] theorem newClient_conns (s : State) : (newClient s).conns = s.conns := rfl
@[simp] theorem newClient_clients (s : State) : (newClient s).clients = s.clients ++ [Client.reset s.cfg] := rfl
@[simp] theorem newClient_host (s : State) : (newClient s).host = s.host := rfl
@[simp] theorem newClient_choice (s : State) : (newClient s).choice = s.choice := rfl
@[simp] theorem newClient_draws (s : State) : (newClient s).draws = s.draws := rfl

@[simp] theorem stopTicks_cfg (s : State) : (stopTicks s).cfg = s.cfg := rfl
@[simp] theorem stopTicks_mem (s : State) : (stopTicks s).mem = s.mem := rfl
@[simp] theorem stopTicks_listener (s : State) : (stopTicks s).listener = s.listener := rfl
@[simp] theorem stopTicks_conns (s : State) : (stopTicks s).conns = s.conns := rfl
@[simp] theorem stopTicks_clients (s : State) : (stopTicks s).clients = s.clients := rfl
@[simp] theorem stopTicks_host (s : State) : (stopTicks s).host = { s.host with scheduled := false } := rfl
@[simp] theorem stopTicks_choice (s : State) : (stopTicks s).choice = s.choice := rfl
@[simp] theorem stopTicks_draws (s : State) : (stopTicks s).draws = s.draws := rfl

@[simp] theorem deliver_cfg (w : Caller) (k : Nat) (r : Return) (s : State) : (deliver w k r s).cfg = s.cfg := by
  cases w <;> rfl
@[simp] theorem deliver_mem (w : Caller) (k : Nat) (r : Return) (s : State) : (deliver w k r s).mem = s.mem := by
  cases w <;> rfl
@[simp] theorem deliver_listener (w : Caller) (k : Nat) (r : Return) (s : State) : (deliver w k r s).listener = s.listener := by
  cases w <;> rfl
@[simp] theorem deliver_conns (w : Caller) (k : Nat) (r : Return) (s : State) : (deliver w k r s).conns = s.conns := by
  cases w <;> rfl
@[simp] theorem deliver_choice (w : Caller) (k : Nat) (r : Return) (s : State) : (deliver w k r s).choice = s.choice := by
  cases w <;> rfl
@[simp] theorem deliver_draws (w : Caller) (k : Nat) (r : Return) (s : State) : (deliver w k r s).draws = s.draws := by
  cases w <;> rfl

@[simp] theorem deliver_user_clients (k : Nat) (r : Return) (s : State) :
    (deliver .user k r s).clients = s.clients.modify k fun cl => { cl with ret := some r } := rfl
@[simp] theorem deliver_user_host (k : Nat) (r : Return) (s : State) : (deliver .user k r s).host = s.host := rfl
@[simp] theorem deliver_host_clients (k : Nat) (r : Return) (s : State) :
    (deliver .host k r s).clients = s.clients := rfl
@[simp] theorem deliver_host_host (k : Nat) (r : Return) (s : State) :
    (deliver .host k r s).host = { s.host with inbox := some r } := rfl

/-! ### Connections -/

@[simp] theorem Connection.mapSession_owner (f : Session → Session) (k : Connection) :
    (k.mapSession f).owner = k.owner := by
  unfold Connection.mapSession; split <;> rfl
@[simp] theorem Connection.mapSession_clientOpen (f : Session → Session) (k : Connection) :
    (k.mapSession f).clientOpen = k.clientOpen := by
  unfold Connection.mapSession; split <;> rfl
@[simp] theorem Connection.mapSession_toServer (f : Session → Session) (k : Connection) :
    (k.mapSession f).toServer = k.toServer := by
  unfold Connection.mapSession; split <;> rfl
@[simp] theorem Connection.mapSession_toClient (f : Session → Session) (k : Connection) :
    (k.mapSession f).toClient = k.toClient := by
  unfold Connection.mapSession; split <;> rfl

/-- The session of a connection whose session is changed. -/
@[simp] theorem Connection.session?_mapSession (f : Session → Session) (k : Connection) :
    (k.mapSession f).session? = k.session?.map f := by
  rcases k with ⟨o, b, e, x, y⟩
  cases e <;> rfl

/-- Two changes of a session, one after the other, are one. -/
theorem Connection.mapSession_mapSession (f g : Session → Session) (k : Connection) :
    (k.mapSession f).mapSession g = k.mapSession fun x => g (f x) := by
  rcases k with ⟨o, b, e, x, y⟩
  cases e <;> rfl

/-! ### Sessions -/

/-- Connection `d` after a change of connection `c`. -/
theorem State.updConn_get (s : State) (c d : Nat) (f : Connection → Connection) :
    (s.updConn c f).conns[d]? = if c = d then s.conns[d]?.map f else s.conns[d]? := by
  simp [List.getElem?_modify]; split <;> simp

/-- Connection `d` after a change of the session of connection `c`. -/
theorem State.updSession_get (s : State) (c d : Nat) (f : Session → Session) :
    (s.updSession c f).conns[d]? =
      if c = d then s.conns[d]?.map (Connection.mapSession f) else s.conns[d]? :=
  State.updConn_get s c d _

/-- The session of connection `c` after a change of it. -/
@[simp] theorem State.session?_updSession (s : State) (c : Nat) (f : Session → Session) :
    (s.updSession c f).session? c = (s.session? c).map f := by
  unfold State.session?
  rw [State.updSession_get, if_pos rfl]
  cases s.conns[c]? <;> simp

/-- The session of another connection after a change of that of `c`. -/
theorem State.session?_updSession_ne (s : State) {c d : Nat} (f : Session → Session) (h : c ≠ d) :
    (s.updSession c f).session? d = s.session? d := by
  unfold State.session?
  rw [State.updSession_get, if_neg h]

/-- A message put on the channel to the peer leaves every session as it is. -/
@[simp] theorem State.session?_pushToClient (s : State) (c d : Nat) (m : Message) :
    (s.pushToClient c m).session? d = s.session? d := by
  unfold State.session? State.pushToClient
  rw [State.updConn_get]
  split <;> cases s.conns[d]? <;> rfl

/-- Two changes of one session, one after the other, are one. -/
theorem State.updSession_updSession (s : State) (c : Nat) (f g : Session → Session) :
    (s.updSession c f).updSession c g = s.updSession c fun x => g (f x) := by
  have h : ∀ (l : List Connection) (n : Nat),
      (l.modify n (Connection.mapSession f)).modify n (Connection.mapSession g) =
        l.modify n (Connection.mapSession fun x => g (f x)) := by
    intro l n
    apply List.ext_getElem?
    intro d
    simp only [List.getElem?_modify]
    split
    · cases l[d]? <;> simp [Connection.mapSession_mapSession]
    · cases l[d]? <;> simp
  unfold State.updSession State.updConn
  simp only [h]

/-- A session is changed by a function that agrees with another on it. -/
theorem State.updSession_congr {s : State} {c : Nat} {ses : Session} {f g : Session → Session}
    (h : s.session? c = some ses) (hfg : f ses = g ses) : s.updSession c f = s.updSession c g := by
  unfold State.updSession State.updConn
  congr 1
  apply List.ext_getElem?
  intro d
  simp only [List.getElem?_modify]
  split
  · next hd =>
    subst hd
    unfold State.session? at h
    cases hk : s.conns[c]? with
    | none => rfl
    | some k =>
      rw [hk] at h
      rcases k with ⟨o, b, e, x, y⟩
      cases e with
      | session z =>
        have hz : z = ses := by simpa [Connection.session?] using h
        subst hz
        simp [Connection.mapSession, hfg]
      | waiting => rfl
      | foreign _ => rfl
  · rfl

/-- The store does not matter to which session a connection has. -/
@[simp] theorem State.session?_mem (s : State) (m : Memory) (c : Nat) :
    State.session? { s with mem := m } c = s.session? c := rfl

/-- The active session is the one the next move names. -/
theorem State.active_eq {s : State} {c : Nat} {err fail : Bool} {ses : Session}
    (hc : s.choice = .session c err fail) (hs : s.session? c = some ses) :
    s.active = some ⟨c, fail, ses⟩ := by
  simp [State.active, hc, hs]

/-- What an active session says about the state. -/
theorem State.active_inv {s : State} {a : Active} (h : s.active = some a) :
    (∃ err, s.choice = .session a.conn err a.fail) ∧ s.session? a.conn = some a.ses := by
  unfold State.active at h
  split at h
  · next c err fail hc =>
    cases hs : s.session? c with
    | none => simp [hs] at h
    | some ses =>
      rw [hs] at h
      simp only [Option.some.injEq] at h
      subst h
      exact ⟨⟨err, hc⟩, hs⟩
  · exact absurd h (by simp)

end Sys2Proof.Machine
end

