-- ==== Sys2Proof/Laws/Client.lean ====
section
/-! SUPPORT. What the calls and steps of a client can do (spec/44_client_sequencer.md R106, R110 to R117), and what the
host does with a returned value (spec/45_host_control_loop.md R128): each operation inverted once. -/

namespace Sys2Proof.Machine

/-! ### Changing a client -/

/-- Client `k` after a change of it. -/
theorem State.updClient_get (s : State) (k : Nat) (f : Client → Client) {cl : Client} (h : s.clients[k]? = some cl) :
    (s.updClient k f).clients[k]? = some (f cl) := by
  simp [h]

/-- Another client after a change of client `k`. -/
theorem State.updClient_get_ne (s : State) {k j : Nat} (f : Client → Client) (h : j ≠ k) :
    (s.updClient k f).clients[j]? = s.clients[j]? := by
  simp [Ne.symm h]

/-- Two changes of one client, one after the other, are one. -/
theorem State.updClient_updClient (s : State) (k : Nat) (f g : Client → Client) :
    (s.updClient k f).updClient k g = s.updClient k fun x => g (f x) := by
  unfold State.updClient
  congr 1
  apply List.ext_getElem?
  intro d
  simp only [List.getElem?_modify]
  split
  · cases s.clients[d]? <;> simp
  · cases s.clients[d]? <;> simp

/-- A client is changed by a function that agrees with another on it. -/
theorem State.updClient_congr {s : State} {k : Nat} {cl : Client} {f g : Client → Client}
    (h : s.clients[k]? = some cl) (hfg : f cl = g cl) : s.updClient k f = s.updClient k g := by
  unfold State.updClient
  congr 1
  apply List.ext_getElem?
  intro d
  simp only [List.getElem?_modify]
  split
  · next hd =>
    subst hd
    simp [h, hfg]
  · rfl

/-! ### Send and await -/

/-- A request a client can write names an extension code exactly when it is one. -/
theorem clientAdmits_of_wellFormed {g : Cfg} {r : Request} (h : r.wellFormed = true) :
    clientAdmits g r.instr = (decide (r.instr.code.cls ≠ .ext) || g.extCli) := by
  cases r <;> first | rfl | skip
  next fc p =>
    simp only [Request.wellFormed, Bool.and_eq_true, Bool.or_eq_true, decide_eq_true_eq] at h
    cases hc : Code.ofByte fc <;> simp [hc, Code.cls] at h <;>
      (simp only [clientAdmits, Request.instr, hc, Instr.fc]; rfl)

/-- All that `send` can do when it answers a next state: nothing, report NotReady, or, in READY with an admitted
request, fail or transmit. -/
theorem clientSend_inv {k : Nat} {w : Caller} {r : Request} {e : Bool} {s u : State}
    (h : clientSend k w r e s = .next u) :
    (u = s ∧ ∀ cl, s.clients[k]? = some cl → r.wellFormed = false ∨ cl.cst = .await) ∨
      u = deliver w k (.send .notReady) s ∨
      ∃ cl c conn, s.clients[k]? = some cl ∧ cl.cst = .ready ∧ cl.conn = some c ∧ s.conns[c]? = some conn ∧
        r.wellFormed = true ∧ clientAdmits s.cfg r.instr = true ∧
        ((e = true ∧ u = clientFails k w s) ∨ (e = false ∧ u = transmit k c w r.instr cl s)) := by
  unfold clientSend at h
  cases hk : s.clients[k]? with
  | none =>
    simp only [hk, Host.Outcome.next.injEq] at h
    exact .inl ⟨h.symm, by simp⟩
  | some cl =>
    simp only [hk] at h
    cases hst : cl.cst <;> simp only [hst] at h
    case await =>
      simp only [Host.Outcome.next.injEq] at h
      exact .inl ⟨h.symm, fun cl' h' => .inr (by rw [← Option.some.inj h']; exact hst)⟩
    case ready =>
      by_cases ha : clientAdmits s.cfg r.instr = true
      · rw [if_neg (by simp [ha])] at h
        by_cases hw : r.wellFormed = true
        · rw [if_neg (by simp [hw])] at h
          cases hc : cl.conn with
          | none => simp [hc] at h
          | some c =>
            simp only [hc] at h
            cases hcn : s.conns[c]? with
            | none => simp [hcn] at h
            | some conn =>
              simp only [hcn] at h
              refine .inr (.inr ⟨cl, c, conn, rfl, hst, hc, hcn, hw, ha, ?_⟩)
              cases e <;> simp only [Bool.false_eq_true, if_false, if_true, Host.Outcome.next.injEq] at h <;>
                simp [h]
        · rw [if_pos (by simp [hw])] at h
          simp only [Host.Outcome.next.injEq] at h
          exact .inl ⟨h.symm, fun _ _ => .inl (by simpa using hw)⟩
      · rw [if_pos (by simp [ha])] at h
        simp only [Host.Outcome.next.injEq] at h
        exact .inr (.inl h.symm)
    all_goals
      simp only [Host.Outcome.next.injEq] at h
      exact .inr (.inl h.symm)

/-- All that a client in AWAIT can do when its step answers a next state: fail, stay blocked, or report. -/
theorem awaitStep_inv {k : Nat} {cl : Client} {e : Bool} {s u : State} (h : awaitStep k cl e s = .next u) :
    ∃ p c conn, cl.pend = some p ∧ cl.conn = some c ∧ s.conns[c]? = some conn ∧
      ((e = true ∧ u = clientFails k cl.caller s) ∨ (e = false ∧ conn.toClient = [] ∧ u = s) ∨
        (e = false ∧ ∃ q, conn.toClient = [] :: q ∧ u = clientFails k cl.caller (s.popToClient c)) ∨
        (e = false ∧ ∃ m q, conn.toClient = m :: q ∧ m ≠ [] ∧ u = report k cl p m (s.popToClient c))) := by
  unfold awaitStep at h
  cases hp : cl.pend with
  | none => simp [hp] at h
  | some p =>
    simp only [hp] at h
    cases hc : cl.conn with
    | none => simp [hc] at h
    | some c =>
      simp only [hc] at h
      cases hcn : s.conns[c]? with
      | none => simp [hcn] at h
      | some conn =>
        simp only [hcn] at h
        refine ⟨p, c, conn, rfl, rfl, hcn, ?_⟩
        cases e
        · rw [if_neg (by simp)] at h
          cases hq : conn.toClient with
          | nil =>
            simp only [hq, Host.Outcome.next.injEq] at h
            exact .inr (.inl ⟨rfl, rfl, h.symm⟩)
          | cons m q =>
            simp only [hq] at h
            by_cases hm : m = []
            · subst hm
              simp only [if_true, Host.Outcome.next.injEq] at h
              exact .inr (.inr (.inl ⟨rfl, q, rfl, h.symm⟩))
            · rw [if_neg hm] at h
              simp only [Host.Outcome.next.injEq] at h
              exact .inr (.inr (.inr ⟨rfl, m, q, rfl, hm, h.symm⟩))
        · simp only [if_true, Host.Outcome.next.injEq] at h
          exact .inl ⟨rfl, h.symm⟩

/-! ### The host -/

/-- All that the host can do with a send it wants to make: make it, or wait for its client's other caller. -/
theorem whenFree_inv {cl : Client} {k : Host.Outcome State Fault Refusal} {s u : State}
    (h : whenFree cl k s = .next u) : (cl.cst = .await ∧ u = s) ∨ (cl.cst ≠ .await ∧ k = .next u) := by
  unfold whenFree at h
  split at h
  · next hc => exact .inl ⟨hc, (Host.Outcome.next.inj h).symm⟩
  · next hc => exact .inr ⟨hc, h⟩

/-- All that the host can do with its send's outcome when it answers a next state: wait, go on with the payload, or
stop for good (R128). -/
theorem afterSend_inv {k : Payload → Host.Outcome State Fault Refusal} {s u : State} (h : afterSend k s = .next u) :
    (s.host.inbox = none ∧ u = s) ∨ (∃ p, s.host.inbox = some (.send (.ok p)) ∧ k p = .next u) ∨
      ((∃ r, s.host.inbox = some (.send r) ∧ ∀ p, r ≠ .ok p) ∧ u = hostHalts s) := by
  unfold afterSend at h
  cases hi : s.host.inbox with
  | none =>
    simp only [hi, Host.Outcome.next.injEq] at h
    exact .inl ⟨rfl, h.symm⟩
  | some r =>
    cases r with
    | connect ok => simp [hi] at h
    | send r =>
      cases r with
      | ok p =>
        simp only [hi] at h
        exact .inr (.inl ⟨p, rfl, h⟩)
      | _ =>
        simp only [hi, Host.Outcome.next.injEq] at h
        exact .inr (.inr ⟨⟨_, rfl, by simp⟩, h.symm⟩)

end Sys2Proof.Machine
end

