-- ==== Sys2Proof/Laws/Codec.lean ====
section
/-! SUPPORT. The codec's building blocks (spec/30_encoding.md R48 to R54): 16-bit fields, frames, register data. -/

namespace Sys2Proof

/-! ### 16-bit fields -/

/-- Decoding an encoded field. -/
@[simp] theorem be_enc (v : Word) : be (v.extractLsb' 8 8) (v.extractLsb' 0 8) = v := by
  apply BitVec.eq_of_getLsbD_eq
  intro i hi
  simp only [be, BitVec.getLsbD_or, BitVec.getLsbD_shiftLeft, BitVec.getLsbD_setWidth, BitVec.getLsbD_extractLsb']
  rcases Nat.lt_or_ge i 8 with h | h
  · simp [h, hi]
  · simp [hi, show ¬i < 8 by omega, show i - 8 < 8 by omega, show i - 8 < 16 by omega, show 8 + (i - 8) = i by omega]

/-- The high byte of a decoded field. -/
@[simp] theorem extract_high_be (a b : Byte) : (be a b).extractLsb' 8 8 = a := by
  apply BitVec.eq_of_getLsbD_eq
  intro i hi
  simp only [be, BitVec.getLsbD_or, BitVec.getLsbD_shiftLeft, BitVec.getLsbD_setWidth, BitVec.getLsbD_extractLsb']
  simp [hi, show 8 + i < 16 by omega, show i < 16 by omega]

/-- The low byte of a decoded field. -/
@[simp] theorem extract_low_be (a b : Byte) : (be a b).extractLsb' 0 8 = b := by
  apply BitVec.eq_of_getLsbD_eq
  intro i hi
  simp only [be, BitVec.getLsbD_or, BitVec.getLsbD_shiftLeft, BitVec.getLsbD_setWidth, BitVec.getLsbD_extractLsb']
  simp [hi, show i < 16 by omega]

/-- Encoding a decoded field. -/
@[simp] theorem enc16_be (a b : Byte) : enc16 (be a b) = [a, b] := by
  simp [enc16]

@[simp] theorem enc16_length (v : Word) : (enc16 v).length = 2 := rfl

@[simp] theorem be16_zero (a b : Byte) (m : Message) : be16 (a :: b :: m) 0 = be a b := rfl

/-- A field further on is a field of the rest. -/
@[simp] theorem be16_succ (a : Byte) (m : Message) (i : Nat) : be16 (a :: m) (i + 1) = be16 m i := by
  simp [be16, byteAt]

@[simp] theorem byteAt_zero (a : Byte) (m : Message) : byteAt (a :: m) 0 = a := rfl

@[simp] theorem byteAt_succ (a : Byte) (m : Message) (i : Nat) : byteAt (a :: m) (i + 1) = byteAt m i := by
  simp [byteAt]

/-- A byte is the number of its value. -/
theorem ofNat_toNat_small {n : Nat} (h : n ≤ 255) : (BitVec.ofNat 8 n).toNat = n := by
  simp; omega

/-! ### Frames (R48, R49, R61) -/

theorem frame_eq (tid : Word) (uid : Byte) (pdu : Message) :
    frame tid uid pdu =
      tid.extractLsb' 8 8 :: tid.extractLsb' 0 8 :: 0x00#8 :: 0x00#8 ::
        (BitVec.ofNat 16 (1 + pdu.length)).extractLsb' 8 8 :: (BitVec.ofNat 16 (1 + pdu.length)).extractLsb' 0 8 ::
          uid :: pdu := rfl

@[simp] theorem frame_length (tid : Word) (uid : Byte) (pdu : Message) :
    (frame tid uid pdu).length = pdu.length + 7 := by
  simp [frame_eq]

@[simp] theorem pduOf_frame (tid : Word) (uid : Byte) (pdu : Message) : pduOf (frame tid uid pdu) = pdu := rfl

@[simp] theorem be16_frame_tid (tid : Word) (uid : Byte) (pdu : Message) : be16 (frame tid uid pdu) 0 = tid := by
  simp [frame_eq]

@[simp] theorem be16_frame_pid (tid : Word) (uid : Byte) (pdu : Message) :
    be16 (frame tid uid pdu) 2 = 0#16 := by
  simp [frame_eq, be]

@[simp] theorem be16_frame_len (tid : Word) (uid : Byte) (pdu : Message) :
    be16 (frame tid uid pdu) 4 = BitVec.ofNat 16 (1 + pdu.length) := by
  simp [frame_eq]

@[simp] theorem byteAt_frame_uid (tid : Word) (uid : Byte) (pdu : Message) :
    byteAt (frame tid uid pdu) 6 = uid := rfl

@[simp] theorem byteAt_frame_fc (tid : Word) (uid : Byte) (pdu : Message) :
    byteAt (frame tid uid pdu) 7 = byteAt pdu 0 := by
  cases pdu <;> rfl

/-- Every frame of a PDU of 1 to 65534 bytes passes the header checks. -/
theorem headerOk_frame (tid : Word) (uid : Byte) {pdu : Message} (h1 : 1 ≤ pdu.length) (h2 : pdu.length ≤ 65534) :
    headerOk (frame tid uid pdu) = true := by
  simp only [headerOk, frame_length, be16_frame_pid, be16_frame_len, BitVec.toNat_ofNat, Bool.and_eq_true,
    decide_eq_true_eq, beq_self_eq_true, and_true]
  omega

/-! ### Register data (R53) -/

@[simp] theorem packWords_nil : packWords [] = [] := rfl

@[simp] theorem packWords_cons (v : Word) (vs : List Word) :
    packWords (v :: vs) = v.extractLsb' 8 8 :: v.extractLsb' 0 8 :: packWords vs := rfl

@[simp] theorem packWords_length (vs : List Word) : (packWords vs).length = 2 * vs.length := by
  induction vs with
  | nil => rfl
  | cons v vs ih => simp [ih]; omega

@[simp] theorem packBits_length (bs : List Bool) : (packBits bs).length = ceil8 bs.length := by
  simp [packBits]

@[simp] theorem unpackBits_length (d : List Byte) (n : Nat) : (unpackBits d n).length = n := by
  simp [unpackBits]

@[simp] theorem unpackWords_length (d : List Byte) (n : Nat) : (unpackWords d n).length = n := by
  simp [unpackWords]

/-- Bit `j` of the number of a list of bits. -/
theorem testBit_bitsToNat (bs : List Bool) (j : Nat) : (bitsToNat bs).testBit j = bs.getD j false := by
  induction bs generalizing j with
  | nil => simp [bitsToNat]
  | cons b bs ih =>
    cases j with
    | zero => cases b <;> simp [bitsToNat, Nat.testBit_zero]
    | succ j =>
      rw [Nat.testBit_succ, List.getD_cons_succ, ← ih]
      congr 1
      cases b <;> simp only [bitsToNat, Bool.toNat_true, Bool.toNat_false] <;> omega

/-! ### Function codes -/

/-- Every code but the catch-all is its byte's code. -/
theorem Code.ofByte_byte {c : Code} (h : c ≠ .illfc) : Code.ofByte c.byte = c := by
  revert h
  cases c <;> decide

/-- The bytes of class `ILL` are those of the catch-all. -/
theorem Code.cls_ill_iff (c : Code) : c.cls = .ill ↔ c = .illfc := by
  cases c <;> decide

namespace Machine

/-- The header latches of a frame. -/
theorem fillHeader_frame (tid : Word) (uid : Byte) (pdu : Message) (l : Latches) :
    fillHeader (frame tid uid pdu) l =
      { l with
        tid := some tid, pid := some 0#16, len := some (BitVec.ofNat 16 (1 + pdu.length)),
        uid := some uid, fc := some (byteAt pdu 0) } := by
  simp [fillHeader]

end Machine

end Sys2Proof
end

