-- ==== Sys2Proof/Laws/Decode.lean ====
section
/-! SUPPORT. What the decoder's operand forms can do (spec/30_encoding.md R50, R52): each inverted once. -/

namespace Sys2Proof

theorem decodeTwo_inv {mk : Word → Word → Instr} {fc : Byte} {p : List Byte} {i : Instr}
    (h : decodeTwo mk fc p = .ok i) : ∃ a b, i = mk a b ∧ p = enc16 a ++ enc16 b := by
  unfold decodeTwo at h
  split at h
  · simp only [Except.ok.injEq] at h
    exact ⟨_, _, h.symm, by simp⟩
  · simp at h

theorem decodeThree_inv {mk : Word → Word → Word → Instr} {fc : Byte} {p : List Byte} {i : Instr}
    (h : decodeThree mk fc p = .ok i) : ∃ a b c, i = mk a b c ∧ p = enc16 a ++ enc16 b ++ enc16 c := by
  unfold decodeThree at h
  split at h
  · simp only [Except.ok.injEq] at h
    exact ⟨_, _, _, h.symm, by simp⟩
  · simp at h

theorem decodeMany_inv {mk : Word → Word → Byte → List Byte → Instr} {fc : Byte} {p : List Byte} {i : Instr}
    (h : decodeMany mk fc p = .ok i) :
    ∃ a c bc d, i = mk a c bc d ∧ d.length = bc.toNat ∧ p = enc16 a ++ enc16 c ++ [bc] ++ d := by
  unfold decodeMany at h
  split at h
  · split_ifs at h with h1
    simp only [Except.ok.injEq] at h
    exact ⟨_, _, _, _, h.symm, h1, by simp⟩
  · simp at h

theorem decodeReadWrite_inv {fc : Byte} {p : List Byte} {i : Instr} (h : decodeReadWrite fc p = .ok i) :
    ∃ ra rc wa wc bc d, i = .rwhr ra rc wa wc bc d ∧ d.length = bc.toNat ∧
      p = enc16 ra ++ enc16 rc ++ enc16 wa ++ enc16 wc ++ [bc] ++ d := by
  unfold decodeReadWrite at h
  split at h
  · split_ifs at h with h1
    simp only [Except.ok.injEq] at h
    exact ⟨_, _, _, _, _, _, h.symm, h1, by simp⟩
  · simp at h

/-- A byte is the byte of its code, or of class `ILL` (R56). -/
theorem Code.byte_ofByte (fc : Byte) : Code.ofByte fc = .illfc ∨ (Code.ofByte fc).byte = fc := by
  revert fc; decide

end Sys2Proof
end

