-- ==== Sys2Proof/Laws/PerInstr.lean ====
section
/-! SUPPORT. Per instruction: its PDU begins with its function code, which the function-code map (spec/30_encoding.md
R56) reads as that code, and fits a frame (R49). -/

namespace Sys2Proof.Laws.EncodedPdu

/-- The PDU of a well-formed instruction begins with its code, is read by that code, and fits a frame. -/
def Statement (i : Instr) : Prop :=
  i.wellFormed = true →
    byteAt (encode i) 0 = i.fc ∧ Code.ofByte i.fc = i.code ∧ 1 ≤ (encode i).length ∧ (encode i).length ≤ 65534

/-- A PDU whose data are as many as its byte count fits a frame. -/
theorem data_fits {d : List Byte} {bc : Byte} (h : d.length = bc.toNat) : d.length ≤ 255 := by
  have := bc.isLt
  omega

theorem rdco (addr : Word) (cnt : Word) : Statement (.rdco addr cnt) := by
  intro _
  exact ⟨rfl, rfl, by simp [encode, Instr.operandBytes], by simp [encode, Instr.operandBytes]⟩

theorem rddi (addr : Word) (cnt : Word) : Statement (.rddi addr cnt) := by
  intro _
  exact ⟨rfl, rfl, by simp [encode, Instr.operandBytes], by simp [encode, Instr.operandBytes]⟩

theorem rdhr (addr : Word) (cnt : Word) : Statement (.rdhr addr cnt) := by
  intro _
  exact ⟨rfl, rfl, by simp [encode, Instr.operandBytes], by simp [encode, Instr.operandBytes]⟩

theorem rdir (addr : Word) (cnt : Word) : Statement (.rdir addr cnt) := by
  intro _
  exact ⟨rfl, rfl, by simp [encode, Instr.operandBytes], by simp [encode, Instr.operandBytes]⟩

theorem wsco (addr : Word) (val : Word) : Statement (.wsco addr val) := by
  intro _
  exact ⟨rfl, rfl, by simp [encode, Instr.operandBytes], by simp [encode, Instr.operandBytes]⟩

theorem wshr (addr : Word) (val : Word) : Statement (.wshr addr val) := by
  intro _
  exact ⟨rfl, rfl, by simp [encode, Instr.operandBytes], by simp [encode, Instr.operandBytes]⟩

theorem wmco (addr : Word) (cnt : Word) (bc : Byte) (data : List Byte) : Statement (.wmco addr cnt bc data) := by
  intro h
  have hd := data_fits (of_decide_eq_true h)
  refine ⟨rfl, rfl, ?_, ?_⟩ <;> simp [encode, Instr.operandBytes]
  omega

theorem wmhr (addr : Word) (cnt : Word) (bc : Byte) (data : List Byte) : Statement (.wmhr addr cnt bc data) := by
  intro h
  have hd := data_fits (of_decide_eq_true h)
  refine ⟨rfl, rfl, ?_, ?_⟩ <;> simp [encode, Instr.operandBytes]
  omega

theorem mwhr (addr : Word) (andm : Word) (orm : Word) : Statement (.mwhr addr andm orm) := by
  intro _
  exact ⟨rfl, rfl, by simp [encode, Instr.operandBytes], by simp [encode, Instr.operandBytes]⟩

theorem rwhr (raddr : Word) (rcnt : Word) (waddr : Word) (wcnt : Word) (bc : Byte) (data : List Byte) : Statement (.rwhr raddr rcnt waddr wcnt bc data) := by
  intro h
  have hd := data_fits (of_decide_eq_true h)
  refine ⟨rfl, rfl, ?_, ?_⟩ <;> simp [encode, Instr.operandBytes]
  omega

theorem wmdi (addr : Word) (cnt : Word) (bc : Byte) (data : List Byte) : Statement (.wmdi addr cnt bc data) := by
  intro h
  have hd := data_fits (of_decide_eq_true h)
  refine ⟨rfl, rfl, ?_, ?_⟩ <;> simp [encode, Instr.operandBytes]
  omega

theorem wmir (addr : Word) (cnt : Word) (bc : Byte) (data : List Byte) : Statement (.wmir addr cnt bc data) := by
  intro h
  have hd := data_fits (of_decide_eq_true h)
  refine ⟨rfl, rfl, ?_, ?_⟩ <;> simp [encode, Instr.operandBytes]
  omega

theorem wsdi (addr : Word) (val : Word) : Statement (.wsdi addr val) := by
  intro _
  exact ⟨rfl, rfl, by simp [encode, Instr.operandBytes], by simp [encode, Instr.operandBytes]⟩

theorem wsir (addr : Word) (val : Word) : Statement (.wsir addr val) := by
  intro _
  exact ⟨rfl, rfl, by simp [encode, Instr.operandBytes], by simp [encode, Instr.operandBytes]⟩

theorem ign07 (payload : List Byte) : Statement (.ign07 payload) := by
  intro h
  simp only [Instr.wellFormed, payloadFits, decide_eq_true_eq] at h
  refine ⟨rfl, rfl, ?_, ?_⟩ <;> simp [encode, Instr.operandBytes]
  omega

theorem ign08 (payload : List Byte) : Statement (.ign08 payload) := by
  intro h
  simp only [Instr.wellFormed, payloadFits, decide_eq_true_eq] at h
  refine ⟨rfl, rfl, ?_, ?_⟩ <;> simp [encode, Instr.operandBytes]
  omega

theorem ign0B (payload : List Byte) : Statement (.ign0B payload) := by
  intro h
  simp only [Instr.wellFormed, payloadFits, decide_eq_true_eq] at h
  refine ⟨rfl, rfl, ?_, ?_⟩ <;> simp [encode, Instr.operandBytes]
  omega

theorem ign0C (payload : List Byte) : Statement (.ign0C payload) := by
  intro h
  simp only [Instr.wellFormed, payloadFits, decide_eq_true_eq] at h
  refine ⟨rfl, rfl, ?_, ?_⟩ <;> simp [encode, Instr.operandBytes]
  omega

theorem ign11 (payload : List Byte) : Statement (.ign11 payload) := by
  intro h
  simp only [Instr.wellFormed, payloadFits, decide_eq_true_eq] at h
  refine ⟨rfl, rfl, ?_, ?_⟩ <;> simp [encode, Instr.operandBytes]
  omega

theorem ign14 (payload : List Byte) : Statement (.ign14 payload) := by
  intro h
  simp only [Instr.wellFormed, payloadFits, decide_eq_true_eq] at h
  refine ⟨rfl, rfl, ?_, ?_⟩ <;> simp [encode, Instr.operandBytes]
  omega

theorem ign15 (payload : List Byte) : Statement (.ign15 payload) := by
  intro h
  simp only [Instr.wellFormed, payloadFits, decide_eq_true_eq] at h
  refine ⟨rfl, rfl, ?_, ?_⟩ <;> simp [encode, Instr.operandBytes]
  omega

theorem ign18 (payload : List Byte) : Statement (.ign18 payload) := by
  intro h
  simp only [Instr.wellFormed, payloadFits, decide_eq_true_eq] at h
  refine ⟨rfl, rfl, ?_, ?_⟩ <;> simp [encode, Instr.operandBytes]
  omega

theorem ign2B (payload : List Byte) : Statement (.ign2B payload) := by
  intro h
  simp only [Instr.wellFormed, payloadFits, decide_eq_true_eq] at h
  refine ⟨rfl, rfl, ?_, ?_⟩ <;> simp [encode, Instr.operandBytes]
  omega

theorem illfc (fc : Byte) (payload : List Byte) : Statement (.illfc fc payload) := by
  intro h
  simp only [Instr.wellFormed, payloadFits, Bool.and_eq_true, decide_eq_true_eq] at h
  refine ⟨rfl, h.1, ?_, ?_⟩ <;> simp [encode, Instr.operandBytes]
  omega

end Sys2Proof.Laws.EncodedPdu
end

