-- ==== Sys2Proof/Laws/Progress.lean ====
section
/-! SUPPORT. What weak fairness gives (spec/70_reset_and_hazards.md R157): in a weakly fair run no session keeps a
response it has chosen. -/

namespace Sys2Proof.Machine

/-- Connection `c` is served by a session in RESPOND. -/
def State.responding (s : State) (c : Nat) : Prop := ∃ ses, s.session? c = some ses ∧ ses.sst = .respond

/-- A step of a session in RESPOND that answers a next state leaves RESPOND (R74). -/
theorem respondStep_leaves {s t : State} {c : Nat} {err : Bool} {ses : Session}
    (h : respondStep err c ses s = .next t) : ¬ t.responding c := by
  unfold respondStep at h
  split at h
  · cases h
  split at h
  · cases h
  split at h
  · cases h
  split at h
  · cases h
  simp only at h
  split at h <;> cases h <;> rintro ⟨x, hx, hr⟩
  · rw [closeSession, State.session?_pushToClient] at hx
    cases hs : s.session? c <;> simp [hs] at hx
    subst hx
    cases hr
  · rw [returnToReceive, State.session?_updSession] at hx
    cases hs : State.session? (State.pushToClient _ c _) c <;> rw [hs] at hx <;> simp at hx
    subst hx
    cases hr

/-- The move of a session in RESPOND is its respond step. -/
theorem act_responding {s : State} {c : Nat} {err fail : Bool} (h : s.responding c) :
    ∃ ses, act (.session c err fail) s = respondStep err c ses s := by
  obtain ⟨ses, hs, hr⟩ := h
  refine ⟨ses, ?_⟩
  unfold State.session? at hs
  cases hk : s.conns[c]? with
  | none => simp [hk] at hs
  | some k =>
    rw [hk] at hs
    have hs' : k.session? = some ses := hs
    simp only [act, sessionStep, hk, hs', hr]

/-- A session in RESPOND has a step to take. -/
theorem enabled_of_responding {s : State} {c : Nat} (h : s.responding c) : (Agent.session c).enabled s := by
  refine ⟨.session c false false, rfl, rfl, fun he => ?_⟩
  have h' : State.responding { s with choice := .session c false false } c := h
  obtain ⟨ses, hs⟩ := act_responding (err := false) (fail := false) h'
  exact respondStep_leaves (hs.symm.trans he) h'

/-- In a weakly fair run a session in RESPOND leaves it (R74, R157). -/
theorem fair_response_leaves {moves : Nat → Move} {run : Nat → State} (hr : IsRun moves run)
    (hf : WeaklyFair moves run) (c n : Nat) : ∃ m, n ≤ m ∧ ¬ (run m).responding c := by
  refine Classical.byContradiction fun hn => ?_
  have hall : ∀ m, n ≤ m → (run m).responding c := fun m hm =>
    Classical.byContradiction fun hc => hn ⟨m, hm, hc⟩
  obtain ⟨m, hm, ha, -⟩ := hf (.session c) n fun m hm => enabled_of_responding (hall m hm)
  have hs := hr m
  have hresp : State.responding { run m with choice := moves m } c := hall m hm
  cases hmv : moves m <;> rw [hmv] at ha hresp hs <;> simp [Move.agent] at ha
  subst ha
  obtain ⟨ses, hact⟩ := act_responding hresp
  simp only [State.take, step] at hs
  rw [hact] at hs
  cases hx : respondStep _ _ ses { run m with choice := _ } with
  | next t =>
    rw [hx] at hs
    simp only [thenRedraw, Host.Outcome.next.injEq] at hs
    have ht : (run (m + 1)).responding _ := hall (m + 1) (by omega)
    rw [← hs] at ht
    exact respondStep_leaves hx ht
  | fault f => rw [hx] at hs; cases hs
  | refused r => rw [hx] at hs; cases hs

end Sys2Proof.Machine
end

