-- ==== Sys2Proof/Laws/Response.lean ====
section
/-! SUPPORT. When a response passes the check of spec/40_server_pipeline.md R72: in the exception form always, in a
success form when the PDU has the form's length and byte count. -/

namespace Sys2Proof.Machine

theorem headerOk_iff (m : Message) :
    headerOk m = true ↔ 8 ≤ m.length ∧ be16 m 2 = 0#16 ∧ (be16 m 4).toNat = m.length - 6 := by
  simp [headerOk, and_assoc]

/-- A frame of an exception PDU has the exception form. -/
theorem exceptionForm_frame (tid : Word) (uid fc code : Byte) :
    exceptionForm (frame tid uid [fc ||| 0x80#8, code]) fc = true := by
  unfold exceptionForm
  rw [headerOk_frame tid uid (by simp) (by simp)]
  simp

/-- The exception form passes (W2). -/
theorem validateResponse_exception {ext : Bool} {m : Message} {fc : Byte} {n : Nat} (h : exceptionForm m fc = true) :
    validateResponse ext m fc n = (true, 0x00#8) := by
  have hh : headerOk m = true := by
    simp only [exceptionForm, Bool.and_eq_true] at h
    exact h.1.1
  simp [validateResponse, h, hh]

/-- The check fails on a frame that fails V1 to V3 (W1). -/
theorem validateResponse_header {ext : Bool} {m : Message} {fc : Byte} {n : Nat}
    (h : (validateResponse ext m fc n).1 = true) : headerOk m = true := by
  by_contra hh
  rw [Bool.not_eq_true] at hh
  simp [validateResponse, hh] at h

/-- A success PDU of an executed code passes when it has its form's length and byte count (W3 to W5). -/
theorem validateResponse_success {ext : Bool} {tid : Word} {uid : Byte} {c : Code} {n : Nat} {q : Message}
    (hl : q.length ≤ 65533) (hc : c.cls = .std ∨ (c.cls = .ext ∧ ext = true))
    (hok : (match c.respFormat with
      | .rdr =>
        decide (2 ≤ (c.byte :: q).length) && decide ((c.byte :: q).length = 2 + (byteAt (c.byte :: q) 1).toNat) &&
        decide ((byteAt (c.byte :: q) 1).toNat = if c.readsBits then ceil8 n else 2 * n)
      | .wsr | .wmr => decide ((c.byte :: q).length = 5)
      | .mwr => decide ((c.byte :: q).length = 7)
      | .exr => false) = true) :
    (validateResponse ext (frame tid uid (c.byte :: q)) c.byte n).1 = true := by
  have hh : headerOk (frame tid uid (c.byte :: q)) = true := headerOk_frame _ _ (by simp) (by simp; omega)
  have hcode : Code.ofByte c.byte = c := Code.ofByte_byte (by rintro rfl; simp [Code.cls] at hc)
  by_cases hx : exceptionForm (frame tid uid (c.byte :: q)) c.byte = true
  · rw [validateResponse_exception hx]
  · have hb : ¬(c.cls = .ill ∨ c.cls = .ign ∨ (c.cls = .ext ∧ !ext)) := by
      rcases hc with h | ⟨h, h'⟩ <;> simp_all
    have h7 : byteAt (frame tid uid (c.byte :: q)) 7 = c.byte := by simp
    simp only [validateResponse, hx, hh, h7, hcode, pduOf_frame, hb]
    generalize c.respFormat = rf at *
    cases rf <;> simp only [] at hok ⊢ <;> first | (rw [hok]; simp) | (simp at hok ⊢; simp [hok])

/-- The outbound check where the count latch is filled (R73). -/
theorem outboundVerdict_eq {g : Cfg} {fc : Byte} {l : Latches} {m : Message} {n : Nat}
    (hn : latchedCount fc l = .ok n) : outboundVerdict g fc l m = .ok (validateResponse g.extSrv m fc n) := by
  unfold outboundVerdict
  split
  · next h => rw [validateResponse_exception h]
  · rw [hn]

end Sys2Proof.Machine
end

