-- ==== Sys2Proof/Laws/Table.lean ====
section
/-! SUPPORT. What the operations on tables and on the store do: reading after writing, the canonical form, and the two
store primitives (spec/20_memory.md R31 to R34). -/

namespace Sys2Proof.Machine

/-! ### Reading and the canonical form -/

/-- A canonical table lists nothing below its bound, so such a cell reads 0. -/
theorem Table.read_below {lo : Nat} {t : Table} (h : Table.wfFrom lo t = true) {a : Nat} (ha : a < lo) :
    t.read a = 0#16 := by
  induction t generalizing lo with
  | nil => rfl
  | cons x rest ih =>
    obtain ⟨b, w⟩ := x
    simp only [Table.wfFrom, Bool.and_eq_true, decide_eq_true_eq] at h
    simp only [Table.read]
    rw [if_neg (by omega)]
    exact ih h.2 (by omega)

/-- A canonical table is canonical above every smaller bound. -/
theorem Table.wfFrom_mono {lo hi : Nat} {t : Table} (h : Table.wfFrom hi t = true) (hl : lo ≤ hi) :
    Table.wfFrom lo t = true := by
  cases t with
  | nil => rfl
  | cons x rest =>
    simp only [Table.wfFrom, Bool.and_eq_true, decide_eq_true_eq] at h ⊢
    exact ⟨⟨by omega, h.1.2⟩, h.2⟩

/-- Writing keeps the canonical form. -/
theorem Table.wfFrom_write {lo : Nat} {t : Table} (h : Table.wfFrom lo t = true) {a : Nat} (ha : lo ≤ a)
    (v : Word) : Table.wfFrom lo (t.write a v) = true := by
  induction t generalizing lo with
  | nil =>
    unfold Table.write
    split
    · rfl
    · simp [Table.wfFrom, *]
  | cons x rest ih =>
    obtain ⟨b, w⟩ := x
    simp only [Table.wfFrom, Bool.and_eq_true, decide_eq_true_eq] at h
    unfold Table.write
    split_ifs with h1 h2 h3 h4
    · simp [Table.wfFrom, h]
    · simp [Table.wfFrom, h, h2, ha]; omega
    · exact Table.wfFrom_mono h.2 (by omega)
    · subst h3; simp [Table.wfFrom, h, h4]
    · simp only [Table.wfFrom, Bool.and_eq_true, decide_eq_true_eq]
      exact ⟨h.1, ih h.2 (by omega)⟩

/-- Reading the cell that was written. -/
theorem Table.read_write_self {lo : Nat} {t : Table} (h : Table.wfFrom lo t = true) (a : Nat) (v : Word) :
    (t.write a v).read a = v := by
  induction t generalizing lo with
  | nil =>
    unfold Table.write
    split <;> simp_all [Table.read]
  | cons x rest ih =>
    obtain ⟨b, w⟩ := x
    simp only [Table.wfFrom, Bool.and_eq_true, decide_eq_true_eq] at h
    unfold Table.write
    split_ifs with h1 h2 h3 h4
    · subst h2
      simp only [Table.read]
      rw [if_neg (by omega)]
      exact Table.read_below h.2 (by omega)
    · simp [Table.read]
    · subst h3 h4
      exact Table.read_below h.2 (by omega)
    · simp [Table.read]
    · simp only [Table.read]
      rw [if_neg h3]
      exact ih h.2

/-- Reading another cell than the one written. -/
theorem Table.read_write_ne (t : Table) {a b : Nat} (hab : b ≠ a) (v : Word) :
    (t.write a v).read b = t.read b := by
  induction t with
  | nil =>
    unfold Table.write
    split <;> simp [Table.read, hab]
  | cons x rest ih =>
    obtain ⟨c, w⟩ := x
    unfold Table.write
    split_ifs with h1 h2 h3 h4
    · rfl
    · simp [Table.read, hab]
    · subst h3; simp [Table.read, hab]
    · subst h3; simp [Table.read, hab]
    · simp only [Table.read, ih]

/-- Writing several cells keeps the canonical form. -/
theorem Table.wf_writeAll {t : Table} (h : t.wf = true) (a : Nat) (vs : List Word) :
    (t.writeAll a vs).wf = true := by
  induction vs generalizing t a with
  | nil => exact h
  | cons v vs ih => exact ih (Table.wfFrom_write h (Nat.zero_le a) v) (a + 1)

/-- Reading a cell outside the written range; it needs no canonical form. -/
theorem Table.read_writeAll_outside (t : Table) (a : Nat) (vs : List Word) {b : Nat}
    (hb : b < a ∨ a + vs.length ≤ b) : (t.writeAll a vs).read b = t.read b := by
  induction vs generalizing t a with
  | nil => rfl
  | cons v vs ih =>
    simp only [List.length_cons] at hb
    unfold Table.writeAll
    rw [ih _ _ (by omega), Table.read_write_ne _ (by omega)]

/-- Reading a cell inside the written range. -/
theorem Table.read_writeAll_inside {t : Table} (h : t.wf = true) (a : Nat) (vs : List Word) {j : Nat}
    (hj : j < vs.length) : (t.writeAll a vs).read (a + j) = vs[j] := by
  induction vs generalizing t a j with
  | nil => exact absurd hj (by simp)
  | cons v vs ih =>
    unfold Table.writeAll
    cases j with
    | zero =>
      rw [Table.read_writeAll_outside _ _ _ (by omega)]
      exact Table.read_write_self h a v
    | succ j =>
      have h' : (t.write a v).wf = true := Table.wfFrom_write h (Nat.zero_le a) v
      rw [show a + (j + 1) = a + 1 + j by omega, ih h' (a + 1) (by simpa using hj)]
      rfl

/-- Two canonical tables that read the same everywhere are the same. -/
theorem Table.ext_of_read {lo : Nat} {t u : Table} (ht : Table.wfFrom lo t = true) (hu : Table.wfFrom lo u = true)
    (h : ∀ a, t.read a = u.read a) : t = u := by
  induction t generalizing u lo with
  | nil =>
    cases u with
    | nil => rfl
    | cons y us =>
      obtain ⟨b, w⟩ := y
      simp only [Table.wfFrom, Bool.and_eq_true, decide_eq_true_eq] at hu
      have := h b
      simp [Table.read] at this
      exact absurd this.symm hu.1.2
  | cons x ts ih =>
    obtain ⟨a, v⟩ := x
    have ht' := ht
    simp only [Table.wfFrom, Bool.and_eq_true, decide_eq_true_eq] at ht
    cases u with
    | nil =>
      have := h a
      simp [Table.read] at this
      exact absurd this ht.1.2
    | cons y us =>
      obtain ⟨b, w⟩ := y
      have hu' := hu
      simp only [Table.wfFrom, Bool.and_eq_true, decide_eq_true_eq] at hu
      have hab : a = b := by
        by_contra hne
        rcases Nat.lt_or_gt_of_ne hne with hlt | hlt
        · have := h a
          rw [show Table.read ((b, w) :: us) a = 0#16 by
            simp only [Table.read]
            rw [if_neg hne]
            exact Table.read_below hu.2 (by omega)] at this
          simp [Table.read] at this
          exact ht.1.2 this
        · have := h b
          rw [show Table.read ((a, v) :: ts) b = 0#16 by
            simp only [Table.read]
            rw [if_neg (Ne.symm hne)]
            exact Table.read_below ht.2 (by omega)] at this
          simp [Table.read] at this
          exact hu.1.2 this.symm
      subst hab
      have hvw : v = w := by simpa [Table.read] using h a
      subst hvw
      congr 1
      refine ih ht.2 hu.2 fun c => ?_
      by_cases hc : c = a
      · subst hc
        rw [Table.read_below ht.2 (by omega), Table.read_below hu.2 (by omega)]
      · have := h c
        simpa [Table.read, hc] using this

/-! ### Listed cells -/

/-- Every cell a write lists was listed before or is the one written. -/
theorem Table.mem_write {t : Table} {a : Nat} {v : Word} {p : Nat × Word} (h : p ∈ t.write a v) :
    p ∈ t ∨ (p = (a, v) ∧ v ≠ 0#16) := by
  induction t with
  | nil =>
    unfold Table.write at h
    split_ifs at h with h0
    · exact absurd h (by simp)
    · exact .inr ⟨by simpa using h, h0⟩
  | cons x rest ih =>
    obtain ⟨b, w⟩ := x
    unfold Table.write at h
    split_ifs at h with h1 h2 h3 h4
    · exact .inl h
    · rcases List.mem_cons.1 h with h | h
      · exact .inr ⟨h, h2⟩
      · exact .inl h
    · exact .inl (List.mem_cons_of_mem _ h)
    · rcases List.mem_cons.1 h with h | h
      · exact .inr ⟨h, h4⟩
      · exact .inl (List.mem_cons_of_mem _ h)
    · rcases List.mem_cons.1 h with h | h
      · exact .inl (by simp [h])
      · rcases ih h with h | h
        · exact .inl (List.mem_cons_of_mem _ h)
        · exact .inr h

/-- Writing cells below a bound keeps a table below it. -/
theorem Table.below_writeAll {n : Nat} {t : Table} (h : t.below n = true) (a : Nat) (vs : List Word)
    (ha : a + vs.length ≤ n) : (t.writeAll a vs).below n = true := by
  induction vs generalizing t a with
  | nil => exact h
  | cons v vs ih =>
    simp only [List.length_cons] at ha
    refine ih (t := t.write a v) ?_ (a + 1) (by omega)
    simp only [Table.below, List.all_eq_true, decide_eq_true_eq] at h ⊢
    intro p hp
    rcases Table.mem_write hp with hp | ⟨rfl, -⟩
    · exact h p hp
    · show a < n
      omega

/-- Writing canonical bits keeps a table of bits. -/
theorem Table.isBits_writeAll {t : Table} (h : t.isBits = true) (a : Nat) (vs : List Word)
    (hv : ∀ v ∈ vs, v = 0#16 ∨ v = 1#16) : (t.writeAll a vs).isBits = true := by
  induction vs generalizing t a with
  | nil => exact h
  | cons v vs ih =>
    refine ih (t := t.write a v) ?_ (a + 1) fun w hw => hv w (List.mem_cons_of_mem _ hw)
    simp only [Table.isBits, List.all_eq_true, decide_eq_true_eq] at h ⊢
    intro p hp
    rcases Table.mem_write hp with hp | ⟨rfl, h0⟩
    · exact h p hp
    · exact (hv v (by simp)).resolve_left h0

/-! ### The store -/

@[simp] theorem Memory.table_setTable_self (m : Memory) (t : TableKind) (tab : Table) :
    (m.setTable t tab).table t = tab := by
  cases t <;> rfl

theorem Memory.table_setTable_ne (m : Memory) {t u : TableKind} (h : u ≠ t) (tab : Table) :
    (m.setTable t tab).table u = m.table u := by
  cases t <;> cases u <;> first | rfl | exact absurd rfl h

/-- The store is canonical exactly when each of its tables is. -/
theorem Memory.wf_iff (m : Memory) : m.wf = true ↔ ∀ t, (m.table t).wf = true := by
  constructor
  · intro h t
    simp only [Memory.wf, Bool.and_eq_true] at h
    cases t <;> simp [Memory.table, h]
  · intro h
    simp only [Memory.wf, Bool.and_eq_true]
    exact ⟨⟨⟨h .di, h .co⟩, h .ir⟩, h .hr⟩

/-- Writing cells keeps the canonical form of the store. -/
theorem Memory.wf_setCells {m : Memory} (h : m.wf = true) (t : TableKind) (a : Nat) (vs : List Word) :
    (m.setCells t a vs).wf = true := by
  rw [Memory.wf_iff] at h ⊢
  intro u
  unfold Memory.setCells
  by_cases hu : u = t
  · subst hu
    rw [Memory.table_setTable_self]
    exact Table.wf_writeAll (h u) a vs
  · rw [Memory.table_setTable_ne _ hu]
    exact h u

/-- A cell of another table, or outside the written range, keeps its value. -/
theorem Memory.cell_setCells_outside (m : Memory) (t : TableKind) (a : Nat) (vs : List Word) {u : TableKind} {b : Nat}
    (h : u ≠ t ∨ b < a ∨ a + vs.length ≤ b) : (m.setCells t a vs).cell u b = m.cell u b := by
  unfold Memory.cell Memory.setCells
  by_cases hu : u = t
  · subst hu
    rw [Memory.table_setTable_self]
    exact Table.read_writeAll_outside _ _ _ (h.resolve_left (by simp))
  · rw [Memory.table_setTable_ne _ hu]

/-- A written cell has the value written. -/
theorem Memory.cell_setCells_inside {m : Memory} (h : m.wf = true) (t : TableKind) (a : Nat) (vs : List Word) {j : Nat}
    (hj : j < vs.length) : (m.setCells t a vs).cell t (a + j) = vs[j] := by
  unfold Memory.cell Memory.setCells
  rw [Memory.table_setTable_self]
  exact Table.read_writeAll_inside ((Memory.wf_iff m).1 h t) a vs hj

/-- Canonical stores that read the same everywhere are the same. -/
theorem Memory.ext_of_cell {m n : Memory} (hm : m.wf = true) (hn : n.wf = true)
    (h : ∀ t a, m.cell t a = n.cell t a) : m = n := by
  have key : ∀ t, m.table t = n.table t := fun t =>
    Table.ext_of_read ((Memory.wf_iff m).1 hm t) ((Memory.wf_iff n).1 hn t) (h t)
  have h1 := key .di
  have h2 := key .co
  have h3 := key .ir
  have h4 := key .hr
  cases m
  cases n
  simp_all [Memory.table]

/-- The store stays inside the tables and its bit tables stay bits when cells inside are written with values of the
table's kind. -/
theorem Memory.fits_setCells {n : Nat} {m : Memory} (h : m.fits n = true) (t : TableKind) (a : Nat) (vs : List Word)
    (ha : a + vs.length ≤ n) (hv : isBitTable t = true → ∀ v ∈ vs, v = 0#16 ∨ v = 1#16) :
    (m.setCells t a vs).fits n = true := by
  simp only [Memory.fits, Bool.and_eq_true] at h ⊢
  obtain ⟨⟨⟨⟨⟨h1, h2⟩, h3⟩, h4⟩, h5⟩, h6⟩ := h
  cases t <;>
    simp_all [Memory.setCells, Memory.setTable, Memory.table, Table.below_writeAll, Table.isBits_writeAll, isBitTable]

/-! ### Values -/

@[simp] theorem wordOf_ofWord (w : Word) : wordOf (ofWord w) = w := by
  simp [ofWord, wordOf]

@[simp] theorem storable_ofWord (t : TableKind) (w : Word) : storable t (ofWord w) = true := by
  have := w.isLt
  simp only [storable, ofWord, Bool.or_eq_true, decide_eq_true_eq]
  right
  omega

@[simp] theorem storable_bool (t : TableKind) (b : Bool) : storable t (.bool b) = isBitTable t := rfl

@[simp] theorem truthOf_bool (b : Bool) : truthOf (.bool b) = b := rfl

theorem cellOf_ofWord {t : TableKind} (ht : isBitTable t = false) (w : Word) : cellOf t (ofWord w) = w := by
  simp [cellOf, ht]

theorem cellOf_bool {t : TableKind} (ht : isBitTable t = true) (b : Bool) :
    cellOf t (.bool b) = if b then 1#16 else 0#16 := by
  cases b <;> simp [cellOf, ht]

/-- A bit table stores 0 or 1 only (R32, D39). -/
theorem cellOf_bits {t : TableKind} (ht : isBitTable t = true) (v : Value) : cellOf t v = 0#16 ∨ cellOf t v = 1#16 := by
  unfold cellOf
  rw [if_pos ht]
  split <;> simp

/-! ### The store primitives -/

/-- StoreGet answers the cells of the range exactly when the call does not fail and the range fits (R31, R34). -/
theorem storeGet_eq_some {s : State} {t : TableKind} {a c : Nat} {fail : Bool} {vs : List Value} :
    storeGet s t a c fail = some vs ↔
      storeFails s fail = false ∧ a + c ≤ s.cfg.tableLen ∧
        vs = (List.range c).map fun i => readCell t (s.mem.cell t (a + i)) := by
  unfold storeGet
  split_ifs with h1 h2
  · simp [h1]
  · simp; omega
  · simp only [Option.some.injEq, Bool.not_eq_true] at h1 ⊢
    exact ⟨fun h => ⟨h1, by omega, h.symm⟩, fun h => h.2.2.symm⟩

/-- StoreSet answers the written store exactly when the call does not fail, the range fits and every value is of the
table's type (R32 to R34). -/
theorem storeSet_eq_some {s : State} {t : TableKind} {a : Nat} {vals : List Value} {fail : Bool} {m : Memory} :
    storeSet s t a vals fail = some m ↔
      storeFails s fail = false ∧ a + vals.length ≤ s.cfg.tableLen ∧ vals.all (storable t) = true ∧
        m = s.mem.setCells t a (vals.map (cellOf t)) := by
  unfold storeSet
  split_ifs with h1 h2 h3
  · simp [h1]
  · simp; omega
  · simp only [Option.some.injEq, Bool.not_eq_true] at h1 ⊢
    exact ⟨fun h => ⟨h1, by omega, h3, h.symm⟩, fun h => h.2.2.2.symm⟩
  · simp [h3]

/-- The store after StoreSet: canonical and inside the tables if it was. -/
theorem storeSet_keeps {s : State} {t : TableKind} {a : Nat} {vals : List Value} {fail : Bool} {m : Memory}
    (h : storeSet s t a vals fail = some m) (hw : s.mem.wf = true) (hf : s.mem.fits s.cfg.tableLen = true) :
    m.wf = true ∧ m.fits s.cfg.tableLen = true := by
  obtain ⟨-, h2, -, rfl⟩ := storeSet_eq_some.1 h
  refine ⟨Memory.wf_setCells hw _ _ _, Memory.fits_setCells hf _ _ _ (by simpa using h2) fun ht v hv => ?_⟩
  obtain ⟨x, -, rfl⟩ := List.mem_map.1 hv
  exact cellOf_bits ht x

/-- The reset store is canonical. -/
theorem State.reset_mem_wf (g : Cfg) : (State.resetWith g).mem.wf = true := rfl

end Sys2Proof.Machine
end

