-- ==== Sys2Proof/Laws/Serve.lean ====
section
/-! SUPPORT. What the shared operations of an instruction do (spec/40_server_pipeline.md R66 to R71,
spec/60_exceptions.md R136): one equation where they complete, one inversion lemma saying all they can do. -/

namespace Sys2Proof.Machine

/-! ### Responding and raising -/

theorem respond_eq {s : State} {c : Nat} {ses : Session} {tid : Word} {uid : Byte} (hs : s.session? c = some ses)
    (ht : ses.latch.tid = some tid) (hu : ses.latch.uid = some uid) (pdu : Message) :
    respond pdu c s = .next (s.answered c tid uid pdu) := by
  simp [respond, hs, ht, hu, State.answered]

theorem raiseException_eq {s : State} {c : Nat} {ses : Session} {tid : Word} {uid fc : Byte}
    (hs : s.session? c = some ses) (ht : ses.latch.tid = some tid) (hu : ses.latch.uid = some uid)
    (hf : ses.latch.fc = some fc) (code : Byte) :
    raiseException code c s = .next (s.answered c tid uid [fc ||| 0x80#8, code]) := by
  simp [raiseException, hs, hf, respond_eq hs ht hu]

/-- All that responding can do when it answers a next state. -/
theorem respond_inv {pdu : Message} {c : Nat} {s t : State} (h : respond pdu c s = .next t) :
    ∃ ses tid uid, s.session? c = some ses ∧ ses.latch.tid = some tid ∧ ses.latch.uid = some uid ∧
      t = s.answered c tid uid pdu := by
  unfold respond at h
  cases hs : s.session? c with
  | none => simp [hs] at h
  | some ses =>
    cases ht : ses.latch.tid with
    | none => simp [hs, ht] at h
    | some tid =>
      cases hu : ses.latch.uid with
      | none => simp [hs, ht, hu] at h
      | some uid =>
        simp only [hs, ht, hu, Host.Outcome.next.injEq] at h
        exact ⟨ses, tid, uid, rfl, ht, hu, h.symm⟩

/-- All that raising an exception can do when it answers a next state. -/
theorem raiseException_inv {code : Byte} {c : Nat} {s t : State} (h : raiseException code c s = .next t) :
    ∃ ses tid uid fc, s.session? c = some ses ∧ ses.latch.tid = some tid ∧ ses.latch.uid = some uid ∧
      ses.latch.fc = some fc ∧ t = s.answered c tid uid [fc ||| 0x80#8, code] := by
  unfold raiseException at h
  cases hs : s.session? c with
  | none => simp [hs] at h
  | some ses =>
    cases hf : ses.latch.fc with
    | none => simp [hs, hf] at h
    | some fc =>
      simp only [hs, hf] at h
      obtain ⟨ses', tid, uid, hs', ht, hu, rfl⟩ := respond_inv h
      rw [hs] at hs'
      obtain rfl := Option.some.inj hs'
      exact ⟨ses, tid, uid, fc, rfl, ht, hu, hf, rfl⟩

/-! ### The two steps of an instruction -/

/-- What an executing session says about the state. -/
theorem Executing.session {s : State} {sst : SesState} {c : Nat} {fail : Bool} {ses : Session} {tid : Word}
    {uid fc : Byte} (h : Executing s sst c fail ses tid uid fc) : s.session? c = some ses :=
  (State.active_inv h.active).2

/-- In VALIDATE an instruction is judged, decoded and range-checked. -/
theorem serve_validate {s : State} {c : Nat} {fail : Bool} {ses : Session} {tid : Word} {uid fc : Byte}
    (h : Executing s .validate c fail ses tid uid fc) (i : Instr)
    (body : Active → State → Host.Outcome State Fault Refusal) : serve i body s = validateStep i c s := by
  simp [serve, h.active, h.state]

/-- In DISPATCH a permitted instruction makes its next store call. -/
theorem serve_dispatch {s : State} {c : Nat} {fail : Bool} {ses : Session} {tid : Word} {uid fc : Byte}
    (h : Executing s .dispatch c fail ses tid uid fc) {i : Instr} (hp : permitted s.cfg i = true)
    (body : Active → State → Host.Outcome State Fault Refusal) : serve i body s = body ⟨c, fail, ses⟩ s := by
  simp [serve, h.active, h.state, hp]

/-- In DISPATCH an instruction that is not permitted raises 0x01 (R93). -/
theorem serve_dispatch_refuses {s : State} {c : Nat} {fail : Bool} {ses : Session} {tid : Word} {uid fc : Byte}
    (h : Executing s .dispatch c fail ses tid uid fc) {i : Instr} (hp : permitted s.cfg i = false)
    (body : Active → State → Host.Outcome State Fault Refusal) :
    serve i body s = .next (s.answered c tid uid [fc ||| 0x80#8, 0x01#8]) := by
  simp [serve, h.active, h.state, hp, raiseException_eq h.session h.tid h.uid h.fc]

/-- All that serving an instruction can do when it answers a next state. -/
theorem serve_inv {i : Instr} {body : Active → State → Host.Outcome State Fault Refusal} {s t : State}
    (h : serve i body s = .next t) :
    ∃ a, s.active = some a ∧
      ((a.ses.sst = .validate ∧ validateStep i a.conn s = .next t) ∨
        (a.ses.sst = .dispatch ∧ permitted s.cfg i = true ∧ body a s = .next t) ∨
        (a.ses.sst = .dispatch ∧ permitted s.cfg i = false ∧ raiseException 0x01#8 a.conn s = .next t)) := by
  unfold serve at h
  cases ha : s.active with
  | none => simp [ha] at h
  | some a =>
    refine ⟨a, rfl, ?_⟩
    cases hst : a.ses.sst <;> simp only [ha, hst] at h
    · simp at h
    · exact .inl ⟨rfl, h⟩
    · cases hp : permitted s.cfg i with
      | true => simp only [hp, if_true] at h; exact .inr (.inl ⟨rfl, rfl, h⟩)
      | false => simp only [hp, Bool.false_eq_true, if_false] at h; exact .inr (.inr ⟨rfl, rfl, h⟩)
    · simp at h
    · simp at h

/-- The store calls of an instruction, as its meaning gives them to `serve`. -/
def bodyOf : Instr → Active → State → Host.Outcome State Fault Refusal
  | .rdco a c => readBits .rdco .co a c
  | .rddi a c => readBits .rddi .di a c
  | .rdhr a c => readWords .rdhr .hr a c
  | .rdir a c => readWords .rdir .ir a c
  | .wsco a v => writeBit .wsco .co a v
  | .wshr a v => writeWord .wshr .hr a v
  | .wmco a c _ d => writeMany .wmco .co a c (bitValues d c)
  | .wmhr a c _ d => writeMany .wmhr .hr a c (wordValues d c)
  | .mwhr a n o => fun x s =>
    if x.ses.calls = 0 then readThen .hr a.toNat 1 (fun _ => .next) x s else maskWrite a n o x s
  | .rwhr ra rc wa wc _ d => fun x s =>
    if x.ses.calls = 0 then writeThen .hr wa.toNat (wordValues d wc) .next x s else readWords .rwhr .hr ra rc x s
  | .wmdi a c _ d => writeMany .wmdi .di a c (bitValues d c)
  | .wmir a c _ d => writeMany .wmir .ir a c (wordValues d c)
  | .wsdi a v => writeBit .wsdi .di a v
  | .wsir a v => writeWord .wsir .ir a v
  | .ign07 _ | .ign08 _ | .ign0B _ | .ign0C _ | .ign11 _ | .ign14 _ | .ign15 _ | .ign18 _ | .ign2B _ =>
    fun x => ignoreRequest x.conn
  | .illfc _ _ => fun x => raiseException 0x01#8 x.conn

/-- Every instruction is served with its store calls. -/
theorem exec_eq_serve (i : Instr) (s : State) : exec i s = serve i (bodyOf i) s := by
  cases i <;> rfl

/-- The step in VALIDATE, case by case (R66 V4 to V7, R68, R70). -/
theorem validateStep_eq {s : State} {c : Nat} {ses : Session} {tid : Word} {uid fc : Byte}
    (hs : s.session? c = some ses) (ht : ses.latch.tid = some tid) (hu : ses.latch.uid = some uid)
    (hf : ses.latch.fc = some fc) (i : Instr) :
    validateStep i c s =
      .next (if (verdictOf s.cfg i).1 = true then
        if i.code.cls = .ign then
          s.updSession c fun x => { x with verdict := some (verdictOf s.cfg i), sst := .recv }
        else if rangesFit s.cfg.tableLen i = true then
          s.updSession c fun x =>
            { x with
              verdict := some (verdictOf s.cfg i), latch := fillOperands i x.latch, calls := 0, sst := .dispatch }
        else
          s.updSession c fun x =>
            { x with
              verdict := some (verdictOf s.cfg i), latch := fillOperands i x.latch, calls := 0,
              tx := frame tid uid [fc ||| 0x80#8, 0x02#8], sst := .respond }
      else
        s.updSession c fun x =>
          { x with
            verdict := some (verdictOf s.cfg i),
            tx := frame tid uid [fc ||| 0x80#8, (verdictOf s.cfg i).2], sst := .respond }) := by
  have hl : ∀ l : Latches, (fillOperands i l).tid = l.tid ∧ (fillOperands i l).uid = l.uid ∧
      (fillOperands i l).fc = l.fc := by
    intro l; cases i <;> exact ⟨rfl, rfl, rfl⟩
  unfold validateStep
  simp only []
  split_ifs with h1 h2 h3
  · simp [ignoreRequest, returnToReceive, recordVerdict, State.updSession_updSession]
  · simp [recordVerdict, State.updSession_updSession]
  · rw [raiseException_eq (ses := { ses with
        verdict := some (verdictOf s.cfg i), latch := fillOperands i ses.latch, calls := 0, sst := .dispatch })
      (by simp [recordVerdict, hs]) ((hl _).1.trans ht) ((hl _).2.1.trans hu) ((hl _).2.2.trans hf)]
    simp [State.answered, recordVerdict, State.updSession_updSession]
  · rw [raiseException_eq (ses := { ses with verdict := some (verdictOf s.cfg i) })
      (by simp [recordVerdict, hs]) ht hu hf]
    simp [State.answered, recordVerdict, State.updSession_updSession]

/-! ### Store calls -/

/-- A StoreGet that succeeds hands its values on (R31). -/
theorem readThen_ok {s : State} {t : TableKind} {addr cnt : Nat} {a : Active} (hf : storeFails s a.fail = false)
    (hr : addr + cnt ≤ s.cfg.tableLen) (k : List Value → State → Host.Outcome State Fault Refusal) :
    readThen t addr cnt k a s =
      k ((List.range cnt).map fun i => readCell t (s.mem.cell t (addr + i)))
        (latchRead ((List.range cnt).map fun i => readCell t (s.mem.cell t (addr + i))) a.conn s) := by
  unfold readThen
  rw [storeGet_eq_some.2 ⟨hf, hr, rfl⟩]

/-- A StoreSet that succeeds hands the new store on (R32). -/
theorem writeThen_ok {s : State} {t : TableKind} {addr : Nat} {vals : List Value} {a : Active}
    (hf : storeFails s a.fail = false) (hr : addr + vals.length ≤ s.cfg.tableLen)
    (hv : vals.all (storable t) = true) (k : State → Host.Outcome State Fault Refusal) :
    writeThen t addr vals k a s = k (latchWrite (s.mem.setCells t addr (vals.map (cellOf t))) a.conn s) := by
  unfold writeThen
  rw [storeSet_eq_some.2 ⟨hf, hr, hv, rfl⟩]

/-- A store call that fails raises 0x04 (R71). -/
theorem readThen_fails {s : State} {a : Active} (hf : storeFails s a.fail = true) (t : TableKind) (addr cnt : Nat)
    (k : List Value → State → Host.Outcome State Fault Refusal) :
    readThen t addr cnt k a s = raiseException 0x04#8 a.conn s := by
  simp [readThen, storeGet, hf]

/-- A store call that fails raises 0x04 (R71). -/
theorem writeThen_fails {s : State} {a : Active} (hf : storeFails s a.fail = true) (t : TableKind) (addr : Nat)
    (vals : List Value) (k : State → Host.Outcome State Fault Refusal) :
    writeThen t addr vals k a s = raiseException 0x04#8 a.conn s := by
  simp [writeThen, storeSet, hf]

/-- All that a read can do when it answers a next state. -/
theorem readThen_inv {t : TableKind} {addr cnt : Nat} {k : List Value → State → Host.Outcome State Fault Refusal}
    {a : Active} {s u : State} (h : readThen t addr cnt k a s = .next u) :
    raiseException 0x04#8 a.conn s = .next u ∨
      ∃ vs, storeGet s t addr cnt a.fail = some vs ∧ k vs (latchRead vs a.conn s) = .next u := by
  unfold readThen at h
  cases hg : storeGet s t addr cnt a.fail with
  | none => rw [hg] at h; exact .inl h
  | some vs => rw [hg] at h; exact .inr ⟨vs, rfl, h⟩

/-- All that a write can do when it answers a next state. -/
theorem writeThen_inv {t : TableKind} {addr : Nat} {vals : List Value}
    {k : State → Host.Outcome State Fault Refusal} {a : Active} {s u : State}
    (h : writeThen t addr vals k a s = .next u) :
    raiseException 0x04#8 a.conn s = .next u ∨
      ∃ m, storeSet s t addr vals a.fail = some m ∧ k (latchWrite m a.conn s) = .next u := by
  unfold writeThen at h
  cases hg : storeSet s t addr vals a.fail with
  | none => rw [hg] at h; exact .inl h
  | some m => rw [hg] at h; exact .inr ⟨m, rfl, h⟩

@[simp] theorem session?_latchRead (vs : List Value) (c : Nat) (s : State) :
    (latchRead vs c s).session? c =
      (s.session? c).map fun x => { x with latch := { x.latch with rvals := some vs }, calls := x.calls + 1 } := by
  simp [latchRead]

@[simp] theorem session?_latchWrite (m : Memory) (c : Nat) (s : State) :
    (latchWrite m c s).session? c = (s.session? c).map fun x => { x with calls := x.calls + 1 } := by
  simp [latchWrite]

end Sys2Proof.Machine
end

