-- ==== Sys2Proof/Tests/Slice0.lean ====
section
/-! SUPPORT. Tests: ill-formed terms, words of every instruction, vectors of spec/95_test_vectors.md for one step each,
and for every statement with hypotheses a witness that meets them. -/

namespace Sys2Proof.Tests

open Sys2Proof Sys2Proof.Machine

/-! ### Ill-formed terms are refused (R49, R50, R56) -/

theorem test_wf_byte_count :
    (Instr.wmco 0#16 8#16 2#8 [0#8]).wellFormed = false ∧ (Instr.wmhr 0#16 1#16 2#8 [0#8]).wellFormed = false ∧
    (Instr.wmdi 0#16 8#16 0#8 [0#8]).wellFormed = false ∧ (Instr.wmir 0#16 1#16 3#8 [0#8, 1#8]).wellFormed = false ∧
    (Instr.rwhr 0#16 1#16 0#16 1#16 2#8 []).wellFormed = false := by decide

theorem test_wf_illegal_code_is_illegal :
    (Instr.illfc 0x03#8 []).wellFormed = false ∧ (Instr.illfc 0x2B#8 []).wellFormed = false ∧
    (Instr.illfc 0x63#8 []).wellFormed = true := by decide

theorem test_wf_payload_fits :
    (Instr.ign2B (List.replicate 65534 0#8)).wellFormed = false ∧
    (Instr.illfc 0x63#8 (List.replicate 65534 0#8)).wellFormed = false ∧
    (Instr.ign2B (List.replicate 65533 0#8)).wellFormed = true := by
  simp only [Instr.wellFormed, payloadFits, List.length_replicate]
  decide

theorem test_wf_request :
    (Request.other 0x03#8 []).wellFormed = false ∧ (Request.other 0x2B#8 []).wellFormed = true ∧
    (Request.other 0x63#8 []).wellFormed = true ∧
    (Request.wmhr 0#16 0#16 (List.replicate 40000 0#16)).wellFormed = false := by
  refine ⟨by decide, by decide, by decide, ?_⟩
  simp only [Request.wellFormed, Request.instr, encode, Instr.operandBytes, List.length_cons, List.length_append,
    List.length_nil, enc16_length, packWords_length, List.length_replicate]
  decide

theorem test_legal_configuration :
    Cfg.a.legal = true ∧ ({ Cfg.a with tableLen := 0 } : Cfg).legal = false ∧
    ({ Cfg.a with tableLen := 65356 } : Cfg).legal = false ∧ ({ Cfg.a with maxRdBits := 2041 } : Cfg).legal = false ∧
    ({ Cfg.a with maxRdRegs := 128 } : Cfg).legal = false ∧ ({ Cfg.a with maxSessions := some 0 } : Cfg).legal = false := by
  decide

/-! ### Words of every instruction, from R50 and R56 (requests of spec/95_test_vectors.md §2) -/

theorem test_decode_rd :
    decode [0x01#8, 0x00#8, 0x01#8, 0x00#8, 0x09#8] = .ok (.rdco 1#16 9#16) ∧
    decode [0x02#8, 0x00#8, 0x00#8, 0x00#8, 0x03#8] = .ok (.rddi 0#16 3#16) ∧
    decode [0x03#8, 0xFF#8, 0xFF#8, 0x00#8, 0x01#8] = .ok (.rdhr 0xFFFF#16 1#16) ∧
    decode [0x04#8, 0x00#8, 0x00#8, 0x00#8, 0x02#8] = .ok (.rdir 0#16 2#16) := by decide

theorem test_decode_ws :
    decode [0x05#8, 0x00#8, 0x03#8, 0x12#8, 0x34#8] = .ok (.wsco 3#16 0x1234#16) ∧
    decode [0x06#8, 0x00#8, 0x0F#8, 0xFF#8, 0xFF#8] = .ok (.wshr 15#16 0xFFFF#16) ∧
    decode [0x65#8, 0x00#8, 0x0F#8, 0x80#8, 0x00#8] = .ok (.wsdi 15#16 0x8000#16) ∧
    decode [0x66#8, 0x00#8, 0x05#8, 0x00#8, 0x01#8] = .ok (.wsir 5#16 1#16) := by decide

theorem test_decode_wm :
    decode [0x0F#8, 0x00#8, 0x02#8, 0x00#8, 0x03#8, 0x01#8, 0x05#8] = .ok (.wmco 2#16 3#16 1#8 [0x05#8]) ∧
    decode [0x10#8, 0x00#8, 0x01#8, 0x00#8, 0x02#8, 0x04#8, 0x00#8, 0x0A#8, 0x01#8, 0x02#8] =
      .ok (.wmhr 1#16 2#16 4#8 [0x00#8, 0x0A#8, 0x01#8, 0x02#8]) ∧
    decode [0x62#8, 0x00#8, 0x00#8, 0x00#8, 0x03#8, 0x01#8, 0x06#8] = .ok (.wmdi 0#16 3#16 1#8 [0x06#8]) ∧
    decode [0x64#8, 0x00#8, 0x02#8, 0x00#8, 0x01#8, 0x02#8, 0xAB#8, 0xCD#8] =
      .ok (.wmir 2#16 1#16 2#8 [0xAB#8, 0xCD#8]) := by decide

theorem test_decode_mw_rw :
    decode [0x16#8, 0x00#8, 0x04#8, 0x00#8, 0xF2#8, 0x00#8, 0x25#8] = .ok (.mwhr 4#16 0x00F2#16 0x0025#16) ∧
    decode [0x17#8, 0x00#8, 0x01#8, 0x00#8, 0x03#8, 0x00#8, 0x02#8, 0x00#8, 0x01#8, 0x02#8, 0x11#8, 0x22#8] =
      .ok (.rwhr 1#16 3#16 2#16 1#16 2#8 [0x11#8, 0x22#8]) := by decide

theorem test_decode_ignored :
    decode [0x07#8] = .ok (.ign07 []) ∧ decode [0x08#8, 0x00#8] = .ok (.ign08 [0x00#8]) ∧
    decode [0x0B#8] = .ok (.ign0B []) ∧ decode [0x0C#8] = .ok (.ign0C []) ∧ decode [0x11#8] = .ok (.ign11 []) ∧
    decode [0x14#8] = .ok (.ign14 []) ∧ decode [0x15#8] = .ok (.ign15 []) ∧ decode [0x18#8] = .ok (.ign18 []) ∧
    decode [0x2B#8, 0x0E#8, 0x01#8, 0x00#8] = .ok (.ign2B [0x0E#8, 0x01#8, 0x00#8]) := by decide

theorem test_decode_illegal :
    decode [0x00#8] = .ok (.illfc 0x00#8 []) ∧ decode [0x63#8, 0x00#8] = .ok (.illfc 0x63#8 [0x00#8]) ∧
    decode [0xFF#8] = .ok (.illfc 0xFF#8 []) := by decide

/-- D6: the length of a PDU is exact (vectors B10, R-13, R-24, V11). -/
theorem test_decode_length :
    decode [0x01#8, 0x00#8, 0x00#8, 0x00#8] = .error (.length 0x01#8) ∧
    decode [0x10#8, 0x00#8, 0x01#8, 0x00#8, 0x02#8, 0x03#8, 0x00#8, 0x0A#8] = .error (.length 0x10#8) ∧
    decode [0x16#8, 0x00#8, 0x04#8, 0xFF#8, 0xFF#8, 0x00#8] = .error (.length 0x16#8) ∧
    decode [0x03#8, 0x00#8, 0x00#8, 0x00#8, 0x01#8, 0x00#8] = .error (.length 0x03#8) := by decide

theorem test_encode :
    encode (.wmhr 1#16 2#16 4#8 [0x00#8, 0x0A#8, 0x01#8, 0x02#8]) =
      [0x10#8, 0x00#8, 0x01#8, 0x00#8, 0x02#8, 0x04#8, 0x00#8, 0x0A#8, 0x01#8, 0x02#8] ∧
    encode (.illfc 0x63#8 []) = [0x63#8] ∧
    encode (Request.wmdi 0#16 3#16 [true, true, false]).instr =
      [0x62#8, 0x00#8, 0x00#8, 0x00#8, 0x03#8, 0x01#8, 0x03#8] := by decide

/-- S2. -/
theorem test_pack_bits :
    packBits [true, false, true, true, false, false, false, false, true, true] = [0x0D#8, 0x03#8] ∧
    unpackBits [0x0D#8, 0x03#8] 10 = [true, false, true, true, false, false, false, false, true, true] := by decide

/-- The host's numbering of bits: RDHR of zeros, and an operand word in the second byte on. -/
theorem test_table_word :
    decodeTableWord 8 0x03 = some (.rdhr 0#16 0#16) ∧ decodeTableWord 8 0x17 = some (.rwhr 0#16 0#16 0#16 0#16 0#8 []) ∧
    decodeTableWord 40 0x0100100003 = some (.rdhr 16#16 1#16) := by decide

/-! ### Small states -/

/-- A state with the one connection `k`. -/
def withConn (k : Connection) : State := { State.reset with conns := [k], choice := .session 0 false false }

/-- A state whose one session, of an outside peer, takes the next step. -/
def srv (x : Session) : State := withConn ⟨.outside, true, .session x, [], []⟩

/-- A session in DISPATCH on a received message. -/
def dispatching (m : Message) : Session :=
  match decode (pduOf m) with
  | .ok i =>
    { holding m with
      sst := .dispatch, verdict := some (true, 0x00#8), latch := fillOperands i (fillHeader m Latches.empty) }
  | .error _ => holding m

/-- The register table with these holding registers. -/
def hr (vs : List Word) (s : State) : State := { s with mem := s.mem.setCells .hr 0 vs }

/-- What a step leaves: where the session is, the frame it has for its answer, the nonzero cells. -/
def outcome (s : State) : Option (SesState × Message × Memory) :=
  match step s with
  | .next t => (t.session? 0).map fun x => (x.sst, x.tx, t.mem)
  | .fault _ => none
  | .refused _ => none

/-! ### One store call of each executed instruction -/

/-- B1. -/
theorem test_rdco :
    outcome { srv (dispatching (frame 0x0001#16 0x01#8 [0x01#8, 0x00#8, 0x00#8, 0x00#8, 0x0A#8])) with
        mem := ⟨[], [(0, 1#16), (2, 1#16), (3, 1#16), (8, 1#16), (9, 1#16)], [], []⟩ } =
      some (.respond,
        [0x00#8, 0x01#8, 0x00#8, 0x00#8, 0x00#8, 0x05#8, 0x01#8, 0x01#8, 0x02#8, 0x0D#8, 0x03#8],
        ⟨[], [(0, 1#16), (2, 1#16), (3, 1#16), (8, 1#16), (9, 1#16)], [], []⟩) := by decide

/-- B22. -/
theorem test_rddi :
    outcome { srv (dispatching (frame 0x0002#16 0x01#8 [0x02#8, 0x00#8, 0x00#8, 0x00#8, 0x03#8])) with
        mem := ⟨[(1, 1#16)], [], [], []⟩ } =
      some (.respond, [0x00#8, 0x02#8, 0x00#8, 0x00#8, 0x00#8, 0x04#8, 0x01#8, 0x02#8, 0x01#8, 0x02#8],
        ⟨[(1, 1#16)], [], [], []⟩) := by decide

/-- S7, R-1. -/
theorem test_rdhr :
    outcome (hr [3#16] (srv (dispatching (frame 0x0007#16 0x01#8 [0x03#8, 0x00#8, 0x00#8, 0x00#8, 0x01#8])))) =
      some (.respond, [0x00#8, 0x07#8, 0x00#8, 0x00#8, 0x00#8, 0x05#8, 0x01#8, 0x03#8, 0x02#8, 0x00#8, 0x03#8],
        ⟨[], [], [], [(0, 3#16)]⟩) := by decide

/-- R-2. -/
theorem test_rdir :
    outcome { srv (dispatching (frame 0x0008#16 0x01#8 [0x04#8, 0x00#8, 0x00#8, 0x00#8, 0x02#8])) with
        mem := ⟨[], [], [(0, 2#16), (1, 0x01F4#16)], []⟩ } =
      some (.respond,
        [0x00#8, 0x08#8, 0x00#8, 0x00#8, 0x00#8, 0x07#8, 0x01#8, 0x04#8, 0x04#8, 0x00#8, 0x02#8, 0x01#8, 0xF4#8],
        ⟨[], [], [(0, 2#16), (1, 0x01F4#16)], []⟩) := by decide

/-- B11, B13: the answer is canonical. -/
theorem test_wsco :
    outcome (srv (dispatching (frame 0x0003#16 0x01#8 [0x05#8, 0x00#8, 0x03#8, 0x12#8, 0x34#8]))) =
      some (.respond,
        [0x00#8, 0x03#8, 0x00#8, 0x00#8, 0x00#8, 0x06#8, 0x01#8, 0x05#8, 0x00#8, 0x03#8, 0xFF#8, 0x00#8],
        ⟨[], [(3, 1#16)], [], []⟩) ∧
    outcome { srv (dispatching (frame 0x0041#16 0x01#8 [0x05#8, 0x00#8, 0x04#8, 0x00#8, 0x00#8])) with
        mem := ⟨[], [(3, 1#16), (4, 1#16)], [], []⟩ } =
      some (.respond,
        [0x00#8, 0x41#8, 0x00#8, 0x00#8, 0x00#8, 0x06#8, 0x01#8, 0x05#8, 0x00#8, 0x04#8, 0x00#8, 0x00#8],
        ⟨[], [(3, 1#16)], [], []⟩) := by decide

/-- B25. -/
theorem test_wsdi :
    outcome (srv (dispatching (frame 0x0049#16 0x01#8 [0x65#8, 0x00#8, 0x0F#8, 0x80#8, 0x00#8]))) =
      some (.respond,
        [0x00#8, 0x49#8, 0x00#8, 0x00#8, 0x00#8, 0x06#8, 0x01#8, 0x65#8, 0x00#8, 0x0F#8, 0xFF#8, 0x00#8],
        ⟨[(15, 1#16)], [], [], []⟩) := by decide

/-- R-10. -/
theorem test_wshr :
    outcome (srv (dispatching (frame 0x0057#16 0x01#8 [0x06#8, 0x00#8, 0x0F#8, 0xFF#8, 0xFF#8]))) =
      some (.respond,
        [0x00#8, 0x57#8, 0x00#8, 0x00#8, 0x00#8, 0x06#8, 0x01#8, 0x06#8, 0x00#8, 0x0F#8, 0xFF#8, 0xFF#8],
        ⟨[], [], [], [(15, 0xFFFF#16)]⟩) := by decide

/-- R-16. -/
theorem test_wsir :
    outcome (srv (dispatching (frame 0x000A#16 0x01#8 [0x66#8, 0x00#8, 0x05#8, 0x00#8, 0x01#8]))) =
      some (.respond,
        [0x00#8, 0x0A#8, 0x00#8, 0x00#8, 0x00#8, 0x06#8, 0x01#8, 0x66#8, 0x00#8, 0x05#8, 0x00#8, 0x01#8],
        ⟨[], [], [(5, 1#16)], []⟩) := by decide

/-- B16 (CO[3] is written to 0) and B17 (padding bits are ignored). -/
theorem test_wmco :
    outcome { srv (dispatching (frame 0x0004#16 0x01#8 [0x0F#8, 0x00#8, 0x02#8, 0x00#8, 0x03#8, 0x01#8, 0x05#8])) with
        mem := ⟨[], [(3, 1#16)], [], []⟩ } =
      some (.respond,
        [0x00#8, 0x04#8, 0x00#8, 0x00#8, 0x00#8, 0x06#8, 0x01#8, 0x0F#8, 0x00#8, 0x02#8, 0x00#8, 0x03#8],
        ⟨[], [(2, 1#16), (4, 1#16)], [], []⟩) ∧
    outcome (srv (dispatching (frame 0x0044#16 0x01#8 [0x0F#8, 0x00#8, 0x08#8, 0x00#8, 0x03#8, 0x01#8, 0xFD#8]))) =
      some (.respond,
        [0x00#8, 0x44#8, 0x00#8, 0x00#8, 0x00#8, 0x06#8, 0x01#8, 0x0F#8, 0x00#8, 0x08#8, 0x00#8, 0x03#8],
        ⟨[], [(8, 1#16), (10, 1#16)], [], []⟩) := by decide

/-- B24. -/
theorem test_wmdi :
    outcome (srv (dispatching (frame 0x0006#16 0x01#8 [0x62#8, 0x00#8, 0x00#8, 0x00#8, 0x03#8, 0x01#8, 0x06#8]))) =
      some (.respond,
        [0x00#8, 0x06#8, 0x00#8, 0x00#8, 0x00#8, 0x06#8, 0x01#8, 0x62#8, 0x00#8, 0x00#8, 0x00#8, 0x03#8],
        ⟨[(1, 1#16), (2, 1#16)], [], [], []⟩) := by decide

/-- R-12. -/
theorem test_wmhr :
    outcome (srv (dispatching (frame 0x000B#16 0x01#8
        [0x10#8, 0x00#8, 0x01#8, 0x00#8, 0x02#8, 0x04#8, 0x00#8, 0x0A#8, 0x01#8, 0x02#8]))) =
      some (.respond,
        [0x00#8, 0x0B#8, 0x00#8, 0x00#8, 0x00#8, 0x06#8, 0x01#8, 0x10#8, 0x00#8, 0x01#8, 0x00#8, 0x02#8],
        ⟨[], [], [], [(1, 0x000A#16), (2, 0x0102#16)]⟩) := by decide

/-- R-17: the cells between are written 0. -/
theorem test_wmir :
    outcome { srv (dispatching (frame 0x000C#16 0x01#8
        [0x64#8, 0x00#8, 0x02#8, 0x00#8, 0x04#8, 0x08#8, 0x00#8, 0x00#8, 0x00#8, 0x01#8, 0x00#8, 0x00#8, 0x00#8,
          0x01#8])) with mem := ⟨[], [], [(5, 1#16)], []⟩ } =
      some (.respond,
        [0x00#8, 0x0C#8, 0x00#8, 0x00#8, 0x00#8, 0x06#8, 0x01#8, 0x64#8, 0x00#8, 0x02#8, 0x00#8, 0x04#8],
        ⟨[], [], [(3, 1#16), (5, 1#16)], []⟩) := by decide

/-- A session whose first store call has been made and has read `vs`. -/
def halfway (vs : Option (List Value)) (x : Session) : Session :=
  { x with calls := 1, latch := { x.latch with rvals := vs } }

/-- R-19: the first step reads and changes nothing, the second stores the source's formula. -/
theorem test_mwhr :
    (outcome (hr [0#16, 0#16, 0#16, 0#16, 0x12#16] (srv (dispatching (frame 0x000D#16 0x01#8
        [0x16#8, 0x00#8, 0x04#8, 0x00#8, 0xF2#8, 0x00#8, 0x25#8]))))).map (fun x => (x.1, x.2.2)) =
      some (.dispatch, ⟨[], [], [], [(4, 0x12#16)]⟩) ∧
    outcome (hr [0#16, 0#16, 0#16, 0#16, 0x12#16] (srv (halfway (some [ofWord 0x12#16])
        (dispatching (frame 0x000D#16 0x01#8 [0x16#8, 0x00#8, 0x04#8, 0x00#8, 0xF2#8, 0x00#8, 0x25#8]))))) =
      some (.respond,
        [0x00#8, 0x0D#8, 0x00#8, 0x00#8, 0x00#8, 0x08#8, 0x01#8, 0x16#8, 0x00#8, 0x04#8, 0x00#8, 0xF2#8, 0x00#8, 0x25#8],
        ⟨[], [], [], [(4, 0x37#16)]⟩) := by decide

/-- R-25: the write is the first step, the read the second. -/
theorem test_rwhr :
    (outcome (hr [3#16] (srv (dispatching (frame 0x000E#16 0x01#8
        [0x17#8, 0x00#8, 0x00#8, 0x00#8, 0x02#8, 0x00#8, 0x01#8, 0x00#8, 0x01#8, 0x02#8, 0x00#8, 0xFF#8]))))).map
        (fun x => (x.1, x.2.2)) = some (.dispatch, ⟨[], [], [], [(0, 3#16), (1, 0xFF#16)]⟩) ∧
    outcome (hr [3#16, 0xFF#16] (srv (halfway none (dispatching (frame 0x000E#16 0x01#8
        [0x17#8, 0x00#8, 0x00#8, 0x00#8, 0x02#8, 0x00#8, 0x01#8, 0x00#8, 0x01#8, 0x02#8, 0x00#8, 0xFF#8]))))) =
      some (.respond,
        [0x00#8, 0x0E#8, 0x00#8, 0x00#8, 0x00#8, 0x07#8, 0x01#8, 0x17#8, 0x04#8, 0x00#8, 0x03#8, 0x00#8, 0xFF#8],
        ⟨[], [], [], [(0, 3#16), (1, 0xFF#16)]⟩) := by decide

/-! ### The step in VALIDATE -/

/-- X6, X7 and the other ignored codes: back to RECV, nothing sent, no cell changed. -/
theorem test_ignored :
    ∀ fc ∈ [0x07#8, 0x08#8, 0x0B#8, 0x0C#8, 0x11#8, 0x14#8, 0x15#8, 0x18#8, 0x2B#8],
      outcome (srv (holding (frame 0x0014#16 0x01#8 [fc, 0x0E#8, 0x01#8, 0x00#8]))) =
        some (.recv, [], ⟨[], [], [], []⟩) := by decide

/-- X8 to X10. -/
theorem test_illegal :
    ∀ p ∈ [(0x09#8, 0x89#8), (0x00#8, 0x80#8), (0x80#8, 0x80#8)],
      outcome (srv (holding (frame 0x0015#16 0x01#8 [p.1]))) =
        some (.respond, [0x00#8, 0x15#8, 0x00#8, 0x00#8, 0x00#8, 0x03#8, 0x01#8, p.2, 0x01#8], ⟨[], [], [], []⟩) := by
  intro p hp
  simp only [List.mem_cons, List.not_mem_nil, or_false] at hp
  rcases hp with rfl | rfl | rfl <;> decide

/-- X11 to X13. -/
theorem test_illegal_high :
    ∀ p ∈ [(0x83#8, 0x83#8), (0x63#8, 0xE3#8), (0xFF#8, 0xFF#8)],
      outcome (srv (holding (frame 0x0018#16 0x01#8 [p.1]))) =
        some (.respond, [0x00#8, 0x18#8, 0x00#8, 0x00#8, 0x00#8, 0x03#8, 0x01#8, p.2, 0x01#8], ⟨[], [], [], []⟩) := by
  intro p hp
  simp only [List.mem_cons, List.not_mem_nil, or_false] at hp
  rcases hp with rfl | rfl | rfl <;> decide

/-- V1, V2, V3, V8: dropped without an answer. -/
theorem test_dropped :
    ∀ m ∈ ([[0x00#8, 0x01#8, 0x00#8, 0x00#8, 0x00#8, 0x01#8, 0x01#8],
        [0x00#8, 0x01#8, 0x00#8, 0x01#8, 0x00#8, 0x06#8, 0x01#8, 0x03#8, 0x00#8, 0x00#8, 0x00#8, 0x01#8],
        [0x00#8, 0x01#8, 0x00#8, 0x00#8, 0x00#8, 0x05#8, 0x01#8, 0x03#8, 0x00#8, 0x00#8, 0x00#8, 0x01#8],
        [0x00#8, 0x01#8, 0x00#8, 0x01#8, 0x00#8, 0x02#8, 0x01#8, 0x07#8]] : List Message),
      outcome (srv (holding m)) = some (.recv, [], ⟨[], [], [], []⟩) := by decide

/-- R-3 (range), B7 (count 0), B9 (no wrap), B18 (byte count): exception 0x02, nothing stored. -/
theorem test_rejected :
    ∀ p ∈ ([(0x03#8, [0x00#8, 0x10#8, 0x00#8, 0x01#8]), (0x01#8, [0x00#8, 0x00#8, 0x00#8, 0x00#8]),
        (0x01#8, [0xFF#8, 0xFF#8, 0x00#8, 0x01#8]),
        (0x0F#8, [0x00#8, 0x02#8, 0x00#8, 0x03#8, 0x02#8, 0x05#8, 0x00#8])] : List (Byte × List Byte)),
      outcome (srv (holding (frame 0x0050#16 0x01#8 (p.1 :: p.2)))) =
        some (.respond, [0x00#8, 0x50#8, 0x00#8, 0x00#8, 0x00#8, 0x03#8, 0x01#8, p.1 ||| 0x80#8, 0x02#8],
          ⟨[], [], [], []⟩) := by decide

/-- X1 to X4: with EXT_SRV false, 0x01 even where the PDU is malformed. -/
theorem test_extension_gate :
    ∀ p ∈ ([(0x66#8, [0x00#8, 0x05#8, 0x00#8, 0x01#8]), (0x64#8, [0x00#8]), (0x65#8, [0x00#8, 0x00#8, 0xFF#8, 0x00#8]),
        (0x62#8, [0x00#8, 0x00#8, 0x00#8, 0x01#8, 0x01#8, 0x01#8])] : List (Byte × List Byte)),
      outcome { srv (holding (frame 0x0021#16 0x01#8 (p.1 :: p.2))) with cfg := { Cfg.a with extSrv := false } } =
        some (.respond, [0x00#8, 0x21#8, 0x00#8, 0x00#8, 0x00#8, 0x03#8, 0x01#8, p.1 ||| 0x80#8, 0x01#8],
          ⟨[], [], [], []⟩) := by decide

/-! ### The response validator, the client and the host (W-1 to W-10, Q1 to Q18, H1 to H13) -/

theorem test_validate_response :
    validateResponse true (frame 1#16 1#8 [0x83#8, 0x07#8]) 0x03#8 1 = (true, 0x00#8) ∧
    validateResponse true (frame 1#16 1#8 [0x03#8, 0x02#8, 0x00#8, 0x03#8]) 0x03#8 2 = (false, 0x02#8) ∧
    validateResponse true (frame 1#16 1#8 [0x04#8, 0x02#8, 0x00#8, 0x03#8]) 0x03#8 1 = (false, 0x01#8) ∧
    validateResponse true (frame 1#16 1#8 [0x01#8, 0x01#8, 0x05#8]) 0x01#8 3 = (true, 0x00#8) ∧
    validateResponse true (frame 1#16 1#8 [0x01#8, 0x01#8, 0x05#8]) 0x01#8 9 = (false, 0x02#8) ∧
    validateResponse false (frame 1#16 1#8 [0x66#8, 0x00#8, 0x00#8, 0x00#8, 0x03#8]) 0x66#8 0 = (false, 0x01#8) ∧
    validateResponse true (frame 1#16 1#8 [0x83#8, 0x02#8, 0x00#8]) 0x03#8 1 = (false, 0x01#8) := by decide

/-- Q2 to Q6, Q16. -/
theorem test_send_result :
    sendResult Cfg.a ⟨1#16, 1#8, 0x03#8, 1#16, .rdr⟩ (frame 1#16 1#8 [0x03#8, 0x02#8, 0x00#8, 0x03#8]) =
      .ok (.regs [3#16]) ∧
    sendResult Cfg.a ⟨1#16, 1#8, 0x03#8, 1#16, .rdr⟩ (frame 2#16 1#8 [0x03#8, 0x02#8, 0x00#8, 0x03#8]) = .invalid ∧
    sendResult Cfg.a ⟨1#16, 1#8, 0x03#8, 1#16, .rdr⟩ (frame 1#16 2#8 [0x03#8, 0x02#8, 0x00#8, 0x03#8]) = .invalid ∧
    sendResult Cfg.a ⟨1#16, 1#8, 0x03#8, 1#16, .rdr⟩ (frame 1#16 1#8 [0x83#8, 0x03#8]) = .exceptionInfo 0x03#8 0x03#8 ∧
    sendResult Cfg.a ⟨1#16, 1#8, 0x01#8, 10#16, .rdr⟩ (frame 1#16 1#8 [0x01#8, 0x02#8, 0x0D#8, 0x03#8]) =
      .ok (.bits [true, false, true, true, false, false, false, false, true, true]) := by decide

/-- A client in READY on connection 0, which a session serves, with its counter at `tid`. -/
def connected (tid : Word) : State :=
  { withConn ⟨.client 0, true, .session Session.fresh, [], []⟩ with
    clients := [{ Client.reset Cfg.a with cst := .ready, conn := some 0, tidCtr := tid }] }

/-- What is looked at of a client after a move: its registers and the messages towards its server. -/
structure ClientView where
  cst : CliState
  tidCtr : Word
  pend : Option Pending
  ret : Option Return
  sent : List Message
  deriving DecidableEq, Repr

/-- The client after a move. -/
def clientAfter (m : Move) (s : State) : Option ClientView :=
  match s.take m with
  | .next t =>
    (t.clients[0]?).map fun cl =>
      ⟨cl.cst, cl.tidCtr, cl.pend, cl.ret, ((t.conns[0]?).map (·.toServer)).getD []⟩
  | .fault _ => none
  | .refused _ => none

/-- Q1 and Q9. -/
theorem test_send :
    clientAfter (.userSend 0 (.rdhr 0#16 1#16) false) (connected 0#16) =
      some ⟨.await, 1#16, some ⟨1#16, 0x01#8, 0x03#8, 1#16, .rdr⟩, none,
        [[0x00#8, 0x01#8, 0x00#8, 0x00#8, 0x00#8, 0x06#8, 0x01#8, 0x03#8, 0x00#8, 0x00#8, 0x00#8, 0x01#8]]⟩ ∧
    clientAfter (.userSend 0 (.wshr 0#16 1#16) false) (connected 0xFFFF#16) =
      some ⟨.await, 0#16, some ⟨0#16, 0x01#8, 0x06#8, 0#16, .wsr⟩, none,
        [[0x00#8, 0x00#8, 0x00#8, 0x00#8, 0x00#8, 0x06#8, 0x01#8, 0x06#8, 0x00#8, 0x00#8, 0x00#8, 0x01#8]]⟩ := by decide

/-- Q10, Q11, Q17 (the frame of a WSCO with a raw value). -/
theorem test_send_rejected :
    clientAfter (.userSend 0 (.rdhr 0#16 1#16) false) State.reset =
      some ⟨.idle, 0#16, none, some (.send .notReady), []⟩ ∧
    clientAfter (.userSend 0 (.wsir 5#16 1#16) false)
        { connected 0#16 with cfg := { Cfg.a with extCli := false } } =
      some ⟨.ready, 0#16, none, some (.send .notReady), []⟩ ∧
    clientAfter (.userSend 0 (.other 0x64#8 []) false)
        { connected 0#16 with cfg := { Cfg.a with extCli := false } } =
      some ⟨.ready, 0#16, none, some (.send .notReady), []⟩ ∧
    encode (Request.wsco 3#16 (.raw 0x1234#16)).instr = [0x05#8, 0x00#8, 0x03#8, 0x12#8, 0x34#8] := by decide

/-- H1 to H11. -/
theorem test_host_rules :
    hostRule .idle 0#16 ⟨true, true, false, 0#16, 0#16, false, false, false, false, 0#16⟩ =
      ⟨none, .awaitingSelection, 0#16⟩ ∧
    hostRule .awaitingSelection 0#16 ⟨true, true, false, 2#16, 0#16, false, true, false, true, 0#16⟩ =
      ⟨some 2#16, .awaitingAck, 2#16⟩ ∧
    hostRule .awaitingSelection 0#16 ⟨true, true, false, 1#16, 0#16, true, false, true, false, 0#16⟩ =
      ⟨some 1#16, .awaitingAck, 1#16⟩ ∧
    hostRule .awaitingSelection 0#16 ⟨true, true, false, 9#16, 0#16, true, false, false, true, 0#16⟩ =
      ⟨some 4#16, .awaitingAck, 4#16⟩ ∧
    hostRule .awaitingAck 2#16 ⟨true, true, false, 0#16, 0#16, false, false, false, false, 2#16⟩ =
      ⟨some 0#16, .awaitingClear, 0#16⟩ ∧
    hostRule .awaitingClear 0#16 ⟨true, true, true, 0#16, 0#16, false, false, false, false, 0#16⟩ =
      ⟨none, .awaitingClear, 0#16⟩ := by decide

/-- M1 to M6, S3, S4: the store primitives. -/
theorem test_store :
    storeGet (srv Session.fresh) .ir 16 0 false = some [] ∧
    storeGet (srv Session.fresh) .hr 15 2 false = none ∧
    storeSet (srv Session.fresh) .hr 15 [.int 1, .int 2] false = none ∧
    storeSet (srv Session.fresh) .hr 0 [.int 65536] false = none ∧
    storeSet (srv Session.fresh) .co 0 [.int 5, .int 0, .bool true] false =
      some ⟨[], [(0, 1#16), (2, 1#16)], [], []⟩ := by decide

/-- The instruction of a table word is the first that runs after reset (log 23). -/
theorem test_fetch_word :
    ((State.reset.withFetchWord 8 0x2B).session? 0).map (fun x => (x.sst, decode (pduOf x.rx))) =
      some (.validate, .ok (.ign2B [])) ∧
    (outcome (State.reset.withFetchWord 8 0x05)).map (·.1) = some .dispatch := by decide

/-! ### Witnesses: states and operands that meet the hypotheses of the statements -/

/-- The frame of `i` with Transaction ID 7 and Unit ID 1. -/
def framed (i : Instr) : Message := frame 7#16 1#8 (encode i)

/-- A session in VALIDATE that has received `i` and filled its header latches. -/
def judging (i : Instr) : Session := { holding (framed i) with latch := fillHeader (framed i) Latches.empty }

/-- A session in DISPATCH on `i` that has made `n` store calls and read `vs`. -/
def serving (i : Instr) (n : Nat) (vs : Option (List Value)) : Session :=
  { holding (framed i) with
    sst := .dispatch, verdict := some (true, 0x00#8), calls := n,
    latch := { fillOperands i (fillHeader (framed i) Latches.empty) with rvals := vs } }

/-- A session in RESPOND with the answer `pdu` to `i`. -/
def answering (i : Instr) (pdu : Message) : Session :=
  { serving i 1 none with sst := .respond, tx := frame 7#16 1#8 pdu }

theorem judging_executes (i : Instr) : Executing (srv (judging i)) .validate 0 false (judging i) 7#16 1#8 i.fc :=
  ⟨rfl, rfl, by simp [judging, framed, fillHeader_frame], by simp [judging, framed, fillHeader_frame],
    by simp [judging, framed, fillHeader_frame, encode]⟩

theorem serving_executes (i : Instr) (n : Nat) (vs : Option (List Value)) :
    Executing (srv (serving i n vs)) .dispatch 0 false (serving i n vs) 7#16 1#8 i.fc :=
  ⟨rfl, rfl, by cases i <;> simp [serving, framed, fillHeader_frame, fillOperands],
    by cases i <;> simp [serving, framed, fillHeader_frame, fillOperands],
    by cases i <;> simp [serving, framed, fillHeader_frame, fillOperands, encode]⟩

theorem witness_StepRunsDecodedInstruction_dispatch :
    let x := serving (.rdhr 0#16 1#16) 0 none
    (srv x).choice = .session 0 false false ∧ (srv x).session? 0 = some x ∧ decode (pduOf x.rx) = .ok (.rdhr 0#16 1#16) ∧
      x.sst = .dispatch := by decide

theorem witness_StepRunsDecodedInstruction_validate :
    let x := holding (framed (.wsir 15#16 1#16))
    (srv x).choice = .session 0 false false ∧ (srv x).session? 0 = some x ∧ decode (pduOf x.rx) = .ok (.wsir 15#16 1#16) ∧
      x.sst = .validate ∧ headerOk x.rx = true := by decide

theorem witness_FramedInstructionIsExecuted :
    let x := holding (framed (.ign2B [0x0E#8]))
    (srv x).choice = .session 0 false false ∧ (srv x).session? 0 = some x ∧ x.sst = .validate ∧
      (Instr.ign2B [0x0E#8]).wellFormed = true ∧ x.rx = frame 7#16 1#8 (encode (.ign2B [0x0E#8])) := by decide

theorem witness_DecodeEncode :
    (Instr.wmir 0#16 0#16 255#8 (List.replicate 255 0#8)).wellFormed = true ∧
    (Instr.illfc 0xFF#8 (List.replicate 65533 0#8)).wellFormed = true := by
  simp only [Instr.wellFormed, payloadFits, List.length_replicate]
  decide

theorem witness_EncodeDecode :
    decode (pduOf (framed (.mwhr 0#16 1#16 2#16))) = .ok (.mwhr 0#16 1#16 2#16) ∧
    headerOk (framed (.mwhr 0#16 1#16 2#16)) = true := by decide

theorem witness_FrameFields :
    (1 ≤ [0x2B#8].length ∧ [0x2B#8].length ≤ 65534) ∧
    (1 ≤ (List.replicate 65534 0#8).length ∧ (List.replicate 65534 0#8).length ≤ 65534) := by
  simp only [List.length_replicate]
  decide

theorem witness_BitPacking :
    (15 < 8 * ((List.replicate 9 true).length + 7) / 8) ∧ (0 < 1) := by decide

/-! #### Sound states -/

theorem reset_inv : State.reset.Inv := by
  refine ⟨by decide, by decide, by decide, ?_, ?_, by decide⟩
  · intro c k h
    simp [State.reset, State.resetWith] at h
  · intro k cl h
    match k with
    | 0 =>
      obtain rfl := Option.some.inj h
      decide
    | k + 1 => simp [State.reset, State.resetWith] at h

/-- Client 0 awaits the answer to its RDHR on connection 0, whose session is `x`. -/
def awaiting (x : Session) (m : Move) : State :=
  { withConn ⟨.client 0, true, .session x, [], []⟩ with
    clients :=
      [{ Client.reset Cfg.a with
        cst := .await, conn := some 0, tidCtr := 7#16, pend := some ⟨7#16, 1#8, 0x03#8, 1#16, .rdr⟩ }]
    choice := m }

theorem awaiting_inv {x : Session} (hx : x.sound Cfg.a = true) (m : Move) : (awaiting x m).Inv := by
  refine ⟨(by decide : Cfg.a.legal = true), rfl, rfl, ?_, ?_, rfl⟩
  · intro c k h
    match c with
    | 0 =>
      obtain rfl := Option.some.inj h
      exact hx
    | c + 1 => simp [awaiting, withConn] at h
  · intro k cl h
    match k with
    | 0 =>
      obtain rfl := Option.some.inj h
      rfl
    | k + 1 => simp [awaiting, withConn] at h

/-- A session in DISPATCH, one in RESPOND, one between the store calls of MWHR, one in VALIDATE. -/
theorem witness_StepKeepsInvariant :
    (awaiting (serving (.rdhr 15#16 1#16) 0 none) (.session 0 false false)).Inv ∧
    (awaiting (answering (.rdhr 15#16 1#16) [0x03#8, 0x02#8, 0x00#8, 0x00#8]) (.session 0 false false)).Inv ∧
    (awaiting (serving (.mwhr 15#16 1#16 1#16) 1 (some [ofWord 0#16])) (.session 0 false false)).Inv ∧
    (awaiting (holding (framed (.rdhr 16#16 1#16))) (.session 0 false false)).Inv ∧
    ∃ t, step (awaiting (serving (.rdhr 15#16 1#16) 0 none) (.session 0 false false)) = .next t :=
  ⟨awaiting_inv (by decide) _, awaiting_inv (by decide) _, awaiting_inv (by decide) _, awaiting_inv (by decide) _,
    _, rfl⟩

theorem witness_StepNeverStops : State.reset.Inv ∧ (awaiting Session.fresh .time).Inv :=
  ⟨reset_inv, awaiting_inv (by decide) _⟩

theorem witness_ResetMeetsInvariant : ({ Cfg.a with tableLen := 65355, maxSessions := some 1 } : Cfg).legal = true := by
  decide

theorem witness_ConfigurationIsFixed : ∃ t, step (connected 0#16) = .next t := ⟨_, rfl⟩

theorem witness_StoreChangesOnlyByStoreCalls :
    (∃ t, step { connected 0#16 with choice := .extSet .hr 15 [.int 65535] false } = .next t ∧
      t.mem ≠ (connected 0#16).mem) ∧
    (∃ t, step { hr [1#16] (connected 0#16) with choice := .restart } = .next t ∧
      t.mem ≠ (hr [1#16] (connected 0#16)).mem) ∧
    ∃ t, step (srv (serving (.wshr 15#16 1#16) 0 none)) = .next t ∧ t.mem ≠ (srv (serving (.wshr 15#16 1#16) 0 none)).mem :=
  ⟨⟨_, rfl, by decide⟩, ⟨_, rfl, by decide⟩, ⟨_, rfl, by decide⟩⟩

/-- A call that stores and one that fails. -/
theorem witness_StoreChangesOnlyByStoreCalls_external :
    (∃ m, storeSet (connected 0#16) .hr 15 [.int 65535] false = some m) ∧
    storeSet (connected 0#16) .hr 16 [.int 65535] false = none := ⟨⟨_, rfl⟩, by decide⟩

theorem witness_SessionStepIsLocal :
    (srv Session.fresh).choice = .session 0 false false ∧ (∃ t, step (srv Session.fresh) = .next t) ∧
    (∃ k, (srv Session.fresh).conns[0]? = some k ∧ k.session? = some Session.fresh) :=
  ⟨rfl, ⟨_, rfl⟩, _, rfl, rfl⟩

/-- A session left alone, a session in CLOSED that is to step, a session that the Listener makes and one that a
connection attempt makes. -/
theorem witness_SessionStepIsLocal_sessions :
    (∃ t, step { srv Session.fresh with choice := .peerOpen } = .next t ∧
      (srv Session.fresh).session? 0 = some Session.fresh) ∧
    (∃ t, step (srv { Session.fresh with sst := .closed }) = .next t ∧
      (srv { Session.fresh with sst := .closed }).session? 0 = some { Session.fresh with sst := .closed }) ∧
    (∃ t, step { withConn ⟨.outside, true, .waiting, [], []⟩ with choice := .accept 0 } = .next t ∧
      (withConn ⟨.outside, true, .waiting, [], []⟩).session? 0 = none ∧ t.session? 0 = some Session.fresh) ∧
    ∃ t, step { State.reset with choice := .userConnect 0 .listener } = .next t ∧
      State.reset.session? 0 = none ∧ t.session? 0 = some Session.fresh :=
  ⟨⟨_, rfl, rfl⟩, ⟨_, rfl, rfl⟩, ⟨_, rfl, rfl, rfl⟩, _, rfl, rfl, rfl⟩

/-- An open end of an outside peer and a closed one; a server outside the block; no connection. -/
theorem witness_SessionStepIsLocal_peers :
    (∀ b, ∃ k, (withConn ⟨.outside, b, .waiting, [], [[0#8]]⟩).conns[0]? = some k ∧ k.owner = .outside ∧
      k.clientOpen = b) ∧
    (∀ b, ∃ k, (withConn ⟨.client 0, true, .foreign b, [[0#8]], []⟩).conns[0]? = some k ∧ k.server = .foreign b) ∧
    State.reset.conns[0]? = none := ⟨fun _ => ⟨_, rfl, rfl, rfl⟩, fun _ => ⟨_, rfl, rfl⟩, rfl⟩

/-! #### The stages of a session -/

theorem witness_Receive :
    ∀ q ∈ ([[], [[]], [framed (.rdco 0#16 1#16)]] : List (List Message)),
      ∃ k, (withConn ⟨.outside, true, .session Session.fresh, q, []⟩).conns[0]? = some k ∧
        k.session? = some Session.fresh ∧ Session.fresh.sst = .recv := by
  intro q _
  exact ⟨_, rfl, rfl, rfl⟩

theorem witness_ValidatorVerdicts :
    ([0#8] : Message).length < 8 ∧
    be16 [0x00#8, 0x01#8, 0x00#8, 0x01#8, 0x00#8, 0x02#8, 0x01#8, 0x07#8] 2 ≠ 0#16 ∧
    (be16 [0x00#8, 0x01#8, 0x00#8, 0x00#8, 0x00#8, 0x03#8, 0x01#8, 0x07#8] 4).toNat ≠ 8 - 6 ∧
    ∀ m ∈ [framed (.ign07 []), framed (.illfc 0x80#8 []), framed (.wsdi 0#16 1#16), framed (.rdhr 0#16 128#16),
        frame 7#16 1#8 [0x66#8], frame 7#16 1#8 [0x03#8]],
      8 ≤ m.length ∧ be16 m 2 = 0#16 ∧ (be16 m 4).toNat = m.length - 6 := by decide

/-- Both ends of each range of counts, and a byte count that disagrees (R67). -/
theorem test_shape_bounds :
    (∀ n ∈ [0#16, 2041#16], shapeOk Cfg.a (.rdco 0#16 n) = false) ∧ shapeOk Cfg.a (.rdco 0#16 2040#16) = true ∧
    (∀ n ∈ [0#16, 128#16], shapeOk Cfg.a (.rdir 0#16 n) = false) ∧ shapeOk Cfg.a (.rdir 0#16 127#16) = true ∧
    shapeOk Cfg.a (.wmdi 0#16 9#16 2#8 [0#8, 0#8]) = true ∧ shapeOk Cfg.a (.wmdi 0#16 9#16 1#8 [0#8]) = false ∧
    shapeOk Cfg.a (.wmir 0#16 1#16 2#8 [0#8, 0#8]) = true ∧ shapeOk Cfg.a (.wmir 0#16 0#16 0#8 []) = false ∧
    shapeOk Cfg.a (.rwhr 0#16 127#16 0#16 1#16 2#8 [0#8, 0#8]) = true ∧
    shapeOk Cfg.a (.rwhr 0#16 128#16 0#16 1#16 2#8 [0#8, 0#8]) = false := by
  simp [shapeOk, countOk, ceil8, Cfg.a]

theorem witness_MalformedFrameIsDropped :
    ∀ m ∈ ([[0x00#8, 0x01#8, 0x00#8, 0x00#8, 0x00#8, 0x01#8, 0x01#8],
        [0x00#8, 0x01#8, 0x00#8, 0x01#8, 0x00#8, 0x02#8, 0x01#8, 0x07#8],
        [0x00#8, 0x01#8, 0x00#8, 0x00#8, 0x00#8, 0x03#8, 0x01#8, 0x07#8]] : List Message),
      (srv (holding m)).session? 0 = some (holding m) ∧ (holding m).sst = .validate ∧
        ((holding m).rx.length < 8 ∨ be16 (holding m).rx 2 ≠ 0#16 ∨
          (be16 (holding m).rx 4).toNat ≠ (holding m).rx.length - 6) := by decide

/-- A standard code and an extension code, with the flag set and not. -/
theorem witness_MalformedPduRaises :
    ∀ fc ∈ [0x03#8, 0x64#8],
      (srv (holding (frame 7#16 1#8 [fc]))).session? 0 = some (holding (frame 7#16 1#8 [fc])) ∧
        (holding (frame 7#16 1#8 [fc])).sst = .validate ∧ headerOk (holding (frame 7#16 1#8 [fc])).rx = true ∧
        decode (pduOf (holding (frame 7#16 1#8 [fc])).rx) = .error (.length fc) ∧
        ((Code.ofByte (byteAt (frame 7#16 1#8 [0x64#8]) 7)).cls = .ext ∧
          ({ Cfg.a with extSrv := false } : Cfg).extSrv = false) := by decide

/-- One state for each branch: not permitted, wrong shape, ignored, in range to the last cell, out of range by one. -/
theorem witness_AdmissionOfEveryInstruction :
    (∀ i ∈ [Instr.illfc 0x00#8 [], .rdhr 0#16 128#16, .ign0B [], .rdhr 15#16 1#16, .rdhr 15#16 2#16],
      Executing (srv (judging i)) .validate 0 false (judging i) 7#16 1#8 i.fc) ∧
    permitted Cfg.a (.illfc 0x00#8 []) = false ∧
    (permitted Cfg.a (.rdhr 0#16 128#16) = true ∧ shapeOk Cfg.a (.rdhr 0#16 128#16) = false) ∧
    (Instr.ign0B []).code.cls = .ign ∧
    (shapeOk Cfg.a (.rdhr 15#16 1#16) = true ∧ ∀ r ∈ rangesOf (.rdhr 15#16 1#16), r.1 + r.2 ≤ Cfg.a.tableLen) ∧
    ¬∀ r ∈ rangesOf (.rdhr 15#16 2#16), r.1 + r.2 ≤ Cfg.a.tableLen :=
  ⟨fun i _ => judging_executes i, by decide⟩

theorem witness_AdmittedInstructionIsReady :
    let i := Instr.rwhr 14#16 2#16 15#16 1#16 2#8 [0x00#8, 0x01#8]
    (srv (holding (framed i))).session? 0 = some (holding (framed i)) ∧ (holding (framed i)).sst = .validate ∧
      (holding (framed i)).rx = frame 7#16 1#8 (encode i) ∧ i.wellFormed = true ∧ permitted Cfg.a i = true ∧
      shapeOk Cfg.a i = true ∧ (i.code.cls = .std ∨ i.code.cls = .ext) ∧
      ∀ r ∈ rangesOf i, r.1 + r.2 ≤ Cfg.a.tableLen := by decide

theorem witness_IgnoredCodesDoNothing :
    ∀ i ∈ [Instr.ign07 [], .ign08 [], .ign0B [], .ign0C [], .ign11 [], .ign14 [], .ign15 [], .ign18 [], .ign2B []],
      Executing (srv (judging i)) .validate 0 false (judging i) 7#16 1#8 i.fc :=
  fun i _ => judging_executes i

theorem witness_IllegalCodesRaise01 :
    ∀ fc ∈ [0x00#8, 0x7F#8, 0x80#8, 0xFF#8],
      Executing (srv (judging (.illfc fc []))) .validate 0 false (judging (.illfc fc [])) 7#16 1#8 fc :=
  fun fc _ => judging_executes (.illfc fc [])

/-- A state in which EXT_SRV is false. -/
def noExt (s : State) : State := { s with cfg := { Cfg.a with extSrv := false } }

theorem witness_ExtensionGate :
    (∀ m ∈ [framed (.wsdi 0#16 1#16), frame 7#16 1#8 [0x62#8], framed (.wsir 0#16 1#16), frame 7#16 1#8 [0x64#8]],
      ({ Cfg.a with extSrv := false } : Cfg).extSrv = false ∧ headerOk m = true ∧
        byteAt m 7 ∈ [0x62#8, 0x64#8, 0x65#8, 0x66#8]) ∧
    (∀ i ∈ [Instr.wsdi 0#16 1#16, .wmdi 0#16 1#16 1#8 [1#8], .wsir 0#16 1#16, .wmir 0#16 1#16 2#8 [0#8, 1#8]],
      Executing (noExt (srv (judging i))) .validate 0 false (judging i) 7#16 1#8 i.fc ∧
        Executing (noExt (srv (serving i 0 none))) .dispatch 0 false (serving i 0 none) 7#16 1#8 i.fc) :=
  ⟨by decide, fun i _ =>
    ⟨⟨rfl, rfl, (judging_executes i).tid, (judging_executes i).uid, (judging_executes i).fc⟩,
      ⟨rfl, rfl, (serving_executes i 0 none).tid, (serving_executes i 0 none).uid, (serving_executes i 0 none).fc⟩⟩⟩

theorem witness_ExceptionEntry :
    let x := serving (.rdhr 0#16 1#16) 0 none
    (srv x).session? 0 = some x ∧ x.latch.tid = some 7#16 ∧ x.latch.uid = some 1#8 ∧ x.latch.fc = some 0x03#8 := by
  decide

theorem witness_ExceptionReturn :
    let x := answering (.rdhr 16#16 1#16) [0x83#8, 0x02#8]
    (srv x).session? 0 = some x ∧ x.sst = .respond ∧ x.latch.tid = some 7#16 ∧ x.latch.uid = some 1#8 ∧
      x.latch.fc = some 0x03#8 ∧ x.tx = frame 7#16 1#8 [0x03#8 ||| 0x80#8, 0x02#8] := by decide

/-- A response that passes, one with a detected code, one with the code 0 (R73). -/
theorem witness_OutboundCheck :
    let x := answering (.rdhr 15#16 1#16) [0x03#8, 0x02#8, 0x00#8, 0x00#8]
    let y := answering (.rdhr 15#16 1#16) [0x04#8, 0x02#8, 0x00#8, 0x00#8]
    let z := { x with tx := [] }
    (∀ w ∈ [x, y, z],
      (srv w).session? 0 = some w ∧ w.sst = .respond ∧ w.latch.tid = some 7#16 ∧ w.latch.uid = some 1#8 ∧
        w.latch.fc = some 0x03#8 ∧ latchedCount 0x03#8 w.latch = .ok 1) ∧
    validateResponse true x.tx 0x03#8 1 = (true, 0x00#8) ∧ validateResponse true y.tx 0x03#8 1 = (false, 0x01#8) ∧
    validateResponse true z.tx 0x03#8 1 = (false, 0x00#8) := by
  refine ⟨?_, by decide, by decide, by decide⟩
  intro w hw
  simp only [List.mem_cons, List.not_mem_nil, or_false] at hw
  rcases hw with rfl | rfl | rfl <;> exact ⟨rfl, rfl, by decide, by decide, by decide, rfl⟩

/-! #### The executed instructions: the range ends at the last cell -/

theorem witness_BitReads :
    Executing (srv (serving (.rdco 6#16 10#16) 0 none)) .dispatch 0 false (serving (.rdco 6#16 10#16) 0 none)
      7#16 1#8 0x01#8 ∧
    Executing (srv (serving (.rddi 6#16 10#16) 0 none)) .dispatch 0 false (serving (.rddi 6#16 10#16) 0 none)
      7#16 1#8 0x02#8 ∧
    storeFails (srv (serving (.rdco 6#16 10#16) 0 none)) false = false ∧
    (6#16).toNat + (10#16).toNat ≤ Cfg.a.tableLen :=
  ⟨serving_executes _ _ _, serving_executes _ _ _, by decide, by decide⟩

theorem witness_RegisterReads :
    Executing (srv (serving (.rdhr 15#16 1#16) 0 none)) .dispatch 0 false (serving (.rdhr 15#16 1#16) 0 none)
      7#16 1#8 0x03#8 ∧
    Executing (srv (serving (.rdir 0#16 16#16) 0 none)) .dispatch 0 false (serving (.rdir 0#16 16#16) 0 none)
      7#16 1#8 0x04#8 ∧
    storeFails (srv (serving (.rdhr 15#16 1#16) 0 none)) false = false ∧
    (15#16).toNat + (1#16).toNat ≤ Cfg.a.tableLen ∧ (0#16).toNat + (16#16).toNat ≤ Cfg.a.tableLen :=
  ⟨serving_executes _ _ _, serving_executes _ _ _, by decide, by decide, by decide⟩

theorem witness_SingleBitWrites :
    (∀ v ∈ [0x0000#16, 0x0001#16, 0xFF00#16],
      Executing (srv (serving (.wsco 15#16 v) 0 none)) .dispatch 0 false (serving (.wsco 15#16 v) 0 none)
        7#16 1#8 0x05#8 ∧
      Executing (srv (serving (.wsdi 15#16 v) 0 none)) .dispatch 0 false (serving (.wsdi 15#16 v) 0 none)
        7#16 1#8 0x65#8) ∧
    storeFails (srv (serving (.wsco 15#16 0#16) 0 none)) false = false ∧
    (srv (serving (.wsco 15#16 0#16) 0 none)).mem.wf = true ∧ (15#16).toNat + 1 ≤ Cfg.a.tableLen ∧
    Cfg.a.extSrv = true :=
  ⟨fun _ _ => ⟨serving_executes _ _ _, serving_executes _ _ _⟩, by decide⟩

theorem witness_SingleRegisterWrites :
    Executing (srv (serving (.wshr 15#16 0xFFFF#16) 0 none)) .dispatch 0 false (serving (.wshr 15#16 0xFFFF#16) 0 none)
      7#16 1#8 0x06#8 ∧
    Executing (srv (serving (.wsir 0#16 0#16) 0 none)) .dispatch 0 false (serving (.wsir 0#16 0#16) 0 none)
      7#16 1#8 0x66#8 ∧
    storeFails (srv (serving (.wsir 0#16 0#16) 0 none)) false = false ∧
    (srv (serving (.wsir 0#16 0#16) 0 none)).mem.wf = true ∧ (15#16).toNat + 1 ≤ Cfg.a.tableLen ∧
    (0#16).toNat + 1 ≤ Cfg.a.tableLen ∧ Cfg.a.extSrv = true :=
  ⟨serving_executes _ _ _, serving_executes _ _ _, by decide⟩

theorem witness_MultipleBitWrites :
    Executing (srv (serving (.wmco 7#16 9#16 2#8 [0xFF#8, 0x01#8]) 0 none)) .dispatch 0 false
      (serving (.wmco 7#16 9#16 2#8 [0xFF#8, 0x01#8]) 0 none) 7#16 1#8 0x0F#8 ∧
    Executing (srv (serving (.wmdi 7#16 9#16 2#8 [0xFF#8, 0x01#8]) 0 none)) .dispatch 0 false
      (serving (.wmdi 7#16 9#16 2#8 [0xFF#8, 0x01#8]) 0 none) 7#16 1#8 0x62#8 ∧
    storeFails (srv (serving (.wmco 7#16 9#16 2#8 [0xFF#8, 0x01#8]) 0 none)) false = false ∧
    (srv (serving (.wmco 7#16 9#16 2#8 [0xFF#8, 0x01#8]) 0 none)).mem.wf = true ∧
    (7#16).toNat + (9#16).toNat ≤ Cfg.a.tableLen ∧ Cfg.a.extSrv = true :=
  ⟨serving_executes _ _ _, serving_executes _ _ _, by decide⟩

theorem witness_MultipleRegisterWrites :
    Executing (srv (serving (.wmhr 15#16 1#16 2#8 [0xFF#8, 0x01#8]) 0 none)) .dispatch 0 false
      (serving (.wmhr 15#16 1#16 2#8 [0xFF#8, 0x01#8]) 0 none) 7#16 1#8 0x10#8 ∧
    Executing (srv (serving (.wmir 15#16 1#16 2#8 [0xFF#8, 0x01#8]) 0 none)) .dispatch 0 false
      (serving (.wmir 15#16 1#16 2#8 [0xFF#8, 0x01#8]) 0 none) 7#16 1#8 0x64#8 ∧
    storeFails (srv (serving (.wmhr 15#16 1#16 2#8 [0xFF#8, 0x01#8]) 0 none)) false = false ∧
    (srv (serving (.wmhr 15#16 1#16 2#8 [0xFF#8, 0x01#8]) 0 none)).mem.wf = true ∧
    (15#16).toNat + (1#16).toNat ≤ Cfg.a.tableLen ∧ Cfg.a.extSrv = true :=
  ⟨serving_executes _ _ _, serving_executes _ _ _, by decide⟩

/-- Both store calls. -/
theorem witness_MaskWriteRegister :
    (∀ n ∈ [0, 1],
      Executing (srv (serving (.mwhr 15#16 1#16 2#16) n (some [ofWord 9#16]))) .dispatch 0 false
        (serving (.mwhr 15#16 1#16 2#16) n (some [ofWord 9#16])) 7#16 1#8 0x16#8 ∧
      (serving (.mwhr 15#16 1#16 2#16) n (some [ofWord 9#16])).calls = n ∧
      (serving (.mwhr 15#16 1#16 2#16) n (some [ofWord 9#16])).latch.rvals = some [ofWord 9#16]) ∧
    storeFails (srv (serving (.mwhr 15#16 1#16 2#16) 1 none)) false = false ∧
    (srv (serving (.mwhr 15#16 1#16 2#16) 1 none)).mem.wf = true ∧ (15#16).toNat + 1 ≤ Cfg.a.tableLen :=
  ⟨fun _ _ => ⟨serving_executes _ _ _, rfl, rfl⟩, by decide⟩

/-- Both store calls. -/
theorem witness_ReadWriteRegisters :
    (∀ n ∈ [0, 1],
      Executing (srv (serving (.rwhr 14#16 2#16 15#16 1#16 2#8 [0#8, 1#8]) n none)) .dispatch 0 false
        (serving (.rwhr 14#16 2#16 15#16 1#16 2#8 [0#8, 1#8]) n none) 7#16 1#8 0x17#8 ∧
      (serving (.rwhr 14#16 2#16 15#16 1#16 2#8 [0#8, 1#8]) n none).calls = n) ∧
    storeFails (srv (serving (.rwhr 14#16 2#16 15#16 1#16 2#8 [0#8, 1#8]) 0 none)) false = false ∧
    (srv (serving (.rwhr 14#16 2#16 15#16 1#16 2#8 [0#8, 1#8]) 0 none)).mem.wf = true ∧
    (15#16).toNat + (1#16).toNat ≤ Cfg.a.tableLen ∧ (14#16).toNat + (2#16).toNat ≤ Cfg.a.tableLen :=
  ⟨fun _ _ => ⟨serving_executes _ _ _, rfl⟩, by decide⟩

/-- A state in which store calls may fail, and the session's next one does. -/
def failing (x : Session) : State :=
  { srv x with cfg := { Cfg.a with storeFaults := true }, choice := .session 0 false true }

theorem failing_executes (i : Instr) (n : Nat) (vs : Option (List Value)) :
    Executing (failing (serving i n vs)) .dispatch 0 true (serving i n vs) 7#16 1#8 i.fc :=
  ⟨rfl, rfl, (serving_executes _ _ _).tid, (serving_executes _ _ _).uid, (serving_executes _ _ _).fc⟩

/-- Both store calls of MWHR, and both of RWHR, whose second is the read after the write. -/
theorem witness_StoreFailureRaises04 :
    (∀ p ∈ [(0, none), (1, some [ofWord 9#16])],
      Executing (failing (serving (.mwhr 0#16 1#16 2#16) p.1 p.2)) .dispatch 0 true
        (serving (.mwhr 0#16 1#16 2#16) p.1 p.2) 7#16 1#8 0x16#8 ∧
      storeFails (failing (serving (.mwhr 0#16 1#16 2#16) p.1 p.2)) true = true ∧
      permitted Cfg.a (.mwhr 0#16 1#16 2#16) = true ∧ (Instr.mwhr 0#16 1#16 2#16).code.cls = .std ∧
      ((serving (.mwhr 0#16 1#16 2#16) p.1 p.2).calls = 0 ∨
        ∃ v, (serving (.mwhr 0#16 1#16 2#16) p.1 p.2).latch.rvals = some [v])) ∧
    ∀ n ∈ [0, 1],
      let i := Instr.rwhr 0#16 1#16 0#16 1#16 2#8 [0#8, 1#8]
      Executing (failing (serving i n none)) .dispatch 0 true (serving i n none) 7#16 1#8 0x17#8 ∧
        storeFails (failing (serving i n none)) true = true ∧ permitted Cfg.a i = true ∧ i.code.cls = .std ∧
        i.code ≠ .mwhr ∧ (serving i n none).calls = n ∧ (serving i n none).latch.rvals = none := by
  refine ⟨fun p hp => ⟨failing_executes _ _ _, rfl, by decide, by decide, ?_⟩, fun n _ =>
    ⟨failing_executes _ _ _, rfl, by decide, by decide, by decide, rfl, rfl⟩⟩
  simp only [List.mem_cons, List.not_mem_nil, or_false] at hp
  rcases hp with rfl | rfl
  · exact .inl rfl
  · exact .inr ⟨_, rfl⟩

theorem witness_FrameOfCodesThatStoreNothing :
    ∀ i ∈ [Instr.rdco 0#16 1#16, .ign2B [], .illfc 0x09#8 []],
      storedCells i = none ∧ ∃ t, exec i (srv (judging i)) = .next t := by
  intro i hi
  simp only [List.mem_cons, List.not_mem_nil, or_false] at hi
  rcases hi with rfl | rfl | rfl <;> exact ⟨rfl, _, rfl⟩

theorem witness_FrameOfCodesThatStore :
    let i := Instr.wmhr 14#16 2#16 4#8 [0#8, 1#8, 0#8, 2#8]
    (srv (serving i 0 none)).mem.wf = true ∧ storedCells i = some (.hr, 14, 2) ∧
      (∃ t, exec i (srv (serving i 0 none)) = .next t) ∧
      ((∃ t, exec i (srv (judging i)) = .next t) ∧ ∃ x, (srv (judging i)).active = some x ∧ x.ses.sst = .validate) :=
  ⟨by decide, rfl, ⟨_, rfl⟩, ⟨_, rfl⟩, _, rfl, rfl⟩

theorem witness_FrameOfTheRest :
    ∃ t, exec (.wshr 0#16 1#16) (srv (serving (.wshr 0#16 1#16) 0 none)) = .next t := ⟨_, rfl⟩

/-! #### The store -/

/-- The range that ends at the last cell, the one that leaves the table by one, and a count of 0. -/
theorem witness_StoreGetRule :
    storeFails (srv Session.fresh) false = false ∧ ¬(15 + 1 > Cfg.a.tableLen) ∧ 15 + 2 > Cfg.a.tableLen ∧
    ¬(16 + 0 > Cfg.a.tableLen) := by decide

theorem witness_StoreSetRule :
    storeFails (srv Session.fresh) false = false ∧ (srv Session.fresh).mem.wf = true ∧
    15 + [Value.int 1, .int 2].length > Cfg.a.tableLen ∧
    storeSet (srv Session.fresh) .hr 15 [.int 65535] false ≠ none ∧
    storeSet (srv Session.fresh) .di 14 [.bool true, .int (-1)] false ≠ none := by decide

theorem witness_ReadAfterWrite :
    (srv Session.fresh).mem.wf = true ∧ (∃ m, storeSet (srv Session.fresh) .co 14 [.int 5, .bool false] false = some m) ∧
    ∃ m, storeSet (srv Session.fresh) .ir 15 [.int 65535] false = some m := ⟨by decide, ⟨_, rfl⟩, _, rfl⟩

/-- Two sessions in DISPATCH. -/
def two (x y : Session) (m : Move) : State :=
  { State.reset with
    conns := [⟨.outside, true, .session x, [], []⟩, ⟨.outside, true, .session y, [], []⟩], choice := m }

theorem witness_DisjointWritesCommute :
    let x := serving (.wshr 0#16 1#16) 0 none
    let y := serving (.wshr 15#16 2#16) 0 none
    (0 : Nat) ≠ 1 ∧ (0#16 : Word) ≠ 15#16 ∧ (two x y .time).mem.wf = true ∧
      Executing { two x y .time with choice := .session 0 false false } .dispatch 0 false x 7#16 1#8 0x06#8 ∧
      Executing { two x y .time with choice := .session 1 false false } .dispatch 1 false y 7#16 1#8 0x06#8 ∧
      decode (pduOf x.rx) = .ok (.wshr 0#16 1#16) ∧ decode (pduOf y.rx) = .ok (.wshr 15#16 2#16) ∧
      (0#16).toNat < Cfg.a.tableLen ∧ (15#16).toNat < Cfg.a.tableLen :=
  ⟨by decide, by decide, by decide, ⟨rfl, rfl, rfl, rfl, rfl⟩, ⟨rfl, rfl, rfl, rfl, rfl⟩, by decide⟩

/-- P5. -/
theorem witness_MaskWriteLosesUpdate :
    let x := serving (.mwhr 15#16 0xFF00#16 1#16) 0 none
    Executing { srv x with choice := .session 0 false false } .dispatch 0 false x 7#16 1#8 0x16#8 ∧ x.calls = 0 ∧
      decode (pduOf x.rx) = .ok (.mwhr 15#16 0xFF00#16 1#16) ∧ (15#16).toNat < Cfg.a.tableLen ∧
      (srv x).mem.wf = true ∧ 65535 ≤ 65535 :=
  ⟨serving_executes _ _ _, by decide⟩

/-! #### The Listener and the client -/

/-- With room, and at the bound. -/
theorem witness_ListenerAccepts :
    (∃ k, (withConn ⟨.outside, true, .waiting, [], []⟩).conns[0]? = some k ∧ k.server = .waiting) ∧
    (∀ n, Cfg.a.maxSessions = some n → liveSessions (withConn ⟨.outside, true, .waiting, [], []⟩) < n) ∧
    ¬(liveSessions (srv Session.fresh) < 1) :=
  ⟨⟨_, rfl, rfl⟩, by decide, by decide⟩

/-- A state whose client 0 is `cl`. -/
def withClient (cl : Client) (s : State) : State := { s with clients := [cl] }

/-- A host in phase `ph` that has been returned `r`. -/
def hosting (ph : HostPhase) (r : Option Return) (s : State) : State :=
  { s with host := { HostLoop.reset with phase := ph, inbox := r } }

theorem witness_Connect :
    (∃ cl, State.reset.clients[0]? = some cl ∧ cl.cst = .idle) ∧
    (∃ cl, (connected 0#16).clients[0]? = some cl ∧ cl.cst ≠ .idle) ∧ hasRoom State.reset = true ∧
    hasRoom { srv Session.fresh with cfg := { Cfg.a with maxSessions := some 1 } } = false ∧
    (State.reset.host.phase = .boot ∧ State.reset.host.scheduled = true) ∧
    ((hosting .boot none (connected 0#16)).host.phase = .boot ∧
      (hosting .boot none (connected 0#16)).host.scheduled = true) :=
  ⟨⟨_, rfl, rfl⟩, ⟨_, rfl, by decide⟩, by decide, by decide, ⟨rfl, rfl⟩, rfl, rfl⟩

/-- A client in CONNECTING with `e` time units elapsed and `w` to wait. -/
def connecting (e w : Nat) : Client := { Client.reset Cfg.a with cst := .connecting, elapsed := e, wait := w }

/-- Still waiting; the poll that reaches CONNECT_BOUND; the one beyond it; a user's connect and the host's. -/
theorem witness_BoundedRetry :
    (∀ p ∈ [(0, 1), (55, 0), (60, 0)], ∀ w,
      ∃ cl, (withClient { connecting p.1 p.2 with caller := w } State.reset).clients[0]? = some cl ∧
        cl.cst = .connecting ∧ cl.caller = w ∧ cl.wait = p.2) ∧
    (connecting 60 0).elapsed + Cfg.a.connectPoll > Cfg.a.connectBound ∧
    (connecting 55 0).elapsed + Cfg.a.connectPoll = Cfg.a.connectBound :=
  ⟨fun _ _ _ => ⟨_, rfl, rfl, rfl, rfl⟩, by decide, by decide⟩

/-- An extension code with a frame and without one; an admitted request without one. -/
theorem witness_SendPreconditions :
    (∀ c ∈ [CliState.idle, .connecting, .failed, .ready, .await],
      ∃ cl, (withClient { Client.reset Cfg.a with cst := c } State.reset).clients[0]? = some cl ∧ cl.cst = c) ∧
    (∀ r ∈ [Request.wsir 5#16 1#16, .other 0x64#8 []], r.wellFormed = false ∨ (Code.ofByte r.instr.fc).cls = .ext) ∧
    ({ Cfg.a with extCli := false } : Cfg).extCli = false ∧
    ((Request.other 0x03#8 []).wellFormed = false ∧ (Code.ofByte (Request.other 0x03#8 []).instr.fc).cls ≠ .ext) :=
  ⟨fun _ _ => ⟨_, rfl, rfl⟩, by decide⟩

theorem witness_Transmit :
    (∃ cl conn, (connected 0xFFFF#16).clients[0]? = some cl ∧ cl.cst = .ready ∧ cl.conn = some 0 ∧
      (connected 0xFFFF#16).conns[0]? = some conn) ∧
    (Request.wsir 5#16 1#16).wellFormed = true ∧ Cfg.a.extCli = true ∧
    (Instr.mwhr 0#16 0#16 0#16).fc ∉ [0x01#8, 0x02#8, 0x03#8, 0x04#8, 0x17#8] :=
  ⟨⟨_, _, rfl, rfl, rfl, rfl⟩, by decide⟩

theorem witness_ClientRegistersAcrossSteps :
    (∃ t cl, step { connected 0#16 with choice := .userSend 0 (.rdhr 0#16 1#16) false } = .next t ∧
      (connected 0#16).clients[0]? = some cl) ∧
    (∃ t cl, step { withClient { Client.reset Cfg.a with cst := .failed } State.reset with choice := .userConnect 0 .listener }
        = .next t ∧
      (withClient { Client.reset Cfg.a with cst := .failed } State.reset).clients[0]? = some cl ∧ cl.cst = .failed) :=
  ⟨⟨_, _, rfl, rfl⟩, _, _, rfl, rfl, rfl⟩

/-- A move at another client, and the making of one. -/
theorem witness_ClientRegistersAcrossSteps_others :
    ∀ mv ∈ [Move.userSend 1 (.rdhr 0#16 1#16) false, .newClient],
      ∃ t cl, step { connected 0#16 with choice := mv } = .next t ∧ (connected 0#16).clients[0]? = some cl ∧
        mv ≠ .restart ∧ Move.atClient 0 mv = false := by
  intro mv hm
  simp only [List.mem_cons, List.not_mem_nil, or_false] at hm
  rcases hm with rfl | rfl <;> exact ⟨_, _, rfl, rfl, by decide, rfl⟩

/-- An empty channel, an empty message, a message; a user's send and the host's. -/
theorem witness_Await :
    ∀ q ∈ ([[], [[]], [frame 7#16 1#8 [0x03#8, 0x02#8, 0x00#8, 0x00#8]]] : List (List Message)), ∀ w,
      ∃ cl p conn,
        let s := { awaiting Session.fresh .time with conns := [⟨.client 0, true, .session Session.fresh, [], q⟩] }
        let u := s.updClient 0 fun x => { x with caller := w }
        u.clients[0]? = some cl ∧ cl.cst = .await ∧ cl.caller = w ∧ cl.pend = some p ∧ cl.conn = some 0 ∧
          u.conns[0]? = some conn ∧ conn.toClient = q :=
  fun _ _ _ => ⟨_, _, _, rfl, rfl, rfl, rfl, rfl, rfl, rfl⟩

/-- A result of each kind, a rejected frame, a message that is no frame. -/
theorem witness_Await_latches :
    sendResult Cfg.a ⟨7#16, 1#8, 0x01#8, 3#16, .rdr⟩ (frame 7#16 1#8 [0x01#8, 0x01#8, 0x05#8]) =
      .ok (.bits [true, false, true]) ∧
    sendResult Cfg.a ⟨7#16, 1#8, 0x03#8, 1#16, .rdr⟩ (frame 7#16 1#8 [0x03#8, 0x02#8, 0x00#8, 0x05#8]) =
      .ok (.regs [5#16]) ∧
    sendResult Cfg.a ⟨7#16, 1#8, 0x05#8, 0#16, .wsr⟩ (frame 7#16 1#8 [0x05#8, 0x00#8, 0x02#8, 0xFF#8, 0x00#8]) =
      .ok (.bitWrite 2#16 true) ∧
    sendResult Cfg.a ⟨7#16, 1#8, 0x06#8, 0#16, .wsr⟩ (frame 7#16 1#8 [0x06#8, 0x00#8, 0x02#8, 0x00#8, 0x09#8]) =
      .ok (.regWrite 2#16 9#16) ∧
    sendResult Cfg.a ⟨7#16, 1#8, 0x10#8, 0#16, .wmr⟩ (frame 7#16 1#8 [0x10#8, 0x00#8, 0x02#8, 0x00#8, 0x09#8]) =
      .ok (.multiple 2#16 9#16) ∧
    sendResult Cfg.a ⟨7#16, 1#8, 0x16#8, 0#16, .mwr⟩
        (frame 7#16 1#8 [0x16#8, 0x00#8, 0x02#8, 0x00#8, 0x09#8, 0x01#8, 0x00#8]) = .ok (.mask 2#16 9#16 256#16) ∧
    (headerOk (frame 8#16 1#8 [0x83#8, 0x02#8]) = true ∧
      sendResult Cfg.a ⟨7#16, 1#8, 0x03#8, 1#16, .rdr⟩ (frame 8#16 1#8 [0x83#8, 0x02#8]) = .invalid) ∧
    headerOk [0x00#8] = false := by decide

/-- Not accepted; accepted in the exception form; accepted. -/
theorem witness_ResponseReport :
    let p : Pending := ⟨7#16, 1#8, 0x03#8, 1#16, .rdr⟩
    sendResult Cfg.a p (frame 8#16 1#8 [0x83#8, 0x02#8]) = .invalid ∧
      (sendResult Cfg.a p (frame 7#16 1#8 [0x83#8, 0x02#8]) ≠ .invalid ∧
        byteAt (frame 7#16 1#8 [0x83#8, 0x02#8]) 7 = 0x03#8 ||| 0x80#8) ∧
      sendResult Cfg.a p (frame 7#16 1#8 [0x03#8, 0x02#8, 0x00#8, 0x00#8]) ≠ .invalid ∧
      byteAt (frame 7#16 1#8 [0x03#8, 0x02#8, 0x00#8, 0x00#8]) 7 ≠ 0x03#8 ||| 0x80#8 := by decide

theorem witness_ResponseRoundTrip :
    Cfg.a.extCli = true ∧ Code.rwhr ∈ [Code.rdhr, .rdir, .rwhr] ∧
    ((List.replicate 2040 true).length = (2040#16).toNat ∧ (2040#16).toNat ≤ 2040) ∧
    ((List.replicate 127 0xFFFF#16).length = (127#16).toNat ∧ (127#16).toNat ≤ 127) := by
  simp only [List.length_replicate]
  decide

theorem witness_RequestRoundTrip :
    ((Code.ofByte 0x2B#8).cls = .ign ∧ (Code.ofByte 0x83#8).cls = .ill) ∧
    ((List.replicate 2040 true).length = (2040#16).toNat ∧ (2040#16).toNat ≤ 2040) ∧
    ((List.replicate 127 0xFFFF#16).length = (127#16).toNat ∧ (127#16).toNat ≤ 127) := by
  simp only [List.length_replicate]
  decide

/-- In FAILED; in AWAIT on a connection, on a user's send and on the host's. -/
theorem witness_Close :
    (∃ cl, (withClient { Client.reset Cfg.a with cst := .failed } State.reset).clients[0]? = some cl ∧
      cl.cst = .failed) ∧
    ∀ w, ∃ cl conn,
      let s := (awaiting Session.fresh .time).updClient 0 fun x => { x with caller := w }
      s.clients[0]? = some cl ∧ cl.cst = .await ∧ cl.caller = w ∧ cl.conn = some 0 ∧ s.conns[0]? = some conn :=
  ⟨⟨_, rfl, rfl⟩, fun _ => ⟨_, _, rfl, rfl, rfl, rfl, rfl⟩⟩

/-! #### The host -/

theorem witness_HostStateRules :
    let none : TickInputs := ⟨true, true, false, 2#16, 0#16, false, false, false, false, 0#16⟩
    let some : TickInputs := ⟨true, true, false, 2#16, 0#16, false, true, false, true, 2#16⟩
    (∀ i, i < 4 → [none.req0, none.req1, none.req2, none.req3].getD i false = false) ∧
      (∃ i, i < 4 ∧ [some.req0, some.req1, some.req2, some.req3].getD i false = true) ∧
      (some.observedCode = 2#16 ∧ 0#16 < 2#16) ∧ ¬(none.observedCode = 2#16 ∧ 0#16 < 2#16) := by decide

theorem witness_HostTick :
    (∀ ph r, ∃ cl conn, (hosting ph r (connected 0#16)).clients[0]? = some cl ∧ cl.cst = .ready ∧ cl.conn = some 0 ∧
      (hosting ph r (connected 0#16)).conns[0]? = some conn) ∧
    ((hosting .sleep none (connected 0#16)).host.phase = .sleep ∧
      (hosting .sleep none (connected 0#16)).host.wait = 0 ∧
      (hosting .sleep none (connected 0#16)).host.scheduled = true) ∧
    (∀ p ∈ [(HostPhase.awaitDi, Payload.bits [true, false, true]),
        (.awaitIr, .regs [2#16, 0#16, 0#16, 1#16, 0#16, 5#16]), (.awaitHr, .regs [0#16]),
        (.awaitRule, .regWrite 0#16 2#16), (.awaitBack, .regWrite 0#16 2#16)],
      (hosting p.1 (some (.send (.ok p.2))) (connected 0#16)).host.phase = p.1 ∧
        (hosting p.1 (some (.send (.ok p.2))) (connected 0#16)).host.inbox = some (.send (.ok p.2))) ∧
    (hostRule .awaitingSelection 0#16 ⟨true, true, false, 2#16, 0#16, false, true, false, true, 0#16⟩).write =
      some 2#16 ∧
    (hostRule .idle 0#16 ⟨true, true, false, 2#16, 0#16, false, true, false, true, 0#16⟩).write = none :=
  ⟨fun _ _ => ⟨_, _, rfl, rfl, rfl, rfl⟩, ⟨rfl, rfl, rfl⟩, fun _ _ => ⟨rfl, rfl⟩, by decide, by decide⟩

/-- A client in each state that `State.hostSends` names: READY, those that send nothing, AWAIT. -/
theorem witness_HostTick_hostSends :
    (∃ cl conn, (connected 0#16).clients[hostClient]? = some cl ∧ cl.cst = .ready ∧ cl.conn = some 0 ∧
      (connected 0#16).conns[0]? = some conn) ∧
    (∀ x ∈ [CliState.idle, .connecting, .failed, .await],
      ∃ cl, (withClient { Client.reset Cfg.a with cst := x } State.reset).clients[hostClient]? = some cl ∧ cl.cst = x) :=
  ⟨⟨_, _, rfl, rfl, rfl, rfl⟩, fun _ _ => ⟨_, rfl, rfl⟩⟩

/-- R110, R112, R117: the host's send on a failed client, on a client whose send errs, and beside another caller's. -/
theorem test_host_send :
    (∃ t, (hosting .sleep none (withClient { Client.reset Cfg.a with cst := .failed } State.reset)).take
        (.host false .fails) = .next t ∧ t.host.inbox = some (.send .notReady)) ∧
    (∃ t cl, (hosting .sleep none (connected 0#16)).take (.host true .fails) = .next t ∧
      t.host.inbox = some (.send .transport) ∧ t.clients[0]? = some cl ∧ cl.cst = .failed) ∧
    ∃ t, (hosting .sleep none (awaiting Session.fresh .time)).take (.host false .fails) = .next t ∧
      t.host.phase = .sleep ∧ t.host.inbox = none :=
  ⟨⟨_, rfl, rfl⟩, ⟨_, _, rfl, rfl, rfl, rfl⟩, _, rfl, rfl, rfl⟩

/-- Connected and not; no longer scheduled; still asleep. -/
theorem witness_HostTick_between :
    (∀ ok, (hosting .connecting (some (.connect ok)) State.reset).host.phase = .connecting ∧
      (hosting .connecting (some (.connect ok)) State.reset).host.inbox = some (.connect ok)) ∧
    (∀ ph ∈ [HostPhase.boot, .sleep],
      (stopTicks (hosting ph none State.reset)).host.phase = ph ∧
        (stopTicks (hosting ph none State.reset)).host.scheduled = false) ∧
    0 < (State.updHost (hosting .sleep none State.reset) fun h => { h with wait := 2 }).host.wait :=
  ⟨fun _ => ⟨rfl, rfl⟩, fun _ _ => ⟨rfl, rfl⟩, by decide⟩

/-- With a client that is free, and with one that awaits another caller's answer. -/
theorem witness_HostHalts :
    (∀ ph ∈ [HostPhase.awaitDi, .awaitIr, .awaitHr, .awaitRule, .awaitBack],
      ∀ s ∈ [connected 0#16, awaiting Session.fresh .time],
        ∃ cl, (hosting ph (some (.send .notReady)) s).clients[0]? = some cl ∧
          (hosting ph (some (.send .notReady)) s).host.phase = ph ∧
          (hosting ph (some (.send .notReady)) s).host.inbox = some (.send .notReady) ∧
          ∀ d, SendResult.notReady ≠ .ok d) ∧
    (hosting .stopped none State.reset).host.phase = .stopped := by
  refine ⟨fun ph _ s hs => ?_, rfl⟩
  simp only [List.mem_cons, List.not_mem_nil, or_false] at hs
  rcases hs with rfl | rfl <;> exact ⟨_, rfl, rfl, rfl, by simp⟩

/-- A halted host beside another agent's step and at its own; a call outstanding. -/
theorem witness_HostHalts_lasts :
    (∀ mv ∈ [Move.time, .host false .fails],
      ∃ t, step { hostHalts State.reset with choice := mv } = .next t ∧ mv ≠ .restart ∧
        (hostHalts State.reset).host.hst = .halted ∧ (hostHalts State.reset).host.phase = .stopped) ∧
    ∀ ph, (hosting ph none State.reset).host.phase = ph ∧ (hosting ph none State.reset).host.inbox = none := by
  refine ⟨fun mv hm => ?_, fun _ => ⟨rfl, rfl⟩⟩
  simp only [List.mem_cons, List.not_mem_nil, or_false] at hm
  rcases hm with rfl | rfl <;> exact ⟨_, rfl, by decide, rfl, rfl⟩

/-- R128: a tick whose send has failed halts the host although its client awaits another caller's answer. -/
theorem test_host_halts_in_await :
    ∃ t, (hosting .awaitDi (some (.send .notReady)) (awaiting Session.fresh .time)).take (.host false .fails) = .next t ∧
      t.host.hst = .halted ∧ t.host.phase = .stopped :=
  ⟨_, rfl, rfl, rfl⟩

/-- R158: a finished state has no ticks to come and no external writer's step outstanding, and no hang is one. -/
theorem test_finished :
    State.reset.finished = false ∧ (stopTicks { State.reset with choice := .time }).finished = true ∧
    (stopTicks { State.reset with choice := .extSet .hr 0 [.int 1] false }).finished = false ∧
    (stopTicks (awaiting Session.fresh .time)).finished = false :=
  ⟨rfl, rfl, rfl, rfl⟩

/-- R157: a session in RECV has a step to take when a message waits for it, and none when its channel is empty. -/
theorem test_enabled :
    (Agent.session 0).enabled { awaiting Session.fresh .time with
      conns := [⟨.client 0, true, .session Session.fresh, [[0#8]], []⟩] } ∧
    ¬ Move.effective (.session 0 false false) (awaiting Session.fresh .time) := by
  refine ⟨⟨.session 0 false false, rfl, rfl, fun h => ?_⟩, fun h => h rfl⟩
  exact absurd (congrArg (fun o => match o with | .next t => (t.conns.map Connection.toServer) | _ => []) h) (by decide)

/-- Q15. -/
theorem witness_HangPersists :
    (awaiting Session.fresh (.session 0 false false)).Inv ∧
    (awaiting Session.fresh (.session 0 false false)).hung 0 0 ∧ endsWait 0 0 (.session 0 false false) = false ∧
    ∃ t, step (awaiting Session.fresh (.session 0 false false)) = .next t :=
  ⟨awaiting_inv (by decide) _, ⟨_, _, _, rfl, rfl, rfl, rfl, rfl, rfl, rfl, rfl⟩, by decide, _, rfl⟩

/-- S6, S7. -/
theorem witness_WriteThenReadTransaction :
    Cfg.a.legal = true ∧ (connected 0xFFFF#16).mem.wf = true ∧ (15#16).toNat < Cfg.a.tableLen ∧
    Cfg.a.storeFaults = false ∧
    ∃ cl conn, (connected 0xFFFF#16).clients[0]? = some cl ∧ cl.cst = .ready ∧ cl.conn = some 0 ∧
      (connected 0xFFFF#16).conns[0]? = some conn ∧ conn.toServer = [] ∧ conn.toClient = [] ∧
      conn.session? = some Session.fresh ∧ Session.fresh.sst = .recv :=
  ⟨by decide, by decide, by decide, by decide, _, _, rfl, rfl, rfl, rfl, rfl, rfl, rfl, rfl⟩

end Sys2Proof.Tests
end

section
/-! Which steps leave the store as it is (spec/00_scope.md R11, spec/20_memory.md R30, R35, R38, R39): one lemma per
operation of the session, the client and the host, and from them O14. -/

namespace Sys2Proof.Machine

/-- The state an operation answers holds the store that operation leaves. -/
theorem mem_of_next_eq {s t u : State} (h : Host.Outcome.next (φ := Fault) (ρ := Refusal) u = .next t)
    (hu : u.mem = s.mem) : t.mem = s.mem := by
  obtain rfl := Host.Outcome.next.inj h
  exact hu

/-! ### The ends of a request and the store calls -/

@[simp] theorem State.answered_mem (s : State) (c : Nat) (tid : Word) (uid : Byte) (pdu : Message) :
    (s.answered c tid uid pdu).mem = s.mem := rfl

theorem respond_mem {pdu : Message} {c : Nat} {s t : State} (h : respond pdu c s = .next t) : t.mem = s.mem := by
  obtain ⟨_, _, _, _, _, _, rfl⟩ := respond_inv h
  rfl

theorem raiseException_mem {code : Byte} {c : Nat} {s t : State} (h : raiseException code c s = .next t) :
    t.mem = s.mem := by
  obtain ⟨_, _, _, _, _, _, _, _, rfl⟩ := raiseException_inv h
  rfl

theorem ignoreRequest_mem {c : Nat} {s t : State} (h : ignoreRequest c s = .next t) : t.mem = s.mem :=
  mem_of_next_eq h rfl

/-- A StoreGet has no side effect (R38), whatever is answered with its values. -/
theorem readThen_respond_mem {t : TableKind} {addr cnt : Nat} {pdu : List Value → Message} {a : Active} {s u : State}
    (h : readThen t addr cnt (fun vs => respond (pdu vs) a.conn) a s = .next u) : u.mem = s.mem := by
  rcases readThen_inv h with hr | ⟨vs, -, hk⟩
  · exact raiseException_mem hr
  · exact (respond_mem hk :)

/-! ### The two steps of an instruction -/

/-- The step in VALIDATE makes no store call (R64, R70). -/
theorem validateStep_mem {i : Instr} {c : Nat} {s t : State} (h : validateStep i c s = .next t) : t.mem = s.mem := by
  unfold validateStep at h
  simp only [] at h
  split_ifs at h
  · exact (ignoreRequest_mem h :)
  · exact mem_of_next_eq h rfl
  · exact (raiseException_mem h :)
  · exact (raiseException_mem h :)

/-- The store calls of an instruction that writes no cells leave the store as it is. -/
theorem bodyOf_mem_of_storedCells_eq_none {i : Instr} (hi : storedCells i = none) {a : Active} {s t : State}
    (h : bodyOf i a s = .next t) : t.mem = s.mem := by
  cases i <;> simp only [storedCells, reduceCtorEq] at hi
  case rdco | rddi | rdhr | rdir => exact readThen_respond_mem h
  case illfc => exact raiseException_mem h
  all_goals exact ignoreRequest_mem h

/-- Running an instruction changes the store only in DISPATCH, and only where the instruction writes cells (R35). -/
theorem active_of_exec_mem_ne {i : Instr} {s t : State} (h : exec i s = .next t) (hm : t.mem ≠ s.mem) :
    ∃ a, s.active = some a ∧ a.ses.sst = .dispatch ∧ storedCells i ≠ none := by
  rw [exec_eq_serve] at h
  obtain ⟨a, ha, ⟨-, hv⟩ | ⟨hd, -, hb⟩ | ⟨-, -, hr⟩⟩ := serve_inv h
  · exact absurd (validateStep_mem hv) hm
  · exact ⟨a, ha, hd, fun hi => hm (bodyOf_mem_of_storedCells_eq_none hi hb)⟩
  · exact absurd (raiseException_mem hr) hm

/-! ### The steps of a session -/

@[simp] theorem receiveStep_mem (err : Bool) (c : Nat) (k : Connection) (s : State) :
    (receiveStep err c k s).mem = s.mem := by
  unfold receiveStep
  split
  · rfl
  · split
    · rfl
    · split <;> rfl

/-- A step in VALIDATE leaves the store as it is, whatever was received. -/
theorem validateMessage_mem {c : Nat} {err fail : Bool} {ses : Session} {s t : State}
    (hc : s.choice = .session c err fail) (hs : s.session? c = some ses) (hv : ses.sst = .validate)
    (h : validateMessage c ses s = .next t) : t.mem = s.mem := by
  unfold validateMessage at h
  split at h
  · simp only [] at h
    split at h
    · next i _ =>
      by_contra hm
      obtain ⟨a, ha, hd, -⟩ := active_of_exec_mem_ne h hm
      rw [State.active_eq (s := s.updSession c _) hc (by rw [State.session?_updSession, hs]; rfl)] at ha
      obtain rfl := Option.some.inj ha
      simp [hv] at hd
    · exact (raiseException_mem h :)
  · exact mem_of_next_eq h rfl

theorem respondStep_mem {err : Bool} {c : Nat} {ses : Session} {s t : State}
    (h : respondStep err c ses s = .next t) : t.mem = s.mem := by
  unfold respondStep at h
  simp only [] at h
  split at h
  · simp at h
  · split at h
    · simp at h
    · split at h
      · simp at h
      · split at h
        · simp at h
        · split_ifs at h <;> exact mem_of_next_eq h rfl

/-- The step of a session changes the store only in DISPATCH on an instruction that writes cells (R11, R35). -/
theorem session_of_sessionStep_mem_ne {c : Nat} {err fail : Bool} {s t : State} (hc : s.choice = .session c err fail)
    (h : sessionStep c err s = .next t) (hm : t.mem ≠ s.mem) :
    ∃ ses i, s.session? c = some ses ∧ ses.sst = .dispatch ∧ decode (pduOf ses.rx) = .ok i ∧
      storedCells i ≠ none := by
  unfold sessionStep at h
  cases hk : s.conns[c]? with
  | none =>
    simp only [hk] at h
    exact absurd (mem_of_next_eq h rfl) hm
  | some k =>
    simp only [hk] at h
    cases hs : k.session? with
    | none =>
      simp only [hs] at h
      exact absurd (mem_of_next_eq h rfl) hm
    | some ses =>
      have hses : s.session? c = some ses := by simp [State.session?, hk, hs]
      cases hst : ses.sst <;> simp only [hs, hst] at h
      case recv => exact absurd (mem_of_next_eq h (by simp)) hm
      case validate => exact absurd (validateMessage_mem hc hses hst h) hm
      case dispatch =>
        cases hd : decode (pduOf ses.rx) with
        | error e => simp [hd] at h
        | ok i =>
          simp only [hd] at h
          obtain ⟨-, -, -, hi⟩ := active_of_exec_mem_ne h hm
          exact ⟨ses, i, hses, hst, hd, hi⟩
      case respond => exact absurd (respondStep_mem h) hm
      case closed => exact absurd (mem_of_next_eq h rfl) hm

/-! ### Clients -/

@[simp] theorem clientFails_mem (k : Nat) (w : Caller) (s : State) : (clientFails k w s).mem = s.mem := by
  simp [clientFails]

@[simp] theorem transmit_mem (k c : Nat) (w : Caller) (i : Instr) (cl : Client) (s : State) :
    (transmit k c w i cl s).mem = s.mem := rfl

@[simp] theorem report_mem (k : Nat) (cl : Client) (p : Pending) (m : Message) (s : State) :
    (report k cl p m s).mem = s.mem := by
  simp [report]

@[simp] theorem attemptSucceeds_mem (k : Nat) (w : Caller) (e : ServerEnd) (s : State) :
    (attemptSucceeds k w e s).mem = s.mem := by
  simp [attemptSucceeds]

@[simp] theorem attemptFails_mem (k : Nat) (s : State) : (attemptFails k s).mem = s.mem := rfl

@[simp] theorem attempt_mem (k : Nat) (w : Caller) (att : Attempt) (s : State) : (attempt k w att s).mem = s.mem := by
  unfold attempt
  split
  · simp
  · split <;> simp
  · simp

@[simp] theorem clientConnect_mem (k : Nat) (w : Caller) (att : Attempt) (s : State) :
    (clientConnect k w att s).mem = s.mem := by
  unfold clientConnect
  split
  · rfl
  · split <;> simp

@[simp] theorem pollStep_mem (k : Nat) (cl : Client) (att : Attempt) (s : State) :
    (pollStep k cl att s).mem = s.mem := by
  unfold pollStep
  simp only []
  split <;> simp

@[simp] theorem releaseCaller_mem (k : Nat) (cl : Client) (s : State) : (releaseCaller k cl s).mem = s.mem := by
  unfold releaseCaller
  split <;> simp

@[simp] theorem clientClose_mem (k : Nat) (s : State) : (clientClose k s).mem = s.mem := by
  unfold clientClose
  split
  · rfl
  · simp only []
    split
    · rfl
    · split <;> simp

theorem clientSend_mem {k : Nat} {w : Caller} {r : Request} {err : Bool} {s t : State}
    (h : clientSend k w r err s = .next t) : t.mem = s.mem := by
  rcases clientSend_inv h with ⟨rfl, -⟩ | rfl | ⟨_, _, _, _, _, _, _, _, _, ⟨-, rfl⟩ | ⟨-, rfl⟩⟩ <;> simp

theorem awaitStep_mem {k : Nat} {cl : Client} {err : Bool} {s t : State} (h : awaitStep k cl err s = .next t) :
    t.mem = s.mem := by
  obtain ⟨_, _, _, _, _, _, ⟨-, rfl⟩ | ⟨-, -, rfl⟩ | ⟨-, _, -, rfl⟩ | ⟨-, _, _, -, -, rfl⟩⟩ := awaitStep_inv h
  all_goals simp

theorem clientStep_mem {k : Nat} {err : Bool} {att : Attempt} {s t : State} (h : clientStep k err att s = .next t) :
    t.mem = s.mem := by
  unfold clientStep at h
  cases hk : s.clients[k]? with
  | none =>
    simp only [hk] at h
    exact mem_of_next_eq h rfl
  | some cl =>
    cases hst : cl.cst <;> simp only [hk, hst] at h
    case connecting => split_ifs at h <;> exact mem_of_next_eq h (by simp)
    case await => exact awaitStep_mem h
    all_goals exact mem_of_next_eq h rfl

/-! ### The host -/

theorem hostSend_mem {r : Request} {err : Bool} {ph : HostPhase} {s t : State} (h : hostSend r err ph s = .next t) :
    t.mem = s.mem :=
  clientSend_mem (s := s.updHost _) h

theorem whenFree_mem {cl : Client} {k : Host.Outcome State Fault Refusal} {s t : State}
    (hk : k = .next t → t.mem = s.mem) (h : whenFree cl k s = .next t) : t.mem = s.mem := by
  rcases whenFree_inv h with ⟨-, rfl⟩ | ⟨-, hs⟩
  · rfl
  · exact hk hs

theorem afterSend_mem {k : Payload → Host.Outcome State Fault Refusal} {s t : State}
    (hk : ∀ p, k p = .next t → t.mem = s.mem) (h : afterSend k s = .next t) : t.mem = s.mem := by
  rcases afterSend_inv h with ⟨-, rfl⟩ | ⟨p, -, hp⟩ | ⟨-, rfl⟩
  · rfl
  · exact hk p hp
  · rfl

theorem applyRule_mem {r : RuleOutcome} {err : Bool} {s t : State} (h : applyRule r err s = .next t) :
    t.mem = s.mem :=
  hostSend_mem (s := s.updHost _) h

theorem takeDi_mem {err : Bool} {s t : State} {p : Payload} (h : takeDi err s p = .next t) : t.mem = s.mem := by
  unfold takeDi at h
  split at h
  · exact hostSend_mem (s := s.updHost _) h
  · simp at h

theorem takeIr_mem {err : Bool} {s t : State} {p : Payload} (h : takeIr err s p = .next t) : t.mem = s.mem := by
  unfold takeIr at h
  split at h
  · exact hostSend_mem (s := s.updHost _) h
  · simp at h

theorem takeHr_mem {err : Bool} {s t : State} {p : Payload} (h : takeHr err s p = .next t) : t.mem = s.mem := by
  unfold takeHr at h
  simp only [] at h
  split at h
  · split at h
    · exact hostSend_mem (s := s.updHost _) h
    · exact applyRule_mem (s := s.updHost _) h
  · simp at h

theorem hostStep_mem {err : Bool} {att : Attempt} {s t : State} (h : hostStep err att s = .next t) :
    t.mem = s.mem := by
  unfold hostStep at h
  cases hk : s.clients[hostClient]? with
  | none =>
    simp only [hk] at h
    exact mem_of_next_eq h rfl
  | some cl =>
    cases hph : s.host.phase <;> simp only [hk, hph] at h
    case boot => split at h <;> exact mem_of_next_eq h (by simp)
    case connecting =>
      split at h
      · exact mem_of_next_eq h rfl
      · exact mem_of_next_eq h rfl
      · simp at h
    case sleep =>
      split at h
      · exact whenFree_mem hostSend_mem h
      · exact mem_of_next_eq h rfl
    case awaitDi => exact afterSend_mem (fun _ => whenFree_mem takeDi_mem) h
    case awaitIr => exact afterSend_mem (fun _ => whenFree_mem takeIr_mem) h
    case awaitHr => exact afterSend_mem (fun _ => whenFree_mem takeHr_mem) h
    case awaitRule => exact afterSend_mem (fun _ => whenFree_mem applyRule_mem) h
    case awaitBack =>
      refine afterSend_mem (fun _ hn => ?_) h
      exact mem_of_next_eq hn rfl
    case stopped => exact mem_of_next_eq h rfl

/-! ### The other moves -/

@[simp] theorem acceptStep_mem (c : Nat) (s : State) : (acceptStep c s).mem = s.mem := by
  unfold acceptStep
  split <;> rfl

@[simp] theorem extGet_eq (tab : TableKind) (a n : Nat) (fail : Bool) (s : State) : extGet tab a n fail s = s := by
  unfold extGet
  split <;> rfl

/-- A step makes the move that was drawn and draws the next one. -/
theorem step_inv {s t : State} (h : step s = .next t) : ∃ u, act s.choice s = .next u ∧ t = redraw s.draws u := by
  unfold step at h
  cases ha : act s.choice s with
  | next u => rw [ha] at h; exact ⟨u, rfl, (Host.Outcome.next.inj h).symm⟩
  | fault f => simp [ha, thenRedraw] at h
  | refused r => simp [ha, thenRedraw] at h

/-- A move that changes the store is a StoreSet of an external writer, a restart or the step of a session. -/
theorem move_of_act_mem_ne {m : Move} {s t : State} (h : act m s = .next t) (hm : t.mem ≠ s.mem) :
    (∃ tab a vals fail, m = .extSet tab a vals fail) ∨ m = .restart ∨ ∃ c err fail, m = .session c err fail := by
  cases m <;> simp only [act] at h
  case extSet => exact .inl ⟨_, _, _, _, rfl⟩
  case restart => exact .inr (.inl rfl)
  case session => exact .inr (.inr ⟨_, _, _, rfl⟩)
  case client => exact absurd (clientStep_mem h) hm
  case userSend => exact absurd (clientSend_mem h) hm
  case host => exact absurd (hostStep_mem h) hm
  case accept | userConnect | userClose | extGet => exact absurd (mem_of_next_eq h (by simp)) hm
  all_goals exact absurd (mem_of_next_eq h rfl) hm

/-- The move of a step that changes the store and, of a session, its state and instruction (R11, R35). -/
theorem choice_of_step_mem_ne {s t : State} (h : step s = .next t) (hm : t.mem ≠ s.mem) :
    (∃ tab a vals fail, s.choice = .extSet tab a vals fail) ∨ s.choice = .restart ∨
      ∃ c err fail ses i, s.choice = .session c err fail ∧ s.session? c = some ses ∧ ses.sst = .dispatch ∧
        decode (pduOf ses.rx) = .ok i ∧ storedCells i ≠ none := by
  obtain ⟨u, hu, rfl⟩ := step_inv h
  rcases move_of_act_mem_ne hu hm with he | hr | ⟨c, err, fail, hc⟩
  · exact .inl he
  · exact .inr (.inl hr)
  · rw [hc] at hu
    obtain ⟨ses, i, hs⟩ := session_of_sessionStep_mem_ne hc hu hm
    exact .inr (.inr ⟨c, err, fail, ses, i, hc, hs⟩)

/-- An external writer's StoreSet leaves the store its rule gives, or the store as it was where it fails (R32, R34). -/
theorem take_extSet (s : State) (tab : TableKind) (a : Nat) (vals : List Value) (fail : Bool) :
    s.take (.extSet tab a vals fail) =
      .next (redraw s.draws { s with mem := (storeSet s tab a vals fail).getD s.mem }) := by
  have hs : storeSet { s with choice := .extSet tab a vals fail } tab a vals fail = storeSet s tab a vals fail := rfl
  simp only [State.take, step, act, thenRedraw, extSet, hs]
  cases storeSet s tab a vals fail <;> rfl

/-- An external writer's StoreGet has no side effect (R38). -/
theorem take_extGet (s : State) (tab : TableKind) (a n : Nat) (fail : Bool) :
    s.take (.extGet tab a n fail) = .next (redraw s.draws s) := by
  simp [State.take, step, act, thenRedraw, redraw]

/-- Settles O14: every operation but a StoreSet and the restart leaves the store as it is, and of a session's steps only
the one in DISPATCH on an instruction that writes cells makes a StoreSet. -/
theorem storeChangesOnlyByStoreCalls : Obligations.StoreChangesOnlyByStoreCalls := by
  unfold Obligations.StoreChangesOnlyByStoreCalls
  refine ⟨fun _ _ => choice_of_step_mem_ne, fun s tab a n vals fail => ⟨fun m hm => ?_, fun hn => ?_, ?_⟩⟩
  · simp [take_extSet, hm]
  · simp [take_extSet, hn]
  · exact take_extGet s tab a n fail

end Sys2Proof.Machine
end

section
/-! What a step leaves of the configuration, the connections and their sessions (spec/10_state.md R16, R19, R26,
spec/60_exceptions.md R139, R142): the effect of a session's step on its own connection, what the steps of the other
agents leave of every session, and from them O13 and O15. -/

namespace Sys2Proof.Machine

/-! ### The effect of a session's step -/

/-- Nothing done to its session leaves a connection as it is. -/
@[simp] theorem Connection.mapSession_id (k : Connection) : k.mapSession id = k := by
  rcases k with ⟨o, b, e, x, y⟩
  cases e <;> rfl

/-- From `s` to `t` a session's step has changed nothing but the store, the session of connection `c` and its channels:
of the one to the server the first `taken` messages are gone, to the one to the client `sent` are added. -/
structure SessionEffect (c taken : Nat) (sent : List Message) (s t : State) : Prop where
  cfg : t.cfg = s.cfg
  listener : t.listener = s.listener
  clients : t.clients = s.clients
  host : t.host = s.host
  conns : ∃ f, t.conns = s.conns.modify c fun k =>
    { k.mapSession f with toServer := k.toServer.drop taken, toClient := k.toClient ++ sent }

namespace SessionEffect

variable {c taken taken' : Nat} {sent sent' : List Message} {s t u : State}

theorem refl (s : State) (c : Nat) : SessionEffect c 0 [] s s := by
  refine ⟨rfl, rfl, rfl, rfl, id, ?_⟩
  simp only [List.drop_zero, List.append_nil, Connection.mapSession_id]
  exact (List.modify_id _ _).symm

theorem updSession (s : State) (c : Nat) (f : Session → Session) : SessionEffect c 0 [] s (s.updSession c f) := by
  refine ⟨rfl, rfl, rfl, rfl, f, ?_⟩
  simp only [State.updSession_conns, List.drop_zero, List.append_nil]
  congr 1
  funext k
  rcases k with ⟨o, b, e, x, y⟩
  cases e <;> rfl

theorem of_next (h : Host.Outcome.next (φ := Fault) (ρ := Refusal) u = .next t)
    (hu : SessionEffect c taken sent s u) : SessionEffect c taken sent s t := by
  obtain rfl := Host.Outcome.next.inj h
  exact hu

theorem trans (h : SessionEffect c taken sent s t) (h' : SessionEffect c taken' sent' t u) :
    SessionEffect c (taken + taken') (sent ++ sent') s u := by
  obtain ⟨f, hf⟩ := h.conns
  obtain ⟨g, hg⟩ := h'.conns
  refine ⟨h'.cfg.trans h.cfg, h'.listener.trans h.listener, h'.clients.trans h.clients, h'.host.trans h.host,
    fun x => g (f x), ?_⟩
  rw [hg, hf, List.modify_modify_eq]
  congr 1
  funext k
  rcases k with ⟨o, b, e, x, y⟩
  cases e <;> simp [Connection.mapSession, Function.comp, List.drop_drop]

/-- A message put on the channel to the peer. -/
theorem pushToClient (s : State) (c : Nat) (m : Message) : SessionEffect c 0 [m] s (s.pushToClient c m) := by
  refine ⟨rfl, rfl, rfl, rfl, id, ?_⟩
  simp only [State.pushToClient_conns, List.drop_zero, Connection.mapSession_id]

/-- The oldest message of the channel to the server taken. -/
theorem popToServer (s : State) (c : Nat) : SessionEffect c 1 [] s (s.popToServer c) := by
  refine ⟨rfl, rfl, rfl, rfl, id, ?_⟩
  simp only [State.popToServer_conns, List.drop_one, List.append_nil, Connection.mapSession_id]

/-- The store does not show in the effect. -/
theorem setMem (h : SessionEffect c taken sent s t) (m : Memory) : SessionEffect c taken sent s { t with mem := m } :=
  ⟨h.cfg, h.listener, h.clients, h.host, h.conns⟩

theorem conns_length (h : SessionEffect c taken sent s t) : t.conns.length = s.conns.length := by
  obtain ⟨f, hf⟩ := h.conns
  simp [hf]

/-- Another connection is as it was (R142). -/
theorem conns_ne (h : SessionEffect c taken sent s t) {d : Nat} (hd : d ≠ c) : t.conns[d]? = s.conns[d]? := by
  obtain ⟨f, hf⟩ := h.conns
  simp [hf, Ne.symm hd]

/-- The session's own connection: its owner and its channels. -/
theorem conns_self (h : SessionEffect c taken sent s t) {k : Connection} (hk : s.conns[c]? = some k) :
    ∃ k', t.conns[c]? = some k' ∧ k'.owner = k.owner ∧ k'.toServer = k.toServer.drop taken ∧
      k'.toClient = k.toClient ++ sent := by
  obtain ⟨f, hf⟩ := h.conns
  exact ⟨_, by rw [hf, List.getElem?_modify_eq, hk]; rfl, by simp, rfl, rfl⟩

/-- Every connection keeps its owner. -/
theorem owner (h : SessionEffect c taken sent s t) {d : Nat} {k : Connection} (hk : s.conns[d]? = some k) :
    ∃ k', t.conns[d]? = some k' ∧ k'.owner = k.owner := by
  by_cases hd : d = c
  · subst hd
    obtain ⟨k', hk', ho, -⟩ := h.conns_self hk
    exact ⟨k', hk', ho⟩
  · exact ⟨k, (h.conns_ne hd).trans hk, rfl⟩

/-- The session of another connection is as it was (R142). -/
theorem session?_ne (h : SessionEffect c taken sent s t) {d : Nat} (hd : d ≠ c) : t.session? d = s.session? d := by
  simp only [State.session?, h.conns_ne hd]

/-- The session of the own connection is there if it was. -/
theorem session?_self (h : SessionEffect c taken sent s t) : ∃ f, t.session? c = (s.session? c).map f := by
  obtain ⟨f, hf⟩ := h.conns
  refine ⟨f, ?_⟩
  unfold State.session?
  rw [hf, List.getElem?_modify_eq]
  cases s.conns[c]? with
  | none => rfl
  | some k => exact Connection.session?_mapSession f k

end SessionEffect


/-! ### The steps of a session -/

theorem respond_effect {pdu : Message} {c : Nat} {s t : State} (h : respond pdu c s = .next t) :
    SessionEffect c 0 [] s t := by
  obtain ⟨_, _, _, _, _, _, rfl⟩ := respond_inv h
  exact .updSession ..

theorem raiseException_effect {code : Byte} {c : Nat} {s t : State} (h : raiseException code c s = .next t) :
    SessionEffect c 0 [] s t := by
  obtain ⟨_, _, _, _, _, _, _, _, rfl⟩ := raiseException_inv h
  exact .updSession ..

theorem validateStep_effect {i : Instr} {c : Nat} {s t : State} (h : validateStep i c s = .next t) :
    SessionEffect c 0 [] s t := by
  unfold validateStep at h
  simp only [] at h
  have judged := SessionEffect.updSession s c fun x => { x with verdict := some (verdictOf s.cfg i) }
  split_ifs at h
  · exact judged.trans (SessionEffect.of_next h (.updSession ..))
  · exact judged.trans (SessionEffect.of_next h (.updSession ..))
  · exact (judged.trans (.updSession ..)).trans (raiseException_effect h)
  · exact judged.trans (raiseException_effect h)

/-- A StoreGet and what follows it. -/
theorem readThen_effect {t : TableKind} {addr cnt : Nat} {k : List Value → State → Host.Outcome State Fault Refusal}
    {a : Active} {s u : State} (h : readThen t addr cnt k a s = .next u)
    (hk : ∀ {vs v w}, k vs v = .next w → SessionEffect a.conn 0 [] v w) : SessionEffect a.conn 0 [] s u := by
  rcases readThen_inv h with hr | ⟨vs, -, hn⟩
  · exact raiseException_effect hr
  · exact (SessionEffect.updSession ..).trans (hk hn)

/-- A StoreSet and what follows it. -/
theorem writeThen_effect {t : TableKind} {addr : Nat} {vals : List Value}
    {k : State → Host.Outcome State Fault Refusal} {a : Active} {s u : State}
    (h : writeThen t addr vals k a s = .next u)
    (hk : ∀ {v w}, k v = .next w → SessionEffect a.conn 0 [] v w) : SessionEffect a.conn 0 [] s u := by
  rcases writeThen_inv h with hr | ⟨m, -, hn⟩
  · exact raiseException_effect hr
  · exact (((SessionEffect.refl s a.conn).setMem m).trans (.updSession ..)).trans (hk hn)

/-- The store calls of any instruction. -/
theorem bodyOf_effect {i : Instr} {a : Active} {s t : State} (h : bodyOf i a s = .next t) :
    SessionEffect a.conn 0 [] s t := by
  cases i <;> simp only [bodyOf] at h
  case rdco | rddi | rdhr | rdir => exact readThen_effect h respond_effect
  case wsco | wsdi | wshr | wsir | wmco | wmdi | wmhr | wmir => exact writeThen_effect h respond_effect
  case mwhr =>
    split_ifs at h
    · exact readThen_effect h fun hn => SessionEffect.of_next hn (.refl ..)
    · unfold maskWrite at h
      split at h
      · exact writeThen_effect h respond_effect
      · simp at h
  case rwhr =>
    split_ifs at h
    · exact writeThen_effect h fun hn => SessionEffect.of_next hn (.refl ..)
    · exact readThen_effect h respond_effect
  case illfc => exact raiseException_effect h
  all_goals exact SessionEffect.of_next h (.updSession ..)

/-- Any instruction, in VALIDATE and in DISPATCH. -/
theorem exec_effect {i : Instr} {c : Nat} {err fail : Bool} {s t : State} (hc : s.choice = .session c err fail)
    (h : exec i s = .next t) : SessionEffect c 0 [] s t := by
  rw [exec_eq_serve] at h
  obtain ⟨a, ha, hserve⟩ := serve_inv h
  obtain ⟨⟨err', hc'⟩, -⟩ := State.active_inv ha
  obtain ⟨rfl, -, -⟩ := Move.session.inj (hc.symm.trans hc')
  rcases hserve with ⟨-, hv⟩ | ⟨-, -, hb⟩ | ⟨-, -, hr⟩
  · exact validateStep_effect hv
  · exact bodyOf_effect hb
  · exact raiseException_effect hr

theorem closeSession_effect (c : Nat) (s : State) : SessionEffect c 0 [[]] s (closeSession c s) :=
  (SessionEffect.updSession ..).trans (.pushToClient ..)

/-- Receiving takes at most the oldest message, and sends at most the end of the connection (R65). -/
theorem receiveStep_effect (err : Bool) (c : Nat) (k : Connection) (s : State) :
    ∃ taken sent, SessionEffect c taken sent s (receiveStep err c k s) ∧ (taken = 0 ∨ taken = 1) ∧
      (sent = [] ∨ sent = [[]]) := by
  unfold receiveStep
  split
  · exact ⟨0, _, closeSession_effect c s, by simp, by simp⟩
  · split
    · exact ⟨0, _, .refl s c, by simp, by simp⟩
    · split
      · exact ⟨1, _, (SessionEffect.popToServer ..).trans (closeSession_effect ..), by simp, by simp⟩
      · exact ⟨1, _, (SessionEffect.popToServer ..).trans (.updSession ..), by simp, by simp⟩

theorem validateMessage_effect {c : Nat} {err fail : Bool} {ses : Session} {s t : State}
    (hc : s.choice = .session c err fail) (h : validateMessage c ses s = .next t) : SessionEffect c 0 [] s t := by
  unfold validateMessage at h
  split at h
  · simp only [] at h
    split at h
    · exact (SessionEffect.updSession ..).trans (exec_effect (s := s.updSession c _) hc h)
    · exact ((SessionEffect.updSession ..).trans (.updSession ..)).trans (raiseException_effect h)
  · exact SessionEffect.of_next h ((SessionEffect.updSession ..).trans (.updSession ..))

/-- Responding sends one message: the response, or the end of the connection (R74). -/
theorem respondStep_effect {err : Bool} {c : Nat} {ses : Session} {s t : State}
    (h : respondStep err c ses s = .next t) : ∃ m, SessionEffect c 0 [m] s t := by
  unfold respondStep at h
  simp only [] at h
  split at h
  · simp at h
  · split at h
    · simp at h
    · split at h
      · simp at h
      · split at h
        · simp at h
        · split_ifs at h
          · exact ⟨_, (SessionEffect.updSession ..).trans (SessionEffect.of_next h (closeSession_effect ..))⟩
          · exact ⟨_, (SessionEffect.updSession ..).trans
              (SessionEffect.of_next h ((SessionEffect.pushToClient ..).trans (.updSession ..)))⟩

/-- The session of a connection that has one. -/
theorem State.session?_eq_some {s : State} {c : Nat} {k : Connection} {ses : Session} (hk : s.conns[c]? = some k)
    (hs : k.session? = some ses) : s.session? c = some ses := by
  simp [State.session?, hk, hs]

/-- The connection that a session serves. -/
theorem State.conn_of_session? {s : State} {c : Nat} {ses : Session} (h : s.session? c = some ses) :
    ∃ k, s.conns[c]? = some k ∧ k.session? = some ses :=
  Option.bind_eq_some_iff.1 h

section SessionStep

variable {c : Nat} {err : Bool} {s : State} {ses : Session}

theorem sessionStep_recv {k : Connection} (hk : s.conns[c]? = some k) (hs : k.session? = some ses)
    (h : ses.sst = .recv) : sessionStep c err s = .next (receiveStep err c k s) := by
  simp [sessionStep, hk, hs, h]

theorem sessionStep_validate (hs : s.session? c = some ses) (h : ses.sst = .validate) :
    sessionStep c err s = validateMessage c ses s := by
  obtain ⟨k, hk, hks⟩ := State.conn_of_session? hs
  simp [sessionStep, hk, hks, h]

theorem sessionStep_dispatch (hs : s.session? c = some ses) (h : ses.sst = .dispatch) {i : Instr}
    (hd : decode (pduOf ses.rx) = .ok i) : sessionStep c err s = exec i s := by
  obtain ⟨k, hk, hks⟩ := State.conn_of_session? hs
  simp [sessionStep, hk, hks, h, hd]

theorem sessionStep_undecodable (hs : s.session? c = some ses) (h : ses.sst = .dispatch) {e : DecodeError}
    (hd : decode (pduOf ses.rx) = .error e) : sessionStep c err s = .fault .undecodableDispatch := by
  obtain ⟨k, hk, hks⟩ := State.conn_of_session? hs
  simp [sessionStep, hk, hks, h, hd]

theorem sessionStep_respond (hs : s.session? c = some ses) (h : ses.sst = .respond) :
    sessionStep c err s = respondStep err c ses s := by
  obtain ⟨k, hk, hks⟩ := State.conn_of_session? hs
  simp [sessionStep, hk, hks, h]

theorem sessionStep_closed (hs : s.session? c = some ses) (h : ses.sst = .closed) :
    sessionStep c err s = .next s := by
  obtain ⟨k, hk, hks⟩ := State.conn_of_session? hs
  simp [sessionStep, hk, hks, h]

/-- Where no session serves the connection, a step of its session changes nothing (log 4). -/
theorem sessionStep_of_none (h : s.session? c = none) : sessionStep c err s = .next s := by
  unfold sessionStep
  cases hk : s.conns[c]? with
  | none => rfl
  | some k =>
    have hs : k.session? = none := by simpa [State.session?, hk] using h
    simp only [hs]

end SessionStep

/-- All that the step of a session can do to the channels of its connection (R65, R74, R75). -/
theorem sessionStep_effect {c : Nat} {err fail : Bool} {s t : State} (hc : s.choice = .session c err fail)
    (h : sessionStep c err s = .next t) :
    ∃ taken sent, SessionEffect c taken sent s t ∧ ∀ ses, s.session? c = some ses →
      (taken = 0 ∨ (ses.sst = .recv ∧ taken = 1)) ∧
      (sent = [] ∨ (ses.sst = .respond ∧ ∃ m, sent = [m]) ∨ (ses.sst = .recv ∧ sent = [[]])) ∧
      (ses.sst = .closed → t = s) := by
  cases hs : s.session? c with
  | none =>
    rw [sessionStep_of_none hs] at h
    exact ⟨0, [], SessionEffect.of_next h (.refl s c), by simp⟩
  | some ses =>
    suffices hgoal : ∃ taken sent, SessionEffect c taken sent s t ∧
        (taken = 0 ∨ (ses.sst = .recv ∧ taken = 1)) ∧
        (sent = [] ∨ (ses.sst = .respond ∧ ∃ m, sent = [m]) ∨ (ses.sst = .recv ∧ sent = [[]])) ∧
        (ses.sst = .closed → t = s) by
      simpa only [Option.some.injEq, forall_eq'] using hgoal
    cases hst : ses.sst
    case recv =>
      obtain ⟨k, hk, hks⟩ := State.conn_of_session? hs
      obtain rfl := Host.Outcome.next.inj ((sessionStep_recv hk hks hst).symm.trans h)
      simpa using receiveStep_effect err c k s
    case validate =>
      rw [sessionStep_validate hs hst] at h
      exact ⟨0, [], validateMessage_effect hc h, by simp⟩
    case dispatch =>
      cases hd : decode (pduOf ses.rx) with
      | ok i =>
        rw [sessionStep_dispatch hs hst hd] at h
        exact ⟨0, [], exec_effect hc h, by simp⟩
      | error e => simp [sessionStep_undecodable hs hst hd] at h
    case respond =>
      rw [sessionStep_respond hs hst] at h
      obtain ⟨m, hm⟩ := respondStep_effect h
      exact ⟨0, [m], hm, by simp⟩
    case closed =>
      obtain rfl := Host.Outcome.next.inj ((sessionStep_closed hs hst).symm.trans h)
      exact ⟨0, [], .refl s c, by simp⟩

/-! ### What every other agent leaves of the sessions -/

/-- From `s` to `t` the configuration, the owner of every connection and every session are as they were; a session that
is new is a fresh one, of a connection that `made` names. -/
structure KeepsSessions (made : Nat → Prop) (s t : State) : Prop where
  cfg : t.cfg = s.cfg
  owner : ∀ {c : Nat} {k : Connection}, s.conns[c]? = some k → ∃ k', t.conns[c]? = some k' ∧ k'.owner = k.owner
  session : ∀ c : Nat, t.session? c = s.session? c ∨
    (made c ∧ s.session? c = none ∧ t.session? c = some Session.fresh)

namespace KeepsSessions

variable {made : Nat → Prop} {s t u : State}

theorem of_conns (hcfg : t.cfg = s.cfg) (hconns : t.conns = s.conns) : KeepsSessions made s t :=
  ⟨hcfg, fun hk => ⟨_, hconns ▸ hk, rfl⟩, fun c => .inl (by simp only [State.session?, hconns])⟩

theorem of_next (h : Host.Outcome.next (φ := Fault) (ρ := Refusal) u = .next t) (hu : KeepsSessions made s u) :
    KeepsSessions made s t := by
  obtain rfl := Host.Outcome.next.inj h
  exact hu

theorem trans (h : KeepsSessions made s t) (h' : KeepsSessions made t u) : KeepsSessions made s u := by
  refine ⟨h'.cfg.trans h.cfg, fun hk => ?_, fun c => ?_⟩
  · obtain ⟨k₁, hk₁, ho₁⟩ := h.owner hk
    obtain ⟨k₂, hk₂, ho₂⟩ := h'.owner hk₁
    exact ⟨k₂, hk₂, ho₂.trans ho₁⟩
  · rcases h'.session c with hu | ⟨hm, hn, hf⟩
    · rw [hu]
      exact h.session c
    · rcases h.session c with ht | ⟨-, -, ht⟩
      · exact .inr ⟨hm, ht ▸ hn, hf⟩
      · simp [ht] at hn

/-- A change of one connection that keeps its owner and its session, or gives it a fresh one. -/
theorem updConn {c : Nat} {f : Connection → Connection} (ho : ∀ k, (f k).owner = k.owner)
    (hf : ∀ k, (f k).session? = k.session? ∨
      (made c ∧ k.session? = none ∧ (f k).session? = some Session.fresh)) :
    KeepsSessions made s (s.updConn c f) := by
  refine ⟨rfl, fun {d k} hk => ?_, fun d => ?_⟩
  · rw [State.updConn_get, hk]
    split
    · exact ⟨f k, rfl, ho k⟩
    · exact ⟨k, rfl, rfl⟩
  · unfold State.session?
    rw [State.updConn_get]
    split
    · next hcd =>
      subst hcd
      cases s.conns[c]? with
      | none => exact .inl rfl
      | some k => exact hf k
    · exact .inl rfl

/-- A change of one connection's channels and ends. -/
theorem updConn_same {c : Nat} {f : Connection → Connection} (ho : ∀ k, (f k).owner = k.owner)
    (hf : ∀ k, (f k).session? = k.session?) : KeepsSessions made s (s.updConn c f) :=
  updConn ho fun k => .inl (hf k)

/-- A connection more at the end, with a fresh session or none. -/
theorem addConn {k : Connection} (hk : k.session? = none ∨ (made s.conns.length ∧ k.session? = some Session.fresh)) :
    KeepsSessions made s (s.addConn k) := by
  refine ⟨rfl, fun {c k'} h => ⟨k', ?_, rfl⟩, fun c => ?_⟩
  · rw [State.addConn_conns, List.getElem?_append_left (List.getElem?_eq_some_iff.1 h).1, h]
  · unfold State.session?
    rw [State.addConn_conns]
    rcases Nat.lt_trichotomy c s.conns.length with h | rfl | h
    · exact .inl (by rw [List.getElem?_append_left h])
    · have hn : s.conns[s.conns.length]? = none := List.getElem?_eq_none (Nat.le_refl _)
      rw [List.getElem?_concat_length, hn]
      exact hk.imp (fun hk => hk) fun hk => ⟨hk.1, rfl, hk.2⟩
    · rw [List.getElem?_eq_none (by simp; omega), List.getElem?_eq_none (by omega)]
      exact .inl rfl

end KeepsSessions

section OtherAgents

variable {made : Nat → Prop} {s t : State}

/-! #### The Listener and the ends of connections -/

theorem acceptStep_keepsSessions {c : Nat} (hm : made c) (s : State) : KeepsSessions made s (acceptStep c s) := by
  unfold acceptStep
  split
  · refine .updConn (fun k => ?_) fun k => ?_
    · split <;> rfl
    · rcases k with ⟨o, b, e, x, y⟩
      cases e
      case waiting => exact .inr ⟨hm, rfl, rfl⟩
      all_goals exact .inl rfl
  · exact .of_conns rfl rfl

theorem pushToServer_keepsSessions (c : Nat) (m : Message) : KeepsSessions made s (s.pushToServer c m) :=
  .updConn_same (fun _ => rfl) fun _ => rfl

theorem popToClient_keepsSessions (c : Nat) : KeepsSessions made s (s.popToClient c) :=
  .updConn_same (fun _ => rfl) fun _ => rfl

theorem closeClientEnd_keepsSessions (c : Nat) : KeepsSessions made s (closeClientEnd c s) :=
  .updConn_same (fun _ => rfl) fun _ => rfl

theorem peerSend_keepsSessions (c : Nat) (m : Message) : KeepsSessions made s (peerSend c m s) :=
  .updConn_same (fun _ => by split <;> rfl) fun _ => by split <;> rfl

theorem peerRecv_keepsSessions (c : Nat) : KeepsSessions made s (peerRecv c s) :=
  .updConn_same (fun _ => by split <;> rfl) fun _ => by split <;> rfl

theorem peerClose_keepsSessions (c : Nat) : KeepsSessions made s (peerClose c s) :=
  .updConn_same (fun _ => by split <;> rfl) fun _ => by split <;> rfl

theorem foreignSend_keepsSessions (c : Nat) (m : Message) : KeepsSessions made s (foreignSend c m s) :=
  .updConn_same (fun _ => by split <;> rfl) fun _ => by split <;> rfl

theorem foreignRecv_keepsSessions (c : Nat) : KeepsSessions made s (foreignRecv c s) :=
  .updConn_same (fun _ => by split <;> rfl) fun k => by
    rcases k with ⟨o, b, e, x, y⟩
    cases e <;> rfl

theorem foreignClose_keepsSessions (c : Nat) : KeepsSessions made s (foreignClose c s) :=
  .updConn_same (fun _ => by split <;> rfl) fun k => by
    split
    · next h => simp [Connection.session?, h]
    · rfl

/-! #### Clients -/

theorem deliver_keepsSessions (w : Caller) (k : Nat) (r : Return) (s : State) :
    KeepsSessions made s (deliver w k r s) :=
  .of_conns (by simp) (by simp)

theorem attemptSucceeds_keepsSessions {k : Nat} {w : Caller} {e : ServerEnd}
    (he : e = .foreign true ∨ e = .session Session.fresh) (hm : made s.conns.length) :
    KeepsSessions made s (attemptSucceeds k w e s) := by
  refine .trans (.addConn (k := newConnection (.client k) e) ?_)
    (.of_conns (by simp [attemptSucceeds]) (by simp [attemptSucceeds]))
  rcases he with rfl | rfl
  · exact .inl rfl
  · exact .inr ⟨hm, rfl⟩

theorem attempt_keepsSessions (hm : made s.conns.length) (k : Nat) (w : Caller) (att : Attempt) :
    KeepsSessions made s (attempt k w att s) := by
  unfold attempt
  split
  · exact .of_conns rfl rfl
  · split
    · exact attemptSucceeds_keepsSessions (.inr rfl) hm
    · exact .of_conns rfl rfl
  · exact attemptSucceeds_keepsSessions (.inl rfl) hm

theorem clientConnect_keepsSessions (hm : made s.conns.length) (k : Nat) (w : Caller) (att : Attempt) :
    KeepsSessions made s (clientConnect k w att s) := by
  unfold clientConnect
  split
  · exact .of_conns rfl rfl
  · split
    · exact .trans (t := s.updClient k _) (.of_conns rfl rfl) (attempt_keepsSessions (by exact hm) ..)
    all_goals exact deliver_keepsSessions ..

theorem pollStep_keepsSessions (hm : made s.conns.length) (k : Nat) (cl : Client) (att : Attempt) :
    KeepsSessions made s (pollStep k cl att s) := by
  unfold pollStep
  simp only []
  split
  · exact .trans (t := s.updClient k _) (.of_conns rfl rfl) (attempt_keepsSessions (by exact hm) ..)
  · exact .of_conns (by simp) (by simp)

theorem clientFails_keepsSessions (k : Nat) (w : Caller) (s : State) : KeepsSessions made s (clientFails k w s) :=
  .of_conns (by simp [clientFails]) (by simp [clientFails])

theorem clientSend_keepsSessions {k : Nat} {w : Caller} {r : Request} {err : Bool}
    (h : clientSend k w r err s = .next t) : KeepsSessions made s t := by
  rcases clientSend_inv h with ⟨rfl, -⟩ | rfl | ⟨_, c, _, _, _, _, _, _, _, ⟨-, rfl⟩ | ⟨-, rfl⟩⟩
  · exact .of_conns rfl rfl
  · exact deliver_keepsSessions ..
  · exact clientFails_keepsSessions ..
  · exact (pushToServer_keepsSessions ..).trans (.of_conns rfl rfl)

theorem awaitStep_keepsSessions {k : Nat} {cl : Client} {err : Bool} (h : awaitStep k cl err s = .next t) :
    KeepsSessions made s t := by
  obtain ⟨_, c, _, _, _, _, ⟨-, rfl⟩ | ⟨-, -, rfl⟩ | ⟨-, _, -, rfl⟩ | ⟨-, _, _, -, -, rfl⟩⟩ := awaitStep_inv h
  · exact clientFails_keepsSessions ..
  · exact .of_conns rfl rfl
  · exact (popToClient_keepsSessions c).trans (clientFails_keepsSessions ..)
  · exact (popToClient_keepsSessions c).trans (.of_conns (by simp [report]) (by simp [report]))

theorem clientStep_keepsSessions (hm : made s.conns.length) {k : Nat} {err : Bool} {att : Attempt}
    (h : clientStep k err att s = .next t) : KeepsSessions made s t := by
  unfold clientStep at h
  cases hk : s.clients[k]? with
  | none =>
    simp only [hk] at h
    exact .of_next h (.of_conns rfl rfl)
  | some cl =>
    cases hst : cl.cst <;> simp only [hk, hst] at h
    case connecting =>
      split_ifs at h
      · exact .of_next h (pollStep_keepsSessions hm ..)
      · exact .of_next h (.of_conns rfl rfl)
    case await => exact awaitStep_keepsSessions h
    all_goals exact .of_next h (.of_conns rfl rfl)

theorem releaseCaller_keepsSessions (k : Nat) (cl : Client) (s : State) :
    KeepsSessions made s (releaseCaller k cl s) := by
  unfold releaseCaller
  split
  · exact deliver_keepsSessions ..
  · exact deliver_keepsSessions ..
  all_goals exact .of_conns rfl rfl

theorem clientClose_keepsSessions (k : Nat) (s : State) : KeepsSessions made s (clientClose k s) := by
  unfold clientClose
  split
  · exact .of_conns rfl rfl
  · next cl _ =>
    simp only []
    split
    · exact .of_conns rfl rfl
    · refine .trans ?_ (releaseCaller_keepsSessions k cl _)
      split
      · exact (closeClientEnd_keepsSessions _).trans (.of_conns rfl rfl)
      · exact .of_conns rfl rfl

/-! #### The host -/

/-- All that the host can do in one step: change itself, or change itself and call `connect` or `send` on its client. -/
def HostActs (err : Bool) (att : Attempt) (s t : State) : Prop :=
  ∃ f, t = s.updHost f ∨ t = clientConnect hostClient .host att (s.updHost f) ∨
    ∃ r, clientSend hostClient .host r err (s.updHost f) = .next t

section HostActs

variable {err : Bool} {att : Attempt}

theorem hostActs_refl (s : State) : HostActs err att s s := ⟨id, .inl rfl⟩

theorem hostActs_of_next_updHost {f : HostLoop → HostLoop}
    (h : Host.Outcome.next (φ := Fault) (ρ := Refusal) (s.updHost f) = .next t) : HostActs err att s t :=
  ⟨f, .inl (Host.Outcome.next.inj h).symm⟩

theorem hostActs_of_hostSend {f : HostLoop → HostLoop} {r : Request} {ph : HostPhase}
    (h : hostSend r err ph (s.updHost f) = .next t) : HostActs err att s t :=
  ⟨fun x => { f x with phase := ph, inbox := none }, .inr (.inr ⟨r, h⟩)⟩

theorem hostActs_of_whenFree {cl : Client} {k : Host.Outcome State Fault Refusal}
    (hk : k = .next t → HostActs err att s t) (h : whenFree cl k s = .next t) : HostActs err att s t := by
  rcases whenFree_inv h with ⟨-, rfl⟩ | ⟨-, hs⟩
  · exact hostActs_refl _
  · exact hk hs

theorem hostActs_of_afterSend {k : Payload → Host.Outcome State Fault Refusal}
    (hk : ∀ p, k p = .next t → HostActs err att s t) (h : afterSend k s = .next t) : HostActs err att s t := by
  rcases afterSend_inv h with ⟨-, rfl⟩ | ⟨p, -, hp⟩ | ⟨-, rfl⟩
  · exact hostActs_refl _
  · exact hk p hp
  · exact ⟨_, .inl rfl⟩

theorem hostActs_of_takeDi {p : Payload} (h : takeDi err s p = .next t) : HostActs err att s t := by
  unfold takeDi at h
  split at h
  · exact hostActs_of_hostSend h
  · simp at h

theorem hostActs_of_takeIr {p : Payload} (h : takeIr err s p = .next t) : HostActs err att s t := by
  unfold takeIr at h
  split at h
  · exact hostActs_of_hostSend h
  · simp at h

theorem hostActs_of_applyRule {r : RuleOutcome} {f : HostLoop → HostLoop}
    (h : applyRule r err (s.updHost f) = .next t) : HostActs err att s t :=
  hostActs_of_hostSend (f := fun x => { f x with hst := r.hst, localTarget := r.target }) h

theorem hostActs_of_takeHr {p : Payload} (h : takeHr err s p = .next t) : HostActs err att s t := by
  unfold takeHr at h
  simp only [] at h
  split at h
  · split at h
    · exact hostActs_of_hostSend h
    · exact hostActs_of_applyRule h
  · simp at h

theorem hostStep_inv (h : hostStep err att s = .next t) : HostActs err att s t := by
  unfold hostStep at h
  cases hk : s.clients[hostClient]? with
  | none =>
    simp only [hk] at h
    exact hostActs_of_next_updHost (f := id) h
  | some cl =>
    cases hph : s.host.phase <;> simp only [hk, hph] at h
    case boot =>
      split at h
      · exact ⟨_, .inr (.inl (Host.Outcome.next.inj h).symm)⟩
      · exact hostActs_of_next_updHost (f := id) h
    case connecting =>
      split at h
      · exact hostActs_of_next_updHost (f := id) h
      · exact hostActs_of_next_updHost h
      · simp at h
    case sleep =>
      split at h
      · exact hostActs_of_whenFree (fun hn => hostActs_of_hostSend (f := id) hn) h
      · exact hostActs_of_next_updHost (f := id) h
    case awaitDi => exact hostActs_of_afterSend (fun _ => hostActs_of_whenFree hostActs_of_takeDi) h
    case awaitIr => exact hostActs_of_afterSend (fun _ => hostActs_of_whenFree hostActs_of_takeIr) h
    case awaitHr => exact hostActs_of_afterSend (fun _ => hostActs_of_whenFree hostActs_of_takeHr) h
    case awaitRule =>
      exact hostActs_of_afterSend (fun _ => hostActs_of_whenFree (hostActs_of_applyRule (f := id))) h
    case awaitBack => exact hostActs_of_afterSend (fun _ => hostActs_of_next_updHost) h
    case stopped => exact hostActs_of_next_updHost (f := id) h

end HostActs

theorem hostStep_keepsSessions (hm : made s.conns.length) {err : Bool} {att : Attempt}
    (h : hostStep err att s = .next t) : KeepsSessions made s t := by
  obtain ⟨f, rfl | rfl | ⟨r, hr⟩⟩ := hostStep_inv h
  · exact .of_conns rfl rfl
  · exact .trans (t := s.updHost f) (.of_conns rfl rfl) (clientConnect_keepsSessions (by exact hm) ..)
  · exact .trans (t := s.updHost f) (.of_conns rfl rfl) (clientSend_keepsSessions hr)

/-! #### Any move but a session's and the restart -/

/-- The moves that make a session, and the connection that gets it: the Listener's accept, and the attempts, whose
connection is the next one made (R63, R108). -/
def Move.makes (m : Move) (s : State) (c : Nat) : Prop :=
  m = .accept c ∨ (c = s.conns.length ∧
    ((∃ k att, m = .userConnect k att) ∨ (∃ k err att, m = .client k err att) ∨ ∃ err att, m = .host err att))

theorem extSet_conns (tab : TableKind) (a : Nat) (vals : List Value) (fail : Bool) (s : State) :
    (extSet tab a vals fail s).conns = s.conns := by
  unfold extSet
  split <;> rfl

theorem extSet_cfg (tab : TableKind) (a : Nat) (vals : List Value) (fail : Bool) (s : State) :
    (extSet tab a vals fail s).cfg = s.cfg := by
  unfold extSet
  split <;> rfl

/-- No move but a session's own step and the restart changes a session (R142). -/
theorem act_keepsSessions {m : Move} (h : act m s = .next t) (hs : ∀ c err fail, m ≠ .session c err fail)
    (hr : m ≠ .restart) : KeepsSessions (Move.makes m s) s t := by
  cases m <;> simp only [act] at h
  case session c err fail => exact absurd rfl (hs c err fail)
  case restart => exact absurd rfl hr
  case accept c => exact .of_next h (acceptStep_keepsSessions (.inl rfl) s)
  case peerOpen => exact .of_next h (.addConn (.inl rfl))
  case peerSend => exact .of_next h (peerSend_keepsSessions ..)
  case peerRecv => exact .of_next h (peerRecv_keepsSessions ..)
  case peerClose => exact .of_next h (peerClose_keepsSessions ..)
  case foreignSend => exact .of_next h (foreignSend_keepsSessions ..)
  case foreignRecv => exact .of_next h (foreignRecv_keepsSessions ..)
  case foreignClose => exact .of_next h (foreignClose_keepsSessions ..)
  case client => exact clientStep_keepsSessions (.inr ⟨rfl, .inr (.inl ⟨_, _, _, rfl⟩)⟩) h
  case userConnect => exact .of_next h (clientConnect_keepsSessions (.inr ⟨rfl, .inl ⟨_, _, rfl⟩⟩) ..)
  case userSend => exact clientSend_keepsSessions h
  case userClose => exact .of_next h (clientClose_keepsSessions ..)
  case host => exact hostStep_keepsSessions (.inr ⟨rfl, .inr (.inr ⟨_, _, rfl⟩)⟩) h
  case newClient | stopTicks | time => exact .of_next h (.of_conns rfl rfl)
  case extGet => exact .of_next h (.of_conns (by simp) (by simp))
  case extSet => exact .of_next h (.of_conns (extSet_cfg ..) (extSet_conns ..))

end OtherAgents

/-- Settles O13: a session's step and the steps of the other agents leave the configuration, and a restart keeps it. -/
theorem configurationIsFixed : Obligations.ConfigurationIsFixed := by
  unfold Obligations.ConfigurationIsFixed
  intro s t h
  obtain ⟨u, hu, rfl⟩ := step_inv h
  rw [redraw_cfg]
  by_cases hr : s.choice = .restart
  · rw [hr] at hu
    obtain rfl := Host.Outcome.next.inj hu
    rfl
  · by_cases hs : ∃ c err fail, s.choice = .session c err fail
    · obtain ⟨c, err, fail, hc⟩ := hs
      rw [hc] at hu
      obtain ⟨_, _, he, -⟩ := sessionStep_effect hc hu
      exact he.cfg
    · exact (act_keepsSessions hu (fun c err fail hc => hs ⟨c, err, fail, hc⟩) hr).cfg

/-! ### Sessions over a step -/

/-- The session of a connection after a step but the restart: it has changed only by its own step, which leaves it in
CLOSED, or it is new (R63, R108, R139, R142). -/
theorem session?_of_step {s t : State} (h : step s = .next t) (hr : s.choice ≠ .restart) (c : Nat) :
    t.session? c = s.session? c ∨
      (Move.makes s.choice s c ∧ s.session? c = none ∧ t.session? c = some Session.fresh) ∨
      ((∃ err fail, s.choice = .session c err fail) ∧ (∃ f, t.session? c = (s.session? c).map f) ∧
        ∀ ses, s.session? c = some ses → ses.sst ≠ .closed) := by
  obtain ⟨u, hu, rfl⟩ := step_inv h
  show u.session? c = s.session? c ∨ (_ ∧ _ ∧ u.session? c = _) ∨ (_ ∧ (∃ f, u.session? c = _) ∧ _)
  by_cases hs : ∃ d err fail, s.choice = .session d err fail
  · obtain ⟨d, err, fail, hd⟩ := hs
    rw [hd] at hu
    obtain ⟨taken, sent, he, hses⟩ := sessionStep_effect hd hu
    by_cases hdc : c = d
    · subst hdc
      by_cases hcl : ∃ ses, s.session? c = some ses ∧ ses.sst = .closed
      · obtain ⟨ses, hs, hst⟩ := hcl
        rw [(hses ses hs).2.2 hst]
        exact .inl rfl
      · exact .inr (.inr ⟨⟨err, fail, hd⟩, he.session?_self, fun ses hs hst => hcl ⟨ses, hs, hst⟩⟩)
    · exact .inl (he.session?_ne hdc)
  · rcases (act_keepsSessions hu (fun d err fail hd => hs ⟨d, err, fail, hd⟩) hr).session c with hk | hk
    · exact .inl hk
    · exact .inr (.inl hk)

/-! ### The moves of peers and servers outside the block -/

theorem State.updConn_congr {s : State} {c : Nat} {k : Connection} {f g : Connection → Connection}
    (h : s.conns[c]? = some k) (hfg : f k = g k) : s.updConn c f = s.updConn c g := by
  unfold State.updConn
  congr 1
  apply List.ext_getElem?
  intro d
  simp only [List.getElem?_modify]
  split
  · next hd =>
    subst hd
    simp [h, hfg]
  · rfl

theorem State.updConn_of_none {s : State} {c : Nat} (h : s.conns[c]? = none) (f : Connection → Connection) :
    s.updConn c f = s := by
  unfold State.updConn
  rw [List.modify_eq_self (by simpa using h)]

/-- A move that is a change of one connection. -/
theorem take_updConn {m : Move} {c : Nat} {f : Connection → Connection}
    (hm : ∀ s, act m s = .next (s.updConn c f)) (s : State) : s.take m = .next (redraw s.draws (s.updConn c f)) := by
  simp only [State.take, step, hm, thenRedraw]
  rfl

/-- The same on a connection that is there. -/
theorem take_updConn_some {m : Move} {c : Nat} {f : Connection → Connection}
    (hm : ∀ s, act m s = .next (s.updConn c f)) {s : State} {k k' : Connection} (hk : s.conns[c]? = some k)
    (hf : f k = k') : s.take m = .next (redraw s.draws (s.updConn c fun _ => k')) := by
  rw [take_updConn hm, State.updConn_congr (g := fun _ => k') hk hf]

/-- The same on a connection that is not there. -/
theorem take_updConn_none {m : Move} {c : Nat} {f : Connection → Connection}
    (hm : ∀ s, act m s = .next (s.updConn c f)) {s : State} (hk : s.conns[c]? = none) :
    s.take m = .next (redraw s.draws s) := by
  rw [take_updConn hm, State.updConn_of_none hk]

/-! ### The statement on a session's step -/

/-- The channels of a session's connection over its step (R65, R74, R75). -/
theorem channels_of_sessionStep {s t : State} {c : Nat} {err fail : Bool} {k : Connection} {ses : Session}
    (hc : s.choice = .session c err fail) (h : sessionStep c err s = .next t) (hk : s.conns[c]? = some k)
    (hs : k.session? = some ses) :
    ∃ k', t.conns[c]? = some k' ∧
      (k'.toServer = k.toServer ∨ (ses.sst = .recv ∧ k'.toServer = k.toServer.tail)) ∧
      (k'.toClient = k.toClient ∨ (ses.sst = .respond ∧ ∃ m, k'.toClient = k.toClient ++ [m]) ∨
        (ses.sst = .recv ∧ k'.toClient = k.toClient ++ [[]])) := by
  obtain ⟨taken, sent, he, hses⟩ := sessionStep_effect hc h
  obtain ⟨k', hk', -, hts, htc⟩ := he.conns_self hk
  obtain ⟨htaken, hsent, -⟩ := hses ses (State.session?_eq_some hk hs)
  refine ⟨k', hk', ?_, ?_⟩
  · rcases htaken with rfl | ⟨hst, rfl⟩
    · exact .inl (by simpa using hts)
    · exact .inr ⟨hst, by simpa using hts⟩
  · rcases hsent with rfl | ⟨hst, m, rfl⟩ | ⟨hst, rfl⟩
    · exact .inl (by simpa using htc)
    · exact .inr (.inl ⟨hst, m, htc⟩)
    · exact .inr (.inr ⟨hst, htc⟩)

/-- Settles O15: the first part is the effect of a session's step, the second what every step leaves of each session,
and each move of a peer or a server outside the block is a change of the one connection it names. -/
theorem sessionStepIsLocal : Obligations.SessionStepIsLocal := by
  unfold Obligations.SessionStepIsLocal
  refine ⟨fun s t c err fail hc h => ?own,
    fun s t c h hr => ⟨fun ses hs ho => ?kept, fun ses hn hs => ?made, fun hs => ?stays⟩, fun s => rfl,
    fun s c k m hk => ⟨?peerSend, ?peerRecv, ?peerClose, ?foreignSend, ?foreignRecv, ?foreignClose⟩,
    fun s c m hn => ?none⟩
  case own =>
    obtain ⟨u, hu, rfl⟩ := step_inv h
    rw [hc] at hu
    obtain ⟨_, _, he, -⟩ := sessionStep_effect hc hu
    exact ⟨he.cfg, he.listener, he.clients, he.host, he.conns_length, fun _ => he.conns_ne,
      fun _ _ => channels_of_sessionStep (t := u) hc hu⟩
  case kept =>
    rcases session?_of_step h hr c with hk | ⟨-, hn, -⟩ | ⟨⟨err, fail, hc⟩, -, hcl⟩
    · rw [hk, hs]
    · simp [hn] at hs
    · exact (ho.elim (fun hno => hno err fail hc) (hcl ses hs)).elim
  case made =>
    rcases session?_of_step h hr c with hk | ⟨hm, -, hf⟩ | ⟨-, ⟨f, hf⟩, -⟩
    · simp [hk, hn] at hs
    · exact ⟨Option.some.inj (hs.symm.trans hf), hm⟩
    · simp [hf, hn] at hs
  case stays =>
    rcases session?_of_step h hr c with hk | ⟨-, -, hf⟩ | ⟨-, ⟨f, hf⟩, -⟩
    · rwa [hk]
    · simp [hf]
    · simpa [hf] using hs
  case peerSend => exact take_updConn_some (fun _ => rfl) hk (by simp [Connection.peerHolds, and_assoc])
  case peerClose => exact take_updConn_some (fun _ => rfl) hk (by simp [Connection.peerHolds])
  case peerRecv | foreignSend | foreignClose =>
    refine take_updConn_some (fun _ => rfl) hk ?_
    rfl
  case foreignRecv =>
    refine take_updConn_some (fun _ => rfl) hk ?_
    rcases k with ⟨o, b, e, x, y⟩
    rcases e with _ | _ | (_ | _) <;> rfl
  case none =>
    have absent : ∀ {mv : Move} {f : Connection → Connection}, (∀ s, act mv s = .next (s.updConn c f)) →
        s.take mv = .next (redraw s.draws s) := fun hm => take_updConn_none hm hn
    simp only [List.forall_mem_cons]
    exact ⟨absent fun _ => rfl, absent fun _ => rfl, absent fun _ => rfl, absent fun _ => rfl, absent fun _ => rfl,
      absent fun _ => rfl, by simp⟩
end Sys2Proof.Machine
end

section
/-! The step in VALIDATE on any instruction (spec/40_server_pipeline.md R66 to R70): its verdict clause by clause, and
from it O20. -/

namespace Sys2Proof.Machine

/-- The range check on every range (R70). -/
theorem rangesFit_iff (n : Nat) (i : Instr) : rangesFit n i = true ↔ ∀ r ∈ rangesOf i, r.1 + r.2 ≤ n := by
  simp [rangesFit]

theorem verdictOf_not_permitted {g : Cfg} {i : Instr} (h : permitted g i = false) :
    verdictOf g i = (false, 0x01#8) := by
  simp [verdictOf, h]

theorem verdictOf_not_shapeOk {g : Cfg} {i : Instr} (hp : permitted g i = true) (h : shapeOk g i = false) :
    verdictOf g i = (false, 0x02#8) := by
  simp [verdictOf, hp, h]

theorem verdictOf_valid {g : Cfg} {i : Instr} (hp : permitted g i = true) (h : shapeOk g i = true) :
    verdictOf g i = (true, 0x00#8) := by
  simp [verdictOf, hp, h]

/-- The truth of a single-bit value, as the store's comparison and as a decision. -/
theorem decodeBitValue_eq_decide (v : Word) : decodeBitValue v = decide (v ≠ 0#16) := by
  by_cases h : v = 0#16 <;> simp [decodeBitValue, h]

/-- Settles O20: the verdict on the instruction picks the clause of the step in VALIDATE; the operand latches are those
of the decoder, format by format. -/
theorem admissionOfEveryInstruction : Obligations.AdmissionOfEveryInstruction := by
  unfold Obligations.AdmissionOfEveryInstruction
  refine ⟨fun s c fail ses tid uid fc i h => ?_, fun l a n b k v o bc d bits words hbits hwords => ?_⟩
  · rw [exec_eq_serve, serve_validate h, validateStep_eq h.session h.tid h.uid h.fc]
    by_cases hp : permitted s.cfg i = true
    · by_cases hsh : shapeOk s.cfg i = true
      · simp only [verdictOf_valid hp hsh, hp, hsh, rangesFit_iff, if_true, Bool.true_eq_false, if_false]
        split_ifs <;> rfl
      · rw [Bool.not_eq_true] at hsh
        simp [verdictOf_not_shapeOk hp hsh, hp, hsh]
    · rw [Bool.not_eq_true] at hp
      simp [verdictOf_not_permitted hp, hp]
  · have hb : bitValues d n = bits := by simp [hbits, bitValues, unpackBits]
    have hw : wordValues d n = words := by simp [hwords, wordValues, unpackWords, ofWord]
    simp [fillOperands, decodeBitValue_eq_decide, ofWord, hb, hw]

end Sys2Proof.Machine
end

section
/-! The step of a client in AWAIT (spec/44_client_sequencer.md R113 to R117) and the latches it fills
(spec/10_state.md R18, R116), and from them O51. -/

namespace Sys2Proof.Machine

section AwaitStep

variable {s : State} {k c : Nat} {cl : Client} {p : Pending} {conn : Connection} (hp : cl.pend = some p)
  (hc : cl.conn = some c) (hcn : s.conns[c]? = some conn)

include hp hc hcn

theorem awaitStep_error : awaitStep k cl true s = .next (clientFails k cl.caller s) := by
  simp [awaitStep, hp, hc, hcn]

theorem awaitStep_blocked (h : conn.toClient = []) : awaitStep k cl false s = .next s := by
  simp [awaitStep, hp, hc, hcn, h]

theorem awaitStep_closed {q : List Message} (h : conn.toClient = [] :: q) :
    awaitStep k cl false s = .next (clientFails k cl.caller (s.popToClient c)) := by
  simp [awaitStep, hp, hc, hcn, h]

theorem awaitStep_message {m : Message} {q : List Message} (h : conn.toClient = m :: q) (hm : m ≠ []) :
    awaitStep k cl false s = .next (report k cl p m (s.popToClient c)) := by
  simp [awaitStep, hp, hc, hcn, h, hm]

end AwaitStep

/-- The move of a client in AWAIT is its receipt. -/
theorem take_client_await {s : State} {k : Nat} {cl : Client} (hk : s.clients[k]? = some cl) (hst : cl.cst = .await)
    (err : Bool) (att : Attempt) :
    s.take (.client k err att) = thenRedraw s.draws (awaitStep k cl err { s with choice := .client k err att }) := by
  simp [State.take, step, act, clientStep, hk, hst]

/-- A field of the PDU is that field of the message, seven bytes on (R49). -/
theorem byteAt_pduOf (m : Message) (i : Nat) : byteAt (pduOf m) i = byteAt m (7 + i) := by
  simp [byteAt, pduOf]

theorem be16_pduOf (m : Message) (i : Nat) : be16 (pduOf m) i = be16 m (7 + i) := by
  simp [be16, byteAt_pduOf, Nat.add_assoc]

/-- Only a message that passes W1 is accepted. -/
theorem headerOk_of_sendResult_ok {g : Cfg} {p : Pending} {m : Message} {d : Payload} (h : sendResult g p m = .ok d) :
    headerOk m = true := by
  unfold sendResult at h
  split at h
  · cases h
  · next ha =>
    simp only [accepts, Bool.not_eq_true', Bool.not_eq_false, Bool.and_eq_true] at ha
    exact validateResponse_header ha.1.1

/-- The latches of an accepted success response: its header's and its operands'. -/
theorem responseLatches_of_ok {g : Cfg} {p : Pending} {m : Message} {r : SendResult} {d : Payload}
    (hr : r = sendResult g p m) (h : r = .ok d) :
    responseLatches r m = fillPayload (.ok d) (pduOf m) (fillHeader m Latches.empty) := by
  rw [responseLatches, headerOk_of_sendResult_ok (hr.symm.trans h), if_pos rfl, h]

/-- Settles O51: each outcome of the receipt, returned to a user or to the host; the latches are those the response
fills, format by format. -/
theorem await : Obligations.Await := by
  unfold Obligations.Await
  refine ⟨fun s k c cl p conn att back hk hst hp hc hcn hback => ?_, fun g p m r l hr hl => ?_⟩
  · have hcn : ∀ mv : Move, (State.conns { s with choice := mv })[c]? = some conn := fun _ => hcn
    refine ⟨?_, fun h => ?_, fun q h => ?_, fun m q h hm => ?_⟩ <;> rw [take_client_await hk hst]
    · rw [awaitStep_error hp hc (hcn _), hback]
      cases cl.caller <;> rfl
    · rw [awaitStep_blocked hp hc (hcn _) h]
      rfl
    · rw [awaitStep_closed hp hc (hcn _) h, hback]
      cases cl.caller <;> rfl
    · rw [awaitStep_message hp hc (hcn _) h hm, hback, report]
      cases cl.caller <;> rfl
  · have hhead : fillHeader m Latches.empty = l := hl.symm
    refine ⟨fun h => ?_, fun h hno => ?_, fun bs h => ?_, fun vs h => ?_, fun a b h => ?_, fun a v h => ?_,
      fun a n h => ?_, fun a x y h => ?_⟩
    · simp [responseLatches, h]
    · simp only [responseLatches, h, if_true, hhead]
      cases r with
      | ok d => exact absurd rfl (hno d)
      | _ => rfl
    all_goals
      rw [responseLatches_of_ok hr h, hhead]
      simp [fillPayload, byteAt_pduOf, be16_pduOf, ofWord]

end Sys2Proof.Machine
end

section
/-! Sound sessions (spec/10_state.md R18, R19, R22, spec/40_server_pipeline.md R64 to R75): a session's step from a
sound state always answers a next state, whose store is canonical and whose session is sound again. -/

namespace Sys2Proof.Machine

/-! ### What a sound session is -/

theorem verdictLegal_verdictOf (g : Cfg) (i : Instr) : verdictLegal (verdictOf g i) = true := by
  unfold verdictOf
  split_ifs <;> decide

theorem verdictLegal_validateRequest (g : Cfg) (m : Message) : verdictLegal (validateRequest g m) = true := by
  unfold validateRequest
  simp only []
  cases (Code.ofByte (byteAt m 7)).cls <;> split_ifs <;> decide

/-- The verdict register of a session holds a pair the validator can give (R22). -/
def Session.VerdictOk (ses : Session) : Prop := ∀ v, ses.verdict = some v → verdictLegal v = true

/-- A sound session, state by state. -/
theorem Session.sound_iff {g : Cfg} {ses : Session} :
    ses.sound g = true ↔ ses.VerdictOk ∧ (ses.sst = .validate → ses.latch = Latches.empty) ∧
      (ses.sst = .dispatch → ses.dispatchOk g = true) ∧ (ses.sst = .respond → ses.respondOk g = true) := by
  unfold Session.sound Session.VerdictOk
  rw [Bool.and_eq_true]
  refine and_congr ?_ ?_
  · cases ses.verdict <;> simp
  · cases ses.sst <;> simp

/-- A session in RECV or CLOSED is sound when its verdict register is. -/
theorem Session.sound_of_idle {g : Cfg} {ses : Session} (hv : ses.VerdictOk)
    (h : ses.sst = .recv ∨ ses.sst = .closed) : ses.sound g = true := by
  rw [Session.sound_iff]
  rcases h with h | h <;> simp [h, hv]

theorem Session.sound_of_dispatchOk {g : Cfg} {ses : Session} (hv : ses.VerdictOk) (hst : ses.sst = .dispatch)
    (h : ses.dispatchOk g = true) : ses.sound g = true := by
  rw [Session.sound_iff]
  simp [hst, hv, h]

theorem Session.sound_of_respondOk {g : Cfg} {ses : Session} (hv : ses.VerdictOk) (hst : ses.sst = .respond)
    (h : ses.respondOk g = true) : ses.sound g = true := by
  rw [Session.sound_iff]
  simp [hst, hv, h]

/-- A session in RESPOND has its header latches, and its response passes the outbound check (R73). -/
theorem Session.respondOk_iff {g : Cfg} {ses : Session} :
    ses.respondOk g = true ↔ ∃ tid uid fc v, ses.latch.tid = some tid ∧ ses.latch.uid = some uid ∧
      ses.latch.fc = some fc ∧ outboundVerdict g fc ses.latch ses.tx = .ok v ∧ v.1 = true := by
  unfold Session.respondOk
  cases ses.latch.tid <;> cases ses.latch.uid <;> cases ses.latch.fc <;> simp
  next tid uid fc => cases outboundVerdict g fc ses.latch ses.tx <;> simp [Prod.ext_iff]

/-- An exception response passes the outbound check (R72 W2). -/
theorem outboundVerdict_exception (g : Cfg) (l : Latches) (tid : Word) (uid fc code : Byte) :
    outboundVerdict g fc l (frame tid uid [fc ||| 0x80#8, code]) = .ok (true, 0x00#8) := by
  rw [outboundVerdict, if_pos (exceptionForm_frame ..)]

/-- A session that answers with an exception is sound. -/
theorem Session.sound_of_exception {g : Cfg} {ses : Session} {tid : Word} {uid fc code : Byte} (hv : ses.VerdictOk)
    (hst : ses.sst = .respond) (ht : ses.latch.tid = some tid) (hu : ses.latch.uid = some uid)
    (hf : ses.latch.fc = some fc) (htx : ses.tx = frame tid uid [fc ||| 0x80#8, code]) : ses.sound g = true :=
  Session.sound_of_respondOk hv hst (Session.respondOk_iff.2
    ⟨tid, uid, fc, _, ht, hu, hf, by rw [htx]; exact outboundVerdict_exception .., rfl⟩)

/-! ### A session in DISPATCH -/

/-- The session holds the instruction `i`, which passed every check, and has the latches it fills (R66 to R70). -/
structure Session.Holds (g : Cfg) (ses : Session) (i : Instr) : Prop where
  header : headerOk ses.rx = true
  decoded : decode (pduOf ses.rx) = .ok i
  valid : (verdictOf g i).1 = true
  notIgnored : i.code.cls ≠ .ign
  fits : rangesFit g.tableLen i = true
  calls : ses.callsOk i = true
  latch : { ses.latch with rvals := none } = fillOperands i (fillHeader ses.rx Latches.empty)

theorem Session.dispatchOk_iff {g : Cfg} {ses : Session} : ses.dispatchOk g = true ↔ ∃ i, ses.Holds g i := by
  unfold Session.dispatchOk
  cases hd : decode (pduOf ses.rx) with
  | error e => simpa [hd] using fun i (h : ses.Holds g i) => by simpa [hd] using h.decoded
  | ok i =>
    simp only [Bool.and_eq_true, decide_eq_true_eq]
    constructor
    · rintro ⟨hh, ⟨⟨⟨hv, hi⟩, hf⟩, hc⟩, hl⟩
      exact ⟨i, hh, hd, hv, hi, hf, hc, hl⟩
    · rintro ⟨j, h⟩
      obtain rfl := Except.ok.inj (hd.symm.trans h.decoded)
      exact ⟨h.header, ⟨⟨⟨h.valid, h.notIgnored⟩, h.fits⟩, h.calls⟩, h.latch⟩

theorem verdictOf_valid_iff {g : Cfg} {i : Instr} :
    (verdictOf g i).1 = true ↔ permitted g i = true ∧ shapeOk g i = true := by
  unfold verdictOf
  split_ifs <;> simp_all

/-- Where a session stands between its store calls (R64). -/
theorem Session.callsOk_inv {ses : Session} {i : Instr} (h : ses.callsOk i = true) :
    (ses.calls = 0 ∧ ses.latch.rvals = none) ∨
      (ses.calls ≠ 0 ∧ ((∃ a n o v, i = .mwhr a n o ∧ ses.latch.rvals = some [v]) ∨
        ∃ ra rc wa wc bc d, i = .rwhr ra rc wa wc bc d ∧ ses.latch.rvals = none)) := by
  unfold Session.callsOk at h
  split at h
  · exact .inl ⟨‹_›, ‹_›⟩
  · exact .inr ⟨by simp [*], .inl ⟨_, _, _, _, rfl, ‹_›⟩⟩
  · exact .inr ⟨by simp [*], .inr ⟨_, _, _, _, _, _, rfl, ‹_›⟩⟩
  · simp at h

/-- The first byte of a frame's PDU is its byte 7 (R49). -/
theorem pduOf_eq_cons {m : Message} (h : headerOk m = true) : ∃ p, pduOf m = byteAt m 7 :: p := by
  obtain ⟨hl, -, -⟩ := (headerOk_iff m).1 h
  refine ⟨m.drop 8, ?_⟩
  rw [pduOf, List.drop_eq_getElem_cons (by omega), byteAt, List.getD_eq_getElem _ _ (by omega)]

/-- The decoder gives an instruction of the code its first byte is (R50, R56). -/
theorem code_of_decode {fc : Byte} {p : List Byte} {i : Instr} (h : decode (fc :: p) = .ok i) :
    i.code = Code.ofByte fc := by
  unfold decode at h
  cases hc : Code.ofByte fc <;> simp only [hc, decodeOperands] at h
  case rdco | rddi | rdhr | rdir | wsco | wshr | wsdi | wsir =>
    obtain ⟨_, _, rfl, -⟩ := decodeTwo_inv h
    rfl
  case wmco | wmhr | wmdi | wmir =>
    obtain ⟨_, _, _, _, rfl, -, -⟩ := decodeMany_inv h
    rfl
  case mwhr =>
    obtain ⟨_, _, _, rfl, -⟩ := decodeThree_inv h
    rfl
  case rwhr =>
    obtain ⟨_, _, _, _, _, _, rfl, -, -⟩ := decodeReadWrite_inv h
    rfl
  all_goals
    obtain rfl := Except.ok.inj h
    rfl

/-- The operand latches leave the header latches as they are (R18). -/
theorem fillOperands_header (i : Instr) (l : Latches) :
    (fillOperands i l).tid = l.tid ∧ (fillOperands i l).uid = l.uid ∧ (fillOperands i l).fc = l.fc := by
  cases i <;> exact ⟨rfl, rfl, rfl⟩

/-- No instruction fills `rvals` when it is decoded. -/
theorem fillOperands_rvals (i : Instr) (l : Latches) : (fillOperands i l).rvals = l.rvals := by
  cases i <;> rfl

/-- Latches whose `rvals` is not filled. -/
theorem Latches.clear_rvals {l : Latches} (h : l.rvals = none) : { l with rvals := none } = l := by
  rw [← h]

/-- The count latches of an instruction give the count its answer must carry (R25, R72, R73). -/
theorem latchedCount_fillOperands (i : Instr) (l : Latches) :
    latchedCount i.code.byte (fillOperands i l) = .ok (awaitedCount i).toNat := by
  cases i <;> rfl

/-- The read latch plays no part in the count. -/
theorem latchedCount_rvals (fc : Byte) (l : Latches) (r : Option (List Value)) :
    latchedCount fc { l with rvals := r } = latchedCount fc l := rfl

namespace Session.Holds

variable {g : Cfg} {ses : Session} {i : Instr}

theorem permitted (h : ses.Holds g i) : permitted g i = true := (verdictOf_valid_iff.1 h.valid).1

theorem shapeOk (h : ses.Holds g i) : shapeOk g i = true := (verdictOf_valid_iff.1 h.valid).2

/-- The instruction is of a code that is executed (R56, R93). -/
theorem executed (h : ses.Holds g i) : i.code.cls = .std ∨ (i.code.cls = .ext ∧ g.extSrv = true) := by
  have hp := h.permitted
  have hi := h.notIgnored
  unfold Machine.permitted at hp
  cases hc : i.code.cls <;> simp_all

theorem code_ne (h : ses.Holds g i) : i.code ≠ .illfc := by
  intro hc
  rcases h.executed with he | ⟨he, -⟩ <;> simp [hc, Code.cls] at he

theorem tid (h : ses.Holds g i) : ses.latch.tid = some (be16 ses.rx 0) := by
  have hl := congrArg Latches.tid h.latch
  rwa [(fillOperands_header i _).1] at hl

theorem uid (h : ses.Holds g i) : ses.latch.uid = some (byteAt ses.rx 6) := by
  have hl := congrArg Latches.uid h.latch
  rwa [(fillOperands_header i _).2.1] at hl

theorem fc (h : ses.Holds g i) : ses.latch.fc = some i.code.byte := by
  have hl := congrArg Latches.fc h.latch
  rw [(fillOperands_header i _).2.2] at hl
  obtain ⟨p, hp⟩ := pduOf_eq_cons h.header
  have hc := code_of_decode (hp ▸ h.decoded)
  rw [show i.code.byte = byteAt ses.rx 7 from hc ▸ (Code.byte_ofByte _).resolve_left (hc ▸ h.code_ne)]
  exact hl

theorem count (h : ses.Holds g i) : latchedCount i.code.byte ses.latch = .ok (awaitedCount i).toNat := by
  rw [← latchedCount_rvals _ _ none, h.latch]
  exact latchedCount_fillOperands i _

/-- After a store call the session holds the same instruction. -/
theorem afterCall (h : ses.Holds g i) {n : Nat} {r : Option (List Value)}
    (hc : Session.callsOk { ses with latch := { ses.latch with rvals := r }, calls := n } i = true) :
    Session.Holds g { ses with latch := { ses.latch with rvals := r }, calls := n } i :=
  ⟨h.header, h.decoded, h.valid, h.notIgnored, h.fits, hc, h.latch⟩

end Session.Holds

/-! ### The responses of an executed instruction pass the outbound check (R72, R73) -/

/-- The response `pdu` of code `c` and count `n` passes, whatever it is framed with. -/
def ResponsePasses (g : Cfg) (c : Code) (n : Nat) (pdu : Message) : Prop :=
  ∀ tid uid, (validateResponse g.extSrv (frame tid uid pdu) c.byte n).1 = true

section ResponsePasses

variable {g : Cfg} {c : Code} (hc : c.cls = .std ∨ (c.cls = .ext ∧ g.extSrv = true))

include hc

theorem responsePasses_bitRead (hf : c.respFormat = .rdr) (hb : c.readsBits = true) {cnt : Word}
    (hn : cnt.toNat ≤ 2040) {vs : List Value} (hl : vs.length = cnt.toNat) :
    ResponsePasses g c cnt.toNat (bitReadPdu c cnt vs) := fun _ _ => by
  have h255 : ceil8 cnt.toNat ≤ 255 := by unfold ceil8; omega
  refine validateResponse_success (q := BitVec.ofNat 8 (ceil8 cnt.toNat) :: packBits (vs.map truthOf)) ?_ hc ?_
  · simp [hl]
    omega
  · simp only [hf, hb, if_true, byteAt_succ, byteAt_zero, ofNat_toNat_small h255, Bool.and_eq_true, decide_eq_true_eq]
    simp [hl]
    omega

theorem responsePasses_wordRead (hf : c.respFormat = .rdr) (hb : c.readsBits = false) {cnt : Word}
    (hn : cnt.toNat ≤ 127) {vs : List Value} (hl : vs.length = cnt.toNat) :
    ResponsePasses g c cnt.toNat (wordReadPdu c cnt vs) := fun _ _ => by
  have h255 : 2 * cnt.toNat ≤ 255 := by omega
  refine validateResponse_success (q := BitVec.ofNat 8 (2 * cnt.toNat) :: packWords (vs.map wordOf)) ?_ hc ?_
  · simp [hl]
    omega
  · simp only [hf, hb, byteAt_succ, byteAt_zero, ofNat_toNat_small h255, Bool.and_eq_true, decide_eq_true_eq]
    simp [hl]
    omega

theorem responsePasses_twoField (hf : c.respFormat = .wsr ∨ c.respFormat = .wmr) (n : Nat) (x y : Word) :
    ResponsePasses g c n (twoFieldPdu c x y) := fun _ _ => by
  refine validateResponse_success (q := enc16 x ++ enc16 y) (by simp) hc ?_
  rcases hf with hf | hf <;> simp [hf]

theorem responsePasses_mask (hf : c.respFormat = .mwr) (n : Nat) (x y z : Word) :
    ResponsePasses g c n (maskPdu c x y z) := fun _ _ => by
  refine validateResponse_success (q := enc16 x ++ enc16 y ++ enc16 z) (by simp) hc ?_
  simp [hf]

end ResponsePasses

/-! ### Answering -/

/-- The store is canonical and inside the tables, and the session of connection `c`, if there is one, is sound. -/
structure Served (c : Nat) (t : State) : Prop where
  memWf : t.mem.wf = true
  memFits : t.mem.fits t.cfg.tableLen = true
  session : ∀ ses, t.session? c = some ses → ses.sound t.cfg = true

/-- The outcome is a next state in which connection `c` is well served. -/
def NextServed (c : Nat) (o : Host.Outcome State Fault Refusal) : Prop := ∃ t, o = .next t ∧ Served c t

/-- Everything a session needs to answer: a canonical store, a legal verdict and the header latches. -/
structure CanAnswer (s : State) (c : Nat) (ses : Session) (tid : Word) (uid fc : Byte) : Prop where
  memWf : s.mem.wf = true
  memFits : s.mem.fits s.cfg.tableLen = true
  session : s.session? c = some ses
  verdict : ses.VerdictOk
  tid : ses.latch.tid = some tid
  uid : ses.latch.uid = some uid
  fc : ses.latch.fc = some fc

/-- A change of the session that leaves it sound. -/
theorem served_updSession {s : State} {c : Nat} {ses : Session} {f : Session → Session} (hw : s.mem.wf = true)
    (hf : s.mem.fits s.cfg.tableLen = true) (hs : s.session? c = some ses) (h : (f ses).sound s.cfg = true) :
    Served c (s.updSession c f) := by
  refine ⟨hw, hf, fun x hx => ?_⟩
  rw [State.session?_updSession, hs] at hx
  obtain rfl := Option.some.inj hx
  exact h

/-- A message taken from the channel leaves every session as it is. -/
@[simp] theorem State.session?_popToServer (s : State) (c d : Nat) : (s.popToServer c).session? d = s.session? d := by
  unfold State.session? State.popToServer
  rw [State.updConn_get]
  split <;> cases s.conns[d]? <;> rfl

/-- A message sent leaves the connection well served. -/
theorem Served.pushToClient {s : State} {c : Nat} (h : Served c s) (m : Message) : Served c (s.pushToClient c m) :=
  ⟨h.memWf, h.memFits, fun ses hs => h.session ses (by simpa using hs)⟩

section CanAnswer

variable {s : State} {c : Nat} {ses : Session} {tid : Word} {uid fc : Byte} (h : CanAnswer s c ses tid uid fc)

include h

/-- A response that passes the outbound check. -/
theorem nextServed_respond {pdu : Message} {v : Bool × Byte}
    (hp : outboundVerdict s.cfg fc ses.latch (frame tid uid pdu) = .ok v) (hv : v.1 = true) :
    NextServed c (respond pdu c s) := by
  refine ⟨_, respond_eq h.session h.tid h.uid pdu, served_updSession h.memWf h.memFits h.session ?_⟩
  refine Session.sound_of_respondOk h.verdict rfl (Session.respondOk_iff.2 ?_)
  exact ⟨tid, uid, fc, v, h.tid, h.uid, h.fc, hp, hv⟩

/-- An exception response (R136). -/
theorem nextServed_raise (code : Byte) : NextServed c (raiseException code c s) := by
  have hr : raiseException code c s = respond [fc ||| 0x80#8, code] c s := by
    rw [raiseException_eq h.session h.tid h.uid h.fc, respond_eq h.session h.tid h.uid]
  rw [hr]
  exact nextServed_respond h (outboundVerdict_exception ..) rfl

end CanAnswer

/-! ### The store calls of an instruction -/

/-- The session of connection `c` is in DISPATCH on the instruction `i`, in a sound state. -/
structure Dispatches (s : State) (c : Nat) (ses : Session) (i : Instr) : Prop where
  cfg : s.cfg.legal = true
  memWf : s.mem.wf = true
  memFits : s.mem.fits s.cfg.tableLen = true
  session : s.session? c = some ses
  verdict : ses.VerdictOk
  dispatch : ses.sst = .dispatch
  holds : ses.Holds s.cfg i

/-- The limits a legal configuration puts on the counts of reads (R23). -/
theorem Cfg.legal_reads {g : Cfg} (h : g.legal = true) : g.maxRdBits ≤ 2040 ∧ g.maxRdRegs ≤ 127 := by
  simp only [Cfg.legal, Bool.and_eq_true, decide_eq_true_eq] at h
  omega

section Dispatches

variable {s : State} {c : Nat} {fail : Bool} {ses : Session} {i : Instr} (h : Dispatches s c ses i)

include h

theorem Dispatches.canAnswer : CanAnswer s c ses (be16 ses.rx 0) (byteAt ses.rx 6) i.code.byte :=
  ⟨h.memWf, h.memFits, h.session, h.verdict, h.holds.tid, h.holds.uid, h.holds.fc⟩

/-- After a StoreGet. -/
theorem Dispatches.canAnswer_latchRead (vs : List Value) :
    CanAnswer (latchRead vs c s) c { ses with latch := { ses.latch with rvals := some vs }, calls := ses.calls + 1 }
      (be16 ses.rx 0) (byteAt ses.rx 6) i.code.byte :=
  ⟨h.memWf, h.memFits, by simp [h.session], h.verdict, h.holds.tid, h.holds.uid, h.holds.fc⟩

/-- After a StoreSet. -/
theorem Dispatches.canAnswer_latchWrite {m : Memory} (hw : m.wf = true) (hf : m.fits s.cfg.tableLen = true) :
    CanAnswer (latchWrite m c s) c { ses with calls := ses.calls + 1 } (be16 ses.rx 0) (byteAt ses.rx 6) i.code.byte :=
  ⟨hw, hf, by simp [h.session], h.verdict, h.holds.tid, h.holds.uid, h.holds.fc⟩

/-- A StoreGet answered with its values, or with 0x04. -/
theorem nextServed_readThen_respond {t : TableKind} {addr cnt : Nat} {pdu : List Value → Message}
    (hp : ∀ vs, vs.length = cnt → ResponsePasses s.cfg i.code (awaitedCount i).toNat (pdu vs)) :
    NextServed c (readThen t addr cnt (fun vs => respond (pdu vs) c) ⟨c, fail, ses⟩ s) := by
  unfold readThen
  cases hg : storeGet s t addr cnt fail with
  | none => exact nextServed_raise h.canAnswer _
  | some vs =>
    obtain ⟨-, -, rfl⟩ := storeGet_eq_some.1 hg
    exact nextServed_respond (h.canAnswer_latchRead _) (outboundVerdict_eq h.holds.count) (hp _ (by simp) _ _)

/-- A StoreSet answered, or with 0x04. -/
theorem nextServed_writeThen_respond {t : TableKind} {addr : Nat} {vals : List Value} {pdu : Message}
    (hp : ResponsePasses s.cfg i.code (awaitedCount i).toNat pdu) :
    NextServed c (writeThen t addr vals (respond pdu c) ⟨c, fail, ses⟩ s) := by
  unfold writeThen
  cases hg : storeSet s t addr vals fail with
  | none => exact nextServed_raise h.canAnswer _
  | some m =>
    obtain ⟨hw, hf⟩ := storeSet_keeps hg h.memWf h.memFits
    exact nextServed_respond (h.canAnswer_latchWrite hw hf) (outboundVerdict_eq h.holds.count) (hp _ _)

/-- MWHR's StoreGet, between its two store calls (R90). -/
theorem nextServed_mwhr_read {a n o : Word} (hi : i = .mwhr a n o) (hz : ses.calls = 0) :
    NextServed c (readThen .hr a.toNat 1 (fun _ => .next) ⟨c, fail, ses⟩ s) := by
  unfold readThen
  cases hg : storeGet s .hr a.toNat 1 fail with
  | none => exact nextServed_raise h.canAnswer _
  | some vs =>
    obtain ⟨-, -, rfl⟩ := storeGet_eq_some.1 hg
    refine ⟨_, rfl, served_updSession h.memWf h.memFits h.session ?_⟩
    refine Session.sound_of_dispatchOk h.verdict h.dispatch
      (Session.dispatchOk_iff.2 ⟨i, h.holds.afterCall ?_⟩)
    simp [Session.callsOk, hi, hz]

/-- RWHR's StoreSet, between its two store calls (R91). -/
theorem nextServed_rwhr_write {ra rc wa wc : Word} {bc : Byte} {d : List Byte} (hi : i = .rwhr ra rc wa wc bc d)
    (hz : ses.calls = 0) (hr : ses.latch.rvals = none) (vals : List Value) :
    NextServed c (writeThen .hr wa.toNat vals .next ⟨c, fail, ses⟩ s) := by
  unfold writeThen
  cases hg : storeSet s .hr wa.toNat vals fail with
  | none => exact nextServed_raise h.canAnswer _
  | some m =>
    obtain ⟨hw, hf⟩ := storeSet_keeps hg h.memWf h.memFits
    refine ⟨_, rfl, served_updSession (s := { s with mem := m }) hw hf h.session ?_⟩
    refine Session.sound_of_dispatchOk h.verdict h.dispatch
      (Session.dispatchOk_iff.2 ⟨i, h.holds.afterCall (r := ses.latch.rvals) ?_⟩)
    simp [Session.callsOk, hi, hz, hr]

/-- The next store call of any instruction (R69, R77 to R91). -/
theorem nextServed_bodyOf : NextServed c (bodyOf i ⟨c, fail, ses⟩ s) := by
  obtain ⟨hbits, hregs⟩ := Cfg.legal_reads h.cfg
  have hx := h.holds.executed
  have hshape := h.holds.shapeOk
  cases i
  case rdco | rddi =>
    refine nextServed_readThen_respond h fun vs hl => responsePasses_bitRead hx rfl rfl ?_ hl
    simp only [Machine.shapeOk, countOk, decide_eq_true_eq, awaitedCount] at hshape ⊢
    omega
  case rdhr | rdir =>
    refine nextServed_readThen_respond h fun vs hl => responsePasses_wordRead hx rfl rfl ?_ hl
    simp only [Machine.shapeOk, countOk, decide_eq_true_eq, awaitedCount] at hshape ⊢
    omega
  case wsco | wsdi | wshr | wsir => exact nextServed_writeThen_respond h (responsePasses_twoField hx (.inl rfl) _ _ _)
  case wmco | wmdi | wmhr | wmir => exact nextServed_writeThen_respond h (responsePasses_twoField hx (.inr rfl) _ _ _)
  case mwhr a n o =>
    simp only [bodyOf]
    rcases Session.callsOk_inv h.holds.calls with ⟨hz, -⟩ | ⟨hz, hcase⟩
    · rw [if_pos hz]
      exact nextServed_mwhr_read h rfl hz
    · rw [if_neg hz]
      obtain ⟨_, _, _, v, -, hr⟩ | ⟨_, _, _, _, _, _, hcon, -⟩ := hcase
      · simp only [maskWrite, hr]
        exact nextServed_writeThen_respond h (responsePasses_mask hx rfl _ _ _ _)
      · cases hcon
  case rwhr ra rc wa wc bc d =>
    simp only [bodyOf]
    rcases Session.callsOk_inv h.holds.calls with ⟨hz, hr⟩ | ⟨hz, -⟩
    · rw [if_pos hz]
      exact nextServed_rwhr_write h rfl hz hr _
    · rw [if_neg hz]
      refine nextServed_readThen_respond h fun vs hl => responsePasses_wordRead hx rfl rfl ?_ hl
      simp only [Machine.shapeOk, countOk, Bool.and_eq_true, decide_eq_true_eq, awaitedCount] at hshape ⊢
      omega
  case illfc => exact absurd rfl h.holds.code_ne
  all_goals exact absurd rfl h.holds.notIgnored

/-- A step in DISPATCH. -/
theorem nextServed_dispatch {err : Bool} (hc : s.choice = .session c err fail) : NextServed c (exec i s) := by
  have hx : Executing s .dispatch c fail ses (be16 ses.rx 0) (byteAt ses.rx 6) i.code.byte :=
    ⟨State.active_eq hc h.session, h.dispatch, h.holds.tid, h.holds.uid, h.holds.fc⟩
  rw [exec_eq_serve, serve_dispatch hx h.holds.permitted]
  exact nextServed_bodyOf h

end Dispatches

/-! ### The steps of a session -/

section SessionSteps

variable {s : State} {c : Nat} {err fail : Bool} {ses : Session} (hw : s.mem.wf = true)
  (hf : s.mem.fits s.cfg.tableLen = true) (hs : s.session? c = some ses) (hsound : ses.sound s.cfg = true)

include hw hf hs hsound

/-- The step in VALIDATE on an instruction (R66 to R70). -/
theorem nextServed_validate_instr (hc : s.choice = .session c err fail) (hst : ses.sst = .validate)
    (hh : headerOk ses.rx = true) {i : Instr} (hd : decode (pduOf ses.rx) = .ok i) :
    NextServed c (exec i (s.updSession c fun x => { x with latch := fillHeader ses.rx x.latch })) := by
  obtain ⟨hv, hlatch, -⟩ := Session.sound_iff.1 hsound
  have hx : Executing (s.updSession c fun x => { x with latch := fillHeader ses.rx x.latch }) .validate c fail
      { ses with latch := fillHeader ses.rx ses.latch } (be16 ses.rx 0) (byteAt ses.rx 6) (byteAt ses.rx 7) :=
    ⟨State.active_eq hc (by simp [hs]), hst, rfl, rfl, rfl⟩
  rw [exec_eq_serve, serve_validate hx, validateStep_eq hx.session hx.tid hx.uid hx.fc]
  refine ⟨_, rfl, ?_⟩
  have hlegal : ∀ v, some (verdictOf s.cfg i) = some v → verdictLegal v = true := by
    rintro _ ⟨⟩
    exact verdictLegal_verdictOf s.cfg i
  obtain ⟨htid, huid, hfc⟩ := fillOperands_header i (fillHeader ses.rx ses.latch)
  have hrvals : (fillOperands i (fillHeader ses.rx ses.latch)).rvals = none := by
    rw [fillOperands_rvals, hlatch hst]
    rfl
  split_ifs with hvalid hign hfit
  · exact served_updSession hw hf hx.session (Session.sound_of_idle hlegal (.inl rfl))
  · refine served_updSession hw hf hx.session (Session.sound_of_dispatchOk hlegal rfl
      (Session.dispatchOk_iff.2 ⟨i, hh, hd, hvalid, hign, hfit, ?_, ?_⟩))
    · simp [Session.callsOk, hrvals]
    · rw [← hlatch hst]
      exact Latches.clear_rvals hrvals
  · exact served_updSession hw hf hx.session (Session.sound_of_exception hlegal rfl htid huid hfc rfl)
  · exact served_updSession hw hf hx.session (Session.sound_of_exception hlegal rfl rfl rfl rfl rfl)

/-- The step in VALIDATE (R66, R68). -/
theorem nextServed_validateMessage (hc : s.choice = .session c err fail) (hst : ses.sst = .validate) :
    NextServed c (validateMessage c ses s) := by
  have hlegal : ∀ v, some (validateRequest s.cfg ses.rx) = some v → verdictLegal v = true := by
    rintro _ ⟨⟩
    exact verdictLegal_validateRequest s.cfg ses.rx
  unfold validateMessage
  split
  · next hh =>
    simp only []
    split
    · next i hd => exact nextServed_validate_instr hw hf hs hsound hc hst hh hd
    · refine nextServed_raise
        (ses := { ses with latch := fillHeader ses.rx ses.latch, verdict := some (validateRequest s.cfg ses.rx) })
        (tid := be16 ses.rx 0) (uid := byteAt ses.rx 6) (fc := byteAt ses.rx 7)
        ?_ _
      exact ⟨hw, hf, by simp [recordVerdict, hs], hlegal, rfl, rfl, rfl⟩
  · refine ⟨_, rfl, ?_⟩
    rw [returnToReceive, recordVerdict, State.updSession_updSession]
    exact served_updSession hw hf hs (Session.sound_of_idle hlegal (.inl rfl))

/-- Closing the session (R65, R74; log 10). -/
theorem served_closeSession : Served c (closeSession c s) :=
  (served_updSession hw hf hs
    (Session.sound_of_idle (Session.sound_iff.1 hsound).1 (.inr rfl))).pushToClient []

/-- The step in RECV (R65). -/
theorem served_receiveStep (k : Connection) : Served c (receiveStep err c k s) := by
  have hpop : (s.popToServer c).session? c = some ses := by rw [State.session?_popToServer, hs]
  unfold receiveStep
  split
  · exact served_closeSession hw hf hs hsound
  · split
    · exact ⟨hw, hf, fun x hx => Option.some.inj (hs.symm.trans hx) ▸ hsound⟩
    · split
      · exact served_closeSession (s := s.popToServer c) hw hf hpop hsound
      · refine served_updSession (s := s.popToServer c) hw hf hpop (Session.sound_iff.2 ?_)
        simp [Session.VerdictOk]

/-- The step in RESPOND (R73, R74). -/
theorem nextServed_respondStep (hst : ses.sst = .respond) : NextServed c (respondStep err c ses s) := by
  obtain ⟨hv, -, -, hrespond⟩ := Session.sound_iff.1 hsound
  obtain ⟨tid, uid, fc, v, ht, hu, hfc, ho, -⟩ := Session.respondOk_iff.1 (hrespond hst)
  simp only [respondStep, ht, hu, hfc, ho]
  split
  · refine ⟨_, rfl, ?_⟩
    rw [closeSession, State.updSession_updSession]
    exact (served_updSession hw hf hs (Session.sound_of_idle hv (.inr rfl))).pushToClient _
  · refine ⟨_, rfl, ?_⟩
    exact served_updSession (s := (s.updSession c _).pushToClient c _)
      (ses := { ses with tx := outboundFrame v tid uid fc ses.tx }) hw hf (by simp [hs])
      (Session.sound_of_idle hv (.inl rfl))

/-- The step of a session from a sound state (R64 to R75). -/
theorem nextServed_sessionStep (hcfg : s.cfg.legal = true) (hc : s.choice = .session c err fail) :
    NextServed c (sessionStep c err s) := by
  cases hst : ses.sst
  case recv =>
    obtain ⟨k, hk, hks⟩ := State.conn_of_session? hs
    exact ⟨_, sessionStep_recv hk hks hst, served_receiveStep hw hf hs hsound k⟩
  case validate =>
    rw [sessionStep_validate hs hst]
    exact nextServed_validateMessage hw hf hs hsound hc hst
  case dispatch =>
    obtain ⟨hv, -, hdispatch, -⟩ := Session.sound_iff.1 hsound
    obtain ⟨i, hi⟩ := Session.dispatchOk_iff.1 (hdispatch hst)
    rw [sessionStep_dispatch hs hst hi.decoded]
    exact nextServed_dispatch ⟨hcfg, hw, hf, hs, hv, hst, hi⟩ hc
  case respond =>
    rw [sessionStep_respond hs hst]
    exact nextServed_respondStep hw hf hs hsound hst
  case closed =>
    exact ⟨_, sessionStep_closed hs hst, hw, hf, fun x hx => Option.some.inj (hs.symm.trans hx) ▸ hsound⟩

end SessionSteps

end Sys2Proof.Machine
end

section
/-! The invariant of the whole system over every move (spec/10_state.md R15 to R25, spec/44_client_sequencer.md,
spec/45_host_control_loop.md): one rule per kind of change of the state, then each agent's step, and from them O11 and
O12. -/

namespace Sys2Proof.Machine

/-! ### Sound clients and hosts -/

/-- A sound client, clause by clause (R23, R25). -/
theorem Client.sound_iff {s : State} {k : Nat} {cl : Client} :
    cl.sound s k = true ↔ (cl.pend.isSome = true ↔ cl.cst = .await) ∧ cl.connOk s k = true ∧
      cl.elapsedOk s.cfg = true ∧ (k = hostClient ∨ cl.caller = .user) := by
  simp only [Client.sound, Bool.and_eq_true, Bool.or_eq_true, decide_eq_true_eq, and_assoc]

/-- A client in READY or AWAIT has a connection of its own (R108). -/
theorem Client.connOk_inv {s : State} {k : Nat} {cl : Client} (h : cl.connOk s k = true)
    (hst : cl.cst = .ready ∨ cl.cst = .await) :
    ∃ c conn, cl.conn = some c ∧ s.conns[c]? = some conn ∧ conn.owner = .client k := by
  unfold Client.connOk at h
  cases hc : cl.conn with
  | none => rcases hst with hst | hst <;> simp [hst, hc] at h
  | some c =>
    cases hcn : s.conns[c]? with
    | none => rcases hst with hst | hst <;> simp [hst, hc, hcn] at h
    | some conn =>
      refine ⟨c, conn, rfl, hcn, ?_⟩
      rcases hst with hst | hst <;> simpa [hst, hc, hcn] using h

theorem Client.connOk_intro {s : State} {k c : Nat} {cl : Client} {conn : Connection}
    (hst : cl.cst = .ready ∨ cl.cst = .await) (hc : cl.conn = some c) (hcn : s.conns[c]? = some conn)
    (ho : conn.owner = .client k) : cl.connOk s k = true := by
  unfold Client.connOk
  rcases hst with hst | hst <;> simp [hst, hc, hcn, ho]

/-- A client stays sound while the configuration and the owners of the connections stay. -/
theorem Client.sound_of_owners {s t : State} {k : Nat} {cl : Client} (hcfg : t.cfg = s.cfg)
    (ho : ∀ {c : Nat} {conn : Connection}, s.conns[c]? = some conn →
      ∃ conn', t.conns[c]? = some conn' ∧ conn'.owner = conn.owner)
    (h : cl.sound s k = true) : cl.sound t k = true := by
  rw [Client.sound_iff] at h ⊢
  obtain ⟨hp, hc, he, hw⟩ := h
  refine ⟨hp, ?_, hcfg ▸ he, hw⟩
  by_cases hst : cl.cst = .ready ∨ cl.cst = .await
  · obtain ⟨c, conn, hcl, hcn, hown⟩ := Client.connOk_inv hc hst
    obtain ⟨conn', hcn', hown'⟩ := ho hcn
    exact Client.connOk_intro hst hcl hcn' (hown'.trans hown)
  · unfold Client.connOk at hc ⊢
    cases hcst : cl.cst <;> simp_all

/-- Outside CONNECTING a client keeps the range of `elapsed` (R23). -/
theorem Client.elapsedOk_of_ne {g : Cfg} {cl cl' : Client} (h : cl.elapsedOk g = true)
    (he : cl'.elapsed = cl.elapsed) (hst : cl'.cst ≠ .connecting) : cl'.elapsedOk g = true := by
  simp only [Client.elapsedOk, Bool.and_eq_true, Bool.or_eq_true, decide_eq_true_eq] at h ⊢
  exact ⟨he ▸ h.1, .inl hst⟩

/-- A client at reset (R145). -/
theorem Client.sound_reset (s : State) (k : Nat) : (Client.reset s.cfg).sound s k = true :=
  Client.sound_iff.2 ⟨by simp [Client.reset], rfl, by simp [Client.elapsedOk, Client.reset], .inr rfl⟩

/-- A client that is working for the host: on its connect or on its send (R105). -/
def Client.Busy (cl : Client) : Prop := cl.caller = .host ∧ (cl.cst = .connecting ∨ cl.cst = .await)

/-- A sound host, clause by clause (R105, R128, R130). -/
theorem HostLoop.sound_iff {s : State} {h : HostLoop} :
    h.sound s = true ↔ (∀ r, h.inbox = some r → h.phase.takes r = true) ∧
      (∀ cl, s.clients[hostClient]? = some cl → h.callOk cl = true) ∧ h.targetOk = true ∧
      (h.hst = .halted → h.phase = .stopped) := by
  unfold HostLoop.sound
  cases h.inbox <;> cases s.clients[hostClient]? <;>
    simp [and_assoc, ← imp_iff_not_or]

/-- A client that is not working for the host asks nothing of it. -/
theorem HostLoop.callOk_of_not_busy {h : HostLoop} {cl : Client} (hb : ¬cl.Busy) : h.callOk cl = true := by
  unfold HostLoop.callOk
  cases hw : cl.caller <;> cases hst : cl.cst <;> first | rfl | exact absurd ⟨hw, by simp [hst]⟩ hb

/-- While its client works for the host, the host waits in that call's phase with nothing returned (log 24, log 34). -/
theorem HostLoop.callOk_inv {h : HostLoop} {cl : Client} (hc : h.callOk cl = true) (hw : cl.caller = .host) :
    (cl.cst = .connecting → h.phase = .connecting ∧ h.inbox = none) ∧
      (cl.cst = .await → ∃ p, cl.pend = some p ∧ h.phase.sends p = true ∧ h.inbox = none) := by
  unfold HostLoop.callOk at hc
  rw [hw] at hc
  constructor
  · intro hst
    simpa [hst] using hc
  · intro hst
    cases hp : cl.pend with
    | none => simp [hst, hp] at hc
    | some p => exact ⟨p, rfl, by simpa [hst, hp] using hc⟩

/-- A host that has just started, sleeps or has been given a value has no call under way. -/
theorem HostLoop.not_busy {h : HostLoop} {cl : Client} (hc : h.callOk cl = true)
    (hh : h.phase = .boot ∨ h.phase = .sleep ∨ h.inbox ≠ none) : ¬cl.Busy := by
  rintro ⟨hw, hst | hst⟩
  · obtain ⟨hp, hi⟩ := (HostLoop.callOk_inv hc hw).1 hst
    simp [hp, hi] at hh
  · obtain ⟨p, -, hs, hi⟩ := (HostLoop.callOk_inv hc hw).2 hst
    rcases hh with hh | hh | hh
    · simp [hh, HostPhase.sends] at hs
    · simp [hh, HostPhase.sends] at hs
    · exact hh hi

/-! ### The invariant over one change of the state -/

/-- The outcome is a next state that meets the invariant. -/
def NextInv (o : Host.Outcome State Fault Refusal) : Prop := ∃ t, o = .next t ∧ t.Inv

theorem nextInv_next {s : State} (h : s.Inv) : NextInv (.next s) := ⟨s, rfl, h⟩

/-- The invariant asks of every connection that its session is sound. -/
theorem conns_sound_iff {s : State} :
    (∀ (c : Nat) (k : Connection), s.conns[c]? = some k → k.sound s.cfg = true) ↔
      ∀ (c : Nat) (ses : Session), s.session? c = some ses → ses.sound s.cfg = true := by
  constructor
  · intro h c ses hs
    obtain ⟨k, hk, hks⟩ := State.conn_of_session? hs
    simpa [Connection.sound, hks] using h c k hk
  · intro h c k hk
    unfold Connection.sound
    split
    · next ses hks => exact h c ses (State.session?_eq_some hk hks)
    · rfl

namespace State.Inv

variable {s t : State} (h : s.Inv)

include h

theorem session_sound {c : Nat} {ses : Session} (hs : s.session? c = some ses) : ses.sound s.cfg = true :=
  conns_sound_iff.1 h.conns c ses hs

/-- Clients and host stay as they are, and of the connections the owners. -/
theorem of_owners (hcfg : t.cfg = s.cfg) (hclients : t.clients = s.clients) (hhost : t.host = s.host)
    (hw : t.mem.wf = true) (hf : t.mem.fits s.cfg.tableLen = true)
    (ho : ∀ {c : Nat} {conn : Connection}, s.conns[c]? = some conn →
      ∃ conn', t.conns[c]? = some conn' ∧ conn'.owner = conn.owner)
    (hs : ∀ (c : Nat) (ses : Session), t.session? c = some ses → ses.sound s.cfg = true) : t.Inv := by
  refine ⟨hcfg ▸ h.cfg, hw, hcfg ▸ hf, conns_sound_iff.2 (by rwa [hcfg]), fun k cl hk => ?_, ?_⟩
  · exact Client.sound_of_owners hcfg ho (h.clients k cl (hclients ▸ hk))
  · have hh := h.host
    rw [HostLoop.sound_iff] at hh ⊢
    rwa [hclients, hhost]

/-- Nothing but connections and store changes, and no session but a new one. -/
theorem keepsSessions {made : Nat → Prop} (hk : KeepsSessions made s t) (hclients : t.clients = s.clients)
    (hhost : t.host = s.host) (hmem : t.mem = s.mem) : t.Inv := by
  refine h.of_owners hk.cfg hclients hhost (hmem ▸ h.memWf) (hmem ▸ h.memFits) hk.owner fun c ses hs => ?_
  rcases hk.session c with he | ⟨-, -, hf⟩
  · exact h.session_sound (he ▸ hs)
  · obtain rfl := Option.some.inj (hf.symm.trans hs)
    rfl

/-- A session's step leaves its connection well served. -/
theorem sessionEffect {c taken : Nat} {sent : List Message} (he : SessionEffect c taken sent s t) (hc : Served c t) :
    t.Inv := by
  refine h.of_owners he.cfg he.clients he.host hc.memWf (he.cfg ▸ hc.memFits) he.owner fun d ses hs => ?_
  by_cases hd : d = c
  · subst hd
    exact he.cfg ▸ hc.session ses hs
  · exact h.session_sound (he.session?_ne hd ▸ hs)

/-- The store after a StoreSet (R32). -/
theorem setMem {m : Memory} (hw : m.wf = true) (hf : m.fits s.cfg.tableLen = true) : State.Inv { s with mem := m } :=
  h.of_owners rfl rfl rfl hw hf (fun hk => ⟨_, hk, rfl⟩) fun _ _ => h.session_sound

/-- A change of the host that leaves it sound. -/
theorem updHost {f : HostLoop → HostLoop} (hf : (f s.host).sound s = true) : (s.updHost f).Inv :=
  ⟨h.cfg, h.memWf, h.memFits, h.conns, h.clients, hf⟩

/-- A change of one client that leaves it sound and, of the host's client, fitting the host's phase. -/
theorem updClient {k : Nat} {f : Client → Client}
    (hf : ∀ cl, s.clients[k]? = some cl → (f cl).sound s k = true ∧
      (k = hostClient → s.host.callOk (f cl) = true)) : (s.updClient k f).Inv := by
  refine ⟨h.cfg, h.memWf, h.memFits, h.conns, fun j cl hj => ?_, ?_⟩
  · show cl.sound s j = true
    rw [State.updClient_clients, List.getElem?_modify] at hj
    by_cases hkj : k = j
    · subst hkj
      obtain ⟨cl', hcl', rfl⟩ : ∃ cl', s.clients[k]? = some cl' ∧ f cl' = cl := by simpa using hj
      exact (hf cl' hcl').1
    · exact h.clients j cl (by simpa [hkj] using hj)
  · have hh := h.host
    rw [HostLoop.sound_iff] at hh ⊢
    refine ⟨hh.1, fun cl hcl => ?_, hh.2.2⟩
    rw [State.updClient_clients, List.getElem?_modify] at hcl
    by_cases hk : k = hostClient
    · subst hk
      obtain ⟨cl', hcl', rfl⟩ : ∃ cl', s.clients[hostClient]? = some cl' ∧ f cl' = cl := by simpa using hcl
      exact (hf cl' hcl').2 rfl
    · exact hh.2.1 cl (by simpa [hk] using hcl)

/-- A value is returned: to a user, or to the host when it fits the phase and its client is done (R105). -/
theorem deliver {w : Caller} {k : Nat} {r : Return}
    (hw : w = .host → s.host.phase.takes r = true ∧ ∀ cl, s.clients[hostClient]? = some cl → ¬cl.Busy) :
    (deliver w k r s).Inv := by
  obtain ⟨-, hcall, htarget, hhalt⟩ := HostLoop.sound_iff.1 h.host
  cases w with
  | user =>
    refine h.updClient fun cl hcl => ⟨h.clients k cl hcl, ?_⟩
    rintro rfl
    exact hcall cl hcl
  | host =>
    obtain ⟨htakes, hbusy⟩ := hw rfl
    refine h.updHost (f := fun x => { x with inbox := some r })
      (HostLoop.sound_iff.2 ⟨?_, fun cl hcl => ?_, htarget, hhalt⟩)
    · rintro _ ⟨⟩
      exact htakes
    · exact HostLoop.callOk_of_not_busy (hbusy cl hcl)

/-- A client's call ends: the client changes and what the call returns goes to the caller (R105, R117, R118). -/
theorem finish {w : Caller} {k : Nat} {r : Return} {f : Client → Client}
    (hf : ∀ cl, s.clients[k]? = some cl → (f cl).sound s k = true ∧ ¬(f cl).Busy)
    (hw : w = .host → k = hostClient ∧ s.host.phase.takes r = true) :
    (Machine.deliver w k r (s.updClient k f)).Inv := by
  have hu : (s.updClient k f).Inv :=
    h.updClient fun cl hcl => ⟨(hf cl hcl).1, fun _ => HostLoop.callOk_of_not_busy (hf cl hcl).2⟩
  refine hu.deliver fun hhost => ?_
  obtain ⟨rfl, htakes⟩ := hw hhost
  refine ⟨htakes, fun cl hcl => ?_⟩
  rw [State.updClient_clients, List.getElem?_modify_eq] at hcl
  obtain ⟨cl', hcl', rfl⟩ : ∃ cl', s.clients[hostClient]? = some cl' ∧ f cl' = cl := by simpa using hcl
  exact (hf cl' hcl').2

end State.Inv

/-! ### Clients -/

/-- A client after a time unit has only waited. -/
theorem timePasses_client {s : State} {k : Nat} {cl : Client} (h : (timePasses s).clients[k]? = some cl) :
    ∃ x n, s.clients[k]? = some x ∧ cl = { x with wait := n } := by
  obtain ⟨x, hx, rfl⟩ : ∃ x, s.clients[k]? = some x ∧
      (if x.cst = .connecting then { x with wait := x.wait - 1 } else x) = cl := by
    simpa [timePasses] using h
  split
  · exact ⟨x, _, hx, rfl⟩
  · exact ⟨x, x.wait, hx, rfl⟩

/-- The host after a time unit has only waited. -/
theorem timePasses_host (s : State) : ∃ n, (timePasses s).host = { s.host with wait := n } := by
  unfold timePasses
  split
  · exact ⟨_, rfl⟩
  · exact ⟨s.host.wait, rfl⟩

section Clients

variable {s : State} (h : s.Inv) {k : Nat} {cl : Client}

include h

/-- A client that works for the host is client 0 (log 24). -/
theorem hostClient_of_caller (hk : s.clients[k]? = some cl) (hw : cl.caller = .host) : k = hostClient := by
  obtain ⟨-, -, -, hc⟩ := Client.sound_iff.1 (h.clients k cl hk)
  exact hc.resolve_right (by simp [hw])

/-- What the host's phase says while its client works for it. -/
theorem callOk_of_caller (hk : s.clients[k]? = some cl) (hw : cl.caller = .host) :
    s.host.callOk cl = true := by
  obtain rfl := hostClient_of_caller h hk hw
  exact (HostLoop.sound_iff.1 h.host).2.1 cl hk

theorem inv_attemptFails : (attemptFails k s).Inv := by
  refine h.updClient fun x hx => ⟨h.clients k x hx, ?_⟩
  rintro rfl
  exact (HostLoop.sound_iff.1 h.host).2.1 x hx

/-- A client is READY on the connection just made, and `connect()` returns true (R108). -/
theorem inv_attemptSucceeds (hk : s.clients[k]? = some cl) (hst : cl.cst = .connecting) {e : ServerEnd}
    (he : e = .foreign true ∨ e = .session Session.fresh) : (attemptSucceeds k cl.caller e s).Inv := by
  have hconn : (s.addConn (newConnection (.client k) e)).Inv :=
    h.keepsSessions (made := fun _ => True)
      (.addConn (by rcases he with rfl | rfl <;> simp [newConnection, Connection.session?])) rfl rfl rfl
  refine hconn.finish (fun x hx => ?_) fun hw => ?_
  · obtain rfl := Option.some.inj (hk.symm.trans hx)
    obtain ⟨hp, -, hel, hw⟩ := Client.sound_iff.1 (h.clients k cl hk)
    refine ⟨Client.sound_iff.2 ⟨?_, ?_, ?_, hw⟩, by simp [Client.Busy]⟩
    · simpa [hst] using hp
    · exact Client.connOk_intro (conn := newConnection (.client k) e) (.inl rfl) rfl (by simp) rfl
    · exact Client.elapsedOk_of_ne hel rfl (by simp)
  · refine ⟨hostClient_of_caller h hk hw, ?_⟩
    obtain ⟨hp, -⟩ := (HostLoop.callOk_inv (callOk_of_caller h hk hw) hw).1 hst
    show s.host.phase.takes _ = true
    rw [hp]
    rfl

theorem inv_attempt (hk : s.clients[k]? = some cl) (hst : cl.cst = .connecting) (att : Attempt) :
    (attempt k cl.caller att s).Inv := by
  unfold attempt
  split
  · exact inv_attemptFails h
  · split
    · exact inv_attemptSucceeds h hk hst (.inr rfl)
    · exact inv_attemptFails h
  · exact inv_attemptSucceeds h hk hst (.inl rfl)

/-- `connect()` of a user, or of the host in its phase for it (R107, R132). -/
theorem inv_clientConnect {w : Caller} (att : Attempt)
    (hw : w = .host → k = hostClient ∧ s.host.phase = .connecting ∧ s.host.inbox = none ∧
      ∀ x, s.clients[hostClient]? = some x → ¬x.Busy) : (clientConnect k w att s).Inv := by
  unfold clientConnect
  cases hk : s.clients[k]? with
  | none => exact h
  | some cl =>
    have returned : (deliver w k (.connect false) s).Inv := by
      refine h.deliver fun hhost => ?_
      obtain ⟨-, hph, -, hbusy⟩ := hw hhost
      exact ⟨by rw [hph]; rfl, hbusy⟩
    simp only []
    split
    · next hst =>
      have hconnecting : (s.updClient k fun x =>
          { x with elapsed := 0, cst := .connecting, wait := 0, caller := w }).Inv := by
        refine h.updClient fun x hx => ?_
        obtain rfl := Option.some.inj (hk.symm.trans hx)
        obtain ⟨hp, hc, -, -⟩ := Client.sound_iff.1 (h.clients k cl hk)
        refine ⟨Client.sound_iff.2 ⟨?_, ?_, ?_, ?_⟩, fun _ => ?_⟩
        · simpa [hst] using hp
        · simpa [Client.connOk, hst] using hc
        · simp [Client.elapsedOk]
        · cases w with
          | user => exact .inr rfl
          | host => exact .inl (hw rfl).1
        · cases w with
          | user => rfl
          | host =>
            obtain ⟨-, hph, hin, -⟩ := hw rfl
            simp [HostLoop.callOk, hph, hin]
      exact inv_attempt hconnecting (cl := { cl with elapsed := 0, cst := .connecting, wait := 0, caller := w })
        (State.updClient_get s k _ hk) rfl att
    all_goals exact returned

/-- The poll that is due (R109). -/
theorem inv_pollStep (hk : s.clients[k]? = some cl) (hst : cl.cst = .connecting) (att : Attempt) :
    (pollStep k cl att s).Inv := by
  obtain ⟨hp, hc, hel, hw⟩ := Client.sound_iff.1 (h.clients k cl hk)
  have hbound : cl.elapsed ≤ s.cfg.connectBound := by
    simp only [Client.elapsedOk, hst, Bool.and_eq_true, Bool.or_eq_true, decide_eq_true_eq] at hel
    simpa using hel.2
  have hnone : cl.pend.isSome ≠ true := by simpa [hst] using hp
  unfold pollStep
  simp only []
  split
  · next hle =>
    refine inv_attempt (cl := { cl with elapsed := cl.elapsed + s.cfg.connectPoll }) ?_
      (State.updClient_get s k _ hk) hst att
    refine h.updClient fun x hx => ?_
    obtain rfl := Option.some.inj (hk.symm.trans hx)
    refine ⟨Client.sound_iff.2 ⟨hp, hc, ?_, hw⟩, ?_⟩
    · simp only [Client.elapsedOk, Bool.and_eq_true, Bool.or_eq_true, decide_eq_true_eq]
      omega
    · rintro rfl
      exact (HostLoop.sound_iff.1 h.host).2.1 cl hk
  · refine h.finish (fun x hx => ?_) fun hhost => ?_
    · obtain rfl := Option.some.inj (hk.symm.trans hx)
      refine ⟨Client.sound_iff.2 ⟨by simpa using hnone, rfl, ?_, hw⟩, by simp [Client.Busy]⟩
      simp only [Client.elapsedOk, Bool.and_eq_true, Bool.or_eq_true, decide_eq_true_eq]
      exact ⟨by omega, .inl (by simp)⟩
    · refine ⟨hostClient_of_caller h hk hhost, ?_⟩
      rw [((HostLoop.callOk_inv (callOk_of_caller h hk hhost) hhost).1 hst).1]
      rfl

/-- A transport failure (R117). -/
theorem inv_clientFails {w : Caller}
    (hw : w = .host → k = hostClient ∧ s.host.phase.takes (.send .transport) = true) : (clientFails k w s).Inv := by
  refine h.finish (fun x hx => ?_) hw
  obtain ⟨-, -, hel, hcaller⟩ := Client.sound_iff.1 (h.clients k x hx)
  refine ⟨Client.sound_iff.2 ⟨by simp, rfl, Client.elapsedOk_of_ne hel rfl (by simp), hcaller⟩, by simp [Client.Busy]⟩

/-- The frame is sent and the client awaits its answer (R111, R112). -/
theorem inv_transmit {c : Nat} {conn : Connection} {w : Caller} {i : Instr} (hk : s.clients[k]? = some cl)
    (hc : cl.conn = some c) (hcn : s.conns[c]? = some conn) (ho : conn.owner = .client k)
    (hw : w = .host → k = hostClient ∧ (∀ tid, s.host.phase.sends (pendingOf s.cfg tid i) = true) ∧
      s.host.inbox = none) : (transmit k c w i cl s).Inv := by
  have hpush : (s.pushToServer c (frame (cl.tidCtr + 1#16) s.cfg.unitId (encode i))).Inv :=
    h.keepsSessions (made := fun _ => True) (pushToServer_keepsSessions ..) rfl rfl rfl
  refine hpush.updClient fun x hx => ?_
  obtain rfl := Option.some.inj (hk.symm.trans hx)
  obtain ⟨-, -, hel, -⟩ := Client.sound_iff.1 (h.clients k cl hk)
  refine ⟨Client.sound_iff.2 ⟨by simp, ?_, ?_, ?_⟩, fun _ => ?_⟩
  · obtain ⟨conn', hcn', ho'⟩ := (pushToServer_keepsSessions (made := fun _ => True) c _).owner hcn
    exact Client.connOk_intro (.inr rfl) hc hcn' (ho'.trans ho)
  · exact Client.elapsedOk_of_ne hel rfl (by simp)
  · cases w with
    | user => exact .inr rfl
    | host => exact .inl (hw rfl).1
  · cases w with
    | user => rfl
    | host =>
      obtain ⟨-, hsends, hin⟩ := hw rfl
      simp [HostLoop.callOk, hsends, hin]

end Clients

/-! #### What a send returns fits the phase it is made in -/

/-- A send of the phase may be refused or fail. -/
theorem takes_of_sends {ph : HostPhase} {p : Pending} {r : SendResult} (h : ph.sends p = true)
    (hr : ∀ d, r ≠ .ok d) : ph.takes (.send r) = true := by
  cases ph
  case awaitRule | awaitBack => rfl
  case awaitDi | awaitIr | awaitHr =>
    cases r with
    | ok d => exact absurd rfl (hr d)
    | _ => rfl
  all_goals simp [HostPhase.sends] at h

/-- The payload of an accepted response is what the response decodes to (R115, R116). -/
theorem decodeResponse_of_sendResult {g : Cfg} {p : Pending} {m : Message} {d : Payload}
    (h : sendResult g p m = .ok d) : decodeResponse p.fc (pduOf m) p.cnt.toNat = some d := by
  unfold sendResult at h
  split at h
  · cases h
  · split at h
    · cases h
    · split at h
      · cases h
        assumption
      · cases h

/-- What comes back for the host's send is what its phase takes (R121, R122, R124, R127). -/
theorem takes_sendResult {ph : HostPhase} {g : Cfg} {p : Pending} (h : ph.sends p = true) (m : Message) :
    ph.takes (.send (sendResult g p m)) = true := by
  cases hr : sendResult g p m with
  | ok d =>
    have hd := decodeResponse_of_sendResult hr
    cases ph <;> simp only [HostPhase.sends, decide_eq_true_eq, Bool.false_eq_true] at h
    case awaitRule | awaitBack => rfl
    all_goals
      obtain ⟨hfc, hcnt⟩ := h
      rw [hfc, hcnt] at hd
      obtain rfl := Option.some.inj hd
      rfl
  | _ => exact takes_of_sends h (by simp)

section Clients

variable {s : State} (h : s.Inv) {k : Nat} {cl : Client}

include h

/-- `send()` of a user, or of the host in the phase of that send (R106, R110 to R112). -/
theorem nextInv_clientSend {w : Caller} {r : Request} (err : Bool)
    (hw : w = .host → k = hostClient ∧ (∀ tid, s.host.phase.sends (pendingOf s.cfg tid r.instr) = true) ∧
      s.host.inbox = none ∧ ∀ x, s.clients[hostClient]? = some x → ¬x.Busy) : NextInv (clientSend k w r err s) := by
  have returned : (deliver w k (.send .notReady) s).Inv := by
    refine h.deliver fun hhost => ?_
    obtain ⟨-, hsends, -, hbusy⟩ := hw hhost
    exact ⟨takes_of_sends (hsends 0#16) (by simp), hbusy⟩
  unfold clientSend
  cases hk : s.clients[k]? with
  | none => exact nextInv_next h
  | some cl =>
    simp only []
    cases hst : cl.cst <;> simp only []
    case await => exact nextInv_next h
    case ready =>
      obtain ⟨-, hc, -, -⟩ := Client.sound_iff.1 (h.clients k cl hk)
      obtain ⟨c, conn, hcl, hcn, ho⟩ := Client.connOk_inv hc (.inl hst)
      simp only [hcl, hcn]
      split_ifs
      · exact nextInv_next returned
      · exact nextInv_next h
      · refine nextInv_next (inv_clientFails h fun hhost => ?_)
        obtain ⟨hk0, hsends, -⟩ := hw hhost
        exact ⟨hk0, takes_of_sends (hsends 0#16) (by simp)⟩
      · refine nextInv_next (inv_transmit h hk hcl hcn ho fun hhost => ?_)
        obtain ⟨hk0, hsends, hin, -⟩ := hw hhost
        exact ⟨hk0, hsends, hin⟩
    all_goals exact nextInv_next returned

/-- What the host's phase takes while its client awaits the answer to a send of it. -/
theorem sends_of_await (hk : s.clients[k]? = some cl) (hst : cl.cst = .await) {p : Pending} (hp : cl.pend = some p)
    (hw : cl.caller = .host) : k = hostClient ∧ s.host.phase.sends p = true := by
  refine ⟨hostClient_of_caller h hk hw, ?_⟩
  obtain ⟨q, hq, hs, -⟩ := (HostLoop.callOk_inv (callOk_of_caller h hk hw) hw).2 hst
  obtain rfl := Option.some.inj (hp.symm.trans hq)
  exact hs

/-- The awaited message is reported (R114, R115). -/
theorem inv_report {p : Pending} (hk : s.clients[k]? = some cl) (hst : cl.cst = .await) (hp : cl.pend = some p)
    (m : Message) : (report k cl p m s).Inv := by
  refine h.finish (fun x hx => ?_) fun hw => ?_
  · obtain rfl := Option.some.inj (hk.symm.trans hx)
    obtain ⟨-, hc, hel, hcaller⟩ := Client.sound_iff.1 (h.clients k cl hk)
    obtain ⟨c, conn, hcl, hcn, ho⟩ := Client.connOk_inv hc (.inr hst)
    refine ⟨Client.sound_iff.2 ⟨by simp, Client.connOk_intro (.inl rfl) hcl hcn ho, ?_, hcaller⟩, by simp [Client.Busy]⟩
    exact Client.elapsedOk_of_ne hel rfl (by simp)
  · obtain ⟨hk0, hs⟩ := sends_of_await h hk hst hp hw
    exact ⟨hk0, takes_sendResult hs m⟩

/-- Receipt (R113). -/
theorem nextInv_awaitStep (hk : s.clients[k]? = some cl) (hst : cl.cst = .await) (err : Bool) :
    NextInv (awaitStep k cl err s) := by
  obtain ⟨hpend, hc, -, -⟩ := Client.sound_iff.1 (h.clients k cl hk)
  obtain ⟨p, hp⟩ := Option.isSome_iff_exists.1 (hpend.2 hst)
  obtain ⟨c, conn, hcl, hcn, -⟩ := Client.connOk_inv hc (.inr hst)
  have hfails : ∀ hw : cl.caller = .host, k = hostClient ∧ s.host.phase.takes (.send .transport) = true := fun hw =>
    (sends_of_await h hk hst hp hw).imp_right fun hs => takes_of_sends hs (by simp)
  have hpop : (s.popToClient c).Inv :=
    h.keepsSessions (made := fun _ => True) (popToClient_keepsSessions c) rfl rfl rfl
  unfold awaitStep
  simp only [hp, hcl, hcn]
  split
  · exact nextInv_next (inv_clientFails h hfails)
  · split
    · exact nextInv_next h
    · split
      · exact nextInv_next (inv_clientFails hpop hfails)
      · exact nextInv_next (inv_report hpop hk hst hp _)

/-- A step of a client's own (R109, R113). -/
theorem nextInv_clientStep (err : Bool) (att : Attempt) : NextInv (clientStep k err att s) := by
  unfold clientStep
  cases hk : s.clients[k]? with
  | none => exact nextInv_next h
  | some cl =>
    simp only []
    cases hst : cl.cst <;> simp only []
    case connecting =>
      split
      · exact nextInv_next (inv_pollStep h hk hst att)
      · exact nextInv_next h
    case await => exact nextInv_awaitStep h hk hst err
    all_goals exact nextInv_next h

/-- A closed client is IDLE and its blocked caller gets an answer (R118). -/
theorem inv_releaseCaller (hk : s.clients[k]? = some cl) :
    (releaseCaller k cl (s.updClient k fun x => { x with cst := .idle, pend := none, conn := none })).Inv := by
  have hf : ∀ x, s.clients[k]? = some x →
      Client.sound s k { x with cst := .idle, pend := none, conn := none } = true ∧
        ¬Client.Busy { x with cst := .idle, pend := none, conn := none } := by
    intro x hx
    obtain ⟨-, -, hel, hcaller⟩ := Client.sound_iff.1 (h.clients k x hx)
    refine ⟨Client.sound_iff.2 ⟨by simp, rfl, Client.elapsedOk_of_ne hel rfl (by simp), hcaller⟩, by simp [Client.Busy]⟩
  unfold releaseCaller
  split
  · next hst =>
    refine h.finish hf fun hw => ?_
    obtain ⟨p, hp⟩ := Option.isSome_iff_exists.1 ((Client.sound_iff.1 (h.clients k cl hk)).1.2 hst)
    exact (sends_of_await h hk hst hp hw).imp_right fun hs => takes_of_sends hs (by simp)
  · next hst =>
    refine h.finish hf fun hw => ⟨hostClient_of_caller h hk hw, ?_⟩
    rw [((HostLoop.callOk_inv (callOk_of_caller h hk hw) hw).1 hst).1]
    rfl
  all_goals exact h.updClient fun x hx => ⟨(hf x hx).1, fun _ => HostLoop.callOk_of_not_busy (hf x hx).2⟩

/-- `close()` (R118). -/
theorem inv_clientClose : (clientClose k s).Inv := by
  unfold clientClose
  cases hk : s.clients[k]? with
  | none => exact h
  | some cl =>
    simp only []
    split
    · exact h
    · split
      · next c _ =>
        have hclosed : (closeClientEnd c s).Inv :=
          h.keepsSessions (made := fun _ => True) (closeClientEnd_keepsSessions c) rfl rfl rfl
        exact inv_releaseCaller hclosed hk
      · exact inv_releaseCaller h hk

/-- A new client beside the others (R117). -/
theorem inv_newClient : (newClient s).Inv := by
  obtain ⟨htakes, hcall, hrest⟩ := HostLoop.sound_iff.1 h.host
  refine ⟨h.cfg, h.memWf, h.memFits, h.conns, fun k cl hk => ?_, HostLoop.sound_iff.2 ⟨htakes, fun cl hk => ?_, hrest⟩⟩
  · rw [newClient_clients, List.getElem?_append] at hk
    split at hk
    · exact h.clients k cl hk
    · obtain rfl := List.mem_singleton.1 (List.mem_of_getElem? hk)
      exact Client.sound_reset s k
  · rw [newClient_clients, List.getElem?_append] at hk
    split at hk
    · exact hcall cl hk
    · obtain rfl := List.mem_singleton.1 (List.mem_of_getElem? hk)
      rfl

/-- Waiting changes no clause of the invariant (R109, R121, R141). -/
theorem inv_timePasses : (timePasses s).Inv := by
  obtain ⟨htakes, hcall, htarget, hhalt⟩ := HostLoop.sound_iff.1 h.host
  refine ⟨h.cfg, h.memWf, h.memFits, h.conns, fun k cl hk => ?_, ?_⟩
  · obtain ⟨x, n, hx, rfl⟩ := timePasses_client hk
    exact h.clients k x hx
  · obtain ⟨n, hn⟩ := timePasses_host s
    rw [hn]
    refine HostLoop.sound_iff.2 ⟨htakes, fun cl hk => ?_, htarget, hhalt⟩
    obtain ⟨x, m, hx, rfl⟩ := timePasses_client hk
    exact hcall x hx

end Clients

/-! ### The host -/

/-! #### The state rules (R123 to R126, R130) -/

/-- The scan gives a floor of the list, or the best before it. -/
theorem nearest_mem {current : Nat} {l : List (Nat × Bool)} {best : Option Nat} {b : Nat}
    (h : nearest current l best = some b) : best = some b ∨ b ∈ l.map Prod.fst := by
  induction l generalizing best with
  | nil => exact .inl h
  | cons x rest ih =>
    obtain ⟨i, req⟩ := x
    unfold nearest at h
    rcases ih h with hb | hb
    · split_ifs at hb
      · obtain rfl := Option.some.inj hb
        exact .inr (by simp)
      · exact .inl hb
    · exact .inr (List.mem_cons_of_mem _ hb)

/-- A selected floor is one of the four (R124). -/
theorem selectedFloor_lt {x : TickInputs} {b : Nat} (h : selectedFloor x = some b) : b < 4 := by
  rcases nearest_mem h with hb | hb
  · cases hb
  · simp only [List.map_cons, List.map_nil, List.mem_cons, List.not_mem_nil, or_false] at hb
    omega

/-- The host with the state and target of a rule's outcome. -/
def RuleOutcome.applied (r : RuleOutcome) (h : HostLoop) : HostLoop := { h with hst := r.hst, localTarget := r.target }

/-- The rule of a host that runs gives a state that is not Halted, with a target code that goes with it. -/
theorem hostRule_targetOk {h : HostLoop} (ht : h.targetOk = true) (hh : h.hst ≠ .halted) (x : TickInputs) :
    (hostRule h.hst h.localTarget x).hst ≠ .halted ∧
      ((hostRule h.hst h.localTarget x).applied h).targetOk = true := by
  cases hst : h.hst <;> simp only [HostLoop.targetOk, hst] at ht
  case idle =>
    unfold hostRule
    simp only []
    split <;> exact ⟨by simp, ht⟩
  case awaitingSelection =>
    unfold hostRule
    simp only []
    split
    · next b hb =>
      have := selectedFloor_lt hb
      simp only [RuleOutcome.applied, HostLoop.targetOk, decide_eq_true_eq, BitVec.toNat_ofNat]
      exact ⟨by simp, by omega⟩
    · exact ⟨by simp, ht⟩
  case awaitingAck =>
    unfold hostRule
    simp only []
    split
    · simp [RuleOutcome.applied, HostLoop.targetOk]
    · exact ⟨by simp, ht⟩
  case awaitingClear =>
    unfold hostRule
    simp only []
    split <;> exact ⟨by simp, ht⟩
  case halted => exact absurd hst hh

/-- Any target code is at most 4, as that of a host that halts must be (R130). -/
theorem HostLoop.target_le {h : HostLoop} (ht : h.targetOk = true) : h.localTarget.toNat ≤ 4 := by
  unfold HostLoop.targetOk at ht
  split at ht <;> simp only [decide_eq_true_eq] at ht
  · simp [ht]
  · simp [ht]
  · simp [ht]
  · exact ht.2
  · exact ht

/-! #### What each phase takes (R122) -/

theorem HostPhase.takes_awaitDi {p : Payload} (h : HostPhase.takes .awaitDi (.send (.ok p)) = true) :
    ∃ a b c, p = .bits [a, b, c] := by
  cases p with
  | bits bs =>
    rcases bs with _ | ⟨a, _ | ⟨b, _ | ⟨c, _ | _⟩⟩⟩
    case cons.cons.cons.nil => exact ⟨a, b, c, rfl⟩
    all_goals cases h
  | _ => cases h

theorem HostPhase.takes_awaitIr {p : Payload} (h : HostPhase.takes .awaitIr (.send (.ok p)) = true) :
    ∃ a b c d e f, p = .regs [a, b, c, d, e, f] := by
  cases p with
  | regs vs =>
    rcases vs with _ | ⟨a, _ | ⟨b, _ | ⟨c, _ | ⟨d, _ | ⟨e, _ | ⟨f, _ | _⟩⟩⟩⟩⟩⟩
    case cons.cons.cons.cons.cons.cons.nil => exact ⟨a, b, c, d, e, f, rfl⟩
    all_goals cases h
  | _ => cases h

theorem HostPhase.takes_awaitHr {p : Payload} (h : HostPhase.takes .awaitHr (.send (.ok p)) = true) :
    ∃ a, p = .regs [a] := by
  cases p with
  | regs vs =>
    rcases vs with _ | ⟨a, _ | _⟩
    case cons.nil => exact ⟨a, rfl⟩
    all_goals cases h
  | _ => cases h

/-! #### The tick (R121, R122, R127, R128) -/

section Host

variable {s : State} (h : s.Inv)

include h

/-- While the host has just started, sleeps or has been given a value, client 0 does not work for it. -/
theorem not_busy_of_host (hh : s.host.phase = .boot ∨ s.host.phase = .sleep ∨ s.host.inbox ≠ none) (cl : Client)
    (hcl : s.clients[hostClient]? = some cl) : ¬cl.Busy :=
  HostLoop.not_busy ((HostLoop.sound_iff.1 h.host).2.1 cl hcl) hh

theorem not_halted_of_phase (hp : s.host.phase ≠ .stopped) : s.host.hst ≠ .halted := fun hst =>
  hp ((HostLoop.sound_iff.1 h.host).2.2.2 hst)

theorem host_targetOk : s.host.targetOk = true := (HostLoop.sound_iff.1 h.host).2.2.1

/-- A change of the host while no call of it is under way, with nothing returned. -/
theorem inv_updHost_of_not_busy {f : HostLoop → HostLoop}
    (hb : ∀ cl, s.clients[hostClient]? = some cl → ¬cl.Busy) (hi : (f s.host).inbox = none)
    (ht : (f s.host).targetOk = true) (hh : (f s.host).hst = .halted → (f s.host).phase = .stopped) :
    (s.updHost f).Inv :=
  h.updHost (HostLoop.sound_iff.2
    ⟨by simp [hi], fun cl hcl => HostLoop.callOk_of_not_busy (hb cl hcl), ht, hh⟩)

/-- A send of the host, made after a change of it that is no halt. -/
theorem nextInv_hostSend {f : HostLoop → HostLoop} {r : Request} {ph : HostPhase} (err : Bool)
    (hb : ∀ cl, s.clients[hostClient]? = some cl → ¬cl.Busy)
    (hs : ∀ tid, ph.sends (pendingOf s.cfg tid r.instr) = true) (ht : (f s.host).targetOk = true)
    (hh : (f s.host).hst ≠ .halted) : NextInv (hostSend r err ph (s.updHost f)) := by
  have hu : (s.updHost fun x => { f x with phase := ph, inbox := none }).Inv :=
    inv_updHost_of_not_busy h hb rfl ht fun hst => absurd hst hh
  exact nextInv_clientSend hu err fun _ => ⟨rfl, hs, rfl, hb⟩

/-- The loop terminates (R128). -/
theorem inv_hostHalts (hi : s.host.inbox ≠ none) : (hostHalts s).Inv := by
  refine inv_updHost_of_not_busy h (not_busy_of_host h (.inr (.inr hi))) rfl ?_ fun _ => rfl
  simpa [HostLoop.targetOk] using HostLoop.target_le (host_targetOk h)

theorem nextInv_whenFree {cl : Client} {k : Host.Outcome State Fault Refusal} (hk : NextInv k) :
    NextInv (whenFree cl k s) := by
  unfold whenFree
  split
  · exact nextInv_next h
  · exact hk

/-- The host goes on with the payload its phase takes, or stops, or waits. -/
theorem nextInv_afterSend {k : Payload → Host.Outcome State Fault Refusal}
    (hph : ∀ ok, s.host.phase.takes (.connect ok) = false)
    (hk : ∀ p, s.host.inbox = some (.send (.ok p)) → NextInv (k p)) : NextInv (afterSend k s) := by
  unfold afterSend
  split
  · exact nextInv_next h
  · next p hi => exact hk p hi
  · next hi => exact nextInv_next (inv_hostHalts h (by simp [hi]))
  · next ok hi =>
    have := (HostLoop.sound_iff.1 h.host).1 _ hi
    simp [hph ok] at this

section Payload

variable {p : Payload} (hi : s.host.inbox = some (.send (.ok p)))

include hi

/-- The payload is one the phase takes. -/
theorem takes_of_inbox : s.host.phase.takes (.send (.ok p)) = true := (HostLoop.sound_iff.1 h.host).1 _ hi

theorem not_busy_of_payload (cl : Client) (hcl : s.clients[hostClient]? = some cl) : ¬cl.Busy :=
  not_busy_of_host h (.inr (.inr (by simp [hi]))) cl hcl

/-- The rule is applied and the write-back sent (R127). -/
theorem nextInv_applyRule {f : HostLoop → HostLoop} (err : Bool) (ht : (f s.host).targetOk = true)
    (hh : (f s.host).hst ≠ .halted) : NextInv (applyRule (currentRule (s.updHost f)) err (s.updHost f)) := by
  obtain ⟨hrun, htarget⟩ := hostRule_targetOk ht hh (f s.host).inputs
  exact nextInv_hostSend h (f := fun x => (currentRule (s.updHost f)).applied (f x)) err
    (not_busy_of_payload h hi) (fun _ => rfl) htarget hrun

theorem nextInv_takeDi (hp : s.host.phase = .awaitDi) (err : Bool) : NextInv (takeDi err s p) := by
  obtain ⟨_, _, _, rfl⟩ := HostPhase.takes_awaitDi (hp ▸ takes_of_inbox h hi)
  exact nextInv_hostSend h err (not_busy_of_payload h hi) (fun _ => rfl) (host_targetOk h)
    (not_halted_of_phase h (by simp [hp]))

theorem nextInv_takeIr (hp : s.host.phase = .awaitIr) (err : Bool) : NextInv (takeIr err s p) := by
  obtain ⟨_, _, _, _, _, _, rfl⟩ := HostPhase.takes_awaitIr (hp ▸ takes_of_inbox h hi)
  exact nextInv_hostSend h err (not_busy_of_payload h hi) (fun _ => rfl) (host_targetOk h)
    (not_halted_of_phase h (by simp [hp]))

/-- The state's rule writes, or the write-back follows at once (R123 to R127). -/
theorem nextInv_takeHr (hp : s.host.phase = .awaitHr) (err : Bool) : NextInv (takeHr err s p) := by
  obtain ⟨_, rfl⟩ := HostPhase.takes_awaitHr (hp ▸ takes_of_inbox h hi)
  have hrun : s.host.hst ≠ .halted := not_halted_of_phase h (by simp [hp])
  simp only [takeHr]
  split
  · exact nextInv_hostSend h err (not_busy_of_payload h hi) (fun _ => rfl) (host_targetOk h) hrun
  · exact nextInv_applyRule h hi err (host_targetOk h) hrun

end Payload

/-- One step of the host (R121 to R132). -/
theorem nextInv_hostStep (err : Bool) (att : Attempt) : NextInv (hostStep err att s) := by
  have htarget := host_targetOk h
  unfold hostStep
  cases hk : s.clients[hostClient]? with
  | none => exact nextInv_next h
  | some cl =>
    simp only []
    cases hp : s.host.phase <;> simp only []
    case boot =>
      split
      · have hb := not_busy_of_host h (.inl hp)
        have hu : (s.updHost fun x => { x with phase := .connecting, inbox := none }).Inv :=
          inv_updHost_of_not_busy h hb rfl htarget fun hst => absurd hst (not_halted_of_phase h (by simp [hp]))
        exact nextInv_next (inv_clientConnect hu att fun _ => ⟨rfl, rfl, rfl, hb⟩)
      · exact nextInv_next h
    case connecting =>
      split
      · exact nextInv_next h
      · next ok hi =>
        exact nextInv_next (inv_updHost_of_not_busy h (not_busy_of_host h (.inr (.inr (by simp [hi])))) rfl htarget
          fun hst => absurd hst (not_halted_of_phase h (by simp [hp])))
      · next r hi =>
        have := (HostLoop.sound_iff.1 h.host).1 _ hi
        simp [hp, HostPhase.takes] at this
    case sleep =>
      split
      · exact nextInv_whenFree h (nextInv_hostSend h (f := id) err (not_busy_of_host h (.inr (.inl hp)))
          (fun _ => rfl) htarget (not_halted_of_phase h (by simp [hp])))
      · exact nextInv_next h
    case awaitDi =>
      exact nextInv_afterSend h (by simp [hp, HostPhase.takes]) fun p hi =>
        nextInv_whenFree h (nextInv_takeDi h hi hp err)
    case awaitIr =>
      exact nextInv_afterSend h (by simp [hp, HostPhase.takes]) fun p hi =>
        nextInv_whenFree h (nextInv_takeIr h hi hp err)
    case awaitHr =>
      exact nextInv_afterSend h (by simp [hp, HostPhase.takes]) fun p hi =>
        nextInv_whenFree h (nextInv_takeHr h hi hp err)
    case awaitRule =>
      exact nextInv_afterSend h (by simp [hp, HostPhase.takes]) fun p hi =>
        nextInv_whenFree h (nextInv_applyRule h hi (f := id) err htarget (not_halted_of_phase h (by simp [hp])))
    case awaitBack =>
      refine nextInv_afterSend h (by simp [hp, HostPhase.takes]) fun p hi => nextInv_next ?_
      exact inv_updHost_of_not_busy h (not_busy_of_payload h hi) rfl htarget
        fun hst => absurd hst (not_halted_of_phase h (by simp [hp]))
    case stopped => exact nextInv_next h

end Host

/-! ### Every move -/

/-- The state after a reset in a legal configuration (R145). -/
theorem inv_resetWith {g : Cfg} (hg : g.legal = true) : (State.resetWith g).Inv := by
  refine ⟨hg, rfl, rfl, fun c k hk => ?_, fun k cl hk => ?_, rfl⟩
  · simp [State.resetWith] at hk
  · obtain rfl := List.mem_singleton.1 (List.mem_of_getElem? hk)
    exact Client.sound_reset (State.resetWith g) k

/-- The Listener's step (R63). -/
theorem inv_acceptStep {s : State} (h : s.Inv) (c : Nat) : (acceptStep c s).Inv := by
  have hk := acceptStep_keepsSessions (made := fun _ => True) (c := c) trivial s
  have hrest : (acceptStep c s).clients = s.clients ∧ (acceptStep c s).host = s.host := by
    unfold acceptStep
    split <;> exact ⟨rfl, rfl⟩
  exact h.keepsSessions hk hrest.1 hrest.2 (acceptStep_mem c s)

/-- Every move from a state that meets the invariant answers a state that meets it. -/
theorem nextInv_act {s : State} (h : s.Inv) : NextInv (act s.choice s) := by
  cases hc : s.choice <;> simp only [act]
  case session c err fail =>
    cases hs : s.session? c with
    | none =>
      rw [sessionStep_of_none hs]
      exact nextInv_next h
    | some ses =>
      obtain ⟨t, ht, hserved⟩ := nextServed_sessionStep h.memWf h.memFits hs (h.session_sound hs) h.cfg hc
      obtain ⟨_, _, he, -⟩ := sessionStep_effect hc ht
      exact ⟨t, ht, h.sessionEffect he hserved⟩
  case accept c =>
    exact nextInv_next (inv_acceptStep h c)
  case client => exact nextInv_clientStep h ..
  case userConnect => exact nextInv_next (inv_clientConnect h _ (by simp))
  case userSend => exact nextInv_clientSend h _ (by simp)
  case userClose => exact nextInv_next (inv_clientClose h)
  case newClient => exact nextInv_next (inv_newClient h)
  case host => exact nextInv_hostStep h ..
  case stopTicks => exact nextInv_next (h.updHost (f := fun x => { x with scheduled := false }) h.host)
  case time => exact nextInv_next (inv_timePasses h)
  case extGet => rw [extGet_eq]; exact nextInv_next h
  case extSet tab a vals fail =>
    refine nextInv_next ?_
    unfold extSet
    split
    · next m hm =>
      obtain ⟨hw, hf⟩ := storeSet_keeps hm h.memWf h.memFits
      exact h.setMem hw hf
    · exact h
  case restart => exact nextInv_next (inv_resetWith h.cfg)
  all_goals refine nextInv_next (h.keepsSessions (made := fun _ => True) ?_ rfl rfl rfl)
  case peerOpen => exact .addConn (.inl rfl)
  case peerSend => exact peerSend_keepsSessions ..
  case peerRecv => exact peerRecv_keepsSessions ..
  case peerClose => exact peerClose_keepsSessions ..
  case foreignSend => exact foreignSend_keepsSessions ..
  case foreignRecv => exact foreignRecv_keepsSessions ..
  case foreignClose => exact foreignClose_keepsSessions ..

/-- A step draws the next move besides, which no clause of the invariant speaks of. -/
theorem nextInv_step {s : State} (h : s.Inv) : NextInv (step s) := by
  obtain ⟨t, ht, hinv⟩ := nextInv_act h
  exact ⟨redraw s.draws t, by rw [step, ht]; rfl, hinv.cfg, hinv.memWf, hinv.memFits, hinv.conns, hinv.clients,
    hinv.host⟩

/-- Settles O11: the one next state that a step answers meets the invariant. -/
theorem stepKeepsInvariant : Obligations.StepKeepsInvariant := by
  unfold Obligations.StepKeepsInvariant
  intro s t h hst
  obtain ⟨u, hu, hinv⟩ := nextInv_step h
  obtain rfl := Host.Outcome.next.inj (hst.symm.trans hu)
  exact hinv

/-- Settles O12: from a state that meets the invariant a step answers a next state. -/
theorem stepNeverStops : Obligations.StepNeverStops := by
  unfold Obligations.StepNeverStops
  intro s h
  obtain ⟨t, ht, -⟩ := nextInv_step h
  exact ⟨t, ht⟩

end Sys2Proof.Machine
end

section
/-! The two store primitives as the spec words them (spec/20_memory.md R31 to R33): when each fails and which cells it
reads or writes, and from them O40 and O41. -/

namespace Sys2Proof.Machine

/-- The bit tables (R17). -/
theorem isBitTable_iff {t : TableKind} : isBitTable t = true ↔ t = .di ∨ t = .co := by
  cases t <;> decide

/-- The register tables (R17). -/
theorem isBitTable_eq_false_iff {t : TableKind} : isBitTable t = false ↔ t = .ir ∨ t = .hr := by
  cases t <;> decide

/-- Without the draw no store call fails (R34). -/
@[simp] theorem storeFails_false (s : State) : storeFails s false = false := Bool.and_false _

/-! ### StoreGet -/

/-- A StoreGet without a store failure fails exactly beyond the table (R31). -/
theorem storeGet_of_not_storeFails {s : State} {fail : Bool} (hf : storeFails s fail = false) (t : TableKind)
    (a c : Nat) :
    storeGet s t a c fail =
      if a + c > s.cfg.tableLen then none
      else some ((List.range c).map fun i => readCell t (s.mem.cell t (a + i))) := by
  simp [storeGet, hf]

/-- The cells of a bit table read as Booleans. -/
theorem map_readCell_bits {t : TableKind} (ht : isBitTable t = true) (s : State) (a c : Nat) :
    ((List.range c).map fun i => readCell t (s.mem.cell t (a + i))) = (s.bitsAt t a c).map .bool := by
  simp [State.bitsAt, readCell, ht]

/-- The cells of a register table read as their 16-bit values. -/
theorem map_readCell_words {t : TableKind} (ht : isBitTable t = false) (s : State) (a c : Nat) :
    ((List.range c).map fun i => readCell t (s.mem.cell t (a + i))) = (s.wordsAt t a c).map ofWord := by
  simp [State.wordsAt, readCell, ht]

/-- Settles O40: what the cells of the range read as is a matter of the table's type. -/
theorem storeGetRule : Obligations.StoreGetRule := by
  unfold Obligations.StoreGetRule
  intro s t a c fail hf
  rw [storeGet_of_not_storeFails hf]
  cases ht : isBitTable t with
  | true => rw [map_readCell_bits ht, if_pos (isBitTable_iff.1 ht)]
  | false =>
    rw [map_readCell_words ht, if_neg fun hb => Bool.false_ne_true (ht.symm.trans (isBitTable_iff.2 hb))]
    rfl

/-! ### StoreSet -/

/-- The values that are not of the type of a table's cells (R33). -/
theorem storable_eq_false_iff {t : TableKind} {v : Value} :
    storable t v = false ↔
      v = .other ∨
        ((t = .ir ∨ t = .hr) ∧ ((∃ b, v = .bool b) ∨ ∃ n : Int, v = .int n ∧ (n < 0 ∨ 65535 < n))) := by
  rw [← isBitTable_eq_false_iff]
  cases v with
  | bool b => simp
  | int n => simp [storable]; omega
  | other => simp [storable]

/-- A StoreSet without a store failure fails exactly when the range leaves the table or a value is not of the table's
type (R32, R33). -/
theorem storeSet_eq_none_iff {s : State} {fail : Bool} (hf : storeFails s fail = false) {t : TableKind} {a : Nat}
    {vals : List Value} :
    storeSet s t a vals fail = none ↔ a + vals.length > s.cfg.tableLen ∨ ∃ v ∈ vals, storable t v = false := by
  by_cases hr : a + vals.length > s.cfg.tableLen <;> simp [storeSet, hf, hr]

/-- Writing the cells `vs` from cell `a` on writes those cells and no other. -/
theorem State.writes_setCells {s : State} (hw : s.mem.wf = true) (t : TableKind) (a : Nat) (vs : List Word) :
    s.writes (s.mem.setCells t a vs) t a vs.length fun j => vs.getD j 0#16 := by
  refine ⟨Memory.wf_setCells hw t a vs, fun u b => ?_⟩
  split_ifs with h
  · obtain ⟨rfl, hab, hb⟩ := h
    have hj : b - a < vs.length := by omega
    obtain ⟨j, rfl⟩ := Nat.exists_eq_add_of_le hab
    rw [Nat.add_sub_cancel_left] at hj ⊢
    rw [Memory.cell_setCells_inside hw _ _ _ hj]
    exact (List.getD_eq_getElem _ _ hj).symm
  · refine Memory.cell_setCells_outside _ _ _ _ ?_
    by_cases hu : u = t
    · simp only [hu, true_and] at h
      omega
    · exact .inl hu

/-- A StoreSet that succeeds writes every cell of its range and no other (R32). -/
theorem State.writes_of_storeSet {s : State} {t : TableKind} {a : Nat} {vals : List Value} {fail : Bool} {m : Memory}
    (hw : s.mem.wf = true) (hm : storeSet s t a vals fail = some m) :
    s.writes m t a vals.length fun j => (vals.map (cellOf t)).getD j 0#16 := by
  obtain ⟨-, -, -, rfl⟩ := storeSet_eq_some.1 hm
  have h := State.writes_setCells hw t a (vals.map (cellOf t))
  rwa [List.length_map] at h

/-- The cell of a bit table that an integer is stored as (R32). -/
theorem cellOf_int {t : TableKind} (ht : isBitTable t = true) (n : Int) :
    cellOf t (.int n) = if n = 0 then 0#16 else 1#16 := by
  simp [cellOf, ht, truthOf]

/-- The cell of a register table that an integer of its type is stored as (R32). -/
theorem cellOf_natCast {t : TableKind} (ht : isBitTable t = false) (n : Nat) :
    cellOf t (.int n) = BitVec.ofNat 16 n := by
  simp [cellOf, ht, wordOf]

/-- Settles O41: the values a StoreSet writes are stored cell by cell, in the table's type. -/
theorem storeSetRule : Obligations.StoreSetRule := by
  unfold Obligations.StoreSetRule
  intro s t a vals fail hf hw
  refine ⟨?fails, fun m hm => ?writes⟩
  case fails => simp only [storeSet_eq_none_iff hf, storable_eq_false_iff]
  case writes =>
    refine ⟨_, State.writes_of_storeSet hw hm, fun j v hv => ?_⟩
    have hj : (vals.map (cellOf t)).getD j 0#16 = cellOf t v := by simp [hv]
    rw [← isBitTable_iff, ← isBitTable_eq_false_iff]
    refine ⟨fun ht => ?_, fun ht n hn => ?_⟩
    · cases v with
      | bool b => exact hj.trans (cellOf_bool ht b)
      | int n => exact hj.trans (cellOf_int ht n)
      | other => exact hj.trans (by simp [cellOf, ht, truthOf])
    · subst hn
      exact hj.trans (cellOf_natCast ht n)

end Sys2Proof.Machine
end

section
/-! A store call that fails by the draw under STORE_FAULTS (spec/20_memory.md R34, spec/40_server_pipeline.md R71),
whatever instruction makes it, and from it O36. -/

namespace Sys2Proof.Machine

/-- MWHR's second store call is a StoreSet of the masked value its first has latched (R90). -/
theorem maskWrite_eq {a : Active} {v : Value} {vs : List Value} (hr : a.ses.latch.rvals = some (v :: vs))
    (addr andm orm : Word) :
    maskWrite addr andm orm a =
      writeThen .hr addr.toNat [ofWord (maskedValue (wordOf v) andm orm)]
        (respond (maskPdu .mwhr addr andm orm) a.conn) a := by
  funext s
  simp [maskWrite, hr]

/-- When the store call of an executed instruction fails, 0x04 is raised, whichever call it is (R71). -/
theorem bodyOf_of_storeFails {s : State} {a : Active} {i : Instr} (hf : storeFails s a.fail = true)
    (hi : i.code.cls = .std ∨ i.code.cls = .ext)
    (hv : i.code = .mwhr → a.ses.calls = 0 ∨ ∃ v, a.ses.latch.rvals = some [v]) :
    bodyOf i a s = raiseException 0x04#8 a.conn s := by
  cases i
  case rdco | rddi | rdhr | rdir => exact readThen_fails hf ..
  case wsco | wsdi | wshr | wsir | wmco | wmdi | wmhr | wmir => exact writeThen_fails hf ..
  case mwhr =>
    simp only [bodyOf]
    split_ifs with hz
    · exact readThen_fails hf ..
    · obtain ⟨v, hr⟩ := (hv rfl).resolve_left hz
      rw [maskWrite_eq hr]
      exact writeThen_fails hf ..
  case rwhr =>
    simp only [bodyOf]
    split_ifs
    · exact writeThen_fails hf ..
    · exact readThen_fails hf ..
  all_goals exact absurd hi (by simp [Instr.code, Code.cls])

/-- Settles O36: in DISPATCH the step is the instruction's store call, and what it raises changes only the session's
response and state. -/
theorem storeFailureRaises04 : Obligations.StoreFailureRaises04 := by
  unfold Obligations.StoreFailureRaises04
  intro s c fail ses tid uid fc i h hf hp hi hv
  rw [exec_eq_serve, serve_dispatch h hp, bodyOf_of_storeFails hf hi hv, raiseException_eq h.session h.tid h.uid h.fc]

end Sys2Proof.Machine
end

section
/-! MWHR's two store calls, one a step (spec/20_memory.md R42, spec/42_register_access.md R90), with a StoreSet of an
external writer between them: the lost update O44. -/

namespace Sys2Proof.Machine

/-- A session that steps in DISPATCH makes the next store call of the permitted instruction its message holds. -/
theorem take_session_dispatch {s : State} {c : Nat} {err fail : Bool} {ses : Session} {tid : Word} {uid fc : Byte}
    {i : Instr} (h : Executing { s with choice := .session c err fail } .dispatch c fail ses tid uid fc)
    (hd : decode (pduOf ses.rx) = .ok i) (hp : permitted s.cfg i = true) :
    s.take (.session c err fail) =
      thenRedraw s.draws (bodyOf i ⟨c, fail, ses⟩ { s with choice := .session c err fail }) := by
  simp only [State.take, step, act]
  rw [sessionStep_dispatch h.session h.state hd, exec_eq_serve, serve_dispatch h hp]

/-- MWHR's first store call latches the register's value and changes nothing else (R90). -/
theorem take_mwhr_first {s : State} {c : Nat} {ses : Session} {tid : Word} {uid fc : Byte} {addr andm orm : Word}
    (h : Executing { s with choice := .session c false false } .dispatch c false ses tid uid fc) (hz : ses.calls = 0)
    (hd : decode (pduOf ses.rx) = .ok (.mwhr addr andm orm)) (hr : addr.toNat < s.cfg.tableLen) :
    s.take (.session c false false) =
      .next (redraw s.draws (latchRead [ofWord (s.mem.cell .hr addr.toNat)] c
        { s with choice := .session c false false })) := by
  rw [take_session_dispatch h hd rfl]
  simp only [bodyOf, hz, if_true]
  rw [readThen_ok (storeFails_false _) hr]
  rfl

/-- MWHR's second store call stores the mask of the value its first has latched (R90). -/
theorem take_mwhr_second {s : State} {c : Nat} {ses : Session} {tid : Word} {uid fc : Byte} {addr andm orm v : Word}
    (h : Executing { s with choice := .session c false false } .dispatch c false ses tid uid fc) (hz : ses.calls ≠ 0)
    (hv : ses.latch.rvals = some [ofWord v]) (hd : decode (pduOf ses.rx) = .ok (.mwhr addr andm orm))
    (hr : addr.toNat < s.cfg.tableLen) :
    ∃ u, s.take (.session c false false) = .next u ∧
      u.mem = s.mem.setCells .hr addr.toNat [(v &&& andm) ||| orm] := by
  rw [take_session_dispatch h hd rfl]
  simp only [bodyOf, hz, if_false]
  rw [maskWrite_eq hv, writeThen_ok (storeFails_false _) hr (by simp),
    respond_eq (ses := { ses with calls := ses.calls + 1 }) (by rw [session?_latchWrite, h.session]; rfl)
      h.tid h.uid]
  refine ⟨_, rfl, ?_⟩
  simp [cellOf_ofWord (t := .hr) rfl, maskedValue, State.answered]

/-- An external StoreSet of one 16-bit value in a register, without a store failure (R30, R32). -/
theorem take_extSet_register {s : State} {a n : Nat} (ha : a < s.cfg.tableLen) (hn : n ≤ 65535) :
    s.take (.extSet .hr a [.int n] false) =
      .next (redraw s.draws { s with mem := s.mem.setCells .hr a [BitVec.ofNat 16 n] }) := by
  have hset : storeSet s .hr a [.int n] false = some (s.mem.setCells .hr a [BitVec.ofNat 16 n]) :=
    storeSet_eq_some.2 ⟨storeFails_false s, ha, by simp [storable, hn], by simp [cellOf_natCast (t := .hr) rfl]⟩
  rw [take_extSet, hset, Option.getD_some]

/-- The first of several moves, then the others. -/
theorem State.takeAll_cons {s t : State} {m : Move} (h : s.take m = .next t) (ms : List Move) :
    s.takeAll (m :: ms) = t.takeAll ms := by
  simp [State.takeAll, h]

/-- After MWHR's first store call and an external StoreSet to its register, the register holds the writer's value and
the session the value it has read. -/
theorem takeAll_mwhr_first_extSet {s : State} {c : Nat} {ses : Session} {tid : Word} {uid fc : Byte}
    {addr andm orm : Word} {n : Nat}
    (h : Executing { s with choice := .session c false false } .dispatch c false ses tid uid fc) (hz : ses.calls = 0)
    (hd : decode (pduOf ses.rx) = .ok (.mwhr addr andm orm)) (hr : addr.toNat < s.cfg.tableLen) (hn : n ≤ 65535) :
    ∃ t, s.takeAll [.session c false false, .extSet .hr addr.toNat [.int n] false] = .next t ∧ t.cfg = s.cfg ∧
      t.mem = s.mem.setCells .hr addr.toNat [BitVec.ofNat 16 n] ∧
      t.session? c = some { ses with
        latch := { ses.latch with rvals := some [ofWord (s.mem.cell .hr addr.toNat)] }, calls := ses.calls + 1 } := by
  rw [State.takeAll_cons (take_mwhr_first h hz hd hr),
    State.takeAll_cons (take_extSet_register (by simpa using hr) hn)]
  refine ⟨_, rfl, rfl, rfl, (session?_latchRead _ c _).trans ?_⟩
  rw [h.session]
  rfl

/-- The cell that a single cell was written to. -/
theorem Memory.cell_setCells_single {m : Memory} (h : m.wf = true) (t : TableKind) (a : Nat) (w : Word) :
    (m.setCells t a [w]).cell t a = w :=
  Memory.cell_setCells_inside h t a [w] (j := 0) Nat.one_pos

/-- Settles O44: the second call stores the mask of the value in `rvals`, which the external StoreSet does not touch. -/
theorem maskWriteLosesUpdate : Obligations.MaskWriteLosesUpdate := by
  unfold Obligations.MaskWriteLosesUpdate
  intro s c ses tid uid fc addr andm orm n h hz hd hr hw hn
  obtain ⟨t, ht, hcfg, hmem, hses⟩ := takeAll_mwhr_first_extSet h hz hd hr hn
  obtain ⟨u, hu, hmu⟩ := take_mwhr_second (s := t) ⟨State.active_eq rfl hses, h.state, h.tid, h.uid, h.fc⟩
    (Nat.succ_ne_zero _) rfl hd (hcfg ▸ hr)
  have hwt : t.mem.wf = true := hmem ▸ Memory.wf_setCells hw .hr addr.toNat [BitVec.ofNat 16 n]
  refine ⟨t, u, ht, ?_, hu, ?_⟩
  · rw [hmem, Memory.cell_setCells_single hw]
  · rw [hmu, Memory.cell_setCells_single hwt]

end Sys2Proof.Machine
end

section
/-! Requests as bytes (spec/30_encoding.md R48 to R53, R56): decoder and encoder are inverse to each other, alone and
in a frame, and from that O2, O4 and O5; the words, fields and classes of O3, O6 and O8. -/

namespace Sys2Proof.Machine

/-! ### Decoding what was encoded -/

theorem decodeTwo_enc16 (mk : Word → Word → Instr) (fc : Byte) (a b : Word) :
    decodeTwo mk fc (enc16 a ++ enc16 b) = .ok (mk a b) := by
  simp [decodeTwo, enc16]

theorem decodeThree_enc16 (mk : Word → Word → Word → Instr) (fc : Byte) (a b c : Word) :
    decodeThree mk fc (enc16 a ++ enc16 b ++ enc16 c) = .ok (mk a b c) := by
  simp [decodeThree, enc16]

theorem decodeMany_enc16 (mk : Word → Word → Byte → List Byte → Instr) (fc : Byte) (a c : Word) {bc : Byte}
    {d : List Byte} (h : d.length = bc.toNat) :
    decodeMany mk fc (enc16 a ++ enc16 c ++ [bc] ++ d) = .ok (mk a c bc d) := by
  simp [decodeMany, enc16, h]

theorem decodeReadWrite_enc16 (fc : Byte) (ra rc wa wc : Word) {bc : Byte} {d : List Byte} (h : d.length = bc.toNat) :
    decodeReadWrite fc (enc16 ra ++ enc16 rc ++ enc16 wa ++ enc16 wc ++ [bc] ++ d) = .ok (.rwhr ra rc wa wc bc d) := by
  simp [decodeReadWrite, enc16, h]

open Laws.EncodedPdu in
/-- The PDU of any well-formed instruction begins with its function code and fits a frame (R49, R56). -/
theorem encodedPdu : (i : Instr) → Laws.EncodedPdu.Statement i
  | .rdco a c => rdco a c
  | .rddi a c => rddi a c
  | .rdhr a c => rdhr a c
  | .rdir a c => rdir a c
  | .wsco a v => wsco a v
  | .wshr a v => wshr a v
  | .wmco a c bc d => wmco a c bc d
  | .wmhr a c bc d => wmhr a c bc d
  | .mwhr a n o => mwhr a n o
  | .rwhr ra rc wa wc bc d => rwhr ra rc wa wc bc d
  | .wmdi a c bc d => wmdi a c bc d
  | .wmir a c bc d => wmir a c bc d
  | .wsdi a v => wsdi a v
  | .wsir a v => wsir a v
  | .ign07 p => ign07 p
  | .ign08 p => ign08 p
  | .ign0B p => ign0B p
  | .ign0C p => ign0C p
  | .ign11 p => ign11 p
  | .ign14 p => ign14 p
  | .ign15 p => ign15 p
  | .ign18 p => ign18 p
  | .ign2B p => ign2B p
  | .illfc fc p => illfc fc p

/-- The operand bytes of a well-formed instruction, read by its code, are that instruction (R50, R52). -/
theorem decodeOperands_operandBytes {i : Instr} (h : i.wellFormed = true) :
    decodeOperands i.code i.fc i.operandBytes = .ok i := by
  cases i <;> simp only [Instr.code, Instr.operandBytes, decodeOperands]
  case rdco | rddi | rdhr | rdir | wsco | wshr | wsdi | wsir => exact decodeTwo_enc16 ..
  case wmco | wmhr | wmdi | wmir => exact decodeMany_enc16 _ _ _ _ (of_decide_eq_true h)
  case mwhr => exact decodeThree_enc16 ..
  case rwhr => exact decodeReadWrite_enc16 _ _ _ _ _ (of_decide_eq_true h)
  case illfc => rfl

theorem decode_encode {i : Instr} (h : i.wellFormed = true) : decode (encode i) = .ok i := by
  obtain ⟨-, hcode, -, -⟩ := encodedPdu i h
  rw [encode, decode, hcode, decodeOperands_operandBytes h]

/-- The frame of a well-formed instruction passes V1 to V3 (R49). -/
theorem headerOk_frame_encode {i : Instr} (h : i.wellFormed = true) (tid : Word) (uid : Byte) :
    headerOk (frame tid uid (encode i)) = true := by
  obtain ⟨-, -, h1, h2⟩ := encodedPdu i h
  exact headerOk_frame tid uid h1 h2

/-- Settles O4: the function code selects the operand form that reads the operand bytes back, and the frame returns its
PDU. -/
theorem decodeEncode : Obligations.DecodeEncode := by
  unfold Obligations.DecodeEncode
  intro i tid uid h
  rw [pduOf_frame]
  exact ⟨decode_encode h, headerOk_frame_encode h tid uid, decode_encode h⟩

/-! ### Encoding what was decoded -/

/-- All that decoding can give: an instruction with the PDU's function code and operand bytes, well-formed when the PDU
fits a frame (R49, R50). -/
theorem decode_cons_inv {fc : Byte} {p : List Byte} {i : Instr} (h : decode (fc :: p) = .ok i) :
    i.fc = fc ∧ i.operandBytes = p ∧ (p.length ≤ 65533 → i.wellFormed = true) := by
  have hb := Code.byte_ofByte fc
  unfold decode at h
  cases hc : Code.ofByte fc <;> simp only [hc, decodeOperands, reduceCtorEq, false_or] at h hb
  case rdco | rddi | rdhr | rdir | wsco | wshr | wsdi | wsir =>
    obtain ⟨_, _, rfl, rfl⟩ := decodeTwo_inv h
    exact ⟨hb, rfl, fun _ => rfl⟩
  case wmco | wmhr | wmdi | wmir =>
    obtain ⟨_, _, _, _, rfl, hd, rfl⟩ := decodeMany_inv h
    exact ⟨hb, rfl, fun _ => decide_eq_true hd⟩
  case mwhr =>
    obtain ⟨_, _, _, rfl, rfl⟩ := decodeThree_inv h
    exact ⟨hb, rfl, fun _ => rfl⟩
  case rwhr =>
    obtain ⟨_, _, _, _, _, _, rfl, hd, rfl⟩ := decodeReadWrite_inv h
    exact ⟨hb, rfl, fun _ => decide_eq_true hd⟩
  case illfc =>
    obtain rfl := Except.ok.inj h
    exact ⟨rfl, rfl, fun hp => by simp [Instr.wellFormed, payloadFits, hc, hp]⟩
  all_goals
    obtain rfl := Except.ok.inj h
    exact ⟨hb, rfl, fun hp => decide_eq_true hp⟩

theorem encode_of_decode {p : Message} {i : Instr} (h : decode p = .ok i) : encode i = p := by
  cases p with
  | nil => simp [decode] at h
  | cons fc p =>
    obtain ⟨hfc, hop, -⟩ := decode_cons_inv h
    rw [encode, hfc, hop]

/-- The PDU of a frame that passes V1 to V3 has at most 65534 bytes, as its Length field counts them (R49). -/
theorem pduOf_length_le {m : Message} (h : headerOk m = true) : (pduOf m).length ≤ 65534 := by
  obtain ⟨-, -, hlen⟩ := (headerOk_iff m).1 h
  have hfield := (be16 m 4).isLt
  rw [pduOf, List.length_drop]
  omega

/-- Settles O5: decoding keeps every byte, and the PDU of a good frame leaves at most 65533 of them for a payload. -/
theorem encodeDecode : Obligations.EncodeDecode := by
  unfold Obligations.EncodeDecode
  refine ⟨fun _ _ => encode_of_decode, fun m i hm hd => ?_⟩
  have hle := pduOf_length_le hm
  obtain ⟨p, hp⟩ := pduOf_eq_cons hm
  rw [hp] at hd hle
  obtain ⟨-, -, hwf⟩ := decode_cons_inv hd
  exact hwf (Nat.le_of_succ_le_succ hle)

/-! ### Running what was received -/

/-- A session in VALIDATE whose message passes V1 to V3 and holds an instruction runs it with the header latches filled
(R66). -/
theorem validateMessage_eq_exec {c : Nat} {ses : Session} {s : State} {i : Instr} (hh : headerOk ses.rx = true)
    (hd : decode (pduOf ses.rx) = .ok i) :
    validateMessage c ses s = exec i (s.updSession c fun x => { x with latch := fillHeader ses.rx x.latch }) := by
  simp [validateMessage, hh, hd]

/-- Settles O2: the frame passes V1 to V3 and holds the instruction, and the header latches are its fields. -/
theorem framedInstructionIsExecuted : Obligations.FramedInstructionIsExecuted := by
  unfold Obligations.FramedInstructionIsExecuted
  intro s c err fail ses i tid uid hc hs hst hwf hrx
  have hh : headerOk ses.rx = true := hrx ▸ headerOk_frame_encode hwf tid uid
  have hd : decode (pduOf ses.rx) = .ok i := hrx ▸ decode_encode hwf
  have hfill := fillHeader_frame tid uid (encode i) ses.latch
  rw [← hrx] at hfill
  refine ⟨s.updSession c fun x => { x with latch := fillHeader ses.rx x.latch },
    { ses with latch := fillHeader ses.rx ses.latch }, ?_, ?_, rfl, rfl, rfl⟩
  · rw [step, hc, act, sessionStep_validate hs hst, validateMessage_eq_exec hh hd]
  · exact ⟨State.active_eq hc (by rw [State.session?_updSession, hs, Option.map_some]), hst,
      congrArg Latches.tid hfill, congrArg Latches.uid hfill, congrArg Latches.fc hfill⟩

/-! ### Words, fields and classes -/

/-- Settles O3, by running the decoder on each word. -/
theorem specWordsDecode : Obligations.SpecWordsDecode := by
  unfold Obligations.SpecWordsDecode
  decide

/-- Settles O6: the Length field holds `1 + |PDU|` because that number fits 16 bits. -/
theorem frameFields : Obligations.FrameFields := by
  unfold Obligations.FrameFields
  intro tid uid pdu h1 h2
  have hlen : (be16 (frame tid uid pdu) 4).toNat = 1 + pdu.length := by
    rw [be16_frame_len, BitVec.toNat_ofNat, Nat.mod_eq_of_lt (by omega)]
  refine ⟨rfl, ?_, be16_frame_tid .., be16_frame_pid .., hlen, ?_, rfl, rfl, headerOk_frame tid uid h1 h2⟩
  · rw [frame_length, Nat.add_comm]
  · rw [hlen, frame_length]
    omega

/-- Settles O8, by the function-code map at each of the 256 bytes. -/
theorem functionCodeClasses : Obligations.FunctionCodeClasses := by
  unfold Obligations.FunctionCodeClasses
  decide

end Sys2Proof.Machine
end

section
/-! Bit packing (spec/30_encoding.md R54): each bit of the packed bytes, and from it O7. -/

namespace Sys2Proof.Machine

/-- Byte `k` of the packed bytes holds the bits `8k` to `8k + 7`. -/
theorem byteAt_packBits (bs : List Bool) (k : Nat) :
    byteAt (packBits bs) k = BitVec.ofNat 8 (bitsToNat ((bs.drop (8 * k)).take 8)) := by
  unfold byteAt packBits
  rcases Nat.lt_or_ge k (ceil8 bs.length) with hk | hk
  · simp [List.getD, hk]
  · have hdrop : bs.drop (8 * k) = [] := List.drop_eq_nil_of_le (by unfold ceil8 at hk; omega)
    simp [List.getD, hk, hdrop, bitsToNat]

/-- Bit `j mod 8` of byte `j div 8` is bit `j` of the sequence; beyond the sequence it is 0. -/
theorem getLsbD_packBits (bs : List Bool) (j : Nat) :
    (byteAt (packBits bs) (j / 8)).getLsbD (j % 8) = bs.getD j false := by
  have hj : j % 8 < 8 := Nat.mod_lt j (by decide)
  rw [byteAt_packBits, BitVec.getLsbD_ofNat, testBit_bitsToNat]
  simp [List.getD, hj, Nat.div_add_mod]

theorem unpackBits_packBits (bs : List Bool) : unpackBits (packBits bs) bs.length = bs := by
  refine List.ext_getElem (unpackBits_length ..) fun j _ hj => ?_
  simp only [unpackBits, List.getElem_map, List.getElem_range, getLsbD_packBits, List.getD_eq_getElem _ _ hj]

/-- Settles O7: the bits of the packed bytes are those of the sequence, and unpacking reads them bit by bit. -/
theorem bitPacking : Obligations.BitPacking := by
  unfold Obligations.BitPacking
  refine fun bs => ⟨packBits_length bs, fun j _ => ?_, unpackBits_packBits bs, fun d n j hj => ?_⟩
  · rw [getLsbD_packBits]
    split_ifs with h
    · rfl
    · exact List.getD_eq_default _ _ (Nat.le_of_not_lt h)
  · simp [unpackBits, hj]

end Sys2Proof.Machine
end

section
/-! A step of a session in RECV and in VALIDATE (spec/40_server_pipeline.md R64 to R69): what runs, and what a message
that is no frame gets; from these O1, O16 and O18. -/

namespace Sys2Proof.Machine

/-! ### The move of a session, state by state -/

section TakeSession

variable {s : State} {c : Nat} {ses : Session} (hs : s.session? c = some ses) (err fail : Bool)

theorem take_session_recv {k : Connection} (hk : s.conns[c]? = some k) (hks : k.session? = some ses)
    (hst : ses.sst = .recv) :
    s.take (.session c err fail) =
      .next (redraw s.draws (receiveStep err c k { s with choice := .session c err fail })) :=
  congrArg (thenRedraw s.draws) (sessionStep_recv (s := { s with choice := .session c err fail }) hk hks hst)

include hs

theorem take_session_validate (hst : ses.sst = .validate) :
    s.take (.session c err fail) =
      thenRedraw s.draws (validateMessage c ses { s with choice := .session c err fail }) :=
  congrArg (thenRedraw s.draws) (sessionStep_validate (s := { s with choice := .session c err fail }) hs hst)

theorem take_session_respond (hst : ses.sst = .respond) :
    s.take (.session c err fail) =
      thenRedraw s.draws (respondStep err c ses { s with choice := .session c err fail }) :=
  congrArg (thenRedraw s.draws) (sessionStep_respond (s := { s with choice := .session c err fail }) hs hst)

end TakeSession

/-- Settles O1: in both states the step is exec of the decoded instruction, in VALIDATE with the header latches
filled. -/
theorem stepRunsDecodedInstruction : Obligations.StepRunsDecodedInstruction := by
  unfold Obligations.StepRunsDecodedInstruction
  intro s c err fail ses i hc hs hd
  refine ⟨fun hst => ?_, fun hst hh => ?_⟩
  · rw [step, hc, act, sessionStep_dispatch hs hst hd]
  · rw [step, hc, act, sessionStep_validate hs hst, validateMessage_eq_exec hh hd]
    rfl

/-- Settles O16, by the error draw and the message at the head of the channel. -/
theorem receive : Obligations.Receive := by
  unfold Obligations.Receive
  intro s c err fail k ses hk hks hst
  rw [take_session_recv err fail hk hks hst, receiveStep]
  cases err with
  | true => rfl
  | false =>
    cases k.toServer with
    | nil => rfl
    | cons m q => cases m <;> rfl

/-- A message is no frame exactly when it fails V1, V2 or V3 (R66). -/
theorem headerOk_eq_false_iff (m : Message) :
    headerOk m = false ↔ m.length < 8 ∨ be16 m 2 ≠ 0#16 ∨ (be16 m 4).toNat ≠ m.length - 6 := by
  rw [← Bool.not_eq_true, headerOk_iff, not_and_or, not_and_or, Nat.not_le]

/-- V1 to V3 decide before everything else (R66). -/
theorem validateRequest_of_malformed (g : Cfg) {m : Message} (h : headerOk m = false) :
    validateRequest g m = (false, 0x00#8) := by
  unfold validateRequest
  rcases (headerOk_eq_false_iff m).1 h with h1 | h2 | h3
  · rw [if_pos h1]
  · simp [h2]
  · simp [h3]

/-- Settles O18: the verdict is recorded and the session returns to RECV, in one change of it. -/
theorem malformedFrameIsDropped : Obligations.MalformedFrameIsDropped := by
  unfold Obligations.MalformedFrameIsDropped
  intro s c err fail ses hs hst hbad
  have hh : headerOk ses.rx = false := (headerOk_eq_false_iff ses.rx).2 hbad
  have hdrop : ∀ u : State, validateMessage c ses u =
      .next (u.updSession c fun x => { x with verdict := some (false, 0x00#8), sst := .recv }) := by
    intro u
    simp [validateMessage, hh, validateRequest_of_malformed, returnToReceive, recordVerdict,
      State.updSession_updSession]
  rw [take_session_validate hs err fail hst, hdrop]
  rfl

end Sys2Proof.Machine
end

section
/-! The request validator on bytes (spec/40_server_pipeline.md R66, R67) agrees with the one on the decoded instruction;
from that O17 and O19, and O21 from the step in VALIDATE. -/

namespace Sys2Proof.Machine

/-! ### The shape check on bytes -/

/-- On the PDU of an instruction the shape check on bytes is the one on the instruction (R67). -/
theorem shapeOkBytes_encode (g : Cfg) {i : Instr} (h : i.wellFormed = true) :
    shapeOkBytes g i.fc (encode i) = shapeOk g i := by
  cases i
  case illfc fc p =>
    simp only [Instr.wellFormed, Bool.and_eq_true, decide_eq_true_eq] at h
    simp [shapeOkBytes, Instr.fc, h.1, Code.format, shapeOk]
  case wmco | wmhr | wmdi | wmir | rwhr =>
    simp only [Instr.wellFormed, decide_eq_true_eq] at h
    simp [shapeOkBytes, encode, Instr.fc, Instr.code, Code.byte, Code.ofByte, Code.format, Instr.operandBytes, enc16,
      shapeOk, h, Nat.add_comm 6, Nat.add_comm 10]
  all_goals
    simp [shapeOkBytes, encode, Instr.fc, Instr.code, Code.byte, Code.ofByte, Code.format, Instr.operandBytes, enc16,
      shapeOk]

/-- Two bytes and more begin with a 16-bit field (R52). -/
theorem exists_enc16_append {p : List Byte} (h : 2 ≤ p.length) : ∃ w q, p = enc16 w ++ q := by
  match p, h with
  | a :: b :: q, _ => exact ⟨be a b, q, by simp⟩

/-! #### A PDU that does not decode has not its format's length (R50) -/

section DecodeError

variable {fc : Byte} {p : List Byte} {e : DecodeError}

theorem length_of_decodeTwo_error {mk : Word → Word → Instr} (h : decodeTwo mk fc p = .error e) :
    p.length ≠ 4 := by
  intro hl
  obtain ⟨a, q, rfl⟩ := exists_enc16_append (p := p) (by omega)
  obtain ⟨b, r, rfl⟩ := exists_enc16_append (p := q) (by simp at hl; omega)
  obtain rfl : r = [] := List.length_eq_zero_iff.1 (by simp at hl; omega)
  rw [List.append_nil, decodeTwo_enc16] at h
  cases h

theorem length_of_decodeThree_error {mk : Word → Word → Word → Instr} (h : decodeThree mk fc p = .error e) :
    p.length ≠ 6 := by
  intro hl
  obtain ⟨a, q, rfl⟩ := exists_enc16_append (p := p) (by omega)
  obtain ⟨b, r, rfl⟩ := exists_enc16_append (p := q) (by simp at hl; omega)
  obtain ⟨c, t, rfl⟩ := exists_enc16_append (p := r) (by simp at hl; omega)
  obtain rfl : t = [] := List.length_eq_zero_iff.1 (by simp at hl; omega)
  rw [List.append_nil, ← List.append_assoc, decodeThree_enc16] at h
  cases h

theorem length_of_decodeMany_error {mk : Word → Word → Byte → List Byte → Instr}
    (h : decodeMany mk fc p = .error e) (h5 : 5 ≤ p.length) : p.length ≠ 5 + (byteAt p 4).toNat := by
  intro hl
  obtain ⟨a, q, rfl⟩ := exists_enc16_append (p := p) (by omega)
  obtain ⟨c, r, rfl⟩ := exists_enc16_append (p := q) (by simp at h5; omega)
  obtain ⟨bc, d, rfl⟩ := List.exists_cons_of_length_pos (l := r) (by simp at h5; omega)
  have hd : d.length = bc.toNat := by simp [enc16] at hl; omega
  rw [← List.append_assoc, ← List.singleton_append, ← List.append_assoc, decodeMany_enc16 _ _ _ _ hd] at h
  cases h

theorem length_of_decodeReadWrite_error (h : decodeReadWrite fc p = .error e) (h9 : 9 ≤ p.length) :
    p.length ≠ 9 + (byteAt p 8).toNat := by
  intro hl
  obtain ⟨ra, q, rfl⟩ := exists_enc16_append (p := p) (by omega)
  obtain ⟨rc, r, rfl⟩ := exists_enc16_append (p := q) (by simp at h9; omega)
  obtain ⟨wa, t, rfl⟩ := exists_enc16_append (p := r) (by simp at h9; omega)
  obtain ⟨wc, u, rfl⟩ := exists_enc16_append (p := t) (by simp at h9; omega)
  obtain ⟨bc, d, rfl⟩ := List.exists_cons_of_length_pos (l := u) (by simp at h9; omega)
  have hd : d.length = bc.toNat := by simp [enc16] at hl; omega
  have hok := decodeReadWrite_enc16 fc ra rc wa wc hd
  simp only [List.append_assoc, List.singleton_append] at hok
  cases hok.symm.trans h

/-- Only an executed code has a format that a PDU can miss (R50, R56). -/
theorem cls_of_decode_error (h : decode (fc :: p) = .error e) :
    (Code.ofByte fc).cls = .std ∨ (Code.ofByte fc).cls = .ext := by
  unfold decode at h
  cases hc : Code.ofByte fc <;> simp [hc, decodeOperands, Code.cls] at h ⊢

/-- A PDU that does not decode fails the shape check on bytes (R67). -/
theorem shapeOkBytes_of_decode_error (g : Cfg) (h : decode (fc :: p) = .error e) :
    shapeOkBytes g fc (fc :: p) = false := by
  unfold decode at h
  cases hc : Code.ofByte fc <;> simp only [hc, decodeOperands, reduceCtorEq] at h
  case rdco | rddi | rdhr | rdir | wsco | wshr | wsdi | wsir =>
    simp [shapeOkBytes, hc, Code.format, length_of_decodeTwo_error h]
  case wmco | wmhr | wmdi | wmir =>
    have hl := length_of_decodeMany_error h
    simp [shapeOkBytes, hc, Code.format]
    omega
  case mwhr => simp [shapeOkBytes, hc, Code.format, length_of_decodeThree_error h]
  case rwhr =>
    have hl := length_of_decodeReadWrite_error h
    simp [shapeOkBytes, hc, Code.format]
    omega

end DecodeError

/-! ### The verdict -/

/-- The payload of an ignored code has no shape to check (R67). -/
theorem shapeOk_of_ignored (g : Cfg) {i : Instr} (h : i.code.cls = .ign) : shapeOk g i = true := by
  revert h
  cases i <;> simp [Instr.code, Code.cls, shapeOk]

section Verdict

variable (g : Cfg) {m : Message} (hm : headerOk m = true)

include hm

/-- On a frame that holds an instruction, V4 to V7 on bytes are the verdict on the instruction (R66). -/
theorem validateRequest_eq_verdictOf {i : Instr} (hd : decode (pduOf m) = .ok i) :
    validateRequest g m = verdictOf g i := by
  obtain ⟨hlen, hpid, hfield⟩ := (headerOk_iff m).1 hm
  obtain ⟨p, hp⟩ := pduOf_eq_cons hm
  have hwf : i.wellFormed = true := encodeDecode.2 m i hm hd
  have hcode : i.code = Code.ofByte (byteAt m 7) := code_of_decode (hp ▸ hd)
  have hfc : i.fc = byteAt m 7 := (decode_cons_inv (hp ▸ hd)).1
  have hshape : shapeOkBytes g (byteAt m 7) (pduOf m) = shapeOk g i := by
    rw [← encode_of_decode hd, ← hfc, shapeOkBytes_encode g hwf]
  cases hc : (Code.ofByte (byteAt m 7)).cls
  case ign =>
    have hany : shapeOk g i = true := shapeOk_of_ignored g (hcode ▸ hc)
    simp [validateRequest, Nat.not_lt.2 hlen, hpid, hfield, verdictOf, permitted, hcode, hc, hany]
  all_goals
    simp [validateRequest, Nat.not_lt.2 hlen, hpid, hfield, verdictOf, permitted, hcode, hc, hshape]

/-- A frame whose PDU does not decode is rejected (R66 V6, V7). -/
theorem validateRequest_of_decode_error {e : DecodeError} (hd : decode (pduOf m) = .error e) :
    validateRequest g m =
      (false, if (Code.ofByte (byteAt m 7)).cls = .ext ∧ g.extSrv = false then 0x01#8 else 0x02#8) := by
  obtain ⟨hlen, hpid, hfield⟩ := (headerOk_iff m).1 hm
  obtain ⟨p, hp⟩ := pduOf_eq_cons hm
  rw [hp] at hd
  have hshape : shapeOkBytes g (byteAt m 7) (pduOf m) = false := hp ▸ shapeOkBytes_of_decode_error g hd
  rcases cls_of_decode_error hd with hc | hc
  · simp [validateRequest, Nat.not_lt.2 hlen, hpid, hfield, hc, hshape]
  · cases he : g.extSrv <;> simp [validateRequest, Nat.not_lt.2 hlen, hpid, hfield, hc, he, hshape]

end Verdict

/-- A count passes exactly when it lies in its range (R67). -/
theorem countOk_iff (cnt : Word) (most : Nat) : countOk cnt most = true ↔ 1 ≤ cnt.toNat ∧ cnt.toNat ≤ most :=
  decide_eq_true_iff

/-- Settles O17: the verdict on bytes is the one on the instruction where there is one. -/
theorem validatorVerdicts : Obligations.ValidatorVerdicts := by
  unfold Obligations.ValidatorVerdicts
  refine ⟨fun g m => ⟨fun hbad => validateRequest_of_malformed g ((headerOk_eq_false_iff m).2 hbad),
    fun hlen hpid hfield => ?_⟩, fun g a n b k v bc d => ?_⟩
  · have hm : headerOk m = true := (headerOk_iff m).2 ⟨hlen, hpid, hfield⟩
    obtain ⟨p, hp⟩ := pduOf_eq_cons hm
    cases hd : decode (pduOf m) with
    | ok i =>
      have hcode : i.code = Code.ofByte (byteAt m 7) := code_of_decode (hp ▸ hd)
      rw [validateRequest_eq_verdictOf g hm hd, verdictOf, permitted, hcode]
      cases hc : (Code.ofByte (byteAt m 7)).cls
      case ign => simp [shapeOk_of_ignored g (hcode ▸ hc)]
      all_goals cases hsh : shapeOk g i <;> simp [hsh]
    | error e =>
      rw [validateRequest_of_decode_error g hm hd]
      rcases cls_of_decode_error (hp ▸ hd) with hc | hc <;> simp [hc, apply_ite (Prod.mk false)]
  · rw [show (n.toNat + 7) / 8 = ceil8 n.toNat from rfl]
    simp [shapeOk, countOk_iff, and_assoc]

/-- Settles O19: the validator's code for such a PDU is raised at the state whose header latches are filled. -/
theorem malformedPduRaises : Obligations.MalformedPduRaises := by
  unfold Obligations.MalformedPduRaises
  intro s c err fail ses e hs hst hm hd
  refine ⟨_, rfl, ?_⟩
  have hsx : State.session? { s with choice := .session c err fail } c = some ses := hs
  rw [take_session_validate hs err fail hst, validateMessage, if_pos hm]
  simp only [hd, validateRequest_of_decode_error s.cfg hm hd]
  rw [raiseException_eq (tid := be16 ses.rx 0) (uid := byteAt ses.rx 6) (fc := byteAt ses.rx 7)
    (by rw [recordVerdict, State.session?_updSession, State.session?_updSession, hsx]; rfl) rfl rfl rfl,
    recordVerdict, State.answered, State.updSession_updSession, State.updSession_updSession]
  rfl

/-- Settles O21: the received frame runs as the instruction (O2), which every check lets pass (O20). -/
theorem admittedInstructionIsReady : Obligations.AdmittedInstructionIsReady := by
  unfold Obligations.AdmittedInstructionIsReady
  intro s c err fail ses i tid uid hs hst hrx hwf hp hsh hcls hfit
  obtain ⟨u, x, hstep, hx, hrx', hmem, hcfg⟩ :=
    framedInstructionIsExecuted { s with choice := .session c err fail } c err fail ses i tid uid rfl hs hst hwf hrx
  have hign : i.code.cls ≠ .ign := by rcases hcls with h | h <;> simp [h]
  have hexec := admissionOfEveryInstruction.1 u c fail x tid uid i.fc i hx
  simp only [hcfg, hp, hsh, hign, if_pos hfit, Bool.true_eq_false, if_false] at hexec
  obtain ⟨htid, huid, hfc⟩ := fillOperands_header i x.latch
  refine ⟨_, { x with
      verdict := some (true, 0x00#8), latch := fillOperands i x.latch, calls := 0, sst := .dispatch },
    hstep.trans (congrArg (thenRedraw s.draws) hexec), hmem, hcfg, rfl, hrx', fun err' fail' => ⟨?_, rfl,
      htid.trans hx.tid, huid.trans hx.uid, hfc.trans hx.fc⟩⟩
  refine State.active_eq rfl (Eq.trans (State.session?_updSession u c _) ?_)
  rw [hx.session, Option.map_some]

end Sys2Proof.Machine
end

section
/-! The Listener (spec/40_server_pipeline.md R63): its step on a waiting connection, and from it O45. -/

namespace Sys2Proof.Machine

/-- There is room while a bound on the sessions, if there is one, is not reached (R63). -/
theorem hasRoom_iff (s : State) : hasRoom s = true ↔ ∀ n, s.cfg.maxSessions = some n → liveSessions s < n := by
  unfold hasRoom
  cases s.cfg.maxSessions <;> simp

/-- Where there is room a waiting connection gets a fresh session. -/
theorem acceptStep_of_hasRoom {s : State} {c : Nat} {k : Connection} (hr : hasRoom s = true)
    (hk : s.conns[c]? = some k) (hw : k.server = .waiting) :
    acceptStep c s = s.updConn c fun _ => { k with server := .session Session.fresh } := by
  rw [acceptStep, if_pos hr]
  exact State.updConn_congr hk (by rw [hw])

theorem acceptStep_of_full {s : State} (hr : hasRoom s = false) (c : Nat) : acceptStep c s = s := by
  simp [acceptStep, hr]

/-- Settles O45, with room and without. -/
theorem listenerAccepts : Obligations.ListenerAccepts := by
  unfold Obligations.ListenerAccepts
  intro s c k hk hw
  refine ⟨redraw s.draws (acceptStep c { s with choice := .accept c }), rfl, ?_⟩
  simp only [← hasRoom_iff]
  cases hr : hasRoom s with
  | true =>
    rw [acceptStep_of_hasRoom (s := { s with choice := .accept c }) hr hk hw]
    refine ⟨rfl, rfl, rfl, rfl, fun d hd => ?_, ?_⟩
    · exact (State.updConn_get _ c d _).trans (if_neg hd.symm)
    · refine (State.updConn_get _ c c _).trans ?_
      simp [hk, Session.fresh]
  | false =>
    rw [acceptStep_of_full (s := { s with choice := .accept c }) hr]
    exact ⟨rfl, rfl, rfl, rfl, fun d _ => rfl, hk⟩

end Sys2Proof.Machine
end

section
/-! The response validator (spec/40_server_pipeline.md R72): the server's outbound check (R73, R74), the verdicts on
bytes and the client's report (spec/44_client_sequencer.md R114, R115); from these O27 and O52. -/

namespace Sys2Proof.Machine

/-! ### The outbound check -/

/-- Putting a message on the channel to the peer and changing the session do not interfere. -/
theorem State.updSession_pushToClient (s : State) (c : Nat) (m : Message) (f : Session → Session) :
    (s.pushToClient c m).updSession c f = (s.updSession c f).pushToClient c m := by
  unfold State.updSession State.pushToClient State.updConn
  congr 1
  apply List.ext_getElem?
  intro d
  simp only [List.getElem?_modify]
  cases s.conns[d]? with
  | none => simp
  | some k =>
    rcases k with ⟨o, b, e, x, y⟩
    cases e <;> simp <;> split <;> rfl

section RespondStep

variable {s : State} {c : Nat} {ses : Session} {tid : Word} {uid fc : Byte} {v : Bool × Byte}
  (ht : ses.latch.tid = some tid) (hu : ses.latch.uid = some uid) (hf : ses.latch.fc = some fc)
  (hv : outboundVerdict s.cfg fc ses.latch ses.tx = .ok v)

include ht hu hf hv

/-- The frame the verdict chooses is sent, and the session returns to RECV (R73, R74). -/
theorem respondStep_sends :
    respondStep false c ses s =
      .next ((s.updSession c fun x => { x with tx := outboundFrame v tid uid fc ses.tx, sst := .recv }).pushToClient c
        (outboundFrame v tid uid fc ses.tx)) := by
  simp [respondStep, ht, hu, hf, hv, returnToReceive, State.updSession_pushToClient, State.updSession_updSession]

/-- On a transport error the session closes, and only the end of the connection is sent (R74; log 35). -/
theorem respondStep_closes :
    respondStep true c ses s =
      .next ((s.updSession c fun x =>
        { x with tx := outboundFrame v tid uid fc ses.tx, sst := .closed }).pushToClient c []) := by
  simp [respondStep, ht, hu, hf, hv, closeSession, State.updSession_updSession]

end RespondStep

/-- What leaves in RESPOND passes V1 to V3: a checked response, or a framed exception (R73). -/
theorem headerOk_outboundFrame (ext : Bool) (m : Message) (fc : Byte) (n : Nat) (tid : Word) (uid : Byte) :
    headerOk (outboundFrame (validateResponse ext m fc n) tid uid fc m) = true := by
  unfold outboundFrame
  split
  · next h => exact validateResponse_header h
  · exact headerOk_frame tid uid (by simp) (by simp)

/-- In a state that meets the invariant a session in RESPOND has a response that passes (R73). -/
theorem validateResponse_of_inv {s : State} {c : Nat} {ses : Session} {fc : Byte} {n : Nat} (h : s.Inv)
    (hs : s.session? c = some ses) (hst : ses.sst = .respond) (hf : ses.latch.fc = some fc)
    (hn : latchedCount fc ses.latch = .ok n) : (validateResponse s.cfg.extSrv ses.tx fc n).1 = true := by
  obtain ⟨-, -, -, hrespond⟩ := Session.sound_iff.1 (h.session_sound hs)
  obtain ⟨_, _, fc', v, -, -, hf', ho, hv⟩ := Session.respondOk_iff.1 (hrespond hst)
  obtain rfl := Option.some.inj (hf.symm.trans hf')
  rw [outboundVerdict_eq hn] at ho
  obtain rfl := Except.ok.inj ho
  exact hv

/-- Settles O27: the frame that leaves is the one the check's verdict chooses, in one step with the send. -/
theorem outboundCheck : Obligations.OutboundCheck := by
  unfold Obligations.OutboundCheck
  intro s c fail ses tid uid fc n hs hst ht hu hf hn
  have hv := outboundVerdict_eq (g := s.cfg) (m := ses.tx) hn
  refine ⟨outboundFrame (validateResponse s.cfg.extSrv ses.tx fc n) tid uid fc ses.tx, ?_, ?_, fun hok => ?_,
    fun hbad => ?_, headerOk_outboundFrame .., fun hinv => ?_⟩
  · exact (take_session_respond hs false fail hst).trans
      (congrArg (thenRedraw s.draws) (respondStep_sends (s := { s with choice := .session c false fail }) ht hu hf hv))
  · exact (take_session_respond hs true fail hst).trans
      (congrArg (thenRedraw s.draws) (respondStep_closes (s := { s with choice := .session c true fail }) ht hu hf hv))
  · rw [outboundFrame, if_pos hok]
  · simp [outboundFrame, hbad]
  · rw [outboundFrame, if_pos (validateResponse_of_inv hinv hs hst hf hn)]

/-! ### The response check on bytes -/

/-- The exception form is 9 bytes with the function code's top bit set (R72 W2). -/
theorem exceptionForm_iff {m : Message} (hm : headerOk m = true) (rfc : Byte) :
    exceptionForm m rfc = true ↔ byteAt m 7 = rfc ||| 0x80#8 ∧ m.length = 9 := by
  obtain ⟨hlen, -, -⟩ := (headerOk_iff m).1 hm
  simp only [exceptionForm, hm, pduOf, List.length_drop, Bool.true_and, Bool.and_eq_true, decide_eq_true_eq]
  exact and_congr_right fun _ => by omega

/-! ### The client's report -/

/-- An accepted response that is no exception answers an executed code (R72 W4). -/
theorem executed_of_validateResponse {ext : Bool} {m : Message} {fc : Byte} {n : Nat}
    (h : (validateResponse ext m fc n).1 = true) (h7 : byteAt m 7 ≠ fc ||| 0x80#8) :
    (Code.ofByte fc).cls ≠ .ill ∧ (Code.ofByte fc).cls ≠ .ign := by
  have hm : headerOk m = true := validateResponse_header h
  have hx : exceptionForm m fc = false := by simp [exceptionForm, h7]
  by_cases hfc : byteAt m 7 = fc
  · constructor <;> intro hc <;> simp [validateResponse, hm, hx, hfc, hc] at h
  · simp [validateResponse, hm, hx, hfc] at h

/-- An executed code has a response payload (R116). -/
theorem exists_decodeResponse {fc : Byte} (h : (Code.ofByte fc).cls ≠ .ill ∧ (Code.ofByte fc).cls ≠ .ign)
    (q : Message) (n : Nat) : ∃ d, decodeResponse fc q n = some d := by
  unfold decodeResponse
  cases hc : Code.ofByte fc <;> simp [hc, Code.cls] at h ⊢

section Report

variable {g : Cfg} {p : Pending} {m : Message}

theorem accepts_iff : accepts g p m = true ↔
    (validateResponse g.extCli m p.fc p.cnt.toNat).1 = true ∧ be16 m 0 = p.tid ∧ byteAt m 6 = p.uid := by
  simp [accepts, and_assoc]

/-- What is not accepted is reported Invalid (R114). -/
theorem sendResult_of_not_accepts (h : accepts g p m = false) : sendResult g p m = .invalid := by
  simp [sendResult, h]

/-- An accepted exception form is reported with its code (R115). -/
theorem sendResult_exception (h : accepts g p m = true) (h7 : byteAt m 7 = p.fc ||| 0x80#8) :
    sendResult g p m = .exceptionInfo p.fc (byteAt m 8) := by
  simp [sendResult, h, h7, byteAt_pduOf]

/-- Any other accepted message is reported with its payload (R115, R116). -/
theorem sendResult_success (h : accepts g p m = true) (h7 : byteAt m 7 ≠ p.fc ||| 0x80#8) :
    ∃ d, sendResult g p m = .ok d ∧ decodeResponse p.fc (pduOf m) p.cnt.toNat = some d := by
  obtain ⟨hv, -, -⟩ := accepts_iff.1 h
  obtain ⟨d, hd⟩ := exists_decodeResponse (executed_of_validateResponse hv h7) (pduOf m) p.cnt.toNat
  exact ⟨d, by simp [sendResult, h, h7, hd], hd⟩

/-- The report is Invalid exactly for what is not accepted (R114). -/
theorem sendResult_eq_invalid_iff : sendResult g p m = .invalid ↔ ¬accepts g p m = true := by
  refine ⟨fun hr ha => ?_, fun ha => sendResult_of_not_accepts (by simpa using ha)⟩
  by_cases h7 : byteAt m 7 = p.fc ||| 0x80#8
  · rw [sendResult_exception ha h7] at hr
    cases hr
  · obtain ⟨d, hd, -⟩ := sendResult_success ha h7
    rw [hd] at hr
    cases hr

end Report

/-- Settles O52: W1 to W5 in their order, the last by the response form of each executed code; what is not Invalid is
accepted. -/
theorem responseReport : Obligations.ResponseReport := by
  unfold Obligations.ResponseReport
  refine ⟨fun ext m rfc n => ?_, fun g p m => ?_⟩
  · simp only [← headerOk_eq_false_iff]
    cases hm : headerOk m with
    | false => simp [validateResponse, hm]
    | true =>
      obtain ⟨h8, -, -⟩ := (headerOk_iff m).1 hm
      have hlen : (pduOf m).length = m.length - 7 := List.length_drop
      have hexact : ∀ l, m.length - 7 = l ↔ m.length = l + 7 := fun l => by omega
      have hread : ∀ b, 2 ≤ m.length - 7 ∧ m.length - 7 = 2 + b ↔ 9 ≤ m.length ∧ m.length = 9 + b :=
        fun b => by omega
      simp only [validateResponse, hm, exceptionForm_iff hm, byteAt_pduOf, hlen]
      -- W2: the exception form
      by_cases hx : byteAt m 7 = rfc ||| 0x80#8 ∧ m.length = 9
      · simp [hx]
      -- W3: another function code
      by_cases hfc : byteAt m 7 = rfc
      case neg => simp [hx, hfc]
      -- W4: a code that is not executed
      by_cases hcls : (Code.ofByte rfc).cls = .ill ∨ (Code.ofByte rfc).cls = .ign ∨
          ((Code.ofByte rfc).cls = .ext ∧ ext = false)
      · simp [hfc, hcls]
      -- W5: the exact length and the byte count, by the response form of the code
      have hbyte : (Code.ofByte rfc).byte = rfc :=
        (Code.byte_ofByte rfc).resolve_left fun hi => hcls (.inl (by rw [hi]; rfl))
      rw [if_neg hx, if_neg hx, if_neg (not_not.2 hfc), if_neg (not_not.2 hfc), if_neg hcls, if_neg (by simp)]
      generalize Code.ofByte rfc = c at hcls hbyte ⊢
      subst hbyte
      rw [if_neg (by simpa using hcls)]
      cases c
      case rdco | rddi => simp [Code.byte, Code.respFormat, Code.readsBits, ceil8, hread, and_assoc]
      case rdhr | rdir | rwhr => simp [Code.byte, Code.respFormat, Code.readsBits, hread, and_assoc]
      case mwhr | wsco | wshr | wsdi | wsir | wmco | wmhr | wmdi | wmir => simp [Code.byte, Code.respFormat, hexact]
      all_goals simp [Code.cls] at hcls
  · have haccepted : sendResult g p m ≠ .invalid → accepts g p m = true :=
      fun h => not_not.1 (mt sendResult_eq_invalid_iff.2 h)
    rw [← accepts_iff]
    exact ⟨sendResult_eq_invalid_iff, fun h => sendResult_exception (haccepted h),
      fun h => sendResult_success (haccepted h)⟩

end Sys2Proof.Machine
end

section
/-! The bit-table function codes in DISPATCH (spec/41_bit_access.md R77 to R82): what a store call that succeeds
answers, whatever it reads or writes, and from it O28, O30 and O32. -/

namespace Sys2Proof.Machine

/-! ### A store call that succeeds, and its answer -/

section StoreCall

variable {s : State} {c : Nat} {fail : Bool} {ses : Session} {tid : Word} {uid fc : Byte}
  (h : Executing s .dispatch c fail ses tid uid fc) (hf : storeFails s fail = false)
  {t : TableKind} {addr n : Nat} (hr : addr + n ≤ s.cfg.tableLen)

include h hf hr

/-- A StoreGet that succeeds latches its values and answers with them (R31, R77, R84). -/
theorem readThen_respond_eq (pdu : List Value → Message) :
    let vs := (List.range n).map fun j => readCell t (s.mem.cell t (addr + j))
    readThen t addr n (fun vs => respond (pdu vs) c) ⟨c, fail, ses⟩ s =
      .next (s.readAnswered c tid uid vs (pdu vs)) := by
  intro vs
  rw [readThen_ok hf hr,
    respond_eq (ses := { ses with latch := { ses.latch with rvals := some vs }, calls := ses.calls + 1 })
      (by rw [session?_latchRead, h.session]; rfl) h.tid h.uid]
  simp only [State.answered, latchRead, State.updSession_updSession, State.readAnswered, vs]

/-- A StoreSet that succeeds writes its range and no other cell, and answers (R32, R79, R86). -/
theorem writeThen_respond_eq (hw : s.mem.wf = true) {f : Nat → Value} (hv : ∀ j, storable t (f j) = true)
    (pdu : Message) :
    ∃ m, s.writes m t addr n (fun j => cellOf t (f j)) ∧
      writeThen t addr ((List.range n).map f) (respond pdu c) ⟨c, fail, ses⟩ s =
        .next (s.wroteAnswered m c tid uid pdu) := by
  obtain ⟨hwf, hcells⟩ := State.writes_setCells hw t addr (((List.range n).map f).map (cellOf t))
  refine ⟨_, ⟨hwf, fun u b => (hcells u b).trans ?_⟩, ?_⟩
  · simp only [List.length_map, List.length_range]
    split_ifs with hb
    · have hj : b - addr < n := by omega
      simp [hj]
    · rfl
  · rw [writeThen_ok hf (by simpa using hr) (by simpa using fun j _ => hv j),
      respond_eq (ses := { ses with calls := ses.calls + 1 })
        (by rw [session?_latchWrite, h.session]; rfl) h.tid h.uid]
    simp only [State.answered, latchWrite, State.updSession_updSession, State.wroteAnswered]

end StoreCall

/-! ### The bit tables -/

section BitTable

variable {s : State} {c : Nat} {fail : Bool} {ses : Session} {tid : Word} {uid fc : Byte}
  (h : Executing s .dispatch c fail ses tid uid fc) (hf : storeFails s fail = false)
  {t : TableKind} (ht : isBitTable t = true)

include h hf ht

/-- A bit read answers with the packed bits of its range (R77, R78). -/
theorem readBits_eq {addr cnt : Word} (hr : addr.toNat + cnt.toNat ≤ s.cfg.tableLen) (code : Code) :
    readBits code t addr cnt ⟨c, fail, ses⟩ s =
      .next (s.readAnswered c tid uid ((s.bitsAt t addr.toNat cnt.toNat).map .bool)
        ([code.byte, BitVec.ofNat 8 (ceil8 cnt.toNat)] ++ packBits (s.bitsAt t addr.toNat cnt.toNat))) := by
  have hbits : ((s.bitsAt t addr.toNat cnt.toNat).map Value.bool).map truthOf = s.bitsAt t addr.toNat cnt.toNat := by
    simp [Function.comp_def]
  unfold readBits
  rw [readThen_respond_eq h hf hr, map_readCell_bits ht, bitReadPdu, hbits]

/-- The Booleans `f` written to a range of a bit table stand there as 1 and 0 (R32). -/
theorem writeThen_bools_eq (hw : s.mem.wf = true) {addr n : Nat} (hr : addr + n ≤ s.cfg.tableLen) (f : Nat → Bool)
    (pdu : Message) :
    ∃ m, s.writes m t addr n (fun j => if f j = true then 1#16 else 0#16) ∧
      writeThen t addr ((List.range n).map fun j => .bool (f j)) (respond pdu c) ⟨c, fail, ses⟩ s =
        .next (s.wroteAnswered m c tid uid pdu) := by
  have hwrites := writeThen_respond_eq h hf hr hw (t := t) (f := fun j => .bool (f j)) (fun _ => ht) pdu
  simpa only [cellOf_bool ht] using hwrites

/-- A single-bit write stores the truth of `val` and answers with its canonical value (R55, R79, R81). -/
theorem writeBit_eq (hw : s.mem.wf = true) {addr : Word} (hr : addr.toNat + 1 ≤ s.cfg.tableLen) (val : Word)
    (code : Code) :
    ∃ m, s.writes m t addr.toNat 1 (fun _ => if val = 0#16 then 0#16 else 1#16) ∧
      writeBit code t addr val ⟨c, fail, ses⟩ s =
        .next (s.wroteAnswered m c tid uid
          ([code.byte] ++ enc16 addr ++ enc16 (if val = 0#16 then 0x0000#16 else 0xFF00#16))) := by
  have htrue : decodeBitValue val = true ↔ ¬val = 0#16 := bne_iff_ne
  have hcanonical : encodeBitValue (decodeBitValue val) = if val = 0#16 then 0x0000#16 else 0xFF00#16 := by
    simp only [encodeBitValue, htrue, ite_not]
  have hwrites := writeThen_bools_eq h hf ht hw hr (fun _ => decodeBitValue val)
    (twoFieldPdu code addr (encodeBitValue (decodeBitValue val)))
  simp only [htrue, ite_not] at hwrites
  rw [← hcanonical]
  exact hwrites

/-- A write of several bits stores bit `j` of the packed data in cell `addr + j` (R54, R80, R82). -/
theorem writeMany_bits_eq (hw : s.mem.wf = true) {addr cnt : Word} (hr : addr.toNat + cnt.toNat ≤ s.cfg.tableLen)
    (data : List Byte) (code : Code) :
    ∃ m, s.writes m t addr.toNat cnt.toNat
        (fun j => if (byteAt data (j / 8)).getLsbD (j % 8) = true then 1#16 else 0#16) ∧
      writeMany code t addr cnt (bitValues data cnt) ⟨c, fail, ses⟩ s =
        .next (s.wroteAnswered m c tid uid ([code.byte] ++ enc16 addr ++ enc16 cnt)) := by
  have hvals : bitValues data cnt =
      (List.range cnt.toNat).map fun j => .bool ((byteAt data (j / 8)).getLsbD (j % 8)) := List.map_map
  rw [hvals]
  exact writeThen_bools_eq h hf ht hw hr _ (twoFieldPdu code addr cnt)

end BitTable

/-! ### The instructions -/

/-- Settles O28: the instruction's one store call is a bit read of CO or DI. -/
theorem bitReads : Obligations.BitReads := by
  unfold Obligations.BitReads
  intro s c fail ses tid uid fc addr cnt h hf hr
  simp only [exec_eq_serve]
  rw [serve_dispatch h rfl, serve_dispatch h rfl]
  exact ⟨readBits_eq h hf rfl hr .rdco, readBits_eq h hf rfl hr .rddi⟩

/-- Settles O30: the instruction's one store call is a single-bit write of CO or DI, and EXT_SRV permits WSDI. -/
theorem singleBitWrites : Obligations.SingleBitWrites := by
  unfold Obligations.SingleBitWrites
  intro s c fail ses tid uid fc addr val h hf hw hr
  simp only [exec_eq_serve]
  refine ⟨?wsco, fun hext => ?wsdi⟩
  case wsco =>
    rw [serve_dispatch h rfl]
    exact writeBit_eq h hf rfl hw hr val .wsco
  case wsdi =>
    rw [serve_dispatch (i := .wsdi addr val) h hext]
    exact writeBit_eq h hf rfl hw hr val .wsdi

/-- Settles O32: the instruction's one store call writes the packed bits to CO or DI, and EXT_SRV permits WMDI. -/
theorem multipleBitWrites : Obligations.MultipleBitWrites := by
  unfold Obligations.MultipleBitWrites
  intro s c fail ses tid uid fc addr cnt bc data h hf hw hr
  simp only [exec_eq_serve]
  refine ⟨?wmco, fun hext => ?wmdi⟩
  case wmco =>
    rw [serve_dispatch h rfl]
    exact writeMany_bits_eq h hf rfl hw hr data .wmco
  case wmdi =>
    rw [serve_dispatch (i := .wmdi addr cnt bc data) h hext]
    exact writeMany_bits_eq h hf rfl hw hr data .wmdi

end Sys2Proof.Machine
end

section
/-! The cells an instruction leaves as they were (spec/41_bit_access.md, spec/42_register_access.md,
spec/60_exceptions.md R136): O37 and O38. -/

namespace Sys2Proof.Machine

/-! ### The store calls -/

/-- A StoreGet has no side effect (R38), whatever follows it that makes no store call. -/
theorem readThen_mem {t : TableKind} {addr cnt : Nat} {k : List Value → State → Host.Outcome State Fault Refusal}
    {a : Active} {s u : State} (h : readThen t addr cnt k a s = .next u)
    (hk : ∀ {vs v w}, k vs v = .next w → w.mem = v.mem) : u.mem = s.mem := by
  rcases readThen_inv h with hr | ⟨vs, -, hn⟩
  · exact raiseException_mem hr
  · exact (hk hn :)

/-- A StoreSet leaves every cell outside its range as it was, whatever follows it that makes no store call. -/
theorem writeThen_cell_outside {t : TableKind} {addr : Nat} {vals : List Value}
    {k : State → Host.Outcome State Fault Refusal} {a : Active} {s u : State}
    (h : writeThen t addr vals k a s = .next u) (hk : ∀ {v w}, k v = .next w → w.mem = v.mem)
    {tab : TableKind} {b : Nat} (hb : ¬(tab = t ∧ addr ≤ b ∧ b < addr + vals.length)) :
    u.mem.cell tab b = s.mem.cell tab b := by
  rcases writeThen_inv h with hr | ⟨m, hm, hn⟩
  · rw [raiseException_mem hr]
  · obtain ⟨-, -, -, rfl⟩ := storeSet_eq_some.1 hm
    rw [hk hn, latchWrite_mem]
    refine Memory.cell_setCells_outside _ _ _ _ ?_
    rw [List.length_map]
    by_cases htab : tab = t
    · simp only [htab, true_and] at hb
      omega
    · exact .inl htab

@[simp] theorem length_bitValues (data : List Byte) (cnt : Word) : (bitValues data cnt).length = cnt.toNat := by
  simp [bitValues, unpackBits]

@[simp] theorem length_wordValues (data : List Byte) (cnt : Word) : (wordValues data cnt).length = cnt.toNat := by
  simp [wordValues, unpackWords]

/-- The store calls of an instruction leave every cell but the stored ones as it was. -/
theorem bodyOf_cell_outside {i : Instr} {tab : TableKind} {a n : Nat} (hi : storedCells i = some (tab, a, n))
    {x : Active} {s t : State} (h : bodyOf i x s = .next t) {u : TableKind} {b : Nat}
    (hb : ¬(u = tab ∧ a ≤ b ∧ b < a + n)) : t.mem.cell u b = s.mem.cell u b := by
  cases i <;> simp only [storedCells, reduceCtorEq, Option.some.injEq, Prod.mk.injEq] at hi
  all_goals obtain ⟨rfl, rfl, rfl⟩ := hi
  case wsco | wsdi | wshr | wsir => exact writeThen_cell_outside h respond_mem hb
  case wmco | wmdi | wmhr | wmir => exact writeThen_cell_outside h respond_mem (by simpa using hb)
  case mwhr =>
    simp only [bodyOf] at h
    split_ifs at h
    · rw [readThen_mem h fun hn => mem_of_next_eq hn rfl]
    · unfold maskWrite at h
      split at h
      · exact writeThen_cell_outside h respond_mem hb
      · simp at h
  case rwhr =>
    simp only [bodyOf] at h
    split_ifs at h
    · exact writeThen_cell_outside h (fun hn => mem_of_next_eq hn rfl) (by simpa using hb)
    · rw [readThen_mem h respond_mem]

/-! ### The instructions -/

/-- In VALIDATE an instruction makes no store call (R64, R136). -/
theorem exec_mem_of_validate {i : Instr} {s t : State} {x : Active} (hx : s.active = some x)
    (hv : x.ses.sst = .validate) (h : exec i s = .next t) : t.mem = s.mem := by
  by_contra hm
  obtain ⟨a, ha, hd, -⟩ := active_of_exec_mem_ne h hm
  obtain rfl := Option.some.inj (hx.symm.trans ha)
  exact absurd (hv.symm.trans hd) (by decide)

/-- Settles O37: an instruction that changes the store writes cells. -/
theorem frameOfCodesThatStoreNothing : Obligations.FrameOfCodesThatStoreNothing := by
  unfold Obligations.FrameOfCodesThatStoreNothing
  intro s t i hi h u b
  have hmem : t.mem = s.mem := by
    by_contra hm
    obtain ⟨-, -, -, hstores⟩ := active_of_exec_mem_ne h hm
    exact hstores hi
  rw [hmem]

/-- Settles O38: of the two steps of an instruction only its store calls in DISPATCH touch the store, each within the
stored cells. -/
theorem frameOfCodesThatStore : Obligations.FrameOfCodesThatStore := by
  unfold Obligations.FrameOfCodesThatStore
  intro s t i tab a n _ hi h
  refine ⟨fun u b hb => ?outside, fun ⟨x, hx, hv⟩ => exec_mem_of_validate hx hv h⟩
  case outside =>
    rw [exec_eq_serve] at h
    obtain ⟨x, -, ⟨-, hv⟩ | ⟨-, -, hbody⟩ | ⟨-, -, hr⟩⟩ := serve_inv h
    · rw [validateStep_mem hv]
    · exact bodyOf_cell_outside hi hbody hb
    · rw [raiseException_mem hr]

end Sys2Proof.Machine
end

section
/-! A StoreGet of the range a StoreSet has written (spec/41_bit_access.md R83, spec/42_register_access.md R92): O42. -/

namespace Sys2Proof.Machine

/-- A cell of a bit table reads as the truth of the value stored in it (R31, R32). -/
theorem readCell_cellOf_bit {t : TableKind} (ht : isBitTable t = true) (v : Value) :
    readCell t (cellOf t v) = .bool (truthOf v) := by
  cases hb : truthOf v <;> simp [readCell, cellOf, ht, hb]

/-- A cell of a register table reads as the value stored in it, which is of the table's type (R31 to R33). -/
theorem readCell_cellOf_word {t : TableKind} (ht : isBitTable t = false) {v : Value} (hv : storable t v = true) :
    readCell t (cellOf t v) = v := by
  cases v with
  | int n =>
    have hn : 0 ≤ n ∧ n ≤ 65535 := by simpa [storable, ht] using hv
    lift n to Nat using hn.1
    have hlt : n < 65536 := by omega
    simp [readCell, cellOf_natCast ht, ht, ofWord, Nat.mod_eq_of_lt hlt]
  | bool b => simp [ht] at hv
  | other => simp [storable] at hv

/-- The truth of a value of a bit table's type (R33). -/
theorem truthOf_of_storable {t : TableKind} {v : Value} (hv : storable t v = true) :
    truthOf v = decide (v = .bool true ∨ (v ≠ .bool false ∧ v ≠ .int 0)) := by
  rw [Bool.eq_iff_iff]
  cases v with
  | bool b => cases b <;> simp
  | int n => simp [truthOf]
  | other => simp [storable] at hv

/-- After a StoreSet, each cell of its range reads as the value stored in it. -/
theorem storeGet_of_storeSet {s : State} {t : TableKind} {a : Nat} {vals : List Value} {m : Memory}
    (hw : s.mem.wf = true) (h : storeSet s t a vals false = some m) :
    storeGet { s with mem := m } t a vals.length false = some (vals.map fun v => readCell t (cellOf t v)) := by
  obtain ⟨-, hr, -, rfl⟩ := storeSet_eq_some.1 h
  refine storeGet_eq_some.2 ⟨storeFails_false _, hr, List.ext_getElem (by simp) fun j hj _ => ?_⟩
  have hcell := Memory.cell_setCells_inside hw t a (vals.map (cellOf t)) (j := j) (by simpa using hj)
  simp [hcell]

/-- Settles O42: what a stored value reads as is a matter of the table's type. -/
theorem readAfterWrite : Obligations.ReadAfterWrite := by
  unfold Obligations.ReadAfterWrite
  intro s t a vals m hw h
  obtain ⟨-, -, hall, -⟩ := storeSet_eq_some.1 h
  have hv : ∀ v ∈ vals, storable t v = true := List.all_eq_true.1 hall
  rw [storeGet_of_storeSet hw h]
  cases ht : isBitTable t with
  | true =>
    rw [if_pos (isBitTable_iff.1 ht)]
    refine congrArg some (List.map_congr_left fun v hmem => ?_)
    rw [readCell_cellOf_bit ht, truthOf_of_storable (hv v hmem)]
  | false =>
    rw [if_neg fun hb => Bool.false_ne_true (ht.symm.trans (isBitTable_iff.2 hb)),
      List.map_congr_left fun v hmem => readCell_cellOf_word ht (hv v hmem), List.map_id']

end Sys2Proof.Machine
end

section
/-! The register-table function codes in DISPATCH (spec/42_register_access.md R84 to R91): what their store calls read,
write and answer, and from it O29, O31 and O33 to O35. -/

namespace Sys2Proof.Machine

/-! ### The register tables -/

/-- The values a register request writes, one a 16-bit value of its data (R53, R87). -/
theorem wordValues_eq (data : List Byte) (cnt : Word) :
    wordValues data cnt = (List.range cnt.toNat).map fun j => ofWord (be16 data (2 * j)) :=
  List.map_map

/-- The values `f` written to a range stand there, and no other cell changes. -/
theorem State.writes_setCells_range {s : State} (hw : s.mem.wf = true) (t : TableKind) (a n : Nat) (f : Nat → Word) :
    s.writes (s.mem.setCells t a ((List.range n).map f)) t a n f := by
  obtain ⟨hwf, hcells⟩ := State.writes_setCells hw t a ((List.range n).map f)
  refine ⟨hwf, fun u b => (hcells u b).trans ?_⟩
  simp only [List.length_map, List.length_range]
  split_ifs with hb
  · have hj : b - a < n := by omega
    simp [hj]
  · rfl

section RegisterTable

variable {s : State} {c : Nat} {fail : Bool} {ses : Session} {tid : Word} {uid fc : Byte}
  (h : Executing s .dispatch c fail ses tid uid fc) (hf : storeFails s fail = false)
  {t : TableKind} (ht : isBitTable t = false)

include hf ht

/-- The 16-bit values `f` written to a range of a register table stand there unchanged, whatever follows the StoreSet
(R32). -/
theorem writeThen_words (hw : s.mem.wf = true) {addr n : Nat} (hr : addr + n ≤ s.cfg.tableLen) (f : Nat → Word) :
    ∃ m, s.writes m t addr n f ∧ ∀ k,
      writeThen t addr ((List.range n).map fun j => ofWord (f j)) k ⟨c, fail, ses⟩ s = k (latchWrite m c s) := by
  refine ⟨_, State.writes_setCells_range hw t addr n f, fun k => ?_⟩
  have hcells : ((List.range n).map fun j => ofWord (f j)).map (cellOf t) = (List.range n).map f := by
    simp [Function.comp_def, cellOf_ofWord ht]
  rw [writeThen_ok hf (by simpa using hr) (by simp), hcells]

include h

/-- A register read answers with the registers of its range, high byte first (R84, R85, R91). -/
theorem readWords_eq {addr cnt : Word} (hr : addr.toNat + cnt.toNat ≤ s.cfg.tableLen) (code : Code) :
    readWords code t addr cnt ⟨c, fail, ses⟩ s =
      .next (s.readAnswered c tid uid ((s.wordsAt t addr.toNat cnt.toNat).map ofWord)
        ([code.byte, BitVec.ofNat 8 (2 * cnt.toNat)] ++ (s.wordsAt t addr.toNat cnt.toNat).flatMap enc16)) := by
  have hwords : ((s.wordsAt t addr.toNat cnt.toNat).map ofWord).map wordOf = s.wordsAt t addr.toNat cnt.toNat := by
    simp [Function.comp_def]
  unfold readWords
  rw [readThen_respond_eq h hf hr, map_readCell_words ht, wordReadPdu, hwords, packWords]

/-- The 16-bit values `f` written to a range of a register table, and the answer to that write (R32, R87). -/
theorem writeThen_words_respond (hw : s.mem.wf = true) {addr n : Nat} (hr : addr + n ≤ s.cfg.tableLen)
    (f : Nat → Word) (pdu : Message) :
    ∃ m, s.writes m t addr n f ∧
      writeThen t addr ((List.range n).map fun j => ofWord (f j)) (respond pdu c) ⟨c, fail, ses⟩ s =
        .next (s.wroteAnswered m c tid uid pdu) := by
  have hwrites := writeThen_respond_eq h hf hr hw (t := t) (f := fun j => ofWord (f j))
    (fun _ => storable_ofWord t _) pdu
  simpa only [cellOf_ofWord ht] using hwrites

/-- A single-register write stores the value and answers with the request (R86, R88). -/
theorem writeWord_eq (hw : s.mem.wf = true) {addr : Word} (hr : addr.toNat + 1 ≤ s.cfg.tableLen) (val : Word)
    (code : Code) :
    ∃ m, s.writes m t addr.toNat 1 (fun _ => val) ∧
      writeWord code t addr val ⟨c, fail, ses⟩ s =
        .next (s.wroteAnswered m c tid uid ([code.byte] ++ enc16 addr ++ enc16 val)) :=
  writeThen_words_respond h hf ht hw hr (fun _ => val) (twoFieldPdu code addr val)

/-- A write of several registers stores the 16-bit values of the data and answers with address and count (R87, R89). -/
theorem writeMany_words_eq (hw : s.mem.wf = true) {addr cnt : Word} (hr : addr.toNat + cnt.toNat ≤ s.cfg.tableLen)
    (data : List Byte) (code : Code) :
    ∃ m, s.writes m t addr.toNat cnt.toNat (fun j => be16 data (2 * j)) ∧
      writeMany code t addr cnt (wordValues data cnt) ⟨c, fail, ses⟩ s =
        .next (s.wroteAnswered m c tid uid ([code.byte] ++ enc16 addr ++ enc16 cnt)) := by
  rw [wordValues_eq]
  exact writeThen_words_respond h hf ht hw hr _ (twoFieldPdu code addr cnt)

end RegisterTable

/-! ### The instructions -/

/-- Settles O29: the instruction's one store call is a register read of HR or IR. -/
theorem registerReads : Obligations.RegisterReads := by
  unfold Obligations.RegisterReads
  intro s c fail ses tid uid fc addr cnt h hf hr
  simp only [exec_eq_serve]
  rw [serve_dispatch h rfl, serve_dispatch h rfl]
  exact ⟨readWords_eq h hf rfl hr .rdhr, readWords_eq h hf rfl hr .rdir⟩

/-- Settles O31: the instruction's one store call is a single-register write of HR or IR, and EXT_SRV permits WSIR. -/
theorem singleRegisterWrites : Obligations.SingleRegisterWrites := by
  unfold Obligations.SingleRegisterWrites
  intro s c fail ses tid uid fc addr val h hf hw hr
  simp only [exec_eq_serve]
  refine ⟨?wshr, fun hext => ?wsir⟩
  case wshr =>
    rw [serve_dispatch h rfl]
    exact writeWord_eq h hf rfl hw hr val .wshr
  case wsir =>
    rw [serve_dispatch (i := .wsir addr val) h hext]
    exact writeWord_eq h hf rfl hw hr val .wsir

/-- Settles O33: the instruction's one store call writes the data's 16-bit values to HR or IR, and EXT_SRV permits
WMIR. -/
theorem multipleRegisterWrites : Obligations.MultipleRegisterWrites := by
  unfold Obligations.MultipleRegisterWrites
  intro s c fail ses tid uid fc addr cnt bc data h hf hw hr
  simp only [exec_eq_serve]
  refine ⟨?wmhr, fun hext => ?wmir⟩
  case wmhr =>
    rw [serve_dispatch h rfl]
    exact writeMany_words_eq h hf rfl hw hr data .wmhr
  case wmir =>
    rw [serve_dispatch (i := .wmir addr cnt bc data) h hext]
    exact writeMany_words_eq h hf rfl hw hr data .wmir

/-- Settles O34: with no call made the step is a StoreGet of the register, with one made a StoreSet of the mask of the
value in `rvals`. -/
theorem maskWriteRegister : Obligations.MaskWriteRegister := by
  unfold Obligations.MaskWriteRegister
  intro s c fail ses tid uid fc addr andm orm h hf hw hr
  rw [exec_eq_serve, serve_dispatch h rfl]
  refine ⟨fun hcalls => ?read, fun v hcalls hv => ?write⟩
  case read =>
    simp only [bodyOf, hcalls, if_true]
    rw [readThen_ok hf hr]
    rfl
  case write =>
    simp only [bodyOf, hcalls, Nat.one_ne_zero, if_false]
    rw [maskWrite_eq hv, wordOf_ofWord]
    exact writeThen_words_respond h hf rfl hw hr (fun _ => maskedValue v andm orm) (maskPdu .mwhr addr andm orm)

/-- Settles O35: with no call made the step is a StoreSet of the data's 16-bit values, with one made a register read. -/
theorem readWriteRegisters : Obligations.ReadWriteRegisters := by
  unfold Obligations.ReadWriteRegisters
  intro s c fail ses tid uid fc raddr rcnt waddr wcnt bc data h hf hw hwr hrr
  rw [exec_eq_serve, serve_dispatch h rfl]
  refine ⟨fun hcalls => ?write, fun hcalls => ?read⟩
  case write =>
    obtain ⟨m, hm, hcall⟩ := writeThen_words (c := c) (ses := ses) hf (t := .hr) rfl hw hwr fun j => be16 data (2 * j)
    simp only [bodyOf, hcalls, if_true]
    rw [wordValues_eq]
    exact ⟨m, hm, hcall .next⟩
  case read =>
    simp only [bodyOf, hcalls, Nat.one_ne_zero, if_false]
    exact readWords_eq h hf rfl hrr .rwhr

end Sys2Proof.Machine
end

section
/-! Two sessions' WSHR steps to different registers (spec/20_memory.md R39, spec/42_register_access.md R92): O43. -/

namespace Sys2Proof.Machine

/-! ### Writes of disjoint ranges -/

/-- A cell inside the written range. -/
theorem State.writes.cell_inside {s : State} {m : Memory} {t : TableKind} {a n j : Nat} {f : Nat → Word}
    (h : s.writes m t a n f) (hj : j < n) : m.cell t (a + j) = f j := by
  rw [h.2, if_pos ⟨rfl, by omega, by omega⟩, Nat.add_sub_cancel_left]

/-- A cell of the table outside the written range. -/
theorem State.writes.cell_outside {s : State} {m : Memory} {t : TableKind} {a n b : Nat} {f : Nat → Word}
    (h : s.writes m t a n f) (hb : b < a ∨ a + n ≤ b) : m.cell t b = s.mem.cell t b := by
  rw [h.2, if_neg (by omega)]

/-- Writes of disjoint ranges of one table give one store in either order (R92). -/
theorem State.writes_comm {s u v : State} {m m' : Memory} {t : TableKind} {a b k n : Nat} {f g : Nat → Word}
    (hu : s.writes u.mem t a k f) (hm : u.writes m t b n g) (hv : s.writes v.mem t b n g) (hm' : v.writes m' t a k f)
    (hdisj : a + k ≤ b ∨ b + n ≤ a) : m = m' := by
  refine Memory.ext_of_cell hm.1 hm'.1 fun w x => ?_
  rw [hm.2, hu.2, hm'.2, hv.2]
  split_ifs
  · omega
  all_goals rfl

/-- The answers of two sessions to their writes are two changes of connections that do not see each other. -/
theorem State.wroteAnswered_conns_comm {c d : Nat} (hcd : c ≠ d) (s : State) (m m' n n' : Memory) (tid₁ tid₂ : Word)
    (uid₁ uid₂ : Byte) (p q : Message) :
    ((s.wroteAnswered m c tid₁ uid₁ p).wroteAnswered m' d tid₂ uid₂ q).conns =
      ((s.wroteAnswered n d tid₂ uid₂ q).wroteAnswered n' c tid₁ uid₁ p).conns := by
  simp only [State.wroteAnswered, State.updSession_conns]
  exact List.modify_modify_ne _ _ _ hcd

/-! ### The two steps -/

/-- A session's WSHR step writes its register and answers (R86). -/
theorem take_wshr {s : State} {c : Nat} {ses : Session} {tid : Word} {uid fc : Byte} {a v : Word}
    (h : Executing { s with choice := .session c false false } .dispatch c false ses tid uid fc)
    (hd : decode (pduOf ses.rx) = .ok (.wshr a v)) (hw : s.mem.wf = true) (ha : a.toNat < s.cfg.tableLen) :
    ∃ t : State, s.take (.session c false false) = .next t ∧ s.writes t.mem .hr a.toNat 1 (fun _ => v) ∧
      t.cfg = s.cfg ∧ t.conns = (s.wroteAnswered t.mem c tid uid ([0x06#8] ++ enc16 a ++ enc16 v)).conns := by
  obtain ⟨m, hm, hcall⟩ := writeWord_eq h (storeFails_false _) (t := .hr) rfl hw ha v .wshr
  exact ⟨_, (take_session_dispatch h hd rfl).trans (congrArg (thenRedraw s.draws) hcall), hm, rfl, rfl⟩

/-- Two sessions' WSHR steps, one after the other: the second writes to the store the first has left. -/
theorem takeAll_wshr_wshr {s : State} {c d : Nat} (hcd : c ≠ d) {x y : Session} {tid₁ tid₂ : Word}
    {uid₁ uid₂ fc₁ fc₂ : Byte} {a b v w : Word} (hw : s.mem.wf = true)
    (hx : Executing { s with choice := .session c false false } .dispatch c false x tid₁ uid₁ fc₁)
    (hy : Executing { s with choice := .session d false false } .dispatch d false y tid₂ uid₂ fc₂)
    (hdx : decode (pduOf x.rx) = .ok (.wshr a v)) (hdy : decode (pduOf y.rx) = .ok (.wshr b w))
    (ha : a.toNat < s.cfg.tableLen) (hb : b.toNat < s.cfg.tableLen) :
    ∃ r t : State, s.takeAll [.session c false false, .session d false false] = .next t ∧
      s.writes r.mem .hr a.toNat 1 (fun _ => v) ∧ r.writes t.mem .hr b.toNat 1 (fun _ => w) ∧
      t.conns = ((s.wroteAnswered r.mem c tid₁ uid₁ ([0x06#8] ++ enc16 a ++ enc16 v)).wroteAnswered t.mem d tid₂ uid₂
        ([0x06#8] ++ enc16 b ++ enc16 w)).conns := by
  obtain ⟨r, hfirst, hmem, hcfg, hconns⟩ := take_wshr hx hdx hw ha
  have hses : r.session? d = some y := by
    calc r.session? d
        = (s.wroteAnswered r.mem c tid₁ uid₁ ([0x06#8] ++ enc16 a ++ enc16 v)).session? d :=
          congrArg (fun l => l[d]?.bind Connection.session?) hconns
      _ = s.session? d := State.session?_updSession_ne _ _ hcd
      _ = some y := hy.session
  obtain ⟨t, hsecond, hmem', -, hconns'⟩ :=
    take_wshr (s := r) ⟨State.active_eq rfl hses, hy.state, hy.tid, hy.uid, hy.fc⟩ hdy hmem.1 (hcfg ▸ hb)
  exact ⟨r, t, (State.takeAll_cons hfirst _).trans (State.takeAll_cons hsecond []), hmem, hmem',
    hconns'.trans (congrArg (List.modify · d _) hconns)⟩

/-- Settles O43: each of the two orders writes both registers, which are two cells of one table, and answers both
sessions. -/
theorem disjointWritesCommute : Obligations.DisjointWritesCommute := by
  unfold Obligations.DisjointWritesCommute
  intro s c d x y tid₁ tid₂ uid₁ uid₂ fc₁ fc₂ a b v w hcd hab hw hx hy hdx hdy ha hb
  have hne : a.toNat ≠ b.toNat := fun he => hab (BitVec.eq_of_toNat_eq he)
  obtain ⟨r, t, ht, hr, htr, htc⟩ := takeAll_wshr_wshr hcd hw hx hy hdx hdy ha hb
  obtain ⟨r', u, hu, hr', hur, huc⟩ := takeAll_wshr_wshr hcd.symm hw hy hx hdy hdx hb ha
  refine ⟨t, u, ht, hu, State.writes_comm hr htr hr' hur (by omega), ?conns, ?first, ?second⟩
  case conns => rw [htc, huc, State.wroteAnswered_conns_comm hcd]
  case first => exact (htr.cell_outside (by omega)).trans (hr.cell_inside Nat.one_pos)
  case second => exact htr.cell_inside Nat.one_pos

end Sys2Proof.Machine
end

section
/-! The ignored codes, the illegal codes and the extension gate (spec/43_ignored_and_illegal.md R93 to R104): what the
class of an instruction alone decides of its step in VALIDATE, and from it O22, O23 and O24. -/

namespace Sys2Proof.Machine

/-! ### The class and the permission (R56, R93) -/

theorem permitted_of_cls_ign (g : Cfg) {i : Instr} (h : i.code.cls = .ign) : permitted g i = true := by
  simp [permitted, h]

theorem permitted_of_cls_ill (g : Cfg) {i : Instr} (h : i.code.cls = .ill) : permitted g i = false := by
  simp [permitted, h]

theorem permitted_of_cls_ext (g : Cfg) {i : Instr} (h : i.code.cls = .ext) : permitted g i = g.extSrv := by
  simp [permitted, h]

/-! ### The step in VALIDATE by class -/

section Validate

variable {s : State} {c : Nat} {fail : Bool} {ses : Session} {tid : Word} {uid fc : Byte}
  (h : Executing s .validate c fail ses tid uid fc)

include h

/-- An ignored code goes back to RECV (R68, R94). -/
theorem exec_validate_of_ignored {i : Instr} (hi : i.code.cls = .ign) :
    exec i s = .next (s.updSession c fun x => { x with verdict := some (true, 0x00#8), sst := .recv }) := by
  rw [admissionOfEveryInstruction.1 s c fail ses tid uid fc i h]
  simp [permitted_of_cls_ign s.cfg hi, shapeOk_of_ignored s.cfg hi, hi]

/-- A function the server does not perform raises 0x01 (R66, R136). -/
theorem exec_validate_of_not_permitted {i : Instr} (hp : permitted s.cfg i = false) :
    exec i s = .next (s.updSession c fun x =>
      { x with
        verdict := some (false, 0x01#8), tx := frame tid uid [fc ||| 0x80#8, 0x01#8], sst := .respond }) := by
  rw [admissionOfEveryInstruction.1 s c fail ses tid uid fc i h]
  simp [hp]

end Validate

/-- In DISPATCH a function the server does not perform raises 0x01 (R93, log 30). -/
theorem exec_dispatch_of_not_permitted {s : State} {c : Nat} {fail : Bool} {ses : Session} {tid : Word}
    {uid fc : Byte} (h : Executing s .dispatch c fail ses tid uid fc) {i : Instr} (hp : permitted s.cfg i = false) :
    exec i s = .next (s.answered c tid uid [fc ||| 0x80#8, 0x01#8]) := by
  rw [exec_eq_serve, serve_dispatch_refuses h hp]

/-! ### On bytes -/

/-- The exception bit of a code from 0x80 up is set already (R104). -/
theorem or_exceptionBit_eq_self (fc : Byte) (h : 0x80 ≤ fc.toNat) : fc ||| 0x80#8 = fc := by
  revert fc
  decide

/-- The verdict on a frame of a disabled extension code does not read past the code (R66 V6, R93). -/
theorem validateRequest_of_cls_ext {g : Cfg} {m : Message} (hext : g.extSrv = false) (hm : headerOk m = true)
    (hc : (Code.ofByte (byteAt m 7)).cls = .ext) : validateRequest g m = (false, 0x01#8) := by
  obtain ⟨hlen, hpid, hfield⟩ := (headerOk_iff m).1 hm
  rw [(validatorVerdicts.1 g m).2 hlen hpid hfield]
  simp [hc, hext]

/-- The four extension codes (R56). -/
theorem cls_ext_of_mem {b : Byte} (h : b ∈ [0x62#8, 0x64#8, 0x65#8, 0x66#8]) : (Code.ofByte b).cls = .ext := by
  revert b
  decide

/-! ### The statements -/

/-- Settles O22: each of the nine is of class `IGN`, whatever its payload. -/
theorem ignoredCodesDoNothing : Obligations.IgnoredCodesDoNothing := by
  unfold Obligations.IgnoredCodesDoNothing
  intro s c fail ses tid uid fc p i h hi
  have hcls : i.code.cls = .ign := by
    revert i
    simp [Instr.code, Code.cls]
  exact exec_validate_of_ignored h hcls

/-- Settles O23: a function code of class `ILL` is never permitted. -/
theorem illegalCodesRaise01 : Obligations.IllegalCodesRaise01 := by
  unfold Obligations.IllegalCodesRaise01
  intro s c fail ses tid uid fc p h
  exact ⟨exec_validate_of_not_permitted h (permitted_of_cls_ill s.cfg rfl), or_exceptionBit_eq_self fc⟩

/-- Settles O24: on bytes the class alone decides; an instruction of class `EXT` is not permitted, in VALIDATE nor in
DISPATCH. -/
theorem extensionGate : Obligations.ExtensionGate := by
  unfold Obligations.ExtensionGate
  refine ⟨fun g m hext hm hb => validateRequest_of_cls_ext hext hm (cls_ext_of_mem hb), ?exec⟩
  case exec =>
    intro s c fail ses tid uid fc i a x bc d hext hi
    have hcls : i.code.cls = .ext := by
      revert i
      simp [Instr.code, Code.cls]
    have hp : permitted s.cfg i = false := (permitted_of_cls_ext s.cfg hcls).trans hext
    exact ⟨fun h => exec_validate_of_not_permitted h hp, fun h => exec_dispatch_of_not_permitted h hp⟩

end Sys2Proof.Machine
end

section
/-! A client's `connect()` and `close()` in each of its states (spec/44_client_sequencer.md R107 to R109, R118), called by
a user or by the host, and what a time unit changes; from these O46, O47 and O55. -/

namespace Sys2Proof.Machine

/-! ### Connection attempts (R108) -/

/-- The attempt reaches a server: the block's Listener while it has room, or a server outside the block (log 13). -/
def reachesServer (att : Attempt) (s : State) : Prop := att = .foreign ∨ (att = .listener ∧ hasRoom s = true)

/-- The attempt reaches no server. -/
def reachesNone (att : Attempt) (s : State) : Prop := att = .fails ∨ (att = .listener ∧ hasRoom s = false)

theorem not_reachesServer_iff (att : Attempt) (s : State) : ¬reachesServer att s ↔ reachesNone att s := by
  cases att <;> simp [reachesServer, reachesNone]

/-- The server end of the connection that an attempt makes (R63, R108). -/
def serverEndOf (att : Attempt) : ServerEnd := if att = .foreign then .foreign true else .session Session.fresh

theorem attempt_of_reachesServer {att : Attempt} {s : State} (h : reachesServer att s) (k : Nat) (w : Caller) :
    attempt k w att s = attemptSucceeds k w (serverEndOf att) s := by
  rcases h with rfl | ⟨rfl, hr⟩
  · rfl
  · simp [attempt, hr, serverEndOf]

theorem attempt_of_reachesNone {att : Attempt} {s : State} (h : reachesNone att s) (k : Nat) (w : Caller) :
    attempt k w att s = attemptFails k s := by
  rcases h with rfl | ⟨rfl, hr⟩
  · rfl
  · simp [attempt, hr]

/-! ### Connect (R107) -/

section Connect

variable {s : State} {k : Nat} {cl : Client} (hk : s.clients[k]? = some cl)

include hk

/-- Outside IDLE `connect()` returns false. -/
theorem clientConnect_of_ne_idle (hst : cl.cst ≠ .idle) (w : Caller) (att : Attempt) :
    clientConnect k w att s = deliver w k (.connect false) s := by
  cases hc : cl.cst
  case idle => exact absurd hc hst
  all_goals simp [clientConnect, hk, hc]

/-- From IDLE `connect()` makes the first attempt at once. -/
theorem clientConnect_of_idle (hst : cl.cst = .idle) (w : Caller) (att : Attempt) :
    clientConnect k w att s =
      attempt k w att (s.updClient k fun x => { x with elapsed := 0, cst := .connecting, wait := 0, caller := w }) := by
  simp [clientConnect, hk, hst]

/-- From IDLE a first attempt that reaches a server makes the client READY on a new connection. -/
theorem clientConnect_of_reachesServer (hst : cl.cst = .idle) (w : Caller) {att : Attempt} (ha : reachesServer att s) :
    clientConnect k w att s =
      deliver w k (.connect true) ((s.addConn (newConnection (.client k) (serverEndOf att))).updClient k fun _ =>
        { cl with cst := .ready, elapsed := 0, wait := 0, caller := w, conn := some s.conns.length }) := by
  rw [clientConnect_of_idle hk hst, attempt_of_reachesServer (s := s.updClient k _) ha, attemptSucceeds]
  congr 1
  exact (State.updClient_updClient (s.addConn _) k _ _).trans (State.updClient_congr (cl := cl) hk rfl)

/-- From IDLE a first attempt that reaches none leaves the client CONNECTING, with CONNECT_POLL to wait (R109). -/
theorem clientConnect_of_reachesNone (hst : cl.cst = .idle) (w : Caller) {att : Attempt} (ha : reachesNone att s) :
    clientConnect k w att s = s.updClient k fun _ =>
      { cl with cst := .connecting, elapsed := 0, wait := s.cfg.connectPoll, caller := w } := by
  rw [clientConnect_of_idle hk hst, attempt_of_reachesNone (s := s.updClient k _) ha, attemptFails,
    State.updClient_updClient]
  exact State.updClient_congr (cl := cl) hk rfl

end Connect

/-- The host that boots and whose ticks are scheduled calls `connect()` (R132, R147; log 37). -/
theorem hostStep_boot {s : State} {cl : Client} (hk : s.clients[hostClient]? = some cl) (hph : s.host.phase = .boot)
    (hsch : s.host.scheduled = true) (err : Bool) (att : Attempt) :
    hostStep err att s = .next (clientConnect hostClient .host att
      (s.updHost fun h => { h with phase := .connecting, inbox := none })) := by
  simp [hostStep, hk, hph, hsch]

/-- Settles O46, for a call of a user and for the host's one call: the state, and in IDLE the attempt, decide. -/
theorem connect : Obligations.Connect := by
  unfold Obligations.Connect
  refine ⟨fun s k cl att hk => ?user, fun s cl err att hk hph hsch => ?host⟩
  case user =>
    let s' : State := { s with choice := .userConnect k att }
    have hk' : s'.clients[k]? = some cl := hk
    have hcall : s.take (.userConnect k att) = .next (redraw s.draws (clientConnect k .user att s')) := rfl
    rw [hcall]
    refine ⟨fun hst => ?_, fun hst => ?_⟩
    · rw [clientConnect_of_ne_idle hk' hst]
      rfl
    by_cases ha : reachesServer att s'
    · rw [clientConnect_of_reachesServer hk' hst .user ha]
      refine ⟨_, rfl, rfl, rfl, fun j hj => ?_, fun _ => ⟨?_, rfl⟩,
        fun hn => absurd ha ((not_reachesServer_iff ..).2 hn)⟩
      · simp [s', Ne.symm hj]
      · simp [s', hk]
    · rw [clientConnect_of_reachesNone hk' hst .user ((not_reachesServer_iff ..).1 ha)]
      refine ⟨_, rfl, rfl, rfl, fun j hj => ?_, fun h => absurd h ha, fun _ => ⟨?_, rfl⟩⟩
      · simp [s', Ne.symm hj]
      · simp [s', hk]
  case host =>
    let s' : State := { s with
      choice := .host err att, host := { s.host with phase := .connecting, inbox := none } }
    have hk' : s'.clients[0]? = some cl := hk
    have hcall : s.take (.host err att) = .next (redraw s.draws (clientConnect 0 .host att s')) :=
      congrArg (thenRedraw s.draws) (hostStep_boot (s := { s with choice := .host err att }) hk hph hsch err att)
    rw [hcall]
    refine ⟨fun hst => ?_, fun hst => ?_⟩
    · rw [clientConnect_of_ne_idle hk' hst]
      rfl
    by_cases ha : reachesServer att s'
    · rw [clientConnect_of_reachesServer hk' hst .host ha]
      refine ⟨_, rfl, rfl, fun j hj => ?_, fun _ => ⟨rfl, ?_, rfl⟩,
        fun hn => absurd ha ((not_reachesServer_iff ..).2 hn)⟩
      · simp [s', Ne.symm hj]
      · simp [s', hk]
    · rw [clientConnect_of_reachesNone hk' hst .host ((not_reachesServer_iff ..).1 ha)]
      refine ⟨_, rfl, rfl, fun j hj => ?_, fun h => absurd h ha, fun _ => ⟨rfl, ?_, rfl⟩⟩
      · simp [s', Ne.symm hj]
      · simp [s', hk]

/-! ### The bounded retry (R109) -/

/-- What is returned to a caller does not depend on the move that returns it. -/
theorem redraw_deliver_choice (n : Nat) (w : Caller) (k : Nat) (r : Return) (s : State) (m : Move) :
    redraw n (deliver w k r { s with choice := m }) = redraw n (deliver w k r s) := by
  cases w <;> rfl

section Poll

variable {s : State} {k : Nat} {cl : Client} (hk : s.clients[k]? = some cl)

include hk

theorem clientStep_connecting (hst : cl.cst = .connecting) (err : Bool) (att : Attempt) :
    clientStep k err att s = .next (if cl.wait = 0 then pollStep k cl att s else s) := by
  simp only [clientStep, hk, hst]
  split <;> rfl

/-- Beyond CONNECT_BOUND the client fails for good, and `connect()` returns false. -/
theorem pollStep_of_late (hb : cl.elapsed + s.cfg.connectPoll > s.cfg.connectBound) (att : Attempt) :
    pollStep k cl att s = deliver cl.caller k (.connect false) (s.updClient k fun x =>
      { x with cst := .failed, elapsed := x.elapsed + s.cfg.connectPoll }) := by
  rw [pollStep, if_neg (Nat.not_le_of_gt hb)]
  congr 1
  exact State.updClient_congr hk rfl

/-- Within CONNECT_BOUND an attempt that reaches no server makes the client wait again. -/
theorem pollStep_of_reachesNone (hb : cl.elapsed + s.cfg.connectPoll ≤ s.cfg.connectBound) {att : Attempt}
    (ha : reachesNone att s) :
    pollStep k cl att s = s.updClient k fun x =>
      { x with elapsed := x.elapsed + s.cfg.connectPoll, wait := s.cfg.connectPoll } := by
  rw [pollStep, if_pos hb, attempt_of_reachesNone (s := s.updClient k _) ha, attemptFails, State.updClient_updClient]
  exact State.updClient_congr hk rfl

/-- Within CONNECT_BOUND an attempt that reaches a server makes the client READY on a new connection. -/
theorem pollStep_of_reachesServer (hb : cl.elapsed + s.cfg.connectPoll ≤ s.cfg.connectBound) {att : Attempt}
    (ha : reachesServer att s) :
    pollStep k cl att s = deliver cl.caller k (.connect true)
      ((s.addConn (newConnection (.client k) (serverEndOf att))).updClient k fun _ =>
        { cl with cst := .ready, elapsed := cl.elapsed + s.cfg.connectPoll, conn := some s.conns.length }) := by
  rw [pollStep, if_pos hb, attempt_of_reachesServer (s := s.updClient k _) ha, attemptSucceeds]
  congr 1
  exact (State.updClient_updClient (s.addConn _) k _ _).trans (State.updClient_congr (cl := cl) hk rfl)

end Poll

/-- Settles O47: the time left to wait, then CONNECT_BOUND, then the attempt decide. -/
theorem boundedRetry : Obligations.BoundedRetry := by
  unfold Obligations.BoundedRetry
  refine ⟨fun s k cl err att back hk hst hback => ?poll, fun s => ⟨_, rfl, fun k => ?time, rfl, rfl, rfl, rfl, rfl⟩⟩
  case poll =>
    obtain rfl : back = deliver cl.caller k := by
      rw [hback]
      funext r t
      cases cl.caller <;> rfl
    let s' : State := { s with choice := .client k err att }
    have hk' : s'.clients[k]? = some cl := hk
    have hstep : s.take (.client k err att) =
        .next (redraw s.draws (if cl.wait = 0 then pollStep k cl att s' else s')) :=
      congrArg (thenRedraw s.draws) (clientStep_connecting hk' hst err att)
    rw [hstep]
    refine ⟨fun hw => ?_, fun hw hb => ?_, fun hw hb hn => ?_, fun hw hb ha => ?_⟩
    · rw [if_neg (Nat.ne_of_gt hw)]
      rfl
    · rw [if_pos hw, pollStep_of_late hk' hb]
      exact congrArg Host.Outcome.next (redraw_deliver_choice _ _ _ _ (s.updClient k _) _)
    · rw [if_pos hw, pollStep_of_reachesNone hk' hb hn]
      rfl
    · rw [if_pos hw, pollStep_of_reachesServer hk' hb ha]
      refine ⟨_, _, rfl, rfl, ?_, rfl, rfl, ?_⟩
      · simp [s']
      · simp [s', hk]
  case time => simp [timePasses]

/-! ### Close (R118) -/

/-- The client's end of its connection closes, if it has one. -/
def closeEndOf (cl : Client) (s : State) : State :=
  match cl.conn with
  | some c => closeClientEnd c s
  | none => s

theorem closeEndOf_clients (cl : Client) (s : State) : (closeEndOf cl s).clients = s.clients := by
  unfold closeEndOf
  split <;> rfl

theorem closeEndOf_host (cl : Client) (s : State) : (closeEndOf cl s).host = s.host := by
  unfold closeEndOf
  split <;> rfl

/-- Outside FAILED `close()` ends the connection, leaves the client IDLE and releases a blocked caller. -/
theorem clientClose_of_ne_failed {s : State} {k : Nat} {cl : Client} (hk : s.clients[k]? = some cl)
    (hst : cl.cst ≠ .failed) :
    clientClose k s = releaseCaller k cl
      ((closeEndOf cl s).updClient k fun x => { x with cst := .idle, pend := none, conn := none }) := by
  simp only [clientClose, hk, hst, if_false]
  rfl

theorem releaseCaller_conns (k : Nat) (cl : Client) (s : State) : (releaseCaller k cl s).conns = s.conns := by
  unfold releaseCaller
  split <;> simp

/-- Of a client whose call returns only what it has returned to a user changes (log 34). -/
theorem deliver_client {s : State} {k : Nat} {x : Client} (hx : s.clients[k]? = some x) (w : Caller) (r : Return) :
    ∃ ret, (deliver w k r s).clients[k]? = some { x with ret := ret } := by
  cases w with
  | user => exact ⟨some r, by simp [hx]⟩
  | host => exact ⟨x.ret, hx⟩

/-- Of a client whose caller is released only what it has returned to a user changes. -/
theorem releaseCaller_client {s : State} {k : Nat} {x : Client} (cl : Client) (hx : s.clients[k]? = some x) :
    ∃ r, (releaseCaller k cl s).clients[k]? = some { x with ret := r } ∧
      (cl.cst = .await → cl.caller = .user → r = some (.send .transport)) := by
  unfold releaseCaller
  cases cl.cst with
  | await =>
    cases cl.caller with
    | user => exact ⟨some (.send .transport), by simp [hx], fun _ _ => rfl⟩
    | host => exact ⟨x.ret, hx, nofun⟩
  | connecting =>
    obtain ⟨r, hr⟩ := deliver_client hx cl.caller (.connect false)
    exact ⟨r, hr, nofun⟩
  | idle | ready | failed => exact ⟨x.ret, hx, nofun⟩

/-- Settles O55: outside FAILED the connection's end, the client and its blocked caller change, one after the other. -/
theorem close : Obligations.Close := by
  unfold Obligations.Close
  intro s k cl hk
  let s' : State := { s with choice := .userClose k }
  have hk' : s'.clients[k]? = some cl := hk
  have hstep : s.take (.userClose k) = .next (redraw s.draws (clientClose k s')) := rfl
  rw [hstep]
  refine ⟨fun hst => ?_, fun hst => ⟨_, rfl, clientClose_mem k s', ?client, ?host, fun c conn hc hcn => ?peer⟩⟩
  · simp only [clientClose, hk', hst, if_true]
    rfl
  all_goals rw [clientClose_of_ne_failed hk' hst]
  case client =>
    obtain ⟨r, hr, hret⟩ := releaseCaller_client (k := k) cl
      (State.updClient_get _ k (fun x => { x with cst := .idle, pend := none, conn := none })
        ((closeEndOf_clients cl s').symm ▸ hk'))
    exact ⟨_, hr, rfl, rfl, rfl, rfl, hret⟩
  case host =>
    intro ha hw
    simp [releaseCaller, ha, hw, closeEndOf_host, s']
  case peer =>
    simp [releaseCaller_conns, closeEndOf, hc, closeClientEnd, hcn, s']

end Sys2Proof.Machine
end

section
/-! A client's `send` in each of its states (spec/44_client_sequencer.md R106, R110 to R112, R117), called by a user or by
the host (spec/45_host_control_loop.md R121 to R128), and the host between its sends; from these O48, O49 and O57. -/

namespace Sys2Proof.Machine

/-! ### Send -/

section ClientSend

variable {s : State} {k : Nat} {cl : Client} (hk : s.clients[k]? = some cl) (w : Caller)

include hk

/-- In AWAIT the call cannot be made (R110; log 21). -/
theorem clientSend_of_await (hst : cl.cst = .await) (r : Request) (err : Bool) : clientSend k w r err s = .next s := by
  simp [clientSend, hk, hst]

/-- Before a connection is made and after it has failed, the send is NotReady (R110). -/
theorem clientSend_of_not_ready (hst : cl.cst = .idle ∨ cl.cst = .connecting ∨ cl.cst = .failed) (r : Request)
    (err : Bool) : clientSend k w r err s = .next (deliver w k (.send .notReady) s) := by
  rcases hst with h | h | h <;> simp [clientSend, hk, h]

section Ready

variable (hst : cl.cst = .ready) {r : Request}

include hst

/-- A request of an extension code without EXT_CLI is NotReady (R106). -/
theorem clientSend_of_not_admitted (ha : clientAdmits s.cfg r.instr = false) (err : Bool) :
    clientSend k w r err s = .next (deliver w k (.send .notReady) s) := by
  simp [clientSend, hk, hst, ha]

/-- An admitted request that no frame carries is no call (log 25). -/
theorem clientSend_of_not_wellFormed (ha : clientAdmits s.cfg r.instr = true) (hr : r.wellFormed = false) (err : Bool) :
    clientSend k w r err s = .next s := by
  simp [clientSend, hk, hst, ha, hr]

variable {c : Nat} {conn : Connection} (hc : cl.conn = some c) (hcn : s.conns[c]? = some conn)
  (ha : clientAdmits s.cfg r.instr = true) (hr : r.wellFormed = true)

include hc hcn ha hr

/-- An admitted request is transmitted (R111, R112). -/
theorem clientSend_transmits : clientSend k w r false s = .next (transmit k c w r.instr cl s) := by
  simp [clientSend, hk, hst, ha, hr, hc, hcn]

/-- On a transport error an admitted request fails the client (R117). -/
theorem clientSend_fails : clientSend k w r true s = .next (clientFails k w s) := by
  simp [clientSend, hk, hst, ha, hr, hc, hcn]

end Ready

/-- Transmitting as one change of the client (R111, R112). -/
theorem transmit_eq (c : Nat) (i : Instr) :
    transmit k c w i cl s = (s.pushToServer c (frame (cl.tidCtr + 1#16) s.cfg.unitId (encode i))).updClient k fun x =>
      { x with
        tidCtr := x.tidCtr + 1#16, cst := .await, caller := w,
        pend := some ⟨cl.tidCtr + 1#16, s.cfg.unitId, i.fc, awaitedCount i, i.code.respFormat⟩ } :=
  State.updClient_congr (cl := cl) hk rfl

end ClientSend

/-- Only the extension codes need EXT_CLI (R106). -/
theorem clientAdmits_iff (g : Cfg) (i : Instr) :
    clientAdmits g i = true ↔ ((Code.ofByte i.fc).cls = .ext → g.extCli = true) := by
  simp [clientAdmits, imp_iff_not_or]

/-- Settles O48, by the state of the client and, in READY, by whether it admits the request. -/
theorem sendPreconditions : Obligations.SendPreconditions := by
  unfold Obligations.SendPreconditions
  intro s k cl r err hk
  let s' : State := { s with choice := .userSend k r err }
  have hk' : s'.clients[k]? = some cl := hk
  have hstep : s.take (.userSend k r err) = thenRedraw s.draws (clientSend k .user r err s') := rfl
  rw [hstep]
  refine ⟨fun h => ?notReady, fun hst => ?await, fun hst ha hr => ?noCall⟩
  case notReady =>
    have hsend : clientSend k .user r err s' = .next (deliver .user k (.send .notReady) s') := by
      rcases h with h | h | h | ⟨hst, hext, hcli⟩
      · exact clientSend_of_not_ready hk' .user (.inl h) r err
      · exact clientSend_of_not_ready hk' .user (.inr (.inl h)) r err
      · exact clientSend_of_not_ready hk' .user (.inr (.inr h)) r err
      · refine clientSend_of_not_admitted hk' .user hst ?_ err
        simp [clientAdmits, hext, hcli, s']
    rw [hsend]
    rfl
  case await =>
    rw [clientSend_of_await hk' .user hst]
    rfl
  case noCall =>
    rw [clientSend_of_not_wellFormed hk' .user hst ((clientAdmits_iff _ _).2 ha) hr]
    rfl

/-- The codes whose answer carries a count are the reads and 0x17 (R25, R72). -/
theorem awaitedCount_of_not_read {i : Instr} (h : i.fc ∉ [0x01#8, 0x02#8, 0x03#8, 0x04#8, 0x17#8]) :
    awaitedCount i = 0#16 := by
  cases i
  case rdco | rddi | rdhr | rdir | rwhr => simp [Instr.fc, Instr.code, Code.byte] at h
  all_goals rfl

end Sys2Proof.Machine

namespace Sys2Proof

open Machine in
/-- Settles O49: the request is transmitted, or the client fails, in one change of the client. -/
theorem transmit : Obligations.Transmit := by
  unfold Obligations.Transmit
  refine ⟨fun s k c cl conn r hk hst hc hcn hr hext => ?_, fun a n ra wa wc bc d =>
    ⟨rfl, rfl, rfl, rfl, rfl, fun _ => awaitedCount_of_not_read⟩⟩
  have ha : clientAdmits s.cfg r.instr = true := by
    rw [clientAdmits_of_wellFormed hr]
    simpa [imp_iff_not_or] using hext
  constructor
  · let s' : State := { s with choice := .userSend k r false }
    have hk' : s'.clients[k]? = some cl := hk
    refine (congrArg (thenRedraw s.draws) (clientSend_transmits hk' .user hst hc hcn ha hr)).trans ?_
    rw [transmit_eq hk']
    rfl
  · let s' : State := { s with choice := .userSend k r true }
    have hk' : s'.clients[k]? = some cl := hk
    refine (congrArg (thenRedraw s.draws) (clientSend_fails hk' .user hst hc hcn ha hr)).trans ?_
    rw [clientFails, deliver, State.updClient_updClient]
    rfl

end Sys2Proof

namespace Sys2Proof.Machine

/-! ### The sends of a tick (R121 to R127) -/

/-- The host's step is the send `r` of a host that then is `h`, unless its client is in AWAIT for another caller. -/
def HostCalls (s : State) (r : Request) (h : HostLoop) : Prop :=
  ∀ (cl : Client) (err : Bool) (att : Attempt), s.clients[hostClient]? = some cl →
    hostStep err att s = whenFree cl (clientSend hostClient .host r err { s with host := h }) s

section HostCalls

variable {s : State}

/-- A tick begins with the discrete inputs (R121). -/
theorem hostCalls_rddi (hph : s.host.phase = .sleep) (hw : s.host.wait = 0) (hsch : s.host.scheduled = true) :
    HostCalls s (.rddi 0#16 3#16) { s.host with phase := .awaitDi, inbox := none } := by
  intro cl err att hk
  have hstep : hostStep err att s = whenFree cl (hostSend (.rddi 0#16 3#16) err .awaitDi s) s := by
    simp [hostStep, hk, hph, hw, hsch]
  exact hstep

/-- The discrete inputs are followed by the input registers (R121, R122). -/
theorem hostCalls_rdir {a b d : Bool} (hph : s.host.phase = .awaitDi)
    (hi : s.host.inbox = some (.send (.ok (.bits [a, b, d])))) :
    HostCalls s (.rdir 0#16 6#16)
      { s.host with
        phase := .awaitIr, inbox := none,
        inputs := { s.host.inputs with systemOn := a, doorClosed := b, moving := d } } := by
  intro cl err att hk
  have hstep : hostStep err att s = whenFree cl (takeDi err s (.bits [a, b, d])) s := by
    simp [hostStep, hk, hph, afterSend, hi]
  exact hstep

/-- The input registers are followed by the holding register (R121, R122). -/
theorem hostCalls_rdhr {f ms r0 r1 r2 r3 : Word} (hph : s.host.phase = .awaitIr)
    (hi : s.host.inbox = some (.send (.ok (.regs [f, ms, r0, r1, r2, r3])))) :
    HostCalls s (.rdhr 0#16 1#16)
      { s.host with
        phase := .awaitHr, inbox := none,
        inputs :=
          { s.host.inputs with
            currentFloor := f, msToClose := ms, req0 := r0 != 0#16, req1 := r1 != 0#16, req2 := r2 != 0#16,
            req3 := r3 != 0#16 } } := by
  intro cl err att hk
  have hstep : hostStep err att s = whenFree cl (takeIr err s (.regs [f, ms, r0, r1, r2, r3])) s := by
    simp [hostStep, hk, hph, afterSend, hi]
  exact hstep

section Rule

variable {v : Word} {x : TickInputs} {o : RuleOutcome} (hph : s.host.phase = .awaitHr)
  (hi : s.host.inbox = some (.send (.ok (.regs [v])))) (hx : x = { s.host.inputs with observedCode := v })
  (ho : o = hostRule s.host.hst s.host.localTarget x)

include hph hi in
theorem hostStep_awaitHr {cl : Client} (hk : s.clients[hostClient]? = some cl) (err : Bool) (att : Attempt) :
    hostStep err att s = whenFree cl (takeHr err s (.regs [v])) s := by
  simp [hostStep, hk, hph, afterSend, hi]

include hx ho in
/-- With the tick's last input the rule is evaluated (R121): its write is sent, or else the write-back. -/
theorem takeHr_eq (err : Bool) :
    takeHr err s (.regs [v]) =
      match o.write with
      | some w => hostSend (.wshr 0#16 w) err .awaitRule (s.updHost fun h => { h with inputs := x })
      | none => applyRule o err (s.updHost fun h => { h with inputs := x }) := by
  subst hx ho
  rfl

include hph hi hx ho

/-- The holding register is followed by the rule's write, if it has one (R124, R125). -/
theorem hostCalls_rule {w : Word} (hw : o.write = some w) :
    HostCalls s (.wshr 0#16 w) { s.host with phase := .awaitRule, inbox := none, inputs := x } := by
  intro cl err att hk
  rw [hostStep_awaitHr hph hi hk, takeHr_eq hx ho, hw]
  rfl

/-- A rule that writes nothing is followed by the write-back of its target (R127). -/
theorem hostCalls_writeBack_of_no_write (hw : o.write = none) :
    HostCalls s (.wshr 0#16 o.target)
      { s.host with phase := .awaitBack, inbox := none, inputs := x, hst := o.hst, localTarget := o.target } := by
  intro cl err att hk
  rw [hostStep_awaitHr hph hi hk, takeHr_eq hx ho, hw]
  rfl

end Rule

/-- The rule's write is followed by the write-back of its target (R127). -/
theorem hostCalls_writeBack {d : Payload} {o : RuleOutcome} (hph : s.host.phase = .awaitRule)
    (hi : s.host.inbox = some (.send (.ok d))) (ho : o = hostRule s.host.hst s.host.localTarget s.host.inputs) :
    HostCalls s (.wshr 0#16 o.target)
      { s.host with phase := .awaitBack, inbox := none, hst := o.hst, localTarget := o.target } := by
  subst ho
  intro cl err att hk
  have hstep : hostStep err att s = whenFree cl (applyRule (currentRule s) err s) s := by
    simp [hostStep, hk, hph, afterSend, hi]
  exact hstep

end HostCalls

/-! ### Between the sends -/

section Between

variable {s : State} {cl : Client} (hk : s.clients[hostClient]? = some cl)

include hk

/-- After the write-back the host sleeps TICK time units (R121). -/
theorem hostStep_awaitBack {d : Payload} (hph : s.host.phase = .awaitBack) (hi : s.host.inbox = some (.send (.ok d)))
    (err : Bool) (att : Attempt) :
    hostStep err att s =
      .next (s.updHost fun h => { h with phase := .sleep, wait := s.cfg.tick, inbox := none }) := by
  simp [hostStep, hk, hph, afterSend, hi]

/-- The first tick is due once the connect has returned true; else there is none (R132). -/
theorem hostStep_connected {ok : Bool} (hph : s.host.phase = .connecting) (hi : s.host.inbox = some (.connect ok))
    (err : Bool) (att : Attempt) :
    hostStep err att s =
      .next (s.updHost fun h => { h with phase := if ok then .sleep else .stopped, wait := 0, inbox := none }) := by
  simp [hostStep, hk, hph, hi]

/-- No tick begins once the run's caller has stopped scheduling them (R158; log 37). -/
theorem hostStep_not_scheduled (hph : s.host.phase = .boot ∨ s.host.phase = .sleep) (hsch : s.host.scheduled = false)
    (err : Bool) (att : Attempt) : hostStep err att s = .next s := by
  rcases hph with hph | hph <;> simp [hostStep, hk, hph, hsch]

/-- No tick begins while time is left to sleep (R121). -/
theorem hostStep_asleep (hph : s.host.phase = .sleep) (hw : 0 < s.host.wait) (err : Bool) (att : Attempt) :
    hostStep err att s = .next s := by
  simp [hostStep, hk, hph, Nat.ne_of_gt hw]

end Between

/-- A request of an executed code that is a well-formed instruction is one a client can write (R49, R62). -/
theorem Request.wellFormed_of_instr {r : Request} (h : r.instr.wellFormed = true) (ho : ∀ fc p, r ≠ .other fc p) :
    r.wellFormed = true := by
  obtain ⟨-, -, -, hle⟩ := encodedPdu r.instr h
  cases r
  case other fc p => exact absurd rfl (ho fc p)
  all_goals simp [Request.wellFormed, hle]

/-- A send of the host, in every state of client 0 (R110 to R112, R117). -/
theorem hostSends_of_hostCalls {s : State} {r : Request} {h : HostLoop}
    (hcall : ∀ m, HostCalls { s with choice := m } r h) (hi : r.instr.wellFormed = true)
    (ho : ∀ fc p, r ≠ .other fc p) (hcls : r.instr.code.cls = .std) : s.hostSends r.instr h := by
  intro cl att hk
  have hr : r.wellFormed = true := Request.wellFormed_of_instr hi ho
  have ha : clientAdmits s.cfg r.instr = true := by
    rw [clientAdmits_of_wellFormed hr, hcls]
    rfl
  let after (err : Bool) : State := { s with choice := .host err att, host := h }
  have hk' : ∀ err, (after err).clients[hostClient]? = some cl := fun _ => hk
  have hstep : ∀ err, s.take (.host err att) = thenRedraw s.draws
      (whenFree cl (clientSend hostClient .host r err (after err)) { s with choice := .host err att }) :=
    fun err => congrArg (thenRedraw s.draws) (hcall _ cl err att hk)
  have hfree : ∀ err, cl.cst ≠ .await →
      s.take (.host err att) = thenRedraw s.draws (clientSend hostClient .host r err (after err)) :=
    fun err hst => by rw [hstep, whenFree, if_neg hst]
  refine ⟨fun c conn hst hc hcn => ⟨?transmits, ?fails⟩, fun err => ⟨fun hst => ?notReady, fun hst => ?waits⟩⟩
  case transmits =>
    rw [hfree false (by simp [hst]), clientSend_transmits (hk' false) .host hst hc hcn ha hr, transmit_eq (hk' false)]
    rfl
  case fails =>
    rw [hfree true (by simp [hst]), clientSend_fails (hk' true) .host hst hc hcn ha hr]
    rfl
  case notReady =>
    rw [hfree err (by rcases hst with h | h | h <;> simp [h]), clientSend_of_not_ready (hk' err) .host hst]
    rfl
  case waits =>
    rw [hstep, whenFree, if_pos hst]
    rfl

/-- Settles O57: the phase and what has been returned decide which send is next. -/
theorem hostTick : Obligations.HostTick := by
  unfold Obligations.HostTick
  refine ⟨fun s => ⟨fun hph hw hsch => ?di, fun a b d hph hi => ?ir, fun f ms r0 r1 r2 r3 hph hi => ?hr,
    fun v x o hph hi hx ho => ⟨fun w hw => ?rule, fun hw => ?back⟩, fun d o hph hi ho => ?backAfterRule⟩,
    fun s cl err att hk => ?between⟩
  case di => exact hostSends_of_hostCalls (r := .rddi 0#16 3#16) (fun _ => hostCalls_rddi hph hw hsch) rfl nofun rfl
  case ir => exact hostSends_of_hostCalls (r := .rdir 0#16 6#16) (fun _ => hostCalls_rdir hph hi) rfl nofun rfl
  case hr => exact hostSends_of_hostCalls (r := .rdhr 0#16 1#16) (fun _ => hostCalls_rdhr hph hi) rfl nofun rfl
  case rule =>
    exact hostSends_of_hostCalls (r := .wshr 0#16 w)
      (fun m => hostCalls_rule (s := { s with choice := m }) hph hi hx ho hw) rfl nofun rfl
  case back =>
    exact hostSends_of_hostCalls (r := .wshr 0#16 o.target)
      (fun _ => hostCalls_writeBack_of_no_write hph hi hx ho hw) rfl nofun rfl
  case backAfterRule =>
    exact hostSends_of_hostCalls (r := .wshr 0#16 o.target) (fun _ => hostCalls_writeBack hph hi ho) rfl nofun rfl
  case between =>
    let s' : State := { s with choice := .host err att }
    have hk' : s'.clients[hostClient]? = some cl := hk
    exact ⟨fun _ hph hi => congrArg (thenRedraw s.draws) (hostStep_awaitBack hk' hph hi err att),
      fun _ hph hi => congrArg (thenRedraw s.draws) (hostStep_connected hk' hph hi err att),
      fun hph hsch => congrArg (thenRedraw s.draws) (hostStep_not_scheduled hk' hph hsch err att),
      fun hph hw => congrArg (thenRedraw s.draws) (hostStep_asleep hk' hph hw err att), rfl⟩

end Sys2Proof.Machine
end

section
/-! What each move leaves of the clients (spec/44_client_sequencer.md R111, R117, R118, spec/60_exceptions.md R139): only a
restart ends FAILED, only a send that transmits or a restart changes a counter; from it O50. -/

namespace Sys2Proof.Machine

/-! ### Moves that keep the counters -/

/-- The client keeps its counter, and FAILED where it has come to that. -/
structure Client.Keeps (cl cl' : Client) : Prop where
  failed : cl.cst = .failed → cl'.cst = .failed
  tidCtr : cl'.tidCtr = cl.tidCtr

/-- From `s` to `t` only client `k` may have changed, and it keeps its counter. -/
structure KeepsCounter (k : Nat) (s t : State) : Prop where
  client : ∀ (j : Nat) (cl : Client), s.clients[j]? = some cl →
    ∃ cl', t.clients[j]? = some cl' ∧ cl.Keeps cl' ∧ (j ≠ k → cl' = cl)

section KeepsCounter

variable {k : Nat} {s t u : State}

theorem keepsCounter_of_clients_eq (h : t.clients = s.clients) : KeepsCounter k s t :=
  ⟨fun _ cl hj => ⟨cl, h ▸ hj, ⟨id, rfl⟩, fun _ => rfl⟩⟩

theorem KeepsCounter.trans (h : KeepsCounter k s t) (h' : KeepsCounter k t u) : KeepsCounter k s u := by
  refine ⟨fun j cl hj => ?_⟩
  obtain ⟨cl', hj', hkeep, hne⟩ := h.client j cl hj
  obtain ⟨cl'', hj'', hkeep', hne'⟩ := h'.client j cl' hj'
  exact ⟨cl'', hj'', ⟨hkeep'.failed ∘ hkeep.failed, hkeep'.tidCtr.trans hkeep.tidCtr⟩,
    fun hjk => (hne' hjk).trans (hne hjk)⟩

theorem keepsCounter_updClient {f : Client → Client} (hf : ∀ cl, s.clients[k]? = some cl → cl.Keeps (f cl)) :
    KeepsCounter k s (s.updClient k f) := by
  refine ⟨fun j cl hj => ?_⟩
  by_cases hjk : j = k
  · subst hjk
    exact ⟨f cl, State.updClient_get s j f hj, hf cl hj, absurd rfl⟩
  · exact ⟨cl, (State.updClient_get_ne s f hjk).trans hj, ⟨id, rfl⟩, fun _ => rfl⟩

theorem keepsCounter_deliver (w : Caller) (k : Nat) (r : Return) (s : State) : KeepsCounter k s (deliver w k r s) := by
  cases w with
  | user => exact keepsCounter_updClient fun _ _ => ⟨id, rfl⟩
  | host => exact keepsCounter_of_clients_eq rfl

/-! #### Calls and steps of a client -/

theorem keepsCounter_attempt (hk : ∀ cl, s.clients[k]? = some cl → cl.cst ≠ .failed) (w : Caller) (att : Attempt) :
    KeepsCounter k s (attempt k w att s) := by
  by_cases ha : reachesServer att s
  · rw [attempt_of_reachesServer ha]
    refine .trans (t := s.addConn (newConnection (.client k) (serverEndOf att)))
      (keepsCounter_of_clients_eq rfl) (.trans ?_ (keepsCounter_deliver ..))
    exact keepsCounter_updClient fun cl hcl => ⟨fun hst => absurd hst (hk cl hcl), rfl⟩
  · rw [attempt_of_reachesNone ((not_reachesServer_iff ..).1 ha)]
    exact keepsCounter_updClient fun _ _ => ⟨id, rfl⟩

theorem keepsCounter_clientConnect (k : Nat) (w : Caller) (att : Attempt) (s : State) :
    KeepsCounter k s (clientConnect k w att s) := by
  cases hk : s.clients[k]? with
  | none => exact keepsCounter_of_clients_eq (by simp [clientConnect, hk])
  | some cl =>
    by_cases hst : cl.cst = .idle
    · rw [clientConnect_of_idle hk hst]
      refine .trans ?_ (keepsCounter_attempt (fun x hx => ?_) w att)
      · refine keepsCounter_updClient fun x hx => ⟨fun hf => ?_, rfl⟩
        obtain rfl := Option.some.inj (hk.symm.trans hx)
        simp [hst] at hf
      · rw [State.updClient_get _ _ _ hk] at hx
        simp [← Option.some.inj hx]
    · rw [clientConnect_of_ne_idle hk hst]
      exact keepsCounter_deliver ..

theorem keepsCounter_pollStep {cl : Client} (hk : s.clients[k]? = some cl) (hst : cl.cst = .connecting)
    (att : Attempt) : KeepsCounter k s (pollStep k cl att s) := by
  unfold pollStep
  simp only []
  split
  · refine .trans ?_ (keepsCounter_attempt (fun x hx => ?_) _ att)
    · exact keepsCounter_updClient fun _ _ => ⟨id, rfl⟩
    · rw [State.updClient_get _ _ _ hk] at hx
      simp [← Option.some.inj hx, hst]
  · refine .trans ?_ (keepsCounter_deliver ..)
    exact keepsCounter_updClient fun _ _ => ⟨fun _ => rfl, rfl⟩

theorem keepsCounter_clientFails (k : Nat) (w : Caller) (s : State) : KeepsCounter k s (clientFails k w s) := by
  refine .trans ?_ (keepsCounter_deliver ..)
  exact keepsCounter_updClient fun _ _ => ⟨fun _ => rfl, rfl⟩

theorem keepsCounter_awaitStep {cl : Client} (hk : s.clients[k]? = some cl) (hst : cl.cst = .await) {err : Bool}
    (h : awaitStep k cl err s = .next t) : KeepsCounter k s t := by
  obtain ⟨p, c, conn, -, -, -, ⟨-, rfl⟩ | ⟨-, -, rfl⟩ | ⟨-, q, -, rfl⟩ | ⟨-, m, q, -, -, rfl⟩⟩ := awaitStep_inv h
  · exact keepsCounter_clientFails ..
  · exact keepsCounter_of_clients_eq rfl
  · exact .trans (t := s.popToClient c) (keepsCounter_of_clients_eq rfl) (keepsCounter_clientFails ..)
  · refine .trans (t := s.popToClient c) (keepsCounter_of_clients_eq rfl) (.trans ?_ (keepsCounter_deliver ..))
    refine keepsCounter_updClient fun x hx => ⟨fun hf => ?_, rfl⟩
    obtain rfl := Option.some.inj (hk.symm.trans hx)
    simp [hst] at hf

theorem keepsCounter_clientStep {err : Bool} {att : Attempt} (h : clientStep k err att s = .next t) :
    KeepsCounter k s t := by
  unfold clientStep at h
  cases hk : s.clients[k]? with
  | none =>
    simp only [hk] at h
    exact keepsCounter_of_clients_eq (by rw [Host.Outcome.next.inj h])
  | some cl =>
    cases hst : cl.cst <;> simp only [hk, hst] at h
    case connecting =>
      split at h
      · exact Host.Outcome.next.inj h ▸ keepsCounter_pollStep hk hst att
      · exact keepsCounter_of_clients_eq (by rw [Host.Outcome.next.inj h])
    case await => exact keepsCounter_awaitStep hk hst h
    all_goals exact keepsCounter_of_clients_eq (by rw [Host.Outcome.next.inj h])

theorem keepsCounter_releaseCaller (k : Nat) (cl : Client) (s : State) : KeepsCounter k s (releaseCaller k cl s) := by
  unfold releaseCaller
  cases cl.cst
  case await | connecting => exact keepsCounter_deliver ..
  all_goals exact keepsCounter_of_clients_eq rfl

theorem keepsCounter_clientClose (k : Nat) (s : State) : KeepsCounter k s (clientClose k s) := by
  cases hk : s.clients[k]? with
  | none => exact keepsCounter_of_clients_eq (by simp [clientClose, hk])
  | some cl =>
    by_cases hst : cl.cst = .failed
    · exact keepsCounter_of_clients_eq (by simp [clientClose, hk, hst])
    · rw [clientClose_of_ne_failed hk hst]
      refine .trans (keepsCounter_of_clients_eq (closeEndOf_clients cl s))
        (.trans ?_ (keepsCounter_releaseCaller ..))
      refine keepsCounter_updClient fun x hx => ⟨fun hf => ?_, rfl⟩
      rw [closeEndOf_clients] at hx
      obtain rfl := Option.some.inj (hk.symm.trans hx)
      exact absurd hf hst

/-- A send keeps the counter unless it transmits. -/
theorem keepsCounter_or_transmits_of_clientSend {w : Caller} {r : Request} {err : Bool}
    (h : clientSend k w r err s = .next t) :
    KeepsCounter k s t ∨ ∃ cl c, s.clients[k]? = some cl ∧ cl.cst = .ready ∧ t = transmit k c w r.instr cl s := by
  rcases clientSend_inv h with ⟨rfl, -⟩ | rfl | ⟨cl, c, conn, hk, hst, -, -, -, -, ⟨-, rfl⟩ | ⟨-, rfl⟩⟩
  · exact .inl (keepsCounter_of_clients_eq rfl)
  · exact .inl (keepsCounter_deliver ..)
  · exact .inl (keepsCounter_clientFails ..)
  · exact .inr ⟨cl, c, hk, hst, rfl⟩

end KeepsCounter

/-! ### Every move -/

/-- What the move `m` may make of client `k`, which is `cl` before and `cl'` after it. -/
structure Client.Follows (m : Move) (k : Nat) (cl cl' : Client) : Prop where
  failed : cl.cst = .failed → cl'.cst = .failed
  tidCtr : cl'.tidCtr = cl.tidCtr ∨
    (cl'.tidCtr = cl.tidCtr + 1#16 ∧ cl.cst = .ready ∧ cl'.cst = .await ∧
      ((∃ r err, m = .userSend k r err) ∨ (k = 0 ∧ ∃ err att, m = .host err att)))
  elsewhere : Move.atClient k m = false → cl' = cl

/-- The clients of `t` are those of `s` after the move `m`; there may be new ones. -/
structure ClientsFollow (m : Move) (s t : State) : Prop where
  client : ∀ (k : Nat) (cl : Client), s.clients[k]? = some cl →
    ∃ cl', t.clients[k]? = some cl' ∧ Client.Follows m k cl cl'

section ClientsFollow

variable {m : Move} {s t : State}

theorem clientsFollow_of_clients_eq (h : t.clients = s.clients) : ClientsFollow m s t :=
  ⟨fun _ cl hk => ⟨cl, h ▸ hk, ⟨id, .inl rfl, fun _ => rfl⟩⟩⟩

/-- A move at client `k` that keeps its counter. -/
theorem KeepsCounter.clientsFollow {k : Nat} (h : KeepsCounter k s t) (hm : Move.atClient k m = true) :
    ClientsFollow m s t := by
  refine ⟨fun j cl hj => ?_⟩
  obtain ⟨cl', hj', hkeep, hne⟩ := h.client j cl hj
  refine ⟨cl', hj', ⟨hkeep.failed, .inl hkeep.tidCtr, fun hat => hne fun hjk => ?_⟩⟩
  simp [hjk, hm] at hat

/-- A move at client `k` that transmits a request (R111). -/
theorem clientsFollow_transmit {k c : Nat} {w : Caller} {i : Instr} {cl : Client} (hk : s.clients[k]? = some cl)
    (hst : cl.cst = .ready) (hm : Move.atClient k m = true)
    (hsend : (∃ r err, m = .userSend k r err) ∨ (k = 0 ∧ ∃ err att, m = .host err att)) :
    ClientsFollow m s (transmit k c w i cl s) := by
  refine ⟨fun j x hj => ?_⟩
  by_cases hjk : j = k
  · subst hjk
    obtain rfl := Option.some.inj (hk.symm.trans hj)
    exact ⟨_, State.updClient_get _ j _ hj, ⟨by simp [hst], .inr ⟨rfl, hst, rfl, hsend⟩, by simp [hm]⟩⟩
  · exact ⟨x, (State.updClient_get_ne _ _ hjk).trans hj, ⟨id, .inl rfl, fun _ => rfl⟩⟩

theorem clientsFollow_clientSend {k : Nat} {w : Caller} {r : Request} {err : Bool}
    (h : clientSend k w r err s = .next t) (hm : Move.atClient k m = true)
    (hsend : (∃ r err, m = .userSend k r err) ∨ (k = 0 ∧ ∃ err att, m = .host err att)) : ClientsFollow m s t := by
  rcases keepsCounter_or_transmits_of_clientSend h with hkeep | ⟨cl, c, hk, hst, rfl⟩
  · exact hkeep.clientsFollow hm
  · exact clientsFollow_transmit hk hst hm hsend

theorem clientsFollow_hostStep {err : Bool} {att : Attempt} (h : hostStep err att s = .next t) :
    ClientsFollow (.host err att) s t := by
  obtain ⟨f, rfl | rfl | ⟨r, hr⟩⟩ := hostStep_inv h
  · exact clientsFollow_of_clients_eq rfl
  · exact ⟨((keepsCounter_clientConnect hostClient .host att (s.updHost f)).clientsFollow rfl).client⟩
  · exact ⟨(clientsFollow_clientSend hr rfl (.inr ⟨rfl, err, att, rfl⟩)).client⟩

theorem clientsFollow_timePasses (s : State) : ClientsFollow .time s (timePasses s) := by
  refine ⟨fun k cl hk => ?_⟩
  refine ⟨if cl.cst = .connecting then { cl with wait := cl.wait - 1 } else cl, by simp [timePasses, hk], ?_⟩
  split <;> exact ⟨id, .inl rfl, nofun⟩

theorem clientsFollow_newClient (s : State) : ClientsFollow .newClient s (newClient s) := by
  refine ⟨fun k cl hk => ?_⟩
  obtain ⟨hlt, -⟩ := List.getElem?_eq_some_iff.1 hk
  exact ⟨cl, (List.getElem?_append_left hlt).trans hk, ⟨id, .inl rfl, fun _ => rfl⟩⟩

end ClientsFollow

theorem clientsFollow_act {s t : State} (h : act s.choice s = .next t) (hr : s.choice ≠ .restart) :
    ClientsFollow s.choice s t := by
  cases hm : s.choice <;> simp only [hm, act] at h
  case session c err fail =>
    obtain ⟨_, _, he, -⟩ := sessionStep_effect hm h
    exact clientsFollow_of_clients_eq he.clients
  case client k err att => exact (keepsCounter_clientStep h).clientsFollow (by simp [Move.atClient])
  case userSend k r err => exact clientsFollow_clientSend h (by simp [Move.atClient]) (.inl ⟨r, err, rfl⟩)
  case host err att => exact clientsFollow_hostStep h
  case restart => exact absurd hm hr
  all_goals obtain rfl := Host.Outcome.next.inj h
  case userConnect k att => exact (keepsCounter_clientConnect k .user att s).clientsFollow (by simp [Move.atClient])
  case userClose k => exact (keepsCounter_clientClose k s).clientsFollow (by simp [Move.atClient])
  case newClient => exact clientsFollow_newClient s
  case time => exact clientsFollow_timePasses s
  case accept c =>
    refine clientsFollow_of_clients_eq ?_
    unfold acceptStep
    split <;> rfl
  case extSet tab a vals fail =>
    refine clientsFollow_of_clients_eq ?_
    unfold extSet
    split <;> rfl
  case extGet => exact clientsFollow_of_clients_eq (by simp)
  all_goals exact clientsFollow_of_clients_eq rfl

/-- Settles O50: only a send that transmits changes a counter, and only a move at a client changes that client. -/
theorem clientRegistersAcrossSteps : Obligations.ClientRegistersAcrossSteps := by
  unfold Obligations.ClientRegistersAcrossSteps
  refine ⟨fun s t k cl h hk hr => ?_, fun s => rfl⟩
  obtain ⟨u, hu, rfl⟩ := step_inv h
  obtain ⟨cl', hk', hfollows⟩ := (clientsFollow_act hu hr).client k cl hk
  exact ⟨cl', hk', hfollows.failed, hfollows.tidCtr, hfollows.elsewhere⟩

end Sys2Proof.Machine
end

section
/-! What one side encodes the other decodes (spec/44_client_sequencer.md R106, R116, R119): the server's responses as the
client reports them, O53, and the client's requests as the server reads them, O54. -/

namespace Sys2Proof.Machine

/-! ### Register data (R53) -/

/-- Register `j` of packed register data. -/
theorem be16_packWords (vs : List Word) {j : Nat} (hj : j < vs.length) : be16 (packWords vs) (2 * j) = vs[j] := by
  induction vs generalizing j with
  | nil => simp at hj
  | cons v vs ih =>
    cases j with
    | zero => simp
    | succ j =>
      rw [packWords_cons, Nat.mul_succ, be16_succ, be16_succ, ih (Nat.lt_of_succ_lt_succ hj), List.getElem_cons_succ]

theorem unpackWords_packWords (vs : List Word) : unpackWords (packWords vs) vs.length = vs := by
  refine List.ext_getElem (unpackWords_length ..) fun j _ hj => ?_
  simp only [unpackWords, List.getElem_map, List.getElem_range, be16_packWords vs hj]

/-! ### Responses (R116) -/

theorem map_truthOf_bools (bs : List Bool) : (bs.map Value.bool).map truthOf = bs := by
  simp [Function.comp_def]

theorem map_wordOf_ofWord (vs : List Word) : (vs.map ofWord).map wordOf = vs := by
  simp [Function.comp_def]

theorem decodeBitValue_encodeBitValue (b : Bool) : decodeBitValue (encodeBitValue b) = b := by
  cases b <;> rfl

/-- The two fields of a write's response. -/
theorem be16_twoFieldPdu (c : Code) (x y : Word) :
    be16 (twoFieldPdu c x y) 1 = x ∧ be16 (twoFieldPdu c x y) 3 = y := by
  simp [twoFieldPdu, enc16]

/-- The three fields of a mask write's response. -/
theorem be16_maskPdu (c : Code) (x y z : Word) :
    be16 (maskPdu c x y z) 1 = x ∧ be16 (maskPdu c x y z) 3 = y ∧ be16 (maskPdu c x y z) 5 = z := by
  simp [maskPdu, enc16]

section DecodeResponse

variable {c : Code} (x y : Word) (n : Nat)

/-- A single-bit write's response gives the address and the bit (R79, R81). -/
theorem decodeResponse_bitWrite (hc : c = .wsco ∨ c = .wsdi) :
    decodeResponse c.byte (twoFieldPdu c x y) n = some (.bitWrite x (decodeBitValue y)) := by
  obtain ⟨hx, hy⟩ := be16_twoFieldPdu c x y
  rcases hc with rfl | rfl <;> exact congrArg₂ (fun a v => some (Payload.bitWrite a (decodeBitValue v))) hx hy

/-- A single-register write's response gives the address and the value (R86, R88). -/
theorem decodeResponse_regWrite (hc : c = .wshr ∨ c = .wsir) :
    decodeResponse c.byte (twoFieldPdu c x y) n = some (.regWrite x y) := by
  obtain ⟨hx, hy⟩ := be16_twoFieldPdu c x y
  rcases hc with rfl | rfl <;> exact congrArg₂ (fun a v => some (Payload.regWrite a v)) hx hy

/-- A multiple write's response gives the address and the count (R80, R82, R87, R89). -/
theorem decodeResponse_multiple (hc : (c = .wmco ∨ c = .wmhr) ∨ c = .wmdi ∨ c = .wmir) :
    decodeResponse c.byte (twoFieldPdu c x y) n = some (.multiple x y) := by
  obtain ⟨hx, hy⟩ := be16_twoFieldPdu c x y
  rcases hc with (rfl | rfl) | rfl | rfl <;> exact congrArg₂ (fun a v => some (Payload.multiple a v)) hx hy

/-- A mask write's response gives the address and the two masks (R90). -/
theorem decodeResponse_mask (z : Word) :
    decodeResponse Code.mwhr.byte (maskPdu .mwhr x y z) n = some (.mask x y z) := by
  obtain ⟨hx, hy, hz⟩ := be16_maskPdu .mwhr x y z
  calc decodeResponse Code.mwhr.byte (maskPdu .mwhr x y z) n
      = some (.mask (be16 (maskPdu .mwhr x y z) 1) (be16 (maskPdu .mwhr x y z) 3)
          (be16 (maskPdu .mwhr x y z) 5)) := rfl
    _ = some (.mask x y z) := by rw [hx, hy, hz]

end DecodeResponse

section Response

variable {g : Cfg} {tid : Word} {uid : Byte}

/-- A response that passes the client's check, framed with the request's Transaction ID and Unit ID, is reported with
its payload (R114, R115). -/
theorem sendResult_frame {c : Code} {n : Word} {kind : RespFormat} {pdu : Message} {d : Payload}
    (hp : ResponsePasses { g with extSrv := g.extCli } c n.toNat pdu) (h0 : byteAt pdu 0 = c.byte)
    (hd : decodeResponse c.byte pdu n.toNat = some d) :
    sendResult g ⟨tid, uid, c.byte, n, kind⟩ (frame tid uid pdu) = .ok d := by
  have ha : accepts g ⟨tid, uid, c.byte, n, kind⟩ (frame tid uid pdu) = true :=
    accepts_iff.2 ⟨hp tid uid, be16_frame_tid .., byteAt_frame_uid ..⟩
  have h7 : byteAt (frame tid uid pdu) 7 ≠ c.byte ||| 0x80#8 := by
    rw [byteAt_frame_fc, h0]
    cases c <;> decide
  obtain ⟨d', hok, hd'⟩ := sendResult_success ha h7
  rw [hok, ← Option.some.inj (hd.symm.trans hd')]

/-- An exception response is reported with its code, whatever the request (R115). -/
theorem sendResult_frame_exception (fc code : Byte) (n : Word) (kind : RespFormat) :
    sendResult g ⟨tid, uid, fc, n, kind⟩ (frame tid uid [fc ||| 0x80#8, code]) = .exceptionInfo fc code := by
  have ha : accepts g ⟨tid, uid, fc, n, kind⟩ (frame tid uid [fc ||| 0x80#8, code]) = true :=
    accepts_iff.2 ⟨by rw [validateResponse_exception (exceptionForm_frame ..)], be16_frame_tid .., byteAt_frame_uid ..⟩
  exact sendResult_exception ha (byteAt_frame_fc ..)

/-- A bit read's response (R77, R78). -/
theorem sendResult_bitRead {c : Code} {n : Word} {bs : List Bool} (hc : c = .rdco ∨ c = .rddi)
    (hl : bs.length = n.toNat) (hn : n.toNat ≤ 2040) (kind : RespFormat) :
    sendResult g ⟨tid, uid, c.byte, n, kind⟩ (frame tid uid (bitReadPdu c n (bs.map .bool))) = .ok (.bits bs) := by
  have hbits : unpackBits ((bitReadPdu c n (bs.map .bool)).drop 2) n.toNat = bs := by
    rw [bitReadPdu, map_truthOf_bools, ← hl]
    exact unpackBits_packBits bs
  refine sendResult_frame ?_ rfl ?_
  · rcases hc with rfl | rfl <;> exact responsePasses_bitRead (.inl rfl) rfl rfl hn (by simpa using hl)
  · rcases hc with rfl | rfl <;> exact congrArg (some ∘ Payload.bits) hbits

/-- A register read's response (R84, R85, R91). -/
theorem sendResult_wordRead {c : Code} {n : Word} {vs : List Word} (hc : c = .rdhr ∨ c = .rdir ∨ c = .rwhr)
    (hl : vs.length = n.toNat) (hn : n.toNat ≤ 127) (kind : RespFormat) :
    sendResult g ⟨tid, uid, c.byte, n, kind⟩ (frame tid uid (wordReadPdu c n (vs.map ofWord))) = .ok (.regs vs) := by
  have hregs : unpackWords ((wordReadPdu c n (vs.map ofWord)).drop 2) n.toNat = vs := by
    rw [wordReadPdu, map_wordOf_ofWord, ← hl]
    exact unpackWords_packWords vs
  refine sendResult_frame ?_ rfl ?_
  · rcases hc with rfl | rfl | rfl <;> exact responsePasses_wordRead (.inl rfl) rfl rfl hn (by simpa using hl)
  · rcases hc with rfl | rfl | rfl <;> exact congrArg (some ∘ Payload.regs) hregs

/-- A write's response of two fields, by what its code makes of them (R79 to R82, R86 to R89). -/
theorem sendResult_twoField {c : Code} {x y : Word} {d : Payload}
    (hc : c.cls = .std ∨ (c.cls = .ext ∧ g.extCli = true)) (hf : c.respFormat = .wsr ∨ c.respFormat = .wmr)
    (hd : decodeResponse c.byte (twoFieldPdu c x y) 0 = some d) (kind : RespFormat) :
    sendResult g ⟨tid, uid, c.byte, 0#16, kind⟩ (frame tid uid (twoFieldPdu c x y)) = .ok d :=
  sendResult_frame (responsePasses_twoField hc hf _ x y) rfl hd

end Response

/-- Settles O53, response form by response form. -/
theorem responseRoundTrip : Obligations.ResponseRoundTrip := by
  unfold Obligations.ResponseRoundTrip
  intro g tid uid
  refine ⟨fun c n bs hc hl hn => ?bits, fun c n vs hc hl hn => ?regs, fun c a b hc => ?bitWrite,
    fun c a v hc => ?regWrite, fun c a n hc => ?multiple, fun a x y => ?mask,
    fun fc code n k => sendResult_frame_exception fc code n k⟩
  case bits => exact sendResult_bitRead (by simpa using hc) hl hn .rdr
  case regs => exact sendResult_wordRead (by simpa using hc) hl hn .rdr
  case bitWrite =>
    have hd := decodeResponse_bitWrite a (encodeBitValue b) 0 (hc.imp_right And.left)
    rw [decodeBitValue_encodeBitValue] at hd
    rcases hc with rfl | ⟨rfl, hext⟩
    · exact sendResult_twoField (.inl rfl) (.inl rfl) hd .wsr
    · exact sendResult_twoField (.inr ⟨rfl, hext⟩) (.inl rfl) hd .wsr
  case regWrite =>
    have hd := decodeResponse_regWrite a v 0 (hc.imp_right And.left)
    rcases hc with rfl | ⟨rfl, hext⟩
    · exact sendResult_twoField (.inl rfl) (.inl rfl) hd .wsr
    · exact sendResult_twoField (.inr ⟨rfl, hext⟩) (.inl rfl) hd .wsr
  case multiple =>
    simp only [List.mem_cons, List.not_mem_nil, or_false] at hc
    have hd := decodeResponse_multiple a n 0 (hc.imp_right And.left)
    rcases hc with (rfl | rfl) | ⟨rfl | rfl, hext⟩
    · exact sendResult_twoField (.inl rfl) (.inr rfl) hd .wmr
    · exact sendResult_twoField (.inl rfl) (.inr rfl) hd .wmr
    · exact sendResult_twoField (.inr ⟨rfl, hext⟩) (.inr rfl) hd .wmr
    · exact sendResult_twoField (.inr ⟨rfl, hext⟩) (.inr rfl) hd .wmr
  case mask =>
    exact sendResult_frame (c := .mwhr) (responsePasses_mask (.inl rfl) rfl _ a x y) rfl (decodeResponse_mask a x _ y)

/-! ### Requests (R106) -/

/-- The byte count of data that a byte can count. -/
theorem byteCount_of_le {n : Nat} (h : n ≤ 255) : byteCount n = BitVec.ofNat 8 n := if_pos h

/-- The bytes of up to 2040 packed bits are as many as their byte count. -/
theorem packBits_length_eq_byteCount {n : Word} {bs : List Bool} (hl : bs.length = n.toNat) (hn : n.toNat ≤ 2040) :
    (packBits bs).length = (byteCount (ceil8 n.toNat)).toNat := by
  have h255 : ceil8 n.toNat ≤ 255 := by unfold ceil8; omega
  rw [byteCount_of_le h255, ofNat_toNat_small h255, packBits_length, hl]

/-- The bytes of up to 127 registers are as many as their byte count. -/
theorem packWords_length_eq_byteCount {n : Word} {vs : List Word} (hl : vs.length = n.toNat) (hn : n.toNat ≤ 127) :
    (packWords vs).length = (byteCount (2 * n.toNat)).toNat := by
  have h255 : 2 * n.toNat ≤ 255 := by omega
  rw [byteCount_of_le h255, ofNat_toNat_small h255, packWords_length, hl]

/-- A request of an ignored or illegal code is the instruction of that code with its payload (R50, R106). -/
theorem decode_other {fc : Byte} (hc : (Code.ofByte fc).cls = .ign ∨ (Code.ofByte fc).cls = .ill) (p : List Byte) :
    decode (fc :: p) = .ok (Request.other fc p).instr := by
  unfold decode
  cases h : Code.ofByte fc
  case ign07 | ign08 | ign0B | ign0C | ign11 | ign14 | ign15 | ign18 | ign2B | illfc =>
    simp [decodeOperands, Request.instr, h]
  all_goals simp [h, Code.cls] at hc

/-- Settles O54: a request's instruction is well-formed, so it decodes to itself; its byte count and data are those the
values imply. -/
theorem requestRoundTrip : Obligations.RequestRoundTrip := by
  unfold Obligations.RequestRoundTrip
  refine ⟨fun a n bs hl hn => ?bits, fun a n ra rn vs hl hn => ?words, fun a v b => ?bitOperand,
    fun a n v => ⟨decode_encode rfl, decode_encode rfl, decode_encode rfl, decode_encode rfl, decode_encode rfl,
      decode_encode rfl, decode_encode rfl⟩, fun fc p hc => ?payload⟩
  case bits =>
    have hd := decide_eq_true (packBits_length_eq_byteCount hl hn)
    rw [show BitVec.ofNat 8 ((n.toNat + 7) / 8) = byteCount (ceil8 n.toNat) from
      (byteCount_of_le (show (n.toNat + 7) / 8 ≤ 255 by omega)).symm]
    exact ⟨decode_encode hd, decode_encode hd, hl ▸ unpackBits_packBits bs⟩
  case words =>
    have hd := decide_eq_true (packWords_length_eq_byteCount hl hn)
    rw [show BitVec.ofNat 8 (2 * n.toNat) = byteCount (2 * n.toNat) from (byteCount_of_le (by omega)).symm]
    exact ⟨decode_encode hd, decode_encode hd, decode_encode hd, hl ▸ unpackWords_packWords vs⟩
  case bitOperand => exact ⟨decode_encode rfl, decode_encode rfl, decode_encode rfl, decode_encode rfl⟩
  case payload =>
    have hd := decode_other hc p
    exact ⟨encode_of_decode hd, hd, code_of_decode hd⟩

end Sys2Proof.Machine
end

section
/-! One request of a client and its answer, served with no other agent's step between (spec/44_client_sequencer.md R119,
spec/40_server_pipeline.md R64 to R74), and a write followed by a read (spec/42_register_access.md R84, R86, R92): O60. -/

namespace Sys2Proof.Machine

/-! ### A client and the session that serves it -/

/-- Client `k` is `cl` and holds connection `c`, which the session `ses` serves; `up` and `down` are the channels to the
server and to the client. -/
structure Linked (s : State) (k c : Nat) (cl : Client) (ses : Session) (up down : List Message) : Prop where
  client : s.clients[k]? = some cl
  holds : cl.conn = some c
  serves : ∃ conn, s.conns[c]? = some conn ∧ conn.session? = some ses ∧ conn.toServer = up ∧ conn.toClient = down

namespace Linked

variable {s t : State} {k c : Nat} {cl : Client} {ses : Session} {up down : List Message}

section

variable (h : Linked s k c cl ses up down)

include h

theorem of_eq (hclients : t.clients = s.clients) (hconns : t.conns = s.conns) : Linked t k c cl ses up down :=
  ⟨hclients ▸ h.client, h.holds, hconns ▸ h.serves⟩

theorem session? : s.session? c = some ses := by
  obtain ⟨conn, hconn, hses, -, -⟩ := h.serves
  exact State.session?_eq_some hconn hses

/-- A change of the connection that leaves who serves it. -/
theorem updConn {f : Connection → Connection} {ses' : Session} {up' down' : List Message}
    (hses : ∀ conn, conn.session? = some ses → (f conn).session? = some ses')
    (hup : ∀ conn, conn.toServer = up → (f conn).toServer = up')
    (hdown : ∀ conn, conn.toClient = down → (f conn).toClient = down') :
    Linked (s.updConn c f) k c cl ses' up' down' := by
  obtain ⟨conn, hconn, hcs, hu, hd⟩ := h.serves
  refine ⟨h.client, h.holds, f conn, ?_, hses conn hcs, hup conn hu, hdown conn hd⟩
  rw [State.updConn_get, if_pos rfl, hconn, Option.map_some]

theorem updSession (f : Session → Session) : Linked (s.updSession c f) k c cl (f ses) up down :=
  h.updConn (fun conn hcs => by simp [hcs]) (fun conn hu => by simp [hu]) (fun conn hd => by simp [hd])

theorem pushToServer (m : Message) : Linked (s.pushToServer c m) k c cl ses (up ++ [m]) down :=
  h.updConn (fun _ => id) (fun _ hu => by rw [hu]) (fun _ => id)

theorem pushToClient (m : Message) : Linked (s.pushToClient c m) k c cl ses up (down ++ [m]) :=
  h.updConn (fun _ => id) (fun _ => id) (fun _ hd => by rw [hd])

theorem popToServer : Linked (s.popToServer c) k c cl ses up.tail down :=
  h.updConn (fun _ => id) (fun _ hu => by rw [hu]) (fun _ => id)

theorem popToClient : Linked (s.popToClient c) k c cl ses up down.tail :=
  h.updConn (fun _ => id) (fun _ => id) (fun _ hd => by rw [hd])

theorem updClient {f : Client → Client} (hf : (f cl).conn = cl.conn) : Linked (s.updClient k f) k c (f cl) ses up down :=
  ⟨State.updClient_get s k f h.client, hf.trans h.holds, h.serves⟩

end

end Linked

/-- The move `m` leads from `s` to a state with the store `mem` in which client and session are linked as given. -/
def LeadsTo (s : State) (m : Move) (mem : Memory) (k c : Nat) (cl : Client) (ses : Session)
    (up down : List Message) : Prop :=
  ∃ t, s.take m = .next t ∧ t.cfg = s.cfg ∧ t.mem = mem ∧ Linked t k c cl ses up down

/-- The client `cl` that has sent the instruction `i` and awaits its answer (R111, R112). -/
def Client.sent (cl : Client) (g : Cfg) (i : Instr) : Client :=
  { cl with
    tidCtr := cl.tidCtr + 1#16, cst := .await, caller := .user,
    pend := some ⟨cl.tidCtr + 1#16, g.unitId, i.fc, awaitedCount i, i.code.respFormat⟩ }

/-- The session's answer to the instruction `i` is `pdu`: it stands in `tx`, framed, and the latches that the outbound
check reads are filled (R73). -/
structure Session.Answers (ses : Session) (i : Instr) (tid : Word) (uid : Byte) (pdu : Message) : Prop where
  state : ses.sst = .respond
  tx : ses.tx = frame tid uid pdu
  tid : ses.latch.tid = some tid
  uid : ses.latch.uid = some uid
  fc : ses.latch.fc = some i.code.byte
  count : latchedCount i.code.byte ses.latch = .ok (awaitedCount i).toNat

/-- The range check of an instruction that touches one range (R70). -/
theorem rangesFit_of_singleton {n a m : Nat} {i : Instr} (h : rangesOf i = [(a, m)]) :
    rangesFit n i = true ↔ a + m ≤ n := by
  simp [rangesFit, h]

/-- A read of one register has a legal count in every configuration (R23, R67). -/
theorem Cfg.one_le_maxRdRegs {g : Cfg} (h : g.legal = true) : 1 ≤ g.maxRdRegs := by
  simp only [Cfg.legal, Bool.and_eq_true, decide_eq_true_eq] at h
  omega

/-! ### The moves of a transaction -/

section Moves

variable {s : State} {k c : Nat} {cl : Client} {ses : Session} {up down : List Message}
  (h : Linked s k c cl ses up down)

include h

/-- A user's send from READY puts the request on the channel (R111, R112). -/
theorem leadsTo_userSend (hst : cl.cst = .ready) {r : Request} (hr : r.wellFormed = true)
    (hcls : r.instr.code.cls = .std) :
    LeadsTo s (.userSend k r false) s.mem k c (cl.sent s.cfg r.instr) ses
      (up ++ [frame (cl.tidCtr + 1#16) s.cfg.unitId (encode r.instr)]) down := by
  have ha : clientAdmits s.cfg r.instr = true := by
    rw [clientAdmits_of_wellFormed hr, hcls]
    rfl
  let s' : State := { s with choice := .userSend k r false }
  have h' : Linked s' k c cl ses up down := h.of_eq rfl rfl
  obtain ⟨conn, hconn, -⟩ := h'.serves
  have hsend := clientSend_transmits h'.client .user hst h.holds hconn ha hr
  rw [transmit_eq h'.client] at hsend
  exact ⟨_, congrArg (thenRedraw s.draws) hsend, rfl, rfl,
    ((h'.pushToServer _).updClient (f := fun x => { x with
      tidCtr := x.tidCtr + 1#16, cst := .await, caller := .user, pend := _ }) rfl).of_eq rfl rfl⟩

/-- A session in RECV takes the oldest message (R65). -/
theorem leadsTo_receive (hst : ses.sst = .recv) {m : Message} {q : List Message} (hup : up = m :: q) (hm : m ≠ []) :
    LeadsTo s (.session c false false) s.mem k c cl
      { ses with rx := m, sst := .validate, verdict := none, latch := Latches.empty, calls := 0 } q down := by
  obtain ⟨conn, hconn, hses, hts, -⟩ := h.serves
  let s' : State := { s with choice := .session c false false }
  have h' : Linked s' k c cl ses up down := h.of_eq rfl rfl
  have hrecv : receiveStep false c conn s' = acceptMessage m c (s'.popToServer c) := by
    simp [receiveStep, hts, hup, hm]
  refine ⟨_, (take_session_recv false false hconn hses hst).trans (congrArg _ (congrArg _ hrecv)), rfl, rfl, ?_⟩
  subst hup
  have htaken := h'.popToServer.updSession fun x =>
    { x with rx := m, sst := .validate, verdict := none, latch := Latches.empty, calls := 0 }
  exact htaken.of_eq rfl rfl

/-- A session in VALIDATE that holds the frame of an executed instruction which passes every check decodes it (R66 to
R70). -/
theorem leadsTo_validate (hst : ses.sst = .validate) (hl : ses.latch = Latches.empty) {i : Instr} {tid : Word}
    {uid : Byte} (hrx : ses.rx = frame tid uid (encode i)) (hi : i.wellFormed = true) (hcls : i.code.cls = .std)
    (hshape : shapeOk s.cfg i = true) (hfit : rangesFit s.cfg.tableLen i = true) :
    ∃ ses', LeadsTo s (.session c false false) s.mem k c cl ses' up down ∧ ses'.sst = .dispatch ∧
      ses'.rx = ses.rx ∧ ses'.Holds s.cfg i := by
  have hheader : headerOk ses.rx = true := hrx ▸ headerOk_frame_encode hi tid uid
  have hdecode : decode (pduOf ses.rx) = .ok i := by rw [hrx, pduOf_frame, decode_encode hi]
  have hvalid : (verdictOf s.cfg i).1 = true :=
    verdictOf_valid_iff.2 ⟨by simp [permitted, hcls], hshape⟩
  have hign : i.code.cls ≠ .ign := by simp [hcls]
  let s' : State := { s with choice := .session c false false }
  have h' : Linked s' k c cl ses up down := h.of_eq rfl rfl
  have hfilled := h'.updSession fun x => { x with latch := fillHeader ses.rx x.latch }
  let filled : State := s'.updSession c fun x => { x with latch := fillHeader ses.rx x.latch }
  have hexec : Executing filled .validate c false _ _ _ _ :=
    ⟨State.active_eq rfl hfilled.session?, hst, rfl, rfl, rfl⟩
  have hstep : validateMessage c ses s' = .next (filled.updSession c fun x =>
      { x with
        verdict := some (verdictOf s.cfg i), latch := fillOperands i x.latch, calls := 0, sst := .dispatch }) := by
    rw [validateMessage_eq_exec hheader hdecode, exec_eq_serve, serve_validate hexec,
      validateStep_eq hexec.session rfl rfl rfl, if_pos (by exact hvalid), if_neg hign, if_pos (by exact hfit)]
    rfl
  have hrvals : (fillOperands i (fillHeader ses.rx ses.latch)).rvals = none := by
    rw [fillOperands_rvals, hl]
    rfl
  refine ⟨_, ⟨_, (take_session_validate h.session? false false hst).trans (congrArg _ hstep), rfl, rfl,
    (hfilled.updSession fun x =>
      { x with
        verdict := some (verdictOf s.cfg i), latch := fillOperands i x.latch, calls := 0,
        sst := .dispatch }).of_eq rfl rfl⟩, rfl, rfl, ⟨hheader, hdecode, hvalid, hign, hfit, ?_, ?_⟩⟩
  · simp [Session.callsOk, hrvals]
  · rw [Latches.clear_rvals hrvals, hl]

/-- The session in DISPATCH that holds the instruction `i` executes it. -/
theorem executing_of_holds (hst : ses.sst = .dispatch) {i : Instr} (hi : ses.Holds s.cfg i) :
    Executing { s with choice := .session c false false } .dispatch c false ses (be16 ses.rx 0) (byteAt ses.rx 6)
      i.code.byte :=
  ⟨State.active_eq rfl h.session?, hst, hi.tid, hi.uid, hi.fc⟩

/-- A session in DISPATCH writes a register and answers with the request (R86). -/
theorem leadsTo_wshr (hst : ses.sst = .dispatch) {a v : Word} (hi : ses.Holds s.cfg (.wshr a v))
    (hw : s.mem.wf = true) :
    ∃ mem ses', s.writes mem .hr a.toNat 1 (fun _ => v) ∧
      LeadsTo s (.session c false false) mem k c cl ses' up down ∧
      ses'.Answers (.wshr a v) (be16 ses.rx 0) (byteAt ses.rx 6) (twoFieldPdu .wshr a v) := by
  have hexec := executing_of_holds h hst hi
  have hr : a.toNat + 1 ≤ s.cfg.tableLen := (rangesFit_of_singleton rfl).1 hi.fits
  obtain ⟨mem, hmem, hcall⟩ := writeWord_eq hexec (storeFails_false _) (t := .hr) rfl hw hr v .wshr
  have hlinked : Linked { s with mem := mem } k c cl ses up down := h.of_eq rfl rfl
  refine ⟨mem, _, hmem, ⟨_, (take_session_dispatch hexec hi.decoded rfl).trans (congrArg _ hcall), rfl, rfl,
    (hlinked.updSession fun x =>
      { x with
        calls := x.calls + 1, tx := frame (be16 ses.rx 0) (byteAt ses.rx 6) (twoFieldPdu .wshr a v),
        sst := .respond }).of_eq rfl rfl⟩, ⟨rfl, rfl, hi.tid, hi.uid, hi.fc, hi.count⟩⟩

/-- A session in DISPATCH reads registers and answers with their values (R84). -/
theorem leadsTo_rdhr (hst : ses.sst = .dispatch) {a n : Word} (hi : ses.Holds s.cfg (.rdhr a n)) :
    ∃ ses', LeadsTo s (.session c false false) s.mem k c cl ses' up down ∧
      ses'.Answers (.rdhr a n) (be16 ses.rx 0) (byteAt ses.rx 6)
        (wordReadPdu .rdhr n ((s.wordsAt .hr a.toNat n.toNat).map ofWord)) := by
  have hexec := executing_of_holds h hst hi
  have hr : a.toNat + n.toNat ≤ s.cfg.tableLen := (rangesFit_of_singleton rfl).1 hi.fits
  have hcall := readWords_eq hexec (storeFails_false _) (t := .hr) rfl hr .rdhr
  refine ⟨_, ⟨_, (take_session_dispatch hexec hi.decoded rfl).trans (congrArg _ hcall), rfl, rfl,
    (h.updSession fun x =>
      { x with
        latch := { x.latch with rvals := some ((s.wordsAt .hr a.toNat n.toNat).map ofWord) }, calls := x.calls + 1,
        tx := frame (be16 ses.rx 0) (byteAt ses.rx 6)
          ([Code.rdhr.byte, BitVec.ofNat 8 (2 * n.toNat)] ++ (s.wordsAt .hr a.toNat n.toNat).flatMap enc16),
        sst := .respond }).of_eq rfl rfl⟩, ⟨rfl, ?_, hi.tid, hi.uid, hi.fc, hi.count⟩⟩
  rw [wordReadPdu, map_wordOf_ofWord]
  rfl

/-- A session in RESPOND sends a response that passes the outbound check as it stands (R73, R74). -/
theorem leadsTo_respond {i : Instr} {tid : Word} {uid : Byte} {pdu : Message} (ha : ses.Answers i tid uid pdu)
    (hp : ResponsePasses s.cfg i.code (awaitedCount i).toNat pdu) :
    LeadsTo s (.session c false false) s.mem k c cl { ses with sst := .recv } up (down ++ [frame tid uid pdu]) := by
  let s' : State := { s with choice := .session c false false }
  have h' : Linked s' k c cl ses up down := h.of_eq rfl rfl
  have hv := outboundVerdict_eq (g := s.cfg) (m := ses.tx) ha.count
  have hframe : outboundFrame (validateResponse s.cfg.extSrv ses.tx i.code.byte (awaitedCount i).toNat) tid uid
      i.code.byte ses.tx = ses.tx := by
    rw [outboundFrame, ha.tx, if_pos (hp tid uid)]
  have hsends := respondStep_sends (s := s') (c := c) ha.tid ha.uid ha.fc hv
  rw [hframe] at hsends
  have hsent := (h'.updSession fun x => { x with tx := ses.tx, sst := .recv }).pushToClient ses.tx
  rw [← ha.tx]
  exact ⟨_, (take_session_respond h.session? false false ha.state).trans (congrArg _ hsends), rfl, rfl,
    hsent.of_eq rfl rfl⟩

/-- A client in AWAIT takes the oldest message and returns what it reports to the user (R113 to R115). -/
theorem leadsTo_await (hst : cl.cst = .await) (hw : cl.caller = .user) {p : Pending} (hp : cl.pend = some p)
    {m : Message} {q : List Message} (hdown : down = m :: q) (hm : m ≠ []) (att : Attempt) :
    ∃ cl', LeadsTo s (.client k false att) s.mem k c cl' ses up q ∧ cl'.cst = .ready ∧ cl'.tidCtr = cl.tidCtr ∧
      cl'.ret = some (.send (sendResult s.cfg p m)) := by
  let s' : State := { s with choice := .client k false att }
  have h' : Linked s' k c cl ses up down := h.of_eq rfl rfl
  obtain ⟨conn, hconn, -, -, htc⟩ := h'.serves
  have hstep := awaitStep_message (k := k) hp h.holds hconn (htc.trans hdown) hm
  rw [report, hw] at hstep
  subst hdown
  have hreported := (h'.popToClient.updClient (f := fun x =>
    { x with
      cst := .ready, pend := none,
      latch := responseLatches (sendResult s.cfg p m) m }) rfl).updClient (f := fun x =>
    { x with ret := some (.send (sendResult s.cfg p m)) }) rfl
  exact ⟨_, ⟨_, (take_client_await h.client hst false att).trans (congrArg _ hstep), rfl, rfl,
    hreported.of_eq rfl rfl⟩, rfl, rfl, rfl⟩

end Moves

/-! ### A transaction -/

section Transaction

variable {s : State} {k c : Nat} {cl : Client} {ses : Session}

/-- From READY and RECV a user's send, the session's receipt and its validation bring an executed instruction that passes
every check to DISPATCH. -/
theorem takeAll_request (h : Linked s k c cl ses [] []) (hst : cl.cst = .ready) (hses : ses.sst = .recv) {r : Request}
    (hi : r.instr.wellFormed = true) (ho : ∀ fc p, r ≠ .other fc p) (hcls : r.instr.code.cls = .std)
    (hshape : shapeOk s.cfg r.instr = true) (hfit : rangesFit s.cfg.tableLen r.instr = true) :
    ∃ t ses', (∀ ms, s.takeAll (.userSend k r false :: .session c false false :: .session c false false :: ms) =
        t.takeAll ms) ∧ t.cfg = s.cfg ∧ t.mem = s.mem ∧ Linked t k c (cl.sent s.cfg r.instr) ses' [] [] ∧
      ses'.sst = .dispatch ∧ ses'.rx = frame (cl.tidCtr + 1#16) s.cfg.unitId (encode r.instr) ∧
      ses'.Holds s.cfg r.instr := by
  obtain ⟨t₁, h₁, hcfg₁, hmem₁, hl₁⟩ := leadsTo_userSend h hst (Request.wellFormed_of_instr hi ho) hcls
  obtain ⟨t₂, h₂, hcfg₂, hmem₂, hl₂⟩ := leadsTo_receive hl₁ hses rfl (by simp [frame_eq])
  rw [hcfg₁] at hcfg₂
  obtain ⟨ses', ⟨t₃, h₃, hcfg₃, hmem₃, hl₃⟩, hst₃, hrx, hholds⟩ := leadsTo_validate hl₂ rfl rfl rfl hi hcls
    (hcfg₂ ▸ hshape) (hcfg₂ ▸ hfit)
  refine ⟨t₃, ses', fun ms => ?_, hcfg₃.trans hcfg₂, hmem₃.trans (hmem₂.trans hmem₁), hl₃, hst₃, hrx, hcfg₂ ▸ hholds⟩
  rw [State.takeAll_cons h₁, State.takeAll_cons h₂, State.takeAll_cons h₃]

/-- From RESPOND and AWAIT the session's send and the client's receipt bring the answer's payload to the user, and both
are where they were before the request. -/
theorem takeAll_answer {g : Cfg} {i : Instr} {pdu : Message} {d : Payload} (h : Linked s k c (cl.sent g i) ses [] [])
    (ha : ses.Answers i (cl.tidCtr + 1#16) g.unitId pdu)
    (hp : ResponsePasses s.cfg i.code (awaitedCount i).toNat pdu)
    (hd : sendResult s.cfg ⟨cl.tidCtr + 1#16, g.unitId, i.fc, awaitedCount i, i.code.respFormat⟩
      (frame (cl.tidCtr + 1#16) g.unitId pdu) = .ok d) :
    ∃ t cl' ses', s.takeAll [.session c false false, .client k false .fails] = .next t ∧ t.cfg = s.cfg ∧
      t.mem = s.mem ∧ Linked t k c cl' ses' [] [] ∧ ses'.sst = .recv ∧ cl'.cst = .ready ∧
      cl'.tidCtr = cl.tidCtr + 1#16 ∧ cl'.ret = some (.send (.ok d)) := by
  obtain ⟨t₁, h₁, hcfg₁, hmem₁, hl₁⟩ := leadsTo_respond h ha hp
  obtain ⟨cl', ⟨t₂, h₂, hcfg₂, hmem₂, hl₂⟩, hst, htid, hret⟩ :=
    leadsTo_await hl₁ rfl rfl rfl (List.nil_append _) (by simp [frame_eq]) .fails
  rw [hcfg₁, hd] at hret
  refine ⟨t₂, cl', _, ?_, hcfg₂.trans hcfg₁, hmem₂.trans hmem₁, hl₂, rfl, hst, htid, hret⟩
  rw [State.takeAll_cons h₁, State.takeAll_cons h₂]
  rfl

/-- A user's WSHR of a register of the table, served with no other step between (R86, S6). -/
theorem takeAll_write (h : Linked s k c cl ses [] []) (hst : cl.cst = .ready) (hses : ses.sst = .recv)
    (hw : s.mem.wf = true) {a : Word} (ha : a.toNat < s.cfg.tableLen) (v : Word) :
    ∃ t cl' ses', s.takeAll [.userSend k (.wshr a v) false, .session c false false, .session c false false,
        .session c false false, .session c false false, .client k false .fails] = .next t ∧ t.cfg = s.cfg ∧
      s.writes t.mem .hr a.toNat 1 (fun _ => v) ∧ Linked t k c cl' ses' [] [] ∧ ses'.sst = .recv ∧ cl'.cst = .ready ∧
      cl'.tidCtr = cl.tidCtr + 1#16 ∧ cl'.ret = some (.send (.ok (.regWrite a v))) := by
  obtain ⟨t₁, x, hreq, hcfg₁, hmem₁, hl₁, hx, hrx, hholds⟩ := takeAll_request h hst hses (r := .wshr a v) rfl nofun rfl
    rfl ((rangesFit_of_singleton rfl).2 ha)
  obtain ⟨mem, x', hwrites, ⟨t₂, h₂, hcfg₂, hmem₂, hl₂⟩, hanswers⟩ :=
    leadsTo_wshr hl₁ hx (hcfg₁ ▸ hholds) (hmem₁ ▸ hw)
  rw [hrx, be16_frame_tid, byteAt_frame_uid] at hanswers
  obtain ⟨t, cl', ses', hans, hcfg, hmem, hl, hend⟩ := takeAll_answer hl₂ hanswers
    (responsePasses_twoField (.inl rfl) (.inl rfl) _ a v)
    (sendResult_twoField (.inl rfl) (.inl rfl) (decodeResponse_regWrite a v 0 (.inl rfl)) .wsr)
  refine ⟨t, cl', ses', ?_, hcfg.trans (hcfg₂.trans hcfg₁), ?_, hl, hend⟩
  · rw [hreq, State.takeAll_cons h₂, hans]
  · rw [hmem, hmem₂]
    rwa [State.writes, hmem₁] at hwrites

/-- A user's RDHR of one register of the table, served with no other step between (R84, S7). -/
theorem takeAll_read (h : Linked s k c cl ses [] []) (hst : cl.cst = .ready) (hses : ses.sst = .recv)
    (hg : s.cfg.legal = true) {a : Word} (ha : a.toNat < s.cfg.tableLen) :
    ∃ t cl' ses', s.takeAll [.userSend k (.rdhr a 1#16) false, .session c false false, .session c false false,
        .session c false false, .session c false false, .client k false .fails] = .next t ∧
      t.mem = s.mem ∧ Linked t k c cl' ses' [] [] ∧ ses'.sst = .recv ∧ cl'.cst = .ready ∧
      cl'.tidCtr = cl.tidCtr + 1#16 ∧ cl'.ret = some (.send (.ok (.regs [s.mem.cell .hr a.toNat]))) := by
  have hshape : shapeOk s.cfg (.rdhr a 1#16) = true :=
    (countOk_iff ..).2 ⟨Nat.le_refl 1, Cfg.one_le_maxRdRegs hg⟩
  obtain ⟨t₁, x, hreq, hcfg₁, hmem₁, hl₁, hx, hrx, hholds⟩ := takeAll_request h hst hses (r := .rdhr a 1#16) rfl nofun
    rfl hshape ((rangesFit_of_singleton rfl).2 ha)
  obtain ⟨x', ⟨t₂, h₂, hcfg₂, hmem₂, hl₂⟩, hanswers⟩ := leadsTo_rdhr hl₁ hx (hcfg₁ ▸ hholds)
  have hwords : t₁.wordsAt .hr a.toNat (1#16).toNat = [s.mem.cell .hr a.toNat] := by
    rw [← hmem₁]
    rfl
  rw [hrx, be16_frame_tid, byteAt_frame_uid, hwords] at hanswers
  obtain ⟨t, cl', ses', hans, -, hmem, hl, hend⟩ := takeAll_answer hl₂ hanswers
    (responsePasses_wordRead (cnt := 1#16) (.inl rfl) rfl rfl (by decide) rfl)
    (sendResult_wordRead (n := 1#16) (.inl rfl) rfl (by decide) .rdr)
  refine ⟨t, cl', ses', ?_, hmem.trans (hmem₂.trans hmem₁), hl, hend⟩
  rw [hreq, State.takeAll_cons h₂, hans]

end Transaction

/-- Settles O60: the write's answer leaves client and session where they were, so that the read follows in the same way
and finds the value written. -/
theorem writeThenReadTransaction : Obligations.WriteThenReadTransaction := by
  unfold Obligations.WriteThenReadTransaction
  intro s k c cl conn ses a v hg hw hk hst hc hconn hts htc hses hrecv ha _
  have h : Linked s k c cl ses [] [] := ⟨hk, hc, conn, hconn, hses, hts, htc⟩
  obtain ⟨t, clt, sest, ht, hcfg, hwrites, hl, hsest, hclt, htid, hret⟩ := takeAll_write h hst hrecv hw ha v
  obtain ⟨u, clu, sesu, hu, hmem, hl', -, hclu, htid', hret'⟩ :=
    takeAll_read hl hclt hsest (hcfg ▸ hg) (a := a) (hcfg ▸ ha)
  have hcell : t.mem.cell .hr a.toNat = v := hwrites.cell_inside (j := 0) Nat.one_pos
  refine ⟨t, u, clt, clu, ht, hl.client, hret, hwrites, hu, hl'.client, hcell ▸ hret', hclu, ?_, hmem⟩
  rw [htid', htid, BitVec.add_assoc]
  rfl

end Sys2Proof.Machine
end

section
/-! The rules of the host's states (spec/45_host_control_loop.md R123 to R126): which floor the scan of R124 selects, and
from it O56. -/

namespace Sys2Proof.Machine

/-! ### The scan of R124 -/

section Scan

variable {current : Nat}

/-- The floor `b` is preferred to `i` (R124): it is nearer to the current floor, or as near and not after it. -/
def Preferred (current b i : Nat) : Prop :=
  (i < b → distance b current < distance i current) ∧ (b ≤ i → distance b current ≤ distance i current)

theorem Preferred.refl (b : Nat) : Preferred current b b := ⟨by omega, fun _ => Nat.le_refl _⟩

theorem Preferred.trans {a b c : Nat} (h : Preferred current a b) (h' : Preferred current b c) :
    Preferred current a c := by
  unfold Preferred at *
  omega

/-- Of the floors that `l` says are requested, `b` is the one preferred to all. -/
structure IsNearest (current : Nat) (l : List (Nat × Bool)) (b : Nat) : Prop where
  requested : (b, true) ∈ l
  preferred : ∀ i, (i, true) ∈ l → Preferred current b i

/-- The floor that a scan keeps when it comes from floor `b` to a later one that is requested too. -/
def nearer (current b i : Nat) : Nat := if distance i current < distance b current then i else b

theorem nearer_mem (current b i : Nat) : nearer current b i = b ∨ nearer current b i = i := by
  unfold nearer
  split <;> simp

theorem nearer_preferred {b i : Nat} (h : b < i) :
    Preferred current (nearer current b i) b ∧ Preferred current (nearer current b i) i := by
  unfold nearer Preferred
  split <;> omega

theorem nearest_cons_some (i : Nat) (rest : List (Nat × Bool)) (b : Nat) :
    nearest current ((i, true) :: rest) (some b) = nearest current rest (some (nearer current b i)) := by
  simp only [nearest, nearer, Bool.true_and, decide_eq_true_eq, apply_ite some]

/-- The nearest of the floor kept from `b` and `i` and of later ones is the nearest of all of them. -/
theorem IsNearest.of_nearer {b i w : Nat} {rest : List (Nat × Bool)} (hbi : b < i)
    (h : IsNearest current ((nearer current b i, true) :: rest) w) :
    IsNearest current ((b, true) :: (i, true) :: rest) w := by
  obtain ⟨hmem, hpref⟩ := h
  obtain ⟨hb, hi⟩ := nearer_preferred (current := current) hbi
  simp only [List.mem_cons, Prod.mk.injEq, and_true, forall_eq_or_imp] at hmem hpref
  obtain ⟨hkept, hrest⟩ := hpref
  constructor
  · rcases hmem with rfl | hlater
    · rcases nearer_mem current b i with h | h <;> simp [h]
    · exact List.mem_cons_of_mem _ (List.mem_cons_of_mem _ hlater)
  · simp only [List.mem_cons, Prod.mk.injEq, and_true, forall_eq_or_imp]
    exact ⟨hkept.trans hb, hkept.trans hi, hrest⟩

/-- A scan that has kept the floor `b` ends with the nearest of `b` and the requested floors after it. -/
theorem nearest_some {l : List (Nat × Bool)} {b : Nat} (hb : ∀ p ∈ l, b < p.1)
    (hl : l.Pairwise fun p q => p.1 < q.1) :
    ∃ w, nearest current l (some b) = some w ∧ IsNearest current ((b, true) :: l) w := by
  induction l generalizing b with
  | nil => exact ⟨b, rfl, by simp, by simpa using Preferred.refl b⟩
  | cons p rest ih =>
    obtain ⟨i, req⟩ := p
    obtain ⟨hbi, hbrest⟩ := List.forall_mem_cons.1 hb
    obtain ⟨hi, hrest⟩ := List.pairwise_cons.1 hl
    cases req with
    | false =>
      obtain ⟨w, hw, hmem, hpref⟩ := ih hbrest hrest
      exact ⟨w, hw, by simpa using hmem, by simpa using hpref⟩
    | true =>
      have hkept : ∀ p ∈ rest, nearer current b i < p.1 := by
        rcases nearer_mem current b i with h | h <;> rwa [h]
      obtain ⟨w, hw, hnear⟩ := ih hkept hrest
      exact ⟨w, (nearest_cons_some i rest b).trans hw, hnear.of_nearer hbi⟩

/-- A scan selects no floor when none is requested. -/
theorem nearest_of_not_requested {l : List (Nat × Bool)} (h : ∀ i, (i, true) ∉ l) : nearest current l none = none := by
  induction l with
  | nil => rfl
  | cons p rest ih =>
    obtain ⟨i, req⟩ := p
    cases req with
    | false => exact ih fun j hj => h j (List.mem_cons_of_mem _ hj)
    | true => exact absurd (List.mem_cons_self ..) (h i)

/-- A scan in order selects the nearest of the requested floors when there is one. -/
theorem nearest_of_requested {l : List (Nat × Bool)} (hl : l.Pairwise fun p q => p.1 < q.1) {i : Nat}
    (h : (i, true) ∈ l) : ∃ w, nearest current l none = some w ∧ IsNearest current l w := by
  induction l with
  | nil => cases h
  | cons p rest ih =>
    obtain ⟨j, req⟩ := p
    obtain ⟨hj, hrest⟩ := List.pairwise_cons.1 hl
    cases req with
    | false =>
      obtain ⟨w, hw, hmem, hpref⟩ := ih hrest (by simpa using h)
      exact ⟨w, hw, by simpa using hmem, by simpa using hpref⟩
    | true => exact nearest_some hj hrest

end Scan

/-! ### The floor selected -/

/-- Floor `i` is one of the four and is requested (R122). -/
def TickInputs.requests (x : TickInputs) (i : Nat) : Prop :=
  i < 4 ∧ [x.req0, x.req1, x.req2, x.req3].getD i false = true

theorem TickInputs.mem_scan_iff (x : TickInputs) (i : Nat) :
    (i, true) ∈ [(0, x.req0), (1, x.req1), (2, x.req2), (3, x.req3)] ↔ x.requests i := by
  unfold TickInputs.requests
  match i with
  | 0 | 1 | 2 | 3 => simp [eq_comm (a := true)]
  | n + 4 => simp

theorem selectedFloor_of_no_request {x : TickInputs} (h : ∀ i, ¬x.requests i) : selectedFloor x = none :=
  nearest_of_not_requested fun i hi => h i ((x.mem_scan_iff i).1 hi)

theorem selectedFloor_of_request {x : TickInputs} {i : Nat} (h : x.requests i) :
    ∃ best, selectedFloor x = some best ∧ x.requests best ∧
      ∀ j, x.requests j → Preferred x.currentFloor.toNat best j := by
  obtain ⟨best, hbest, hmem, hpref⟩ :=
    nearest_of_requested (current := x.currentFloor.toNat) (by simp) ((x.mem_scan_iff i).2 h)
  exact ⟨best, hbest, (x.mem_scan_iff best).1 hmem, fun j hj => hpref j ((x.mem_scan_iff j).2 hj)⟩

/-! ### The rules (R123 to R126) -/

/-- With no floor selected AwaitingSelection stays as it is (R124). -/
theorem hostRule_awaitingSelection_none {x : TickInputs} (h : selectedFloor x = none) (target : Word) :
    hostRule .awaitingSelection target x = ⟨none, .awaitingSelection, target⟩ := by
  simp [hostRule, h]

/-- AwaitingSelection writes and records the code of the floor selected (R124). -/
theorem hostRule_awaitingSelection_some {x : TickInputs} {best : Nat} (h : selectedFloor x = some best)
    (target : Word) :
    hostRule .awaitingSelection target x =
      ⟨some (BitVec.ofNat 16 (best + 1)), .awaitingAck, BitVec.ofNat 16 (best + 1)⟩ := by
  simp [hostRule, h]

/-- Settles O56: in AwaitingSelection by the floor that the scan selects, elsewhere by the rule's own condition. -/
theorem hostStateRules : Obligations.HostStateRules := by
  unfold Obligations.HostStateRules
  intro target x
  refine ⟨?idle, fun h => ?noRequest, fun h => ?request, fun h => ?acknowledged, fun h => ?notAcknowledged, ?clear⟩
  case idle =>
    simp only [hostRule, Bool.and_eq_true, Bool.not_eq_true']
    split <;> rfl
  case noRequest =>
    refine hostRule_awaitingSelection_none (selectedFloor_of_no_request fun i hi => ?_) target
    obtain ⟨hlt, hreq⟩ := hi
    exact Bool.false_ne_true ((h i hlt).symm.trans hreq)
  case request =>
    obtain ⟨i, hi⟩ := h
    obtain ⟨best, hsel, ⟨hlt, hreq⟩, hpref⟩ := selectedFloor_of_request (x := x) hi
    exact ⟨best, hlt, hreq, hostRule_awaitingSelection_some hsel target, fun j hj hjreq => hpref j ⟨hj, hjreq⟩⟩
  case acknowledged => exact if_pos h
  case notAcknowledged => exact if_neg h
  case clear =>
    simp only [hostRule, Bool.not_eq_true']
    split <;> rfl

end Sys2Proof.Machine
end

section
/-! What halts the host and what lasts of it (spec/45_host_control_loop.md R120, R128, R132): the host's step on a returned
value, the registers of the host that no other agent's move changes, and from them O58. -/

namespace Sys2Proof.Machine

/-! ### The host's step on a returned value (R128) -/

section Returned

variable {k : Payload → Host.Outcome State Fault Refusal} {s : State}

theorem afterSend_of_none (hi : s.host.inbox = none) : afterSend k s = .next s := by
  simp [afterSend, hi]

theorem afterSend_of_no_success {r : SendResult} (hi : s.host.inbox = some (.send r)) (hr : ∀ d, r ≠ .ok d) :
    afterSend k s = .next (hostHalts s) := by
  cases r with
  | ok d => exact absurd rfl (hr d)
  | _ => simp [afterSend, hi]

/-- In each phase of a tick's send the host's step takes what that send returned. -/
theorem hostStep_eq_afterSend {cl : Client} (hk : s.clients[hostClient]? = some cl)
    (hph : s.host.phase ∈ [.awaitDi, .awaitIr, .awaitHr, .awaitRule, .awaitBack]) (err : Bool) (att : Attempt) :
    ∃ k, hostStep err att s = afterSend k s := by
  simp only [List.mem_cons, List.not_mem_nil, or_false] at hph
  rcases hph with hph | hph | hph | hph | hph <;>
    · simp only [hostStep, hk, hph]
      exact ⟨_, rfl⟩

theorem hostStep_of_no_success {cl : Client} (hk : s.clients[hostClient]? = some cl)
    (hph : s.host.phase ∈ [.awaitDi, .awaitIr, .awaitHr, .awaitRule, .awaitBack]) {r : SendResult}
    (hi : s.host.inbox = some (.send r)) (hr : ∀ d, r ≠ .ok d) (err : Bool) (att : Attempt) :
    hostStep err att s = .next (hostHalts s) := by
  obtain ⟨k, hstep⟩ := hostStep_eq_afterSend hk hph err att
  rw [hstep, afterSend_of_no_success hi hr]

/-- While a call of its is outstanding the host is blocked. -/
theorem hostStep_of_outstanding {cl : Client} (hk : s.clients[hostClient]? = some cl)
    (hph : s.host.phase ∈ [.connecting, .awaitDi, .awaitIr, .awaitHr, .awaitRule, .awaitBack])
    (hi : s.host.inbox = none) (err : Bool) (att : Attempt) : hostStep err att s = .next s := by
  rcases List.mem_cons.1 hph with hconn | hsend
  · simp [hostStep, hk, hconn, hi]
  · obtain ⟨k, hstep⟩ := hostStep_eq_afterSend hk hsend err att
    rw [hstep, afterSend_of_none hi]

theorem hostStep_of_stopped (hph : s.host.phase = .stopped) (err : Bool) (att : Attempt) :
    hostStep err att s = .next s := by
  unfold hostStep
  cases s.clients[hostClient]? <;> simp [hph]

end Returned

/-! ### The host's own registers (R120, R132) -/

/-- The registers of the host that only its own step and a restart change. -/
def HostLoop.own (h : HostLoop) : HostState × Word × TickInputs × HostPhase :=
  (h.hst, h.localTarget, h.inputs, h.phase)

theorem HostLoop.own_eq_iff {h h' : HostLoop} :
    h'.own = h.own ↔
      h'.hst = h.hst ∧ h'.localTarget = h.localTarget ∧ h'.inputs = h.inputs ∧ h'.phase = h.phase := by
  simp [HostLoop.own]

theorem own_of_next_eq {s t u : State} (h : Host.Outcome.next (φ := Fault) (ρ := Refusal) u = .next t)
    (hu : u.host.own = s.host.own) : t.host.own = s.host.own := by
  rwa [← Host.Outcome.next.inj h]

@[simp] theorem deliver_own (w : Caller) (k : Nat) (r : Return) (s : State) :
    (deliver w k r s).host.own = s.host.own := by
  cases w <;> rfl

@[simp] theorem attempt_own (k : Nat) (w : Caller) (att : Attempt) (s : State) :
    (attempt k w att s).host.own = s.host.own := by
  by_cases ha : reachesServer att s
  · simp [attempt_of_reachesServer ha, attemptSucceeds]
  · simp [attempt_of_reachesNone ((not_reachesServer_iff ..).1 ha), attemptFails]

@[simp] theorem clientConnect_own (k : Nat) (w : Caller) (att : Attempt) (s : State) :
    (clientConnect k w att s).host.own = s.host.own := by
  cases hk : s.clients[k]? with
  | none => simp [clientConnect, hk]
  | some cl =>
    by_cases hst : cl.cst = .idle
    · simp [clientConnect_of_idle hk hst]
    · simp [clientConnect_of_ne_idle hk hst]

@[simp] theorem pollStep_own (k : Nat) (cl : Client) (att : Attempt) (s : State) :
    (pollStep k cl att s).host.own = s.host.own := by
  unfold pollStep
  simp only []
  split <;> simp

@[simp] theorem clientFails_own (k : Nat) (w : Caller) (s : State) :
    (clientFails k w s).host.own = s.host.own := by
  simp [clientFails]

theorem clientSend_own {k : Nat} {w : Caller} {r : Request} {err : Bool} {s t : State}
    (h : clientSend k w r err s = .next t) : t.host.own = s.host.own := by
  rcases clientSend_inv h with ⟨rfl, -⟩ | rfl | ⟨_, _, _, _, _, _, _, _, _, ⟨-, rfl⟩ | ⟨-, rfl⟩⟩
  · rfl
  · simp
  · simp
  · rfl

theorem awaitStep_own {k : Nat} {cl : Client} {err : Bool} {s t : State} (h : awaitStep k cl err s = .next t) :
    t.host.own = s.host.own := by
  obtain ⟨_, _, _, _, _, _, ⟨-, rfl⟩ | ⟨-, -, rfl⟩ | ⟨-, _, -, rfl⟩ | ⟨-, _, _, -, -, rfl⟩⟩ := awaitStep_inv h
  · simp
  · rfl
  · simp
  · simp [report]

theorem clientStep_own {k : Nat} {err : Bool} {att : Attempt} {s t : State} (h : clientStep k err att s = .next t) :
    t.host.own = s.host.own := by
  unfold clientStep at h
  cases hk : s.clients[k]? with
  | none =>
    simp only [hk] at h
    exact own_of_next_eq h rfl
  | some cl =>
    cases hst : cl.cst <;> simp only [hk, hst] at h
    case connecting => split at h <;> exact own_of_next_eq h (by simp)
    case await => exact awaitStep_own h
    all_goals exact own_of_next_eq h rfl

@[simp] theorem releaseCaller_own (k : Nat) (cl : Client) (s : State) :
    (releaseCaller k cl s).host.own = s.host.own := by
  unfold releaseCaller
  split <;> simp

@[simp] theorem clientClose_own (k : Nat) (s : State) : (clientClose k s).host.own = s.host.own := by
  cases hk : s.clients[k]? with
  | none => simp [clientClose, hk]
  | some cl =>
    by_cases hst : cl.cst = .failed
    · simp [clientClose, hk, hst]
    · simp [clientClose_of_ne_failed hk hst, closeEndOf_host]

@[simp] theorem acceptStep_host (c : Nat) (s : State) : (acceptStep c s).host = s.host := by
  unfold acceptStep
  split <;> rfl

@[simp] theorem extSet_host (tab : TableKind) (a : Nat) (vals : List Value) (fail : Bool) (s : State) :
    (extSet tab a vals fail s).host = s.host := by
  unfold extSet
  split <;> rfl

@[simp] theorem timePasses_own (s : State) : (timePasses s).host.own = s.host.own := by
  unfold timePasses
  simp only []
  split <;> rfl

/-- No move but the host's step and a restart changes the host's own registers. -/
theorem act_own {s t : State} (h : act s.choice s = .next t) (hh : ∀ err att, s.choice ≠ .host err att)
    (hr : s.choice ≠ .restart) : t.host.own = s.host.own := by
  cases hm : s.choice <;> simp only [hm, act] at h
  case session c err fail =>
    obtain ⟨_, _, he, -⟩ := sessionStep_effect hm h
    rw [he.host]
  case client => exact clientStep_own h
  case userSend => exact clientSend_own h
  case host err att => exact absurd hm (hh err att)
  case restart => exact absurd hm hr
  case accept | userConnect | userClose | time | extGet | extSet => exact own_of_next_eq h (by simp)
  all_goals exact own_of_next_eq h rfl

/-- A move but a restart is the host's step or leaves the host's own registers. -/
theorem hostStep_or_own_of_act {s t : State} (h : act s.choice s = .next t) (hr : s.choice ≠ .restart) :
    (∃ err att, hostStep err att s = .next t) ∨ t.host.own = s.host.own := by
  by_cases hh : ∃ err att, s.choice = .host err att
  · obtain ⟨err, att, hm⟩ := hh
    rw [hm] at h
    exact .inl ⟨err, att, h⟩
  · exact .inr (act_own h (by simpa using hh) hr)

/-! ### A halted host stays halted (R128) -/

/-- A host that is Halted in `s` is so in `t`. -/
def StaysHalted (s t : State) : Prop := s.host.hst = .halted → t.host.hst = .halted

section StaysHalted

variable {s t u : State}

theorem staysHalted_of_next_eq (h : Host.Outcome.next (φ := Fault) (ρ := Refusal) u = .next t)
    (hu : StaysHalted s u) : StaysHalted s t := by
  rwa [← Host.Outcome.next.inj h]

/-- The host's call of `send` leaves the control state it has then. -/
theorem hostSend_hst {r : Request} {err : Bool} {ph : HostPhase} (h : hostSend r err ph s = .next t) :
    t.host.hst = s.host.hst :=
  congrArg Prod.fst (clientSend_own h)

theorem staysHalted_whenFree {cl : Client} {k : Host.Outcome State Fault Refusal}
    (hk : k = .next t → StaysHalted s t) (h : whenFree cl k s = .next t) : StaysHalted s t := by
  rcases whenFree_inv h with ⟨-, rfl⟩ | ⟨-, hs⟩
  · exact id
  · exact hk hs

theorem staysHalted_afterSend {k : Payload → Host.Outcome State Fault Refusal}
    (hk : ∀ p, k p = .next t → StaysHalted s t) (h : afterSend k s = .next t) : StaysHalted s t := by
  rcases afterSend_inv h with ⟨-, rfl⟩ | ⟨p, -, hp⟩ | ⟨-, rfl⟩
  · exact id
  · exact hk p hp
  · exact fun _ => rfl

/-- Halted has no rule (R128). -/
theorem hostRule_halted (target : Word) (x : TickInputs) : hostRule .halted target x = ⟨none, .halted, target⟩ := rfl

theorem staysHalted_takeDi {err : Bool} {p : Payload} (h : takeDi err s p = .next t) : StaysHalted s t := by
  unfold takeDi at h
  split at h
  · exact (hostSend_hst h).trans
  · simp at h

theorem staysHalted_takeIr {err : Bool} {p : Payload} (h : takeIr err s p = .next t) : StaysHalted s t := by
  unfold takeIr at h
  split at h
  · exact (hostSend_hst h).trans
  · simp at h

theorem staysHalted_applyRule {err : Bool} (h : applyRule (currentRule s) err s = .next t) : StaysHalted s t := by
  intro hh
  rw [hostSend_hst h]
  simp [currentRule, hh, hostRule_halted]

theorem staysHalted_takeHr {err : Bool} {p : Payload} (h : takeHr err s p = .next t) : StaysHalted s t := by
  unfold takeHr at h
  simp only [] at h
  split at h
  · split at h
    · exact (hostSend_hst h).trans
    · exact staysHalted_applyRule (s := s.updHost _) h
  · simp at h

theorem staysHalted_hostStep {err : Bool} {att : Attempt} (h : hostStep err att s = .next t) : StaysHalted s t := by
  unfold hostStep at h
  cases hk : s.clients[hostClient]? with
  | none =>
    simp only [hk] at h
    exact staysHalted_of_next_eq h id
  | some cl =>
    cases hph : s.host.phase <;> simp only [hk, hph] at h
    case boot =>
      split at h
      · exact staysHalted_of_next_eq h fun hh => (congrArg Prod.fst (clientConnect_own ..)).trans hh
      · exact staysHalted_of_next_eq h id
    case connecting =>
      split at h
      · exact staysHalted_of_next_eq h id
      · exact staysHalted_of_next_eq h id
      · simp at h
    case sleep =>
      split at h
      · exact staysHalted_whenFree (fun hs => (hostSend_hst hs).trans) h
      · exact staysHalted_of_next_eq h id
    case awaitDi => exact staysHalted_afterSend (fun _ => staysHalted_whenFree staysHalted_takeDi) h
    case awaitIr => exact staysHalted_afterSend (fun _ => staysHalted_whenFree staysHalted_takeIr) h
    case awaitHr => exact staysHalted_afterSend (fun _ => staysHalted_whenFree staysHalted_takeHr) h
    case awaitRule => exact staysHalted_afterSend (fun _ => staysHalted_whenFree staysHalted_applyRule) h
    case awaitBack =>
      refine staysHalted_afterSend (fun _ hn => ?_) h
      exact staysHalted_of_next_eq hn id
    case stopped => exact staysHalted_of_next_eq h id

end StaysHalted

/-- Halted lasts over every move but a restart. -/
theorem staysHalted_act {s t : State} (h : act s.choice s = .next t) (hr : s.choice ≠ .restart) : StaysHalted s t := by
  rcases hostStep_or_own_of_act h hr with ⟨_, _, hstep⟩ | hown
  · exact staysHalted_hostStep hstep
  · exact (congrArg Prod.fst hown).trans

/-- Stopped lasts over every move but a restart: a stopped host's step changes nothing. -/
theorem stopped_of_act {s t : State} (h : act s.choice s = .next t) (hr : s.choice ≠ .restart)
    (hph : s.host.phase = .stopped) : t.host.phase = .stopped := by
  rcases hostStep_or_own_of_act h hr with ⟨err, att, hstep⟩ | hown
  · rw [hostStep_of_stopped hph err att] at hstep
    rwa [← Host.Outcome.next.inj hstep]
  · obtain ⟨-, -, -, hphase⟩ := HostLoop.own_eq_iff.1 hown
    rw [hphase, hph]

end Sys2Proof.Machine

namespace Sys2Proof

open Machine in
/-- Settles O58: what the send has returned decides the host's step, and only that step and a restart change the host's
own registers. -/
theorem hostHalts : Obligations.HostHalts := by
  unfold Obligations.HostHalts
  refine ⟨fun s cl err att hk => ?step, fun s t h hr => ?lasts⟩
  case step =>
    let s' : State := { s with choice := .host err att }
    have hk' : s'.clients[hostClient]? = some cl := hk
    exact ⟨fun _ hph hi hno => congrArg (thenRedraw s.draws) (hostStep_of_no_success hk' hph hi hno err att),
      fun hph => congrArg (thenRedraw s.draws) (hostStep_of_stopped (s := s') hph err att),
      fun hph hi => congrArg (thenRedraw s.draws) (hostStep_of_outstanding hk' hph hi err att)⟩
  case lasts =>
    obtain ⟨u, hu, rfl⟩ := step_inv h
    rw [redraw_host]
    exact ⟨staysHalted_act hu hr, stopped_of_act hu hr, fun hh => HostLoop.own_eq_iff.1 (act_own hu hh hr)⟩

end Sys2Proof
end

section
/-! The entry of an exception (spec/60_exceptions.md R136), the return from it (R137, R74), and what an instruction
leaves of everything but the store and its own session (R142): O25, O26 and O39. -/

namespace Sys2Proof.Machine

/-! ### Entry and return -/

/-- Settles O25: raising answers the session's exception response. -/
theorem exceptionEntry : Obligations.ExceptionEntry := by
  unfold Obligations.ExceptionEntry
  intro s c ses tid uid fc code hs ht hu hf
  refine ⟨_, raiseException_eq hs ht hu hf code, rfl, State.answered_mem .., ?_⟩
  rw [State.answered, State.session?_updSession, hs, Option.map_some]

/-- A response that passes the outbound check is the frame that leaves (R73). -/
@[simp] theorem outboundFrame_of_passes (excode : Byte) (tid : Word) (uid fc : Byte) (m : Message) :
    outboundFrame (true, excode) tid uid fc m = m := if_pos rfl

section PassingResponse

variable {s : State} {c : Nat} {ses : Session} {tid : Word} {uid fc excode : Byte}
  (hs : s.session? c = some ses) (ht : ses.latch.tid = some tid) (hu : ses.latch.uid = some uid)
  (hf : ses.latch.fc = some fc) (hv : outboundVerdict s.cfg fc ses.latch ses.tx = .ok (true, excode))

include hs ht hu hf hv

/-- A response that passes the outbound check is sent as it stands (R73, R74). -/
theorem respondStep_sends_of_passes :
    respondStep false c ses s = .next ((s.pushToClient c ses.tx).updSession c fun x => { x with sst := .recv }) := by
  rw [respondStep_sends ht hu hf hv, outboundFrame_of_passes, State.updSession_pushToClient]
  exact congrArg (fun u => Host.Outcome.next (State.pushToClient u c ses.tx)) (State.updSession_congr hs rfl)

/-- A transport error closes the session that would have sent it (R74; log 10, log 35). -/
theorem respondStep_closes_of_passes :
    respondStep true c ses s = .next ((s.pushToClient c []).updSession c fun x => { x with sst := .closed }) := by
  rw [respondStep_closes ht hu hf hv, outboundFrame_of_passes, State.updSession_pushToClient]
  exact congrArg (fun u => Host.Outcome.next (State.pushToClient u c [])) (State.updSession_congr hs rfl)

end PassingResponse

/-- Settles O26: an exception response passes the outbound check, whatever the count latch holds. -/
theorem exceptionReturn : Obligations.ExceptionReturn := by
  unfold Obligations.ExceptionReturn
  intro s c fail ses tid uid fc code hs hst ht hu hf htx
  have hv : outboundVerdict s.cfg fc ses.latch ses.tx = .ok (true, 0x00#8) :=
    htx ▸ outboundVerdict_exception s.cfg ses.latch tid uid fc code
  refine ⟨(take_session_respond hs false fail hst).trans ?_, (take_session_respond hs true fail hst).trans ?_⟩
  · exact congrArg (thenRedraw s.draws)
      (respondStep_sends_of_passes (s := { s with choice := .session c false fail }) hs ht hu hf hv)
  · exact congrArg (thenRedraw s.draws)
      (respondStep_closes_of_passes (s := { s with choice := .session c true fail }) hs ht hu hf hv)

/-! ### The frame of an instruction -/

theorem Session.SameHeader.refl (x : Session) : x.SameHeader x := ⟨rfl, rfl, rfl, rfl, rfl, rfl⟩

theorem Session.SameHeader.trans {x y z : Session} (h : x.SameHeader y) (h' : y.SameHeader z) : x.SameHeader z :=
  ⟨h'.rx.trans h.rx, h'.tid.trans h.tid, h'.pid.trans h.pid, h'.len.trans h.len, h'.uid.trans h.uid,
    h'.fc.trans h.fc⟩

/-- A session that goes to DISPATCH with its operands decoded fills no header latch (R18, R69). -/
theorem Session.sameHeader_fillOperands (i : Instr) (x : Session) :
    x.SameHeader { x with latch := fillOperands i x.latch, calls := 0, sst := .dispatch } := by
  cases i <;> exact ⟨rfl, rfl, rfl, rfl, rfl, rfl⟩

namespace OnlySession

variable {s t u : State} {c : Nat}

/-- A new store and a change of the session that keeps its header. -/
theorem updSession (s : State) (m : Memory) (c : Nat) {f : Session → Session}
    (hf : ∀ x : Session, x.SameHeader (f x)) :
    OnlySession s (State.updSession { s with mem := m } c f) c :=
  ⟨rfl, rfl, rfl, rfl, rfl, rfl, fun d hd => (State.updSession_get _ c d f).trans (if_neg hd.symm), f, hf,
    (State.updSession_get _ c c f).trans (if_pos rfl)⟩

theorem refl (s : State) (c : Nat) : OnlySession s s c :=
  ⟨rfl, rfl, rfl, rfl, rfl, rfl, fun _ _ => rfl, id, .refl, by simp [funext Connection.mapSession_id]⟩

theorem trans (h : OnlySession s t c) (h' : OnlySession t u c) : OnlySession s u c := by
  obtain ⟨f, hf, hown⟩ := h.own
  obtain ⟨g, hg, hown'⟩ := h'.own
  refine ⟨h'.cfg.trans h.cfg, h'.listener.trans h.listener, h'.clients.trans h.clients, h'.host.trans h.host,
    h'.choice.trans h.choice, h'.draws.trans h.draws, fun d hd => (h'.others d hd).trans (h.others d hd),
    fun x => g (f x), fun x => (hf x).trans (hg (f x)), ?_⟩
  rw [hown', hown, Option.map_map]
  exact congrArg (Option.map · _) (funext fun k => Connection.mapSession_mapSession f g k)

theorem of_next (h : Host.Outcome.next (φ := Fault) (ρ := Refusal) u = .next t) (hu : OnlySession s u c) :
    OnlySession s t c := by
  obtain rfl := Host.Outcome.next.inj h
  exact hu

theorem answered (s : State) (c : Nat) (tid : Word) (uid : Byte) (pdu : Message) :
    OnlySession s (s.answered c tid uid pdu) c :=
  updSession s s.mem c fun _ => ⟨rfl, rfl, rfl, rfl, rfl, rfl⟩

theorem recordVerdict (s : State) (c : Nat) (v : Bool × Byte) : OnlySession s (Machine.recordVerdict v c s) c :=
  updSession s s.mem c fun _ => ⟨rfl, rfl, rfl, rfl, rfl, rfl⟩

theorem latchRead (s : State) (c : Nat) (vs : List Value) : OnlySession s (Machine.latchRead vs c s) c :=
  updSession s s.mem c fun _ => ⟨rfl, rfl, rfl, rfl, rfl, rfl⟩

theorem latchWrite (s : State) (c : Nat) (m : Memory) : OnlySession s (Machine.latchWrite m c s) c :=
  updSession s m c fun _ => ⟨rfl, rfl, rfl, rfl, rfl, rfl⟩

end OnlySession

section Frame

variable {a : Active} {c : Nat} {s t : State}

theorem respond_onlySession {pdu : Message} (h : respond pdu c s = .next t) : OnlySession s t c := by
  obtain ⟨_, _, _, _, _, _, rfl⟩ := respond_inv h
  exact .answered ..

theorem raiseException_onlySession {code : Byte} (h : raiseException code c s = .next t) : OnlySession s t c := by
  obtain ⟨_, _, _, _, _, _, _, _, rfl⟩ := raiseException_inv h
  exact .answered ..

theorem ignoreRequest_onlySession (h : ignoreRequest c s = .next t) : OnlySession s t c :=
  .of_next h (.updSession s s.mem c fun _ => ⟨rfl, rfl, rfl, rfl, rfl, rfl⟩)

/-- The step in VALIDATE records the verdict and fills the operand latches (R22, R69). -/
theorem validateStep_onlySession {i : Instr} (h : validateStep i c s = .next t) : OnlySession s t c := by
  unfold validateStep at h
  simp only [] at h
  have judged := OnlySession.recordVerdict s c (verdictOf s.cfg i)
  have ready := judged.trans (.updSession _ s.mem c (Session.sameHeader_fillOperands i))
  split_ifs at h
  · exact judged.trans (ignoreRequest_onlySession h)
  · exact .of_next h ready
  · exact ready.trans (raiseException_onlySession h)
  · exact judged.trans (raiseException_onlySession h)

/-- A StoreGet and what follows it. -/
theorem readThen_onlySession {tab : TableKind} {addr cnt : Nat}
    {k : List Value → State → Host.Outcome State Fault Refusal} (h : readThen tab addr cnt k a s = .next t)
    (hk : ∀ {vs v w}, k vs v = .next w → OnlySession v w a.conn) : OnlySession s t a.conn := by
  rcases readThen_inv h with hr | ⟨vs, -, hn⟩
  · exact raiseException_onlySession hr
  · exact (OnlySession.latchRead ..).trans (hk hn)

/-- A StoreSet and what follows it. -/
theorem writeThen_onlySession {tab : TableKind} {addr : Nat} {vals : List Value}
    {k : State → Host.Outcome State Fault Refusal} (h : writeThen tab addr vals k a s = .next t)
    (hk : ∀ {v w}, k v = .next w → OnlySession v w a.conn) : OnlySession s t a.conn := by
  rcases writeThen_inv h with hr | ⟨m, -, hn⟩
  · exact raiseException_onlySession hr
  · exact (OnlySession.latchWrite ..).trans (hk hn)

/-- The store calls of any instruction; 0x16 and 0x17 make the one that is due (R42, R90, R91). -/
theorem bodyOf_onlySession {i : Instr} (h : bodyOf i a s = .next t) : OnlySession s t a.conn := by
  cases i <;> simp only [bodyOf] at h
  case rdco | rddi | rdhr | rdir => exact readThen_onlySession h respond_onlySession
  case wsco | wsdi | wshr | wsir | wmco | wmdi | wmhr | wmir => exact writeThen_onlySession h respond_onlySession
  case mwhr =>
    split_ifs at h
    · exact readThen_onlySession h fun hn => .of_next hn (.refl ..)
    · unfold maskWrite at h
      split at h
      · exact writeThen_onlySession h respond_onlySession
      · simp at h
  case rwhr =>
    split_ifs at h
    · exact writeThen_onlySession h fun hn => .of_next hn (.refl ..)
    · exact readThen_onlySession h respond_onlySession
  case illfc => exact raiseException_onlySession h
  all_goals exact ignoreRequest_onlySession h

end Frame

/-- Settles O39: the step in VALIDATE, the store calls in DISPATCH and the refusal of a code that is not permitted each
keep to the session that is served. -/
theorem frameOfTheRest : Obligations.FrameOfTheRest := by
  unfold Obligations.FrameOfTheRest
  intro s t i h
  rw [exec_eq_serve] at h
  obtain ⟨x, hx, hserve⟩ := serve_inv h
  refine ⟨x, hx, ?_⟩
  rcases hserve with ⟨-, hv⟩ | ⟨-, -, hb⟩ | ⟨-, -, hr⟩
  · exact validateStep_onlySession hv
  · exact bodyOf_onlySession hb
  · exact raiseException_onlySession hr

end Sys2Proof.Machine
end

section
/-! What a reset leaves (spec/70_reset_and_hazards.md R145, R146): O9 and O10; and the hang of R150, which every move
leaves but those that end the wait: O59. -/

namespace Sys2Proof.Machine

/-! ### Reset (R145, R146) -/

/-- Settles O9: a reset lists no cell, makes one client and no connection; a restart is that reset with its draw. -/
theorem resetLeavesSpecState : Obligations.ResetLeavesSpecState := by
  unfold Obligations.ResetLeavesSpecState
  refine ⟨fun s => ⟨_, rfl, rfl⟩, fun g => ⟨fun t a => ?cell, rfl, rfl, rfl, fun cl hcl => ?client, rfl, rfl, rfl, rfl,
    rfl, rfl, rfl⟩⟩
  case cell => cases t <;> rfl
  case client =>
    obtain rfl := List.mem_singleton.1 hcl
    exact ⟨rfl, rfl, rfl, rfl⟩

/-- Settles O10: the reset state of a legal configuration meets the invariant, and `Cfg.a` is legal. -/
theorem resetMeetsInvariant : Obligations.ResetMeetsInvariant := by
  unfold Obligations.ResetMeetsInvariant
  exact ⟨fun _ => inv_resetWith, inv_resetWith (by decide)⟩

/-! ### What a move leaves of a wait -/

theorem extSet_clients (tab : TableKind) (a : Nat) (vals : List Value) (fail : Bool) (s : State) :
    (extSet tab a vals fail s).clients = s.clients := by
  unfold extSet
  split <;> rfl

/-- From `s` to `t` client `k` has stayed in its state and on its connection, and connection `c` is as it was. -/
structure LeavesWait (k c : Nat) (s t : State) : Prop where
  client : ∀ {cl : Client}, s.clients[k]? = some cl →
    ∃ cl', t.clients[k]? = some cl' ∧ cl'.cst = cl.cst ∧ cl'.conn = cl.conn
  conn : ∀ {conn : Connection}, s.conns[c]? = some conn → t.conns[c]? = some conn

namespace LeavesWait

variable {k c : Nat} {s t u : State}

theorem of_eq (hclients : t.clients = s.clients) (hconns : t.conns = s.conns) : LeavesWait k c s t :=
  ⟨fun hk => ⟨_, hclients ▸ hk, rfl, rfl⟩, fun hc => hconns ▸ hc⟩

theorem of_next (h : Host.Outcome.next (φ := Fault) (ρ := Refusal) u = .next t) (hu : LeavesWait k c s u) :
    LeavesWait k c s t :=
  Host.Outcome.next.inj h ▸ hu

theorem trans (h : LeavesWait k c s t) (h' : LeavesWait k c t u) : LeavesWait k c s u := by
  refine ⟨fun hk => ?_, fun hc => h'.conn (h.conn hc)⟩
  obtain ⟨_, hk', hst, hcn⟩ := h.client hk
  obtain ⟨cl, hcl, hst', hcn'⟩ := h'.client hk'
  exact ⟨cl, hcl, hst'.trans hst, hcn'.trans hcn⟩

/-- A hang that is left is one still. -/
theorem hung (h : LeavesWait k c s t) (hs : s.hung k c) : t.hung k c := by
  obtain ⟨cl, conn, ses, hk, hst, hcl, hcn, hserved⟩ := hs
  obtain ⟨cl', hk', hst', hcl'⟩ := h.client hk
  exact ⟨cl', conn, ses, hk', hst'.trans hst, hcl'.trans hcl, h.conn hcn, hserved⟩

/-- A change of one client, which spares the state and the connection of client `k`. -/
theorem updClient {j : Nat} {f : Client → Client} (hf : j = k → ∀ x, (f x).cst = x.cst ∧ (f x).conn = x.conn) :
    LeavesWait k c s (s.updClient j f) := by
  refine ⟨fun {cl} hk => ?_, id⟩
  by_cases hj : j = k
  · subst hj
    exact ⟨f cl, State.updClient_get s j f hk, hf rfl cl⟩
  · exact ⟨cl, (State.updClient_get_ne s f (Ne.symm hj)).trans hk, rfl, rfl⟩

/-- A change of one connection, which spares connection `c`. -/
theorem updConn {d : Nat} {f : Connection → Connection}
    (hf : d = c → ∀ conn, s.conns[c]? = some conn → f conn = conn) : LeavesWait k c s (s.updConn d f) := by
  refine ⟨fun hk => ⟨_, hk, rfl, rfl⟩, fun {conn} hc => ?_⟩
  rw [State.updConn_get]
  split
  · next hd => rw [hc, Option.map_some, hf hd conn hc]
  · exact hc

theorem addConn (conn : Connection) : LeavesWait k c s (s.addConn conn) := by
  refine ⟨fun hk => ⟨_, hk, rfl, rfl⟩, fun hc => ?_⟩
  obtain ⟨hlt, -⟩ := List.getElem?_eq_some_iff.1 hc
  exact (List.getElem?_append_left hlt).trans hc

/-- A call that returns, of whichever client. -/
theorem deliver (w : Caller) (j : Nat) (r : Return) (s : State) : LeavesWait k c s (Machine.deliver w j r s) := by
  cases w with
  | user => exact updClient fun _ _ => ⟨rfl, rfl⟩
  | host => exact of_eq rfl rfl

theorem clientFails {j : Nat} (hj : j ≠ k) (w : Caller) : LeavesWait k c s (Machine.clientFails j w s) :=
  (updClient (absurd · hj)).trans (deliver ..)

theorem attempt {j : Nat} (hj : j ≠ k) (w : Caller) (att : Attempt) :
    LeavesWait k c s (Machine.attempt j w att s) := by
  by_cases ha : reachesServer att s
  · rw [attempt_of_reachesServer ha]
    exact ((addConn _).trans (updClient (absurd · hj))).trans (deliver ..)
  · rw [attempt_of_reachesNone ((not_reachesServer_iff ..).1 ha)]
    exact updClient (absurd · hj)

theorem pollStep {j : Nat} (hj : j ≠ k) (cl : Client) (att : Attempt) :
    LeavesWait k c s (Machine.pollStep j cl att s) := by
  unfold Machine.pollStep
  simp only []
  split
  · exact (updClient (absurd · hj)).trans (attempt hj ..)
  · exact (updClient (absurd · hj)).trans (deliver ..)

theorem releaseCaller (j : Nat) (x : Client) (s : State) : LeavesWait k c s (Machine.releaseCaller j x s) := by
  unfold Machine.releaseCaller
  cases x.cst
  case await | connecting => exact deliver ..
  all_goals exact of_eq rfl rfl

theorem newClient (s : State) : LeavesWait k c s (Machine.newClient s) := by
  refine ⟨fun {cl} hk => ?_, id⟩
  obtain ⟨_, hk', hfollows⟩ := (clientsFollow_newClient s).client k cl hk
  obtain rfl := hfollows.elsewhere rfl
  exact ⟨_, hk', rfl, rfl⟩

theorem timePasses (s : State) : LeavesWait k c s (Machine.timePasses s) := by
  refine ⟨fun {cl} hk => ⟨if cl.cst = .connecting then { cl with wait := cl.wait - 1 } else cl, ?_, ?_⟩, id⟩
  · simp [Machine.timePasses, hk]
  · split <;> exact ⟨rfl, rfl⟩

end LeavesWait

/-! ### A client that hangs (R150) -/

/-- The connection that a sound client holds before it has FAILED is its own (R15, R108). -/
theorem Client.owner_of_conn {s : State} {k c : Nat} {cl : Client} {conn : Connection} (h : cl.sound s k = true)
    (hst : cl.cst ≠ .failed) (hc : cl.conn = some c) (hcn : s.conns[c]? = some conn) : conn.owner = .client k := by
  obtain ⟨-, hok, -, -⟩ := Client.sound_iff.1 h
  cases hcst : cl.cst
  case failed => exact absurd hcst hst
  case idle | connecting => simp [Client.connOk, hcst, hc] at hok
  case ready | await =>
    obtain ⟨c', conn', hc', hcn', hown⟩ := Client.connOk_inv hok (by simp [hcst])
    obtain rfl := Option.some.inj (hc.symm.trans hc')
    rwa [Option.some.inj (hcn.symm.trans hcn')]

/-- Client `k`, which is `cl`, hangs on its own connection `c`, which is `conn` and served by `ses`; of the other
clients only one that has FAILED can still name that connection. -/
structure Hang (s : State) (k c : Nat) (cl : Client) (conn : Connection) (ses : Session) : Prop where
  client : s.clients[k]? = some cl
  await : cl.cst = .await
  pend : ∃ p, cl.pend = some p
  holds : cl.conn = some c
  connection : s.conns[c]? = some conn
  owner : conn.owner = .client k
  toClient : conn.toClient = []
  toServer : conn.toServer = []
  served : conn.session? = some ses
  recv : ses.sst = .recv
  alone : ∀ {j d : Nat} {x : Client}, j ≠ k → s.clients[j]? = some x → x.cst ≠ .failed → x.conn = some d → d ≠ c

/-- What the invariant adds to a hang: the pending record (R25) and who holds the connection (R15, R108). -/
theorem State.hung.exists_hang {s : State} {k c : Nat} (hs : s.hung k c) (h : s.Inv) :
    ∃ cl conn ses, Hang s k c cl conn ses := by
  obtain ⟨cl, conn, ses, hk, hst, hcl, hcn, hdown, hup, hses, hrecv⟩ := hs
  have hsound := h.clients k cl hk
  obtain ⟨hpend, -, -, -⟩ := Client.sound_iff.1 hsound
  have hown := Client.owner_of_conn hsound (by simp [hst]) hcl hcn
  refine ⟨cl, conn, ses, hk, hst, Option.isSome_iff_exists.1 (hpend.2 hst), hcl, hcn, hown, hdown, hup, hses, hrecv,
    fun {j d x} hj hx hf hxd hd => hj ?_⟩
  subst hd
  simpa [hown, eq_comm] using Client.owner_of_conn (h.clients j x hx) hf hxd hcn

/-- A client that awaits an answer has a call outstanding (R158). -/
theorem not_finished_of_hung {s : State} {k c : Nat} (h : s.hung k c) : s.finished = false := by
  obtain ⟨cl, -, -, hk, hst, -⟩ := h
  refine Bool.eq_false_iff.2 fun hf => ?_
  simp only [State.finished, Bool.and_eq_true, List.all_eq_true, decide_eq_true_eq] at hf
  obtain ⟨⟨⟨hclients, -⟩, -⟩, -⟩ := hf
  simpa [hst] using hclients cl (List.mem_of_getElem? hk)

namespace Hang

variable {s t : State} {k c : Nat} {cl : Client} {conn : Connection} {ses : Session}

section

variable (h : Hang s k c cl conn ses)

include h

/-- A change of the host does not show. -/
theorem updHost (f : HostLoop → HostLoop) : Hang (s.updHost f) k c cl conn ses :=
  { h with }

/-- A client that is not in AWAIT is another one. -/
theorem ne_of_not_await {j : Nat} {x : Client} (hx : s.clients[j]? = some x) (hst : x.cst ≠ .await) : j ≠ k := by
  rintro rfl
  obtain rfl := Option.some.inj (h.client.symm.trans hx)
  exact hst h.await

/-- A change of one connection that leaves `conn` as it is. -/
theorem leavesWait_updConn {d : Nat} {f : Connection → Connection} (hf : f conn = conn) :
    LeavesWait k c s (s.updConn d f) :=
  .updConn fun _ _ hcn => by rwa [← Option.some.inj (h.connection.symm.trans hcn)]

/-! #### Servers and peers -/

/-- The session of the hang finds nothing to receive (R65), and another session keeps to its own connection (R142). -/
theorem leavesWait_sessionStep {d : Nat} {err fail : Bool} (hm : s.choice = .session d err fail)
    (hw : endsWait k c s.choice = false) (ht : sessionStep d err s = .next t) : LeavesWait k c s t := by
  by_cases hd : d = c
  · subst hd
    obtain rfl : err = false := by simpa [hm, endsWait] using hw
    rw [sessionStep_recv h.connection h.served h.recv] at ht
    exact .of_next ht (.of_eq (by simp [receiveStep, h.toServer]) (by simp [receiveStep, h.toServer]))
  · obtain ⟨_, _, he, -⟩ := sessionStep_effect hm ht
    exact ⟨fun hk => ⟨_, he.clients ▸ hk, rfl, rfl⟩, fun hcn => (he.conns_ne (Ne.symm hd)).trans hcn⟩

/-- The server end of a connection that has a session. -/
theorem server : conn.server = .session ses := by
  have hs := h.served
  unfold Connection.session? at hs
  split at hs
  · next e => rw [e, Option.some.inj hs]
  · simp at hs

/-- The Listener accepts a connection that waits, and this one is served (R63). -/
theorem leavesWait_acceptStep (d : Nat) : LeavesWait k c s (acceptStep d s) := by
  unfold acceptStep
  split
  · exact h.leavesWait_updConn (by simp [h.server])
  · exact .of_eq rfl rfl

/-! #### Clients -/

/-- In AWAIT `connect()` returns false (R107); from another client it makes another connection. -/
theorem leavesWait_clientConnect (j : Nat) (w : Caller) (att : Attempt) :
    LeavesWait k c s (clientConnect j w att s) := by
  cases hx : s.clients[j]? with
  | none => exact .of_eq (by simp [clientConnect, hx]) (by simp [clientConnect, hx])
  | some x =>
    by_cases hst : x.cst = .idle
    · have hj : j ≠ k := h.ne_of_not_await hx (by simp [hst])
      rw [clientConnect_of_idle hx hst]
      exact (LeavesWait.updClient (absurd · hj)).trans (.attempt hj ..)
    · rw [clientConnect_of_ne_idle hx hst]
      exact .deliver ..

/-- In AWAIT no send is made (R110), and another client's goes to another connection. -/
theorem leavesWait_clientSend {j : Nat} {w : Caller} {r : Request} {err : Bool}
    (ht : clientSend j w r err s = .next t) : LeavesWait k c s t := by
  rcases clientSend_inv ht with ⟨rfl, -⟩ | rfl | ⟨x, d, _, hx, hst, hxd, -, -, -, hsent⟩
  · exact .of_eq rfl rfl
  · exact .deliver ..
  · have hj : j ≠ k := h.ne_of_not_await hx (by simp [hst])
    have hd : d ≠ c := h.alone hj hx (by simp [hst]) hxd
    rcases hsent with ⟨-, rfl⟩ | ⟨-, rfl⟩
    · exact .clientFails hj w
    · exact (LeavesWait.updConn (absurd · hd)).trans (.updClient (absurd · hj))

/-- The receipt of another client, on another connection (R113 to R117). -/
theorem leavesWait_awaitStep {j : Nat} {x : Client} {err : Bool} (hj : j ≠ k) (hx : s.clients[j]? = some x)
    (hst : x.cst = .await) (ht : awaitStep j x err s = .next t) : LeavesWait k c s t := by
  obtain ⟨p, d, _, -, hxd, -, hcase⟩ := awaitStep_inv ht
  have hd : d ≠ c := h.alone hj hx (by simp [hst]) hxd
  have popped : LeavesWait k c s (s.popToClient d) := .updConn (absurd · hd)
  rcases hcase with ⟨-, rfl⟩ | ⟨-, -, rfl⟩ | ⟨-, _, -, rfl⟩ | ⟨-, m, _, -, -, rfl⟩
  · exact .clientFails hj _
  · exact .of_eq rfl rfl
  · exact popped.trans (.clientFails hj _)
  · exact popped.trans (.trans (.updClient (absurd · hj)) (.deliver ..))

/-- The client that hangs finds nothing to take (R113), and the step of another is at another connection. -/
theorem leavesWait_clientStep {j : Nat} {err : Bool} {att : Attempt} (hw : endsWait k c (.client j err att) = false)
    (ht : clientStep j err att s = .next t) : LeavesWait k c s t := by
  by_cases hj : j = k
  · subst hj
    obtain rfl : err = false := by simpa [endsWait] using hw
    obtain ⟨p, hp⟩ := h.pend
    simp only [clientStep, h.client, h.await, awaitStep_blocked hp h.holds h.connection h.toClient] at ht
    exact .of_next ht (.of_eq rfl rfl)
  · unfold clientStep at ht
    cases hx : s.clients[j]? with
    | none =>
      simp only [hx] at ht
      exact .of_next ht (.of_eq rfl rfl)
    | some x =>
      cases hst : x.cst <;> simp only [hx, hst] at ht
      case connecting =>
        split at ht
        · exact .of_next ht (.pollStep hj x att)
        · exact .of_next ht (.of_eq rfl rfl)
      case await => exact h.leavesWait_awaitStep hj hx hst ht
      all_goals exact .of_next ht (.of_eq rfl rfl)

/-- Another client closes another connection (R118). -/
theorem leavesWait_clientClose {j : Nat} (hj : j ≠ k) : LeavesWait k c s (clientClose j s) := by
  cases hx : s.clients[j]? with
  | none => exact .of_eq (by simp [clientClose, hx]) (by simp [clientClose, hx])
  | some x =>
    by_cases hst : x.cst = .failed
    · exact .of_eq (by simp [clientClose, hx, hst]) (by simp [clientClose, hx, hst])
    · rw [clientClose_of_ne_failed hx hst]
      have closed : LeavesWait k c s (closeEndOf x s) := by
        unfold closeEndOf
        split
        · next d hxd => exact .updConn (absurd · (h.alone hj hx hst hxd))
        · exact .of_eq rfl rfl
      exact (closed.trans (.updClient (absurd · hj))).trans (.releaseCaller ..)

/-- The host's step is one of its own or a call on its client (R120). -/
theorem leavesWait_hostStep {err : Bool} {att : Attempt} (ht : hostStep err att s = .next t) :
    LeavesWait k c s t := by
  obtain ⟨f, rfl | rfl | ⟨r, hr⟩⟩ := hostStep_inv ht
  · exact .of_eq rfl rfl
  · exact .trans (t := s.updHost f) (.of_eq rfl rfl) ((h.updHost f).leavesWait_clientConnect ..)
  · exact .trans (t := s.updHost f) (.of_eq rfl rfl) ((h.updHost f).leavesWait_clientSend hr)

/-! #### Every move -/

/-- Any move but those that end the wait leaves it (R150). -/
theorem leavesWait_act (hw : endsWait k c s.choice = false) (ht : act s.choice s = .next t) : LeavesWait k c s t := by
  cases hm : s.choice <;> simp only [hm, act] at ht
  case session => exact h.leavesWait_sessionStep hm hw ht
  case client => exact h.leavesWait_clientStep (hm ▸ hw) ht
  case userSend => exact h.leavesWait_clientSend ht
  case host => exact h.leavesWait_hostStep ht
  case restart => simp [hm, endsWait] at hw
  all_goals refine .of_next ht ?_
  case accept d => exact h.leavesWait_acceptStep d
  case peerOpen => exact .addConn _
  case peerSend | peerClose => exact h.leavesWait_updConn (by simp [Connection.peerHolds, h.owner])
  case peerRecv => exact h.leavesWait_updConn (by simp [h.owner])
  case foreignSend | foreignRecv | foreignClose => exact h.leavesWait_updConn (by simp [h.server])
  case userConnect => exact h.leavesWait_clientConnect ..
  case userClose j => exact h.leavesWait_clientClose (by simpa [hm, endsWait] using hw)
  case newClient => exact .newClient s
  case stopTicks => exact .of_eq rfl rfl
  case time => exact .timePasses s
  case extGet => exact .of_eq (by simp) (by simp)
  case extSet => exact .of_eq (extSet_clients ..) (extSet_conns ..)

end

end Hang

/-- Settles O59: no move but those that end the wait touches the client's state or its connection. -/
theorem hangPersists : Obligations.HangPersists := by
  unfold Obligations.HangPersists
  refine ⟨fun _ _ _ => not_finished_of_hung, fun s t k c hinv hs hw h => ?_⟩
  obtain ⟨u, hu, rfl⟩ := step_inv h
  obtain ⟨_, _, _, hang⟩ := hs.exists_hang hinv
  exact (hang.leavesWait_act hw hu).hung hs

end Sys2Proof.Machine
end
